-- ==== Sys2Proof/Word.lean ====
section
/-!
DEFINITION. The word types of the block: register and event words (R100), bytes, DMA addresses
(R71), physical endpoint numbers (R25) and ring slots (R280).
-/

namespace Sys2Proof

/-- One byte of DMA memory (R74). -/
abbrev Byte := BitVec 8

/-- A register, an event word, a command word, a parameter word or one word of a descriptor (R100). -/
abbrev Word := BitVec 32

/-- A 64-bit DMA address as a descriptor holds it, split low and high (R71, R130). -/
abbrev Quad := BitVec 64

/-- A physical endpoint number, `0..31` (R14, R25). -/
abbrev EpNum := Fin 32

/-- A usable ring slot, `0..254`; slot 255 is the link slot and no index takes it (R35, R280). -/
abbrev Slot := Fin 255

end Sys2Proof
end

