-- ==== Sys2Proof/Config.lean ====
section
/-!
DEFINITION. What an implementation fixes (R9), the configuration part `C.cfg` of the controller
record (R21), the register map (R44), and the free values: constants without a body, so that no
proof can rest on what they are.
-/

namespace Sys2Proof

/-- The capability set, resolved at configuration time (R402). -/
inductive DrCaps where
  | hostOnly
  | deviceOnly
  | dualRole
deriving DecidableEq, Repr, Inhabited

/-- The connection speeds of `C.dev.speed` and of `MAX_SPEED` (R51, R57). -/
inductive Speed where
  | ss
  | hs
  | fs
  | ls
deriving DecidableEq, Repr, Inhabited

/-- The upstream's answer to a setup notification, a draw of the environment (R336). -/
inductive SetupReply where
  | accept
  | delay
  | stall
deriving DecidableEq, Repr, Inhabited

/-- `C.cfg.hw`, the hardware parameter snapshot (R58). The rules read `numEps` only. -/
structure HwParams where
  numEps : Nat
  numInEps : Nat
  scratchBufs : Nat
  fifoDepths : Nat × Nat
deriving DecidableEq, Repr

/-! ## The register map (R44) -/

/-- Every register of `REGMAP` (R44). The per-endpoint block is indexed by the physical number. -/
inductive Reg where
  | gsbuscfg0
  | gsbuscfg1
  | gctl
  | gsts
  | gsnpsid
  | ghwparams (i : Fin 8)
  | gevntadrlo
  | gevntadrhi
  | gevntsiz
  | gevntcount
  | dcfg
  | dctl
  | devten
  | dsts
  | dgcmdpar
  | dgcmd
  | dalepena
  | depcmdpar2 (n : EpNum)
  | depcmdpar1 (n : EpNum)
  | depcmdpar0 (n : EpNum)
  | depcmd (n : EpNum)
  | ocfg
  | octl
  | oevt
  | oevten
  | osts
deriving DecidableEq, Repr

/-- `REGMAP` (R9, R44): the place of every register from `REGBASE`, counted in 32-bit words, since every offset is
a multiple of 4 (R80); `ghwparams` is that of `GHWPARAMS0`, and the endpoint block is four places for endpoint 0
and a fixed stride. -/
structure RegMap where
  gsbuscfg0 : Nat
  gsbuscfg1 : Nat
  gctl : Nat
  gsts : Nat
  gsnpsid : Nat
  ghwparams : Nat
  gevntadrlo : Nat
  gevntadrhi : Nat
  gevntsiz : Nat
  gevntcount : Nat
  dcfg : Nat
  dctl : Nat
  devten : Nat
  dsts : Nat
  dgcmdpar : Nat
  dgcmd : Nat
  dalepena : Nat
  depcmdpar2 : Nat
  depcmdpar1 : Nat
  depcmdpar0 : Nat
  depcmd : Nat
  epStride : Nat
  ocfg : Nat
  octl : Nat
  oevt : Nat
  oevten : Nat
  osts : Nat
deriving DecidableEq, Repr

/-- A register's place in the space of 32-bit words from `REGBASE` (R44). -/
def RegMap.word (m : RegMap) : Reg → Nat
  | .gsbuscfg0 => m.gsbuscfg0
  | .gsbuscfg1 => m.gsbuscfg1
  | .gctl => m.gctl
  | .gsts => m.gsts
  | .gsnpsid => m.gsnpsid
  | .ghwparams i => m.ghwparams + i.val
  | .gevntadrlo => m.gevntadrlo
  | .gevntadrhi => m.gevntadrhi
  | .gevntsiz => m.gevntsiz
  | .gevntcount => m.gevntcount
  | .dcfg => m.dcfg
  | .dctl => m.dctl
  | .devten => m.devten
  | .dsts => m.dsts
  | .dgcmdpar => m.dgcmdpar
  | .dgcmd => m.dgcmd
  | .dalepena => m.dalepena
  | .depcmdpar2 n => m.depcmdpar2 + m.epStride * n.val
  | .depcmdpar1 n => m.depcmdpar1 + m.epStride * n.val
  | .depcmdpar0 n => m.depcmdpar0 + m.epStride * n.val
  | .depcmd n => m.depcmd + m.epStride * n.val
  | .ocfg => m.ocfg
  | .octl => m.octl
  | .oevt => m.oevt
  | .oevten => m.oevten
  | .osts => m.osts

/-- A register's byte offset from `REGBASE` (R44), a multiple of 4 in every `REGMAP` (R80). -/
def RegMap.offset (m : RegMap) (r : Reg) : Nat := 4 * m.word r

/-- The default `REGMAP`: the byte offsets of R44's table, as words (log entry 1). -/
def RegMap.standard : RegMap where
  gsbuscfg0 := 0xC100 / 4
  gsbuscfg1 := 0xC104 / 4
  gctl := 0xC110 / 4
  gsts := 0xC118 / 4
  gsnpsid := 0xC120 / 4
  ghwparams := 0xC140 / 4
  gevntadrlo := 0xC400 / 4
  gevntadrhi := 0xC404 / 4
  gevntsiz := 0xC408 / 4
  gevntcount := 0xC40C / 4
  dcfg := 0xC700 / 4
  dctl := 0xC704 / 4
  devten := 0xC708 / 4
  dsts := 0xC70C / 4
  dgcmdpar := 0xC710 / 4
  dgcmd := 0xC714 / 4
  dalepena := 0xC720 / 4
  depcmdpar2 := 0xC800 / 4
  depcmdpar1 := 0xC804 / 4
  depcmdpar0 := 0xC808 / 4
  depcmd := 0xC80C / 4
  epStride := 16 / 4
  ocfg := 0xCC00 / 4
  octl := 0xCC04 / 4
  oevt := 0xCC08 / 4
  oevten := 0xCC0C / 4
  osts := 0xCC10 / 4

/-- `C.cfg`, the immutable part of the controller record (R20, R21), with the parameters of R9 that a step
reads (`REGMAP`, `LINK_WAIT_LIMIT`, `DMA_ADDR_BITS`). The spec gives `REGBASE` and the opaque `IMOD_CFG` no
width; 64 and 32 bits are the model's choice, and so are numbers as the elements of `QUIRKS`, which no rule reads
(R163; log entry 1, DESIGN CHOICE). -/
structure Cfg where
  regBase : Quad
  regMap : RegMap
  revision : Word
  hw : HwParams
  drCaps : DrCaps
  maxSpeed : Speed
  quirks : List Nat
  evbufAddr : Quad
  ringBase : Vector Quad 32
  setupBufAddr : Quad
  bounceBufAddr : Quad
  padBufAddr : Quad
  imodCfg : Word
  linkWaitLimit : Nat
  dmaAddrBits : Nat
deriving DecidableEq, Repr

namespace Config

/-! ## Parameters the source or the spec fixes (R9) -/

/-- `EVBUF_LEN`, in bytes (R23). -/
def evbufLen : Nat := 4096
/-- `EVBUF_WORDS`. -/
def evbufWords : Nat := 1024
/-- `RING_SIZE`, descriptors per ring (R34). -/
def ringSize : Nat := 256
/-- `LINK_SLOT` (R36). -/
def linkSlot : Nat := 255
/-- `RING_CAP`, descriptors that may be outstanding (R282). -/
def ringCap : Nat := 254
/-- `DESC_BYTES` (R76). -/
def descBytes : Nat := 16
/-- `CMD_POLL_LIMIT` (R242). -/
def cmdPollLimit : Nat := 1000
/-- `CMD_ATTEMPTS` (R246). -/
def cmdAttempts : Nat := 3
/-- `SETUP_LEN` (R155). -/
def setupLen : Nat := 8
/-- `BOUNCE_SIZE` (R78, R341). -/
def bounceSize : Nat := 512
/-- `PAD_SIZE` (R78). -/
def padSize : Nat := 1024
/-- The longest segment, the width of `BUFSIZ` (R134, R286). -/
def maxSegLen : Nat := 2 ^ 24 - 1
/-- `DEVTEN_MASK` (R50, R498). -/
def devtenMask : Word := 0x00000E1F#32

/-! ## Free values: what a rule leaves to a draw, and nothing here fixes

Each is applied to the model's own counter `State.env.draws`, which every use advances, so two
uses are unrelated (log entries 6, 7, 8, 9). -/

/-- The silicon's write offset after an overflow, as a word index: "draw (0, 4, 8, ..., 4092)" (R205). -/
opaque freeOverflowWord : Nat → BitVec 10

/-- The upstream's reply to a setup packet where the run schedules none (R336). -/
opaque freeReply : Nat → SetupReply

/-- `HC.start`'s answer where the run schedules none: true is `OK` (R403). -/
opaque freeHostAnswer : Nat → Bool

/-- The resource index a command carries when its endpoint holds none, which no rule reaches
(R256, R257 require one). -/
opaque freeRsc : Nat → BitVec 7

/-- The physical endpoint numbers in order, `0..31`. -/
def allEps : List EpNum :=
  [0, 1, 2, 3, 4, 5, 6, 7, 8, 9, 10, 11, 12, 13, 14, 15,
   16, 17, 18, 19, 20, 21, 22, 23, 24, 25, 26, 27, 28, 29, 30, 31]

/-- The endpoint numbers above EP0 in order, `2..31`. -/
def upperEps : List EpNum := allEps.drop 2

/-- Every register of the map, once. -/
def allRegs : List Reg :=
  [.gsbuscfg0, .gsbuscfg1, .gctl, .gsts, .gsnpsid, .ghwparams 0, .ghwparams 1, .ghwparams 2,
   .ghwparams 3, .ghwparams 4, .ghwparams 5, .ghwparams 6, .ghwparams 7, .gevntadrlo, .gevntadrhi,
   .gevntsiz, .gevntcount, .dcfg, .dctl, .devten, .dsts, .dgcmdpar, .dgcmd, .dalepena,
   .ocfg, .octl, .oevt, .oevten, .osts]
  ++ allEps.flatMap fun n => [.depcmdpar2 n, .depcmdpar1 n, .depcmdpar0 n, .depcmd n]

/-- The default ring addresses: `0x80000000 + 0x1000 * n`, the standard configuration of
95_test_vectors.md section 0 (log entry 1). -/
def defaultRingBase : Vector Quad 32 :=
  #v[0x80000000, 0x80001000, 0x80002000, 0x80003000, 0x80004000, 0x80005000, 0x80006000, 0x80007000,
     0x80008000, 0x80009000, 0x8000A000, 0x8000B000, 0x8000C000, 0x8000D000, 0x8000E000, 0x8000F000,
     0x80010000, 0x80011000, 0x80012000, 0x80013000, 0x80014000, 0x80015000, 0x80016000, 0x80017000,
     0x80018000, 0x80019000, 0x8001A000, 0x8001B000, 0x8001C000, 0x8001D000, 0x8001E000, 0x8001F000]

/-- The default configuration: the standard configuration of 95_test_vectors.md section 0, with
`DR_CAPS = DUAL_ROLE` (log entry 1, DESIGN CHOICE). A value of an OPEN parameter is an argument of
the model; statements quantify over `State.cfg`. -/
def standard : Cfg where
  regBase := 0
  regMap := .standard
  revision := 0
  hw := { numEps := 16, numInEps := 0, scratchBufs := 0, fifoDepths := (0, 0) }
  drCaps := .dualRole
  maxSpeed := .ss
  quirks := []
  evbufAddr := 0x80040000
  ringBase := defaultRingBase
  setupBufAddr := 0x80050000
  bounceBufAddr := 0x80051000
  padBufAddr := 0x80052000
  imodCfg := 0
  linkWaitLimit := 2
  dmaAddrBits := 32

end Config
end Sys2Proof
end

