-- ==== Sys2Proof/Syntax.lean ====
section
/-!
DEFINITION. The encoded words of the block as syntax: the decoded event type of R110, and `Instr`,
one constructor per row of `spec/opcode_table.json`: 21 event words, 10 command words and 8
descriptor types. Reserved bits that a decoder ignores (R109) are kept as operands, so that the raw
word, which some notifications carry (R229, R230), is never lost.
-/

namespace Sys2Proof

/-- The fourteen link states (R150). -/
inductive LinkState where
  | u0
  | u1
  | u2
  | u3
  | ssDisabled
  | rxDetect
  | ssInactive
  | polling
  | recovery
  | hotReset
  | compliance
  | loopback
  | reset
  | resume
deriving DecidableEq, Repr

/-- The endpoint types (R27). -/
inductive EpType where
  | control
  | isoc
  | bulk
  | interrupt
deriving DecidableEq, Repr

/-- The endpoint event sub-types that are not reserved (R103). -/
inductive EpEvt where
  | xferComplete
  | xferInProgress
  | xferNotReady
  | rxTxFifo
  | stream
  | epCmdCmplt
deriving DecidableEq, Repr

/-- The device event sub-types that are not reserved (R107). -/
inductive DevEvt where
  | disconnect
  | reset
  | connectDone
  | linkChange
  | wakeup
  | sof
  | erraticError
  | cmdCmpl
  | overflow
deriving DecidableEq, Repr

/-- The command codes (R122). -/
inductive CmdTyp where
  | setEpConfig
  | setXferRsc
  | getEpState
  | setStall
  | clearStall
  | startTransfer
  | updateTransfer
  | endTransfer
  | depStartCfg
deriving DecidableEq, Repr

/-- The descriptor types (R132). -/
inductive TrbTyp where
  | normal
  | controlSetup
  | controlStatus2
  | controlStatus3
  | controlData
  | isocFirst
  | isoc
  | link
deriving DecidableEq, Repr

/-- The `ACTION` of `SETEPCONFIG`: `INIT` or `MODIFY` (R126, R250). -/
inductive CfgAction where
  | init
  | modify
deriving DecidableEq, Repr

/-- The decoded event type (R110): four layouts and the reserved rest. -/
inductive Event where
  | ep (epnum : BitVec 5) (evt : BitVec 4) (status : BitVec 4) (param : BitVec 16)
  | dev (typ : BitVec 4) (info : BitVec 9)
  | auxA (port : BitVec 4)
  | auxB (port : BitVec 4)
  | unknown (raw : Word)
deriving DecidableEq, Repr

/-- Operands of an endpoint event word (R102); `rsv` is bits `[11:10]`. -/
structure EpFields where
  ep : BitVec 5
  rsv : BitVec 2
  status : BitVec 4
  param : BitVec 16
deriving DecidableEq, Repr

/-- Operands of an endpoint event word whose endpoint number its row fixes (ep 0 or ep 1). -/
structure Ep0Fields where
  rsv : BitVec 2
  status : BitVec 4
  param : BitVec 16
deriving DecidableEq, Repr

/-- Operands of a device event word (R106); `rsvLo` is bits `[15:12]`, `rsvHi` bits `[31:25]`. -/
structure DevFields where
  rsvLo : BitVec 4
  info : BitVec 9
  rsvHi : BitVec 7
deriving DecidableEq, Repr

/-- Operands of an auxiliary event word (R108); `rsv` is bits `[31:12]`. -/
structure AuxFields where
  port : BitVec 4
  rsv : BitVec 20
deriving DecidableEq, Repr

/-- The bits of a descriptor's `CTRL` word other than `TRBCTL` (R130). The core writes 0 into `csp`,
`rsvLo` `[13:12]`, `sid` `[29:14]` and `rsvHi` `[31:30]` (R134, R162). -/
structure CtrlBits where
  hwo : Bool
  lst : Bool
  chn : Bool
  csp : Bool
  isp : Bool
  ioc : Bool
  rsvLo : BitVec 2
  sid : BitVec 16
  rsvHi : BitVec 2
deriving DecidableEq, Repr

/-- Operands of a descriptor (R130, R160): the ring's endpoint, the `CTRL` bits, the words `BPL`, `BPH` and
`SIZE`, and the number of the request it is posted for, `USER(req)` of R33 (log entry 10). -/
structure TrbFields where
  ep : BitVec 5
  ctrl : CtrlBits
  bpl : Word
  bph : Word
  size : Word
  req : Word
deriving DecidableEq, Repr

/-- One constructor per row of `spec/opcode_table.json`. -/
inductive Instr where
  -- endpoint events (R102, R103)
  | evtEpXfercomplete (f : EpFields)
  | evtEpXferinprogress (f : EpFields)
  | evtEpXfernotready (f : EpFields)
  | evtEpRxtxfifo (f : EpFields)
  | evtEpStream (f : EpFields)
  | evtEpEpcmdcmplt (f : EpFields)
  -- endpoint events whose row fixes EPNUM (R334, R351)
  | evtEpXfercompleteEp0 (f : Ep0Fields)
  | evtEpXfernotreadyEp0 (f : Ep0Fields)
  | evtEpXfercompleteEp1 (f : Ep0Fields)
  | evtEpXfernotreadyEp1 (f : Ep0Fields)
  -- device events (R106, R107)
  | evtDevDisconnect (f : DevFields)
  | evtDevReset (f : DevFields)
  | evtDevConnectDone (f : DevFields)
  | evtDevLinkChange (f : DevFields)
  | evtDevWakeup (f : DevFields)
  | evtDevSof (f : DevFields)
  | evtDevErraticError (f : DevFields)
  | evtDevCmdCmpl (f : DevFields)
  | evtDevOverflow (f : DevFields)
  -- auxiliary events (R108)
  | evtAuxa (f : AuxFields)
  | evtAuxb (f : AuxFields)
  -- commands (R122, R250 to R258)
  | depcmdSetepconfig (ep : BitVec 5) (action : CfgAction)
  | depcmdSetxferrsc (ep : BitVec 5)
  | depcmdGetepstate (ep : BitVec 5)
  | depcmdSetstall (ep : BitVec 5)
  | depcmdClearstall (ep : BitVec 5)
  | depcmdStarttransfer (ep : BitVec 5) (slot : BitVec 8) (frame : BitVec 16)
  | depcmdUpdatetransfer (ep : BitVec 5) (rsc : BitVec 7)
  | depcmdDepstartcfg (base : BitVec 16)
  | depcmdEndtransferIocForcerm (ep : BitVec 5) (rsc : BitVec 7)
  | depcmdEndtransferForcerm (ep : BitVec 5) (rsc : BitVec 7)
  -- descriptors (R130, R132)
  | trbNormal (f : TrbFields)
  | trbControlSetup (f : TrbFields)
  | trbControlStatus2 (f : TrbFields)
  | trbControlStatus3 (f : TrbFields)
  | trbControlData (f : TrbFields)
  | trbIsocFirst (f : TrbFields)
  | trbIsoc (f : TrbFields)
  | trbLink (f : TrbFields)
deriving DecidableEq, Repr

end Sys2Proof
end

