-- ==== Sys2Proof/WellFormed.lean ====
section
/-!
DEFINITION. Which terms of `Instr` are instructions of the table: an event of a row that fixes no
endpoint number is not one of EP0's own rows; a command's slot is usable and its resource base is 0
or 2; a descriptor's reserved fields are 0 (R162).
-/

namespace Sys2Proof

/-- The endpoint number is not one of EP0's two, whose `XFERCOMPLETE` and `XFERNOTREADY` words are
rows of their own. -/
def EpFields.aboveEp0 (f : EpFields) : Bool := 2 ≤ f.ep.toNat

/-- The `CTRL` fields the core writes as 0 are 0 (R130, R162). -/
def CtrlBits.reservedZero (c : CtrlBits) : Bool :=
  !c.csp && c.rsvLo == 0 && c.sid == 0 && c.rsvHi == 0

/-- A descriptor the core may write: reserved `CTRL` fields 0, and `SIZE[31:24]` (`PCM1`, the
reserved bits and `TRBSTS`) 0 (R130, R134, R162). -/
def TrbFields.reservedZero (f : TrbFields) : Bool :=
  f.ctrl.reservedZero && f.size.extractLsb' 24 8 == 0

/-- A command's `STARTTRANSFER` slot is one of `0..254` (R255). -/
def slotUsable (slot : BitVec 8) : Bool := slot.toNat < 255

/-- A `DEPSTARTCFG` resource base is 0 or 2 (R123, R258). -/
def baseLegal (base : BitVec 16) : Bool := base == 0 || base == 2

/-- Well-formedness of an instruction. -/
def Instr.wf : Instr → Bool
  | .evtEpXfercomplete f => f.aboveEp0
  | .evtEpXferinprogress _ => true
  | .evtEpXfernotready f => f.aboveEp0
  | .evtEpRxtxfifo _ => true
  | .evtEpStream _ => true
  | .evtEpEpcmdcmplt _ => true
  | .evtEpXfercompleteEp0 _ => true
  | .evtEpXfernotreadyEp0 _ => true
  | .evtEpXfercompleteEp1 _ => true
  | .evtEpXfernotreadyEp1 _ => true
  | .evtDevDisconnect _ => true
  | .evtDevReset _ => true
  | .evtDevConnectDone _ => true
  | .evtDevLinkChange _ => true
  | .evtDevWakeup _ => true
  | .evtDevSof _ => true
  | .evtDevErraticError _ => true
  | .evtDevCmdCmpl _ => true
  | .evtDevOverflow _ => true
  | .evtAuxa _ => true
  | .evtAuxb _ => true
  | .depcmdSetepconfig _ _ => true
  | .depcmdSetxferrsc _ => true
  | .depcmdGetepstate _ => true
  | .depcmdSetstall _ => true
  | .depcmdClearstall _ => true
  | .depcmdStarttransfer _ slot _ => slotUsable slot
  | .depcmdUpdatetransfer _ _ => true
  | .depcmdDepstartcfg base => baseLegal base
  | .depcmdEndtransferIocForcerm _ _ => true
  | .depcmdEndtransferForcerm _ _ => true
  | .trbNormal f => f.reservedZero
  | .trbControlSetup f => f.reservedZero
  | .trbControlStatus2 f => f.reservedZero
  | .trbControlStatus3 f => f.reservedZero
  | .trbControlData f => f.reservedZero
  | .trbIsocFirst f => f.reservedZero
  | .trbIsoc f => f.reservedZero
  | .trbLink f => f.reservedZero

end Sys2Proof
end

