-- ==== Sys2Proof/Decode.lean ====
section
/-!
DEFINITION. The decoder of the block's words (R100 to R134, R150 to R156), total on any bytes and
rejecting by name, and after it the encoder, written from the same tables. The bit positions and codes are the
default `LAYOUT` of R9, fixed (log entry 31, DESIGN CHOICE). The bit-field helpers, the link-state codes and the
event type of R110 stand here too.
-/

namespace Sys2Proof

/-! ## Bits and bytes (R10, R73, R74) -/

/-- Bit `i` of a word, `v[i]`. -/
def bitAt (w : Word) (i : Nat) : Bool := w.getLsbD i

/-- The word with bit `i` set when `b` holds and every other bit 0. -/
def bitWord (b : Bool) (i : Nat) : Word := (BitVec.ofBool b).setWidth 32 <<< i

/-- A field's value, placed at bit `lo` of a word of zeros. -/
def place {n : Nat} (v : BitVec n) (lo : Nat) : Word := v.setWidth 32 <<< lo

/-- `w` with the `n` bits from `lo` replaced by `v`: `REG with FIELD <- v` (R11). -/
def setField {n : Nat} (w : Word) (lo : Nat) (v : BitVec n) : Word :=
  (w &&& ~~~ (place (BitVec.allOnes n) lo)) ||| place v lo

/-- The word of four bytes, the byte at the lowest address in bits `[7:0]` (R73, R74). -/
def wordOfBytes (b0 b1 b2 b3 : Byte) : Word := place b0 0 ||| place b1 8 ||| place b2 16 ||| place b3 24

/-- Byte `k` of a word (R73, R74). -/
def byteOf (w : Word) (k : Nat) : Byte := w.extractLsb' (8 * k) 8

/-- The four bytes of a word, lowest address first. -/
def bytesOfWord (w : Word) : List Byte := [byteOf w 0, byteOf w 1, byteOf w 2, byteOf w 3]

/-- The whole words of a byte list, low address first; bytes past the last whole word are dropped. -/
def wordsOfBytes : List Byte → List Word
  | b0 :: b1 :: b2 :: b3 :: rest => wordOfBytes b0 b1 b2 b3 :: wordsOfBytes rest
  | _ => []

/-- The low word of an address, `BPL` (R130). -/
def quadLow (a : Quad) : Word := a.extractLsb' 0 32

/-- The high word of an address, `BPH` (R130). -/
def quadHigh (a : Quad) : Word := a.extractLsb' 32 32

/-- An address from its low and high words. -/
def quadOf (low high : Word) : Quad := high ++ low

/-! ## Codes -/

/-- The link state of a 4-bit code (R150); `none` for the reserved codes `0xC` and `0xD`. -/
def linkStateOf (c : BitVec 4) : Option LinkState :=
  match c.toNat with
  | 0 => some .u0
  | 1 => some .u1
  | 2 => some .u2
  | 3 => some .u3
  | 4 => some .ssDisabled
  | 5 => some .rxDetect
  | 6 => some .ssInactive
  | 7 => some .polling
  | 8 => some .recovery
  | 9 => some .hotReset
  | 10 => some .compliance
  | 11 => some .loopback
  | 14 => some .reset
  | 15 => some .resume
  | _ => none

/-- The 4-bit code of a link state (R150). -/
def linkStateCode : LinkState → BitVec 4
  | .u0 => 0x0
  | .u1 => 0x1
  | .u2 => 0x2
  | .u3 => 0x3
  | .ssDisabled => 0x4
  | .rxDetect => 0x5
  | .ssInactive => 0x6
  | .polling => 0x7
  | .recovery => 0x8
  | .hotReset => 0x9
  | .compliance => 0xA
  | .loopback => 0xB
  | .reset => 0xE
  | .resume => 0xF

/-- The link-change request code of a target, `DCTL.ULSTCHNGREQ` (R151); `none` where there is none. -/
def requestCode : LinkState → Option (BitVec 4)
  | .ssDisabled => some 0x4
  | .rxDetect => some 0x5
  | .ssInactive => some 0x6
  | .recovery => some 0x8
  | .compliance => some 0xA
  | .loopback => some 0xB
  | .u0 | .u1 | .u2 | .u3 | .polling | .hotReset | .reset | .resume => none

/-- A code of R151, 0 ("no action") included. -/
def requestCodeLegal (c : BitVec 4) : Bool :=
  c == 0x0 || c == 0x4 || c == 0x5 || c == 0x6 || c == 0x8 || c == 0xA || c == 0xB

/-- `EP_TYPE` (R126). -/
def epTypeCode : EpType → BitVec 2
  | .control => 0
  | .isoc => 1
  | .bulk => 2
  | .interrupt => 3

/-- `ACTION` (R126). -/
def actionCode : CfgAction → BitVec 2
  | .init => 0
  | .modify => 2

/-- `CONNECTSPD` and `DCFG.SPEED` codes, as written (R48, R51, R498). -/
def speedCode : Speed → BitVec 3
  | .ss => 4
  | .hs => 0
  | .fs => 1
  | .ls => 2

/-- The speed a `CONNECTSPD` code reports (R51, R223); `none` for the reserved codes. -/
def speedOf (c : BitVec 3) : Option Speed :=
  match c.toNat with
  | 0 => some .hs
  | 1 => some .fs
  | 2 => some .ls
  | 3 => some .fs
  | 4 => some .ss
  | _ => none

/-- `CMDTYP` (R122). -/
def cmdTypCode : CmdTyp → BitVec 4
  | .setEpConfig => 0x1
  | .setXferRsc => 0x2
  | .getEpState => 0x3
  | .setStall => 0x4
  | .clearStall => 0x5
  | .startTransfer => 0x6
  | .updateTransfer => 0x7
  | .endTransfer => 0x8
  | .depStartCfg => 0x9

/-- A command code that is not reserved (R122). -/
def cmdTypLegal (c : BitVec 4) : Bool := 1 ≤ c.toNat && c.toNat ≤ 9

/-- `TRBCTL` (R132). -/
def trbTypCode : TrbTyp → BitVec 6
  | .normal => 0x01
  | .controlSetup => 0x02
  | .controlStatus2 => 0x03
  | .controlStatus3 => 0x04
  | .controlData => 0x05
  | .isocFirst => 0x06
  | .isoc => 0x07
  | .link => 0x08

/-- The descriptor type of a `TRBCTL` code; `none` for the reserved codes (R132). -/
def trbTypOf (c : BitVec 6) : Option TrbTyp :=
  match c.toNat with
  | 1 => some .normal
  | 2 => some .controlSetup
  | 3 => some .controlStatus2
  | 4 => some .controlStatus3
  | 5 => some .controlData
  | 6 => some .isocFirst
  | 7 => some .isoc
  | 8 => some .link
  | _ => none

/-- `EVT` (R103). -/
def epEvtCode : EpEvt → BitVec 4
  | .xferComplete => 0x1
  | .xferInProgress => 0x2
  | .xferNotReady => 0x3
  | .rxTxFifo => 0x4
  | .stream => 0x6
  | .epCmdCmplt => 0x7

/-- The sub-type of an `EVT` code; `none` for the reserved codes (R103). -/
def epEvtOf (c : BitVec 4) : Option EpEvt :=
  match c.toNat with
  | 1 => some .xferComplete
  | 2 => some .xferInProgress
  | 3 => some .xferNotReady
  | 4 => some .rxTxFifo
  | 6 => some .stream
  | 7 => some .epCmdCmplt
  | _ => none

/-- Device event `TYPE` (R107). -/
def devEvtCode : DevEvt → BitVec 4
  | .disconnect => 0x0
  | .reset => 0x1
  | .connectDone => 0x2
  | .linkChange => 0x3
  | .wakeup => 0x4
  | .sof => 0x7
  | .erraticError => 0x9
  | .cmdCmpl => 0xA
  | .overflow => 0xB

/-- The sub-type of a device event `TYPE`; `none` for the reserved codes (R107). -/
def devEvtOf (c : BitVec 4) : Option DevEvt :=
  match c.toNat with
  | 0 => some .disconnect
  | 1 => some .reset
  | 2 => some .connectDone
  | 3 => some .linkChange
  | 4 => some .wakeup
  | 7 => some .sof
  | 9 => some .erraticError
  | 10 => some .cmdCmpl
  | 11 => some .overflow
  | _ => none

/-- The physical endpoint number of a 5-bit field (R25). -/
def epNum (e : BitVec 5) : EpNum := ⟨e.toNat, e.isLt⟩

/-- The 5-bit field of a physical endpoint number. -/
def epBits (n : EpNum) : BitVec 5 := BitVec.ofNat 5 n.val

/-- The slot of an 8-bit operand; 255, which is no usable slot (R280), reads as 0 and the decoder
refuses it. -/
def slotOf (v : BitVec 8) : Slot := if h : v.toNat < 255 then ⟨v.toNat, h⟩ else 0

/-- The 8-bit operand of a slot. -/
def slotBits (i : Slot) : BitVec 8 := BitVec.ofNat 8 i.val

/-! ## The event type of R110 -/

/-- R111: `decode`, total on all words, in the default `LAYOUT` (R9; log entry 31). -/
def decodeEvent (w : Word) : Event :=
  if bitAt w 0 = false then
    .ep (w.extractLsb' 1 5) (w.extractLsb' 6 4) (w.extractLsb' 12 4) (w.extractLsb' 16 16)
  else if w.extractLsb' 1 7 = 0 then .dev (w.extractLsb' 8 4) (w.extractLsb' 16 9)
  else if w.extractLsb' 1 7 = 3 then .auxA (w.extractLsb' 8 4)
  else if w.extractLsb' 1 7 = 4 then .auxB (w.extractLsb' 8 4)
  else .unknown w

/-- R112: `encode`; an unknown event is its own raw word. -/
def encodeEvent : Event → Word
  | .ep e t s p => place p 16 ||| place s 12 ||| place t 6 ||| place e 1
  | .dev t i => place i 16 ||| place t 8 ||| 0x01#32
  | .auxA p => place p 8 ||| 0x07#32
  | .auxB p => place p 8 ||| 0x09#32
  | .unknown w => w

/-- R112: `RESV_CLEAR(w)`, every bit but the reserved ones of the layout `w[7:0]` chooses. -/
def resvClear (w : Word) : Word :=
  if bitAt w 0 = false then 0xFFFFF3FF#32
  else if w.extractLsb' 1 7 = 0 then 0x01FF0FFF#32
  else if w.extractLsb' 1 7 = 3 then 0x00000FFF#32
  else if w.extractLsb' 1 7 = 4 then 0x00000FFF#32
  else 0xFFFFFFFF#32

/-! ## The decoder -/

/-- The three kinds of encoded words (R7). -/
inductive Format where
  | event
  | command
  | descriptor
deriving DecidableEq, Repr

/-- Why bytes are not an instruction. -/
inductive Reject where
  /-- Fewer bytes than the unit has (R100). -/
  | truncated
  /-- A non-endpoint class other than 0, 3 and 4 (R161). -/
  | reservedClass
  /-- A reserved endpoint event sub-type (R161). -/
  | reservedEpSubtype
  /-- A reserved device event sub-type (R161). -/
  | reservedDevSubtype
  /-- A reserved command code, or a command word the core never writes (R122, R124, R162). -/
  | reservedCommand
  /-- A reserved descriptor type (R132). -/
  | reservedDescriptor
  /-- A non-zero reserved field of a descriptor (R130, R162). -/
  | reservedField
  /-- An operand word that is no operand of the command or descriptor (log entry 10). -/
  | operandField
deriving DecidableEq, Repr

/-- The fields of an endpoint event word (R102). -/
def epFieldsOf (w : Word) : EpFields :=
  { ep := w.extractLsb' 1 5, rsv := w.extractLsb' 10 2, status := w.extractLsb' 12 4,
    param := w.extractLsb' 16 16 }

/-- The fields of an endpoint event word whose row fixes the endpoint number. -/
def ep0FieldsOf (w : Word) : Ep0Fields :=
  { rsv := w.extractLsb' 10 2, status := w.extractLsb' 12 4, param := w.extractLsb' 16 16 }

/-- The fields of a device event word (R106). -/
def devFieldsOf (w : Word) : DevFields :=
  { rsvLo := w.extractLsb' 12 4, info := w.extractLsb' 16 9, rsvHi := w.extractLsb' 25 7 }

/-- The fields of an auxiliary event word (R108). -/
def auxFieldsOf (w : Word) : AuxFields := { port := w.extractLsb' 8 4, rsv := w.extractLsb' 12 20 }

/-- An endpoint event word (R102, R103); `XFERCOMPLETE` and `XFERNOTREADY` of endpoints 0 and 1 are
rows of their own. -/
def decodeEpEvent (w : Word) : Except Reject Instr :=
  match epEvtOf (w.extractLsb' 6 4) with
  | none => .error .reservedEpSubtype
  | some .xferComplete =>
    if w.extractLsb' 1 5 = 0 then .ok (.evtEpXfercompleteEp0 (ep0FieldsOf w))
    else if w.extractLsb' 1 5 = 1 then .ok (.evtEpXfercompleteEp1 (ep0FieldsOf w))
    else .ok (.evtEpXfercomplete (epFieldsOf w))
  | some .xferInProgress => .ok (.evtEpXferinprogress (epFieldsOf w))
  | some .xferNotReady =>
    if w.extractLsb' 1 5 = 0 then .ok (.evtEpXfernotreadyEp0 (ep0FieldsOf w))
    else if w.extractLsb' 1 5 = 1 then .ok (.evtEpXfernotreadyEp1 (ep0FieldsOf w))
    else .ok (.evtEpXfernotready (epFieldsOf w))
  | some .rxTxFifo => .ok (.evtEpRxtxfifo (epFieldsOf w))
  | some .stream => .ok (.evtEpStream (epFieldsOf w))
  | some .epCmdCmplt => .ok (.evtEpEpcmdcmplt (epFieldsOf w))

/-- A device event word (R106, R107). -/
def decodeDevEvent (w : Word) : Except Reject Instr :=
  match devEvtOf (w.extractLsb' 8 4) with
  | none => .error .reservedDevSubtype
  | some .disconnect => .ok (.evtDevDisconnect (devFieldsOf w))
  | some .reset => .ok (.evtDevReset (devFieldsOf w))
  | some .connectDone => .ok (.evtDevConnectDone (devFieldsOf w))
  | some .linkChange => .ok (.evtDevLinkChange (devFieldsOf w))
  | some .wakeup => .ok (.evtDevWakeup (devFieldsOf w))
  | some .sof => .ok (.evtDevSof (devFieldsOf w))
  | some .erraticError => .ok (.evtDevErraticError (devFieldsOf w))
  | some .cmdCmpl => .ok (.evtDevCmdCmpl (devFieldsOf w))
  | some .overflow => .ok (.evtDevOverflow (devFieldsOf w))

/-- An event word (R101). A rejected word is a reserved event (R161), which the drain notifies
(R230); none of it traps. -/
def decodeEventWord (w : Word) : Except Reject Instr :=
  if bitAt w 0 = false then decodeEpEvent w
  else if w.extractLsb' 1 7 = 0 then decodeDevEvent w
  else if w.extractLsb' 1 7 = 3 then .ok (.evtAuxa (auxFieldsOf w))
  else if w.extractLsb' 1 7 = 4 then .ok (.evtAuxb (auxFieldsOf w))
  else .error .reservedClass

/-- The endpoint of a command call's operand word, bits `[4:0]`. -/
def opEp (op : Word) : BitVec 5 := op.extractLsb' 0 5

/-- A command word as the core writes it (R120 to R124) and the call's operand word: the endpoint
in `[4:0]`, the descriptor slot of `STARTTRANSFER` in `[15:8]`, `MODIFY` in `[16]` (log entry 10). -/
def decodeCommand (w op : Word) : Except Reject Instr :=
  let justEp := op &&& 0xFFFFFFE0#32 = 0
  if w = 0x00000401#32 then
    if op &&& 0xFFFEFFE0#32 = 0 then
      .ok (.depcmdSetepconfig (opEp op) (if bitAt op 16 then .modify else .init))
    else .error .operandField
  else if w = 0x00000402#32 then
    if justEp then .ok (.depcmdSetxferrsc (opEp op)) else .error .operandField
  else if w = 0x00000403#32 then
    if justEp then .ok (.depcmdGetepstate (opEp op)) else .error .operandField
  else if w = 0x00000404#32 then
    if justEp then .ok (.depcmdSetstall (opEp op)) else .error .operandField
  else if w = 0x00000405#32 then
    if justEp then .ok (.depcmdClearstall (opEp op)) else .error .operandField
  else if w.extractLsb' 0 16 = 0x0406#16 then
    if op &&& 0xFFFF00E0#32 = 0 ∧ slotUsable (op.extractLsb' 8 8) = true then
      .ok (.depcmdStarttransfer (opEp op) (op.extractLsb' 8 8) (w.extractLsb' 16 16))
    else .error .operandField
  else if w.extractLsb' 0 16 = 0x0407#16 ∧ w.extractLsb' 23 9 = 0 then
    if justEp then .ok (.depcmdUpdatetransfer (opEp op) (w.extractLsb' 16 7)) else .error .operandField
  else if w.extractLsb' 0 16 = 0x0409#16 ∧ baseLegal (w.extractLsb' 16 16) = true then
    if op = 0 then .ok (.depcmdDepstartcfg (w.extractLsb' 16 16)) else .error .operandField
  else if w.extractLsb' 0 16 = 0x0D08#16 ∧ w.extractLsb' 23 9 = 0 then
    if justEp then .ok (.depcmdEndtransferIocForcerm (opEp op) (w.extractLsb' 16 7))
    else .error .operandField
  else if w.extractLsb' 0 16 = 0x0C08#16 ∧ w.extractLsb' 23 9 = 0 then
    if justEp then .ok (.depcmdEndtransferForcerm (opEp op) (w.extractLsb' 16 7))
    else .error .operandField
  else .error .reservedCommand

/-- The bits of a `CTRL` word other than `TRBCTL` (R130). -/
def ctrlBitsOf (w : Word) : CtrlBits :=
  { hwo := bitAt w 0, lst := bitAt w 1, chn := bitAt w 2, csp := bitAt w 3, isp := bitAt w 10,
    ioc := bitAt w 11, rsvLo := w.extractLsb' 12 2, sid := w.extractLsb' 14 16,
    rsvHi := w.extractLsb' 30 2 }

/-- The row of a descriptor type. -/
def trbInstr : TrbTyp → TrbFields → Instr
  | .normal, f => .trbNormal f
  | .controlSetup, f => .trbControlSetup f
  | .controlStatus2, f => .trbControlStatus2 f
  | .controlStatus3, f => .trbControlStatus3 f
  | .controlData, f => .trbControlData f
  | .isocFirst, f => .trbIsocFirst f
  | .isoc, f => .trbIsoc f
  | .link, f => .trbLink f

/-- A descriptor (R130, R132), the word that names its ring in `[4:0]`, and the number of its request (log
entry 10). -/
def decodeDescriptor (ctrl bpl bph size op req : Word) : Except Reject Instr :=
  match trbTypOf (ctrl.extractLsb' 4 6) with
  | none => .error .reservedDescriptor
  | some t =>
    let f : TrbFields := { ep := opEp op, ctrl := ctrlBitsOf ctrl, bpl, bph, size, req }
    if op &&& 0xFFFFFFE0#32 ≠ 0 then .error .operandField
    else if f.reservedZero = true then .ok (trbInstr t f)
    else .error .reservedField

/-- The decoder on words: one event word; a command word and its operand word; a descriptor's
`CTRL`, `BPL`, `BPH` and `SIZE` and its two operand words. Words past the unit are not read (R100). -/
def decodeWords : Format → List Word → Except Reject Instr
  | .event, w :: _ => decodeEventWord w
  | .command, w :: op :: _ => decodeCommand w op
  | .descriptor, ctrl :: bpl :: bph :: size :: op :: req :: _ => decodeDescriptor ctrl bpl bph size op req
  | .event, [] => .error .truncated
  | .command, _ => .error .truncated
  | .descriptor, _ => .error .truncated

/-- The decoder on bytes, lowest address first (R74). -/
def decode (fmt : Format) (bs : List Byte) : Except Reject Instr := decodeWords fmt (wordsOfBytes bs)

/-! ## The encoder -/

/-- The word of an endpoint event (R102), reserved bits kept. -/
def epEventWord (t : EpEvt) (ep : BitVec 5) (rsv : BitVec 2) (status : BitVec 4)
    (param : BitVec 16) : Word :=
  place param 16 ||| place status 12 ||| place rsv 10 ||| place (epEvtCode t) 6 ||| place ep 1

/-- The word of a device event (R106), reserved bits kept. -/
def devEventWord (t : DevEvt) (f : DevFields) : Word :=
  place f.rsvHi 25 ||| place f.info 16 ||| place f.rsvLo 12 ||| place (devEvtCode t) 8 ||| 0x01#32

/-- The word of an auxiliary event (R108) of class `cls`, reserved bits kept. -/
def auxEventWord (cls : BitVec 7) (f : AuxFields) : Word :=
  place f.rsv 12 ||| place f.port 8 ||| place cls 1 ||| 0x01#32

/-- The command word as the core writes it (R120, R241). -/
def commandWord (typ : BitVec 4) (param : BitVec 16) (ioc forcerm : Bool) : Word :=
  place param 16 ||| bitWord forcerm 11 ||| 0x400#32 ||| bitWord ioc 8 ||| place typ 0

/-- The `CTRL` word of a descriptor (R130). -/
def ctrlWord (t : TrbTyp) (c : CtrlBits) : Word :=
  place c.rsvHi 30 ||| place c.sid 14 ||| place c.rsvLo 12 ||| bitWord c.ioc 11 ||| bitWord c.isp 10
    ||| place (trbTypCode t) 4 ||| bitWord c.csp 3 ||| bitWord c.chn 2 ||| bitWord c.lst 1
    ||| bitWord c.hwo 0

/-- The words of a descriptor call: `CTRL`, `BPL`, `BPH`, `SIZE`, the ring, the request's number. -/
def descriptorWords (t : TrbTyp) (f : TrbFields) : List Word :=
  [ctrlWord t f.ctrl, f.bpl, f.bph, f.size, place f.ep 0, f.req]

/-- The kind of words an instruction has. -/
def formatOf : Instr → Format
  | .evtEpXfercomplete _ | .evtEpXferinprogress _ | .evtEpXfernotready _ | .evtEpRxtxfifo _
  | .evtEpStream _ | .evtEpEpcmdcmplt _ | .evtEpXfercompleteEp0 _ | .evtEpXfernotreadyEp0 _
  | .evtEpXfercompleteEp1 _ | .evtEpXfernotreadyEp1 _ | .evtDevDisconnect _ | .evtDevReset _
  | .evtDevConnectDone _ | .evtDevLinkChange _ | .evtDevWakeup _ | .evtDevSof _
  | .evtDevErraticError _ | .evtDevCmdCmpl _ | .evtDevOverflow _ | .evtAuxa _ | .evtAuxb _ => .event
  | .depcmdSetepconfig _ _ | .depcmdSetxferrsc _ | .depcmdGetepstate _ | .depcmdSetstall _
  | .depcmdClearstall _ | .depcmdStarttransfer _ _ _ | .depcmdUpdatetransfer _ _
  | .depcmdDepstartcfg _ | .depcmdEndtransferIocForcerm _ _ | .depcmdEndtransferForcerm _ _ => .command
  | .trbNormal _ | .trbControlSetup _ | .trbControlStatus2 _ | .trbControlStatus3 _
  | .trbControlData _ | .trbIsocFirst _ | .trbIsoc _ | .trbLink _ => .descriptor

/-- The words of an instruction. -/
def encode : Instr → List Word
  | .evtEpXfercomplete f => [epEventWord .xferComplete f.ep f.rsv f.status f.param]
  | .evtEpXferinprogress f => [epEventWord .xferInProgress f.ep f.rsv f.status f.param]
  | .evtEpXfernotready f => [epEventWord .xferNotReady f.ep f.rsv f.status f.param]
  | .evtEpRxtxfifo f => [epEventWord .rxTxFifo f.ep f.rsv f.status f.param]
  | .evtEpStream f => [epEventWord .stream f.ep f.rsv f.status f.param]
  | .evtEpEpcmdcmplt f => [epEventWord .epCmdCmplt f.ep f.rsv f.status f.param]
  | .evtEpXfercompleteEp0 f => [epEventWord .xferComplete 0 f.rsv f.status f.param]
  | .evtEpXfernotreadyEp0 f => [epEventWord .xferNotReady 0 f.rsv f.status f.param]
  | .evtEpXfercompleteEp1 f => [epEventWord .xferComplete 1 f.rsv f.status f.param]
  | .evtEpXfernotreadyEp1 f => [epEventWord .xferNotReady 1 f.rsv f.status f.param]
  | .evtDevDisconnect f => [devEventWord .disconnect f]
  | .evtDevReset f => [devEventWord .reset f]
  | .evtDevConnectDone f => [devEventWord .connectDone f]
  | .evtDevLinkChange f => [devEventWord .linkChange f]
  | .evtDevWakeup f => [devEventWord .wakeup f]
  | .evtDevSof f => [devEventWord .sof f]
  | .evtDevErraticError f => [devEventWord .erraticError f]
  | .evtDevCmdCmpl f => [devEventWord .cmdCmpl f]
  | .evtDevOverflow f => [devEventWord .overflow f]
  | .evtAuxa f => [auxEventWord 3 f]
  | .evtAuxb f => [auxEventWord 4 f]
  | .depcmdSetepconfig ep a =>
    [commandWord (cmdTypCode .setEpConfig) 0 false false, bitWord (a == .modify) 16 ||| place ep 0]
  | .depcmdSetxferrsc ep => [commandWord (cmdTypCode .setXferRsc) 0 false false, place ep 0]
  | .depcmdGetepstate ep => [commandWord (cmdTypCode .getEpState) 0 false false, place ep 0]
  | .depcmdSetstall ep => [commandWord (cmdTypCode .setStall) 0 false false, place ep 0]
  | .depcmdClearstall ep => [commandWord (cmdTypCode .clearStall) 0 false false, place ep 0]
  | .depcmdStarttransfer ep slot frame =>
    [commandWord (cmdTypCode .startTransfer) frame false false, place slot 8 ||| place ep 0]
  | .depcmdUpdatetransfer ep rsc =>
    [commandWord (cmdTypCode .updateTransfer) (rsc.setWidth 16) false false, place ep 0]
  | .depcmdDepstartcfg base => [commandWord (cmdTypCode .depStartCfg) base false false, 0]
  | .depcmdEndtransferIocForcerm ep rsc =>
    [commandWord (cmdTypCode .endTransfer) (rsc.setWidth 16) true true, place ep 0]
  | .depcmdEndtransferForcerm ep rsc =>
    [commandWord (cmdTypCode .endTransfer) (rsc.setWidth 16) false true, place ep 0]
  | .trbNormal f => descriptorWords .normal f
  | .trbControlSetup f => descriptorWords .controlSetup f
  | .trbControlStatus2 f => descriptorWords .controlStatus2 f
  | .trbControlStatus3 f => descriptorWords .controlStatus3 f
  | .trbControlData f => descriptorWords .controlData f
  | .trbIsocFirst f => descriptorWords .isocFirst f
  | .trbIsoc f => descriptorWords .isoc f
  | .trbLink f => descriptorWords .link f

/-- The bytes of an instruction, lowest address first. -/
def encodeBytes (i : Instr) : List Byte := (encode i).flatMap bytesOfWord

/-- The first word of an instruction: for an event, the raw word that R229 and R230 notify. -/
def rawWord (i : Instr) : Word := (encode i).headD 0

/-! ## The opcode table's words -/

/-- One row of the opcode table: the kind of its words, how many bits the table gives it in whole
bytes, the mask of its fixed bits and their value. -/
structure Row where
  fmt : Format
  nbits : Nat
  mask : Word
  pattern : Word
deriving DecidableEq, Repr

/-- The rows of the opcode table, in its order. -/
def opcodeRows : List Row :=
  [⟨.event, 16, 0x3c1, 0x40⟩, ⟨.event, 16, 0x3c1, 0x80⟩, ⟨.event, 16, 0x3c1, 0xc0⟩,
   ⟨.event, 16, 0x3c1, 0x100⟩, ⟨.event, 16, 0x3c1, 0x180⟩, ⟨.event, 16, 0x3c1, 0x1c0⟩,
   ⟨.event, 32, 0x3ff, 0x40⟩, ⟨.event, 32, 0x3ff, 0xc0⟩, ⟨.event, 32, 0x3ff, 0x42⟩,
   ⟨.event, 32, 0x3ff, 0xc2⟩]
  ++ [⟨.event, 16, 0xfff, 0x1⟩, ⟨.event, 16, 0xfff, 0x101⟩, ⟨.event, 16, 0xfff, 0x201⟩,
   ⟨.event, 16, 0xfff, 0x301⟩, ⟨.event, 16, 0xfff, 0x401⟩, ⟨.event, 16, 0xfff, 0x701⟩,
   ⟨.event, 16, 0xfff, 0x901⟩, ⟨.event, 16, 0xfff, 0xa01⟩, ⟨.event, 16, 0xfff, 0xb01⟩,
   ⟨.event, 8, 0xff, 0x7⟩, ⟨.event, 8, 0xff, 0x9⟩]
  ++ [⟨.command, 32, 0xffffffff, 0x401⟩, ⟨.command, 32, 0xffffffff, 0x402⟩,
   ⟨.command, 32, 0xffffffff, 0x403⟩, ⟨.command, 32, 0xffffffff, 0x404⟩,
   ⟨.command, 32, 0xffffffff, 0x405⟩, ⟨.command, 16, 0xffff, 0x406⟩,
   ⟨.command, 32, 0xff80ffff, 0x407⟩, ⟨.command, 16, 0xffff, 0x409⟩,
   ⟨.command, 32, 0xff80ffff, 0xd08⟩, ⟨.command, 32, 0xff80ffff, 0xc08⟩]
  ++ [⟨.descriptor, 16, 0x3f0, 0x10⟩, ⟨.descriptor, 16, 0x3f0, 0x20⟩, ⟨.descriptor, 16, 0x3f0, 0x30⟩,
   ⟨.descriptor, 16, 0x3f0, 0x40⟩, ⟨.descriptor, 16, 0x3f0, 0x50⟩, ⟨.descriptor, 16, 0x3f0, 0x60⟩,
   ⟨.descriptor, 16, 0x3f0, 0x70⟩, ⟨.descriptor, 16, 0x3f0, 0x80⟩]

/-- How many bits a mask fixes. -/
def fixedBits (m : Word) : Nat := (List.range 32).countP fun i => m.getLsbD i

/-- The word has a row's fixed bits. -/
def Row.matches (r : Row) (w : Word) : Bool := w &&& r.mask == r.pattern

/-- The row that fixes the most bits, the earlier of two that fix the same number. -/
def mostFixed : List Row → Option Row
  | [] => none
  | r :: rest =>
    match mostFixed rest with
    | none => some r
    | some b => if fixedBits r.mask < fixedBits b.mask then some b else some r

/-- Which kind of word `w` is, when the table gives its row `nbits` bits: the kinds share bit
patterns (`0x40` is an event and a descriptor), and the row of that width that fixes the most bits
decides; without one, the rows of any width (log entry 11, DESIGN CHOICE). -/
def tableFormat (nbits : Nat) (w : Word) : Format :=
  match mostFixed (opcodeRows.filter fun r => r.nbits == nbits && r.matches w) with
  | some r => r.fmt
  | none =>
    match mostFixed (opcodeRows.filter fun r => r.matches w) with
    | some r => r.fmt
    | none => .event

/-- The longest instruction in bytes, a descriptor call. -/
def maxBytes : Nat := 24

/-- The bytes of a table word: its words in order, each low byte first, every bit above `nbits` 0. -/
def tableBytes (nbits w : Nat) : List Byte :=
  (List.range maxBytes).map fun k => BitVec.ofNat 8 ((w % 2 ^ nbits) / 2 ^ (8 * k))

/-- The instruction the decoder reads from the table word `w` of `nbits` bits. -/
def decodeTableWord (nbits w : Nat) : Option Instr :=
  match decode (tableFormat nbits (BitVec.ofNat 32 (w % 2 ^ nbits))) (tableBytes nbits w) with
  | .ok i => some i
  | .error _ => none

end Sys2Proof
end

