-- ==== Sys2Proof/Machine/State.lean ====
section
/-!
DEFINITION. The whole state: the controller record `C` of R20 to R59, the registers of R44, the DMA
memory of R71, what the silicon keeps (R90, R91), and the model's own run control and environment
schedule (log entries 4 and 5). Plain data throughout.
-/

namespace Sys2Proof.Machine

/-! ## Why a step stops -/

/-- Why the machine stops. A model fault of R462 is no stop: it is recorded and stops one agent. -/
inductive Fault where
  /-- An access past the DMA address space of `DMA_ADDR_BITS` bits (R71). Raised by every DMA access
  of the core. Safe: the address does not exist. -/
  | dmaAddress
deriving DecidableEq, Repr

/-- Why the machine has no meaning to give. -/
inductive Refusal where
  /-- An instruction without a meaning in this model. Raised by no arm. Safe. -/
  | notModelled (mnemonic : String)
  /-- An access to an opaque register outside the rules (R54). Raised by a register access; no rule
  makes one. Safe. -/
  | opaqueRegister
  /-- A write of a read-only register (R54). Raised by a register write; no rule makes one. Safe. -/
  | readOnlyRegister
  /-- An offset that is not in `REGMAP` or is misaligned (R70, R80). Raised by an access by offset; no
  rule makes one. Safe. -/
  | badOffset
deriving DecidableEq, Repr

/-! ## Agents, errors and notifications -/

/-- The model faults (R462). -/
inductive ModelFault where
  /-- `F_LPOS`. -/
  | lpos
  /-- `F_RING_OVERWRITE`. -/
  | ringOverwrite
  /-- `F_RESERVED_WRITE`. -/
  | reservedWrite
deriving DecidableEq, Repr

/-- The agents that can hold the lock or be stopped (R8), the silicon, whose turns no fault stops, and the
platform of R491 and R504. -/
inductive Agent where
  | bh
  | th
  | si
  | up (k : Nat)
  | rt
  | ext
  | platform
deriving DecidableEq, Repr

/-- A request id (R33, R331). -/
inductive ReqId where
  | user (k : BitVec 32)
  | intSetup
  | intStatus
deriving DecidableEq, Repr

/-- The outcomes of a request (R452). -/
inductive Outcome where
  | ok
  | short
  | missedIsoc
  | busError
  | cancelled
  | shutdown
deriving DecidableEq, Repr

/-- The errors an operation returns, with their information (R451). -/
inductive Err where
  | cmdFailed (n : EpNum) (st : BitVec 4)
  | cmdTimeout (n : EpNum)
  | busy (n : Option EpNum)
  | inval
  | linkTimeout
  | linkMismatch (st : Option LinkState)
deriving DecidableEq, Repr

/-- A command's result (R240). -/
inductive CmdResult where
  | ok (rb : Word)
  | err (e : Err)
deriving DecidableEq, Repr

/-- The error and warning codes (R451). -/
inductive Code where
  | cmdFailed
  | cmdTimeout
  | busy
  | inval
  | linkTimeout
  | linkMismatch
  | hostStart
  | deviceStart
  | erratic
  | evtOverflow
  | devOverflow
  | unknownEvent
  | auxEvent
deriving DecidableEq, Repr

/-- What a notified code carries (R451, R463). -/
inductive Info where
  | none
  | ep (n : EpNum)
  | epStatus (n : EpNum) (st : BitVec 4)
  | error (e : Err)
  | info9 (i : BitVec 9)
  | word (w : Word)
  | count (c : BitVec 16)
deriving DecidableEq, Repr

/-- A notification: kind and payload (R456). -/
inductive Note where
  | connect (speed : Speed)
  | disconnect
  | reset
  | suspend
  | resume
  | setup (packet : Vector Byte 8)
  | complete (id : ReqId) (oc : Outcome) (actual : Nat)
  | code (c : Code) (info : Info)
deriving DecidableEq, Repr

/-- What an upstream call returns (R453). -/
inductive Ret where
  | ok
  | word (w : Word)
  | link (st : Option LinkState)
  | note (n : Option Note)
  | err (e : Err)
deriving DecidableEq, Repr

/-! ## The controller record -/

/-- `C.evbuf` (R23); `addr` is `C.cfg.EVBUF_ADDR` and `len` is `EVBUF_LEN`. -/
structure Evbuf where
  lpos : BitVec 16
  count : BitVec 16
  enabled : Bool
  pending : Bool
deriving DecidableEq, Repr

/-- An endpoint record (R25 to R35); `dir` is the number's parity (R26). -/
structure Endpoint where
  number : EpNum
  type : EpType
  maxpacket : BitVec 16
  interval : BitVec 8
  rsc : Option (BitVec 7)
  enabled : Bool
  stalled : Bool
  wedged : Bool
  xferStarted : Bool
  endPending : Bool
  cmdStuck : Bool
  isocArmed : Bool
  isocFrame : BitVec 16
  pending : List ReqId
  started : List ReqId
  cancelled : List ReqId
  enq : Slot
  deq : Slot
deriving DecidableEq, Repr

/-- The extra descriptor a request needs (R38, R287). -/
inductive Extra where
  | none
  | zlp
  | pad
deriving DecidableEq, Repr

/-- The kind of a request (R38). -/
inductive ReqKind where
  | user
  | ep0Setup
  | ep0Status
deriving DecidableEq, Repr

/-- A request record (R38); `dir` is its endpoint's. -/
structure Request where
  id : ReqId
  ep : EpNum
  segs : List (Quad × Nat)
  length : Nat
  zero : Bool
  first : Option Slot
  ndesc : Nat
  extra : Extra
  actual : Nat
  outcome : Option Outcome
  kind : ReqKind
deriving DecidableEq, Repr

/-- `C.ep0.state` (R330). -/
inductive Ep0State where
  | unconnected
  | setupPhase
  | dataPhase
  | statusPhase
deriving DecidableEq, Repr

/-- `C.ep0` (R41). -/
structure Ep0 where
  state : Ep0State
  setup : Vector Byte 8
  threeStage : Bool
  dataIn : Bool
  delayed : Bool
  statusIssued : Bool
  bounce : Bool
  dataReq : Option ReqId
  mps : BitVec 16
deriving DecidableEq, Repr

/-- `C.link` (R43). -/
structure Link where
  state : Option LinkState
  prev : Option LinkState
  seq : BitVec 32
  req : Option LinkState
deriving DecidableEq, Repr

/-- The capability direction as the core believes it (R56). -/
inductive DrRole where
  | host
  | device
  | otg
deriving DecidableEq, Repr

/-- The OTG sub-role (R56). -/
inductive OtgRole where
  | idle
  | host
  | device
deriving DecidableEq, Repr

/-- The role-switch task (R56, R393). -/
inductive Task where
  | none
  | queued
  | running
deriving DecidableEq, Repr

/-- `C.role` (R56). -/
structure Role where
  drCur : DrRole
  drDes : DrRole
  otgCur : OtgRole
  otgDes : OtgRole
  task : Task
  sigId : Bool
  sigVbus : Bool
deriving DecidableEq, Repr

/-- `C.dev` (R57). -/
structure Dev where
  running : Bool
  connected : Bool
  speed : Option Speed
  pullup : Bool
  wantPullup : Bool
  startCfgDone : Bool
deriving DecidableEq, Repr

/-! ## Registers and silicon -/

/-- The register file, every register of `REGMAP` (R44). -/
structure Regs where
  gsbuscfg0 : Word
  gsbuscfg1 : Word
  gctl : Word
  gsts : Word
  gsnpsid : Word
  ghwparams : Vector Word 8
  gevntadrlo : Word
  gevntadrhi : Word
  gevntsiz : Word
  gevntcount : Word
  dcfg : Word
  dctl : Word
  devten : Word
  dsts : Word
  dgcmdpar : Word
  dgcmd : Word
  dalepena : Word
  depcmdpar2 : Vector Word 32
  depcmdpar1 : Vector Word 32
  depcmdpar0 : Vector Word 32
  depcmd : Vector Word 32
  ocfg : Word
  octl : Word
  oevt : Word
  oevten : Word
  osts : Word
deriving DecidableEq, Repr

/-- The controller's one interrupt source, named and not interpreted (R398, R465). -/
inductive Irq where
  | irq
deriving DecidableEq, Repr

/-- What `HC.start` is called with (R398, R403): the resources `(REGBASE, IRQ)` and the opaque `IMOD_CFG`. -/
structure HostArgs where
  regBase : Quad
  irq : Irq
  imod : Word
deriving DecidableEq, Repr

/-- Where the silicon stands on a ring (R90): the slot of its next descriptor, none without a transfer;
whether it has stopped at a descriptor it did not own; and the chains that have ended and no transfer event
has reported, oldest first, each with whether a short packet ended it on an OUT endpoint (log entry 12). -/
structure SiRing where
  slot : Option Slot
  halted : Bool
  ended : List Bool
deriving DecidableEq, Repr

/-- What the environment keeps for itself: the silicon's write offset in the event buffer (R91) and its place
on each ring (R90); whether the host child owns the controller, and what it was last started with (R403). -/
structure Silicon where
  wpos : BitVec 16
  rings : Vector SiRing 32
  hcRunning : Bool
  hcArgs : Option HostArgs
deriving DecidableEq, Repr

/-! ## The environment, as data (log entry 4) -/

/-- One step of the environment between two accesses of a core agent (R12, R88). -/
inductive EnvStep where
  /-- `SI` completes the command on `n`, with read-back word `w` (R89). -/
  | cmdDone (n : EpNum) (w : Word)
  /-- `SI` writes the result of `GETEPSTATE` on `n` (R89). -/
  | epState (n : EpNum) (w : Word)
  /-- `SI` processes the next descriptor of ring `n`, leaving `rem` bytes and status `sts`; `short`
  marks a short packet; `data` is what it stores on an OUT endpoint (R90). -/
  | process (n : EpNum) (rem : BitVec 24) (sts : BitVec 4) (short : Bool) (data : List Byte)
  /-- `SI` ends the transfer of ring `n` itself (R92 (b), R309). -/
  | endXfer (n : EpNum)
  /-- `SI` writes an event word and counts it (R91). -/
  | event (w : Word)
  /-- `SI` reports an overflow: a count above the buffer's length, over `words` (R91, R205). -/
  | overflow (c : BitVec 16) (words : List Word)
  /-- `SI` changes what is its own in a register: all of `DSTS`, the link state among its fields (R51, R93),
  and of an opaque register, and the bits of the others that the rules leave to it (R11, R45, R48, R49). -/
  | reg (r : Reg) (v : Word)
  /-- `TH` takes its step (R466). -/
  | topHalf
deriving DecidableEq, Repr

/-- The operations of the upstream contract (R420 to R435). -/
inductive UpOp where
  | epEnable (a : BitVec 8) (type : EpType) (mps : BitVec 16) (interval : BitVec 8)
  | epDisable (a : BitVec 8)
  | submit (a : BitVec 8) (k : BitVec 32) (segs : List (Quad × Nat)) (zero : Bool)
  | cancel (a : BitVec 8) (id : ReqId)
  | setStall (a : BitVec 8)
  | setWedge (a : BitVec 8)
  | clearStall (a : BitVec 8) (protocol : Bool)
  | connect
  | disconnect
  | linkState
  | setLinkState (target : LinkState)
  | takeNotification
  | getEpState (a : BitVec 8)
  | resumeStatus
deriving DecidableEq, Repr

/-- One turn the scheduler gives (R468): which agent steps next, and with what. -/
inductive Act where
  /-- `SI` or `TH`. -/
  | env (e : EnvStep)
  /-- `BH` (R467). -/
  | bh
  /-- `RT` (R395). -/
  | rt
  /-- `EXT` (R390). -/
  | ext (id vbus : Bool)
  /-- `UP(k)` calls an upstream operation (R420). -/
  | up (k : Nat) (op : UpOp)
  /-- The link waiter polls (R376). -/
  | poll
  /-- `UP(k)` calls the command engine with a command word and its operand word (log entry 10). -/
  | command (k : Nat) (word operand : Word)
  /-- `UP(k)` calls the ring manager to post a descriptor for a request (log entry 10). -/
  | descriptor (k : Nat) (ctrl bpl bph size operand req : Word)
  /-- The platform removes the controller (R504). -/
  | remove
deriving DecidableEq, Repr

/-- One write of the host child inside one of its calls (R12, R403, R470): a register, by its offset from `REGBASE`,
or a byte of DMA memory (log entry 22). -/
inductive HostStep where
  | reg (off : Nat) (v : Word)
  | mem (a : Nat) (b : Byte)
deriving DecidableEq, Repr

/-- What the environment will do: the turns to come; per access of a core agent, what happens just
before it; the answers to the draws of R336 and R403; per call of the host child, what it writes (R12,
R403); and how many free values have been drawn. -/
structure Env where
  agenda : List Act
  sched : List (List EnvStep)
  replies : List SetupReply
  hostAnswers : List Bool
  hostSteps : List (List HostStep)
  draws : Nat
deriving DecidableEq, Repr

/-! ## Run control: where the agents stand between steps -/

/-- Where the role-switch task stands (R395). -/
inductive RtPoint where
  | idle
  | afterStop
  | afterStart
deriving DecidableEq, Repr

/-- A link request in its wait (R375, R376): who waits, for what, the change count it began at, and
the polls left. -/
structure Waiter where
  k : Nat
  target : LinkState
  seq0 : BitVec 32
  left : Nat
deriving DecidableEq, Repr

/-- Where each agent stands: whether `BH` is inside a drain, `RT`'s phase, the link waiter, the agents
a model fault has stopped, the last value a call returned, and whether the controller exists. -/
structure Run where
  drain : Bool
  rt : RtPoint
  waiter : Option Waiter
  stopped : List Agent
  ret : Option Ret
  alive : Bool
deriving DecidableEq, Repr

/-! ## The state -/

/-- Everything the spec gives the machine. -/
structure State where
  cfg : Cfg
  regs : Regs
  mem : List Host.Cell
  evbuf : Evbuf
  eps : Vector (Option Endpoint) 32
  ep0 : Ep0
  link : Link
  role : Role
  dev : Dev
  reqs : List Request
  upQueue : List Note
  faults : List ModelFault
  lock : Option Agent
  si : Silicon
  run : Run
  env : Env
deriving DecidableEq, Repr

/-! ## Reset -/

/-- The silicon's registers right after reset. R62 leaves them to a draw; the model names 0 for each
(log entry 2, DESIGN CHOICE), but for `GHWPARAMS3`, which R491's example gives. -/
def Regs.reset : Regs where
  gsbuscfg0 := 0
  gsbuscfg1 := 0
  gctl := 0
  gsts := 0
  gsnpsid := 0
  ghwparams := #v[0, 0, 0, 0x00010000, 0, 0, 0, 0]
  gevntadrlo := 0
  gevntadrhi := 0
  gevntsiz := 0
  gevntcount := 0
  dcfg := 0
  dctl := 0
  devten := 0
  dsts := 0
  dgcmdpar := 0
  dgcmd := 0
  dalepena := 0
  depcmdpar2 := Vector.replicate 32 0
  depcmdpar1 := Vector.replicate 32 0
  depcmdpar0 := Vector.replicate 32 0
  depcmd := Vector.replicate 32 0
  ocfg := 0
  octl := 0
  oevt := 0
  oevten := 0
  osts := 0

/-- The direction a capability set starts with (R62). -/
def DrCaps.direction : DrCaps → DrRole
  | .dualRole => .otg
  | .hostOnly => .host
  | .deviceOnly => .device

/-- R62: every runtime field at its reset value, for a configuration, a register file and a memory. -/
def State.init (cfg : Cfg) (regs : Regs) (mem : List Host.Cell) : State where
  cfg := cfg
  regs := regs
  mem := mem
  evbuf := { lpos := 0, count := 0, enabled := false, pending := false }
  eps := Vector.replicate 32 none
  ep0 :=
    { state := .unconnected, setup := Vector.replicate 8 0, threeStage := false, dataIn := false,
      delayed := false, statusIssued := false, bounce := false, dataReq := none, mps := 512 }
  link := { state := none, prev := none, seq := 0, req := none }
  role :=
    { drCur := DrCaps.direction cfg.drCaps, drDes := DrCaps.direction cfg.drCaps, otgCur := .idle, otgDes := .idle,
      task := .none, sigId := true, sigVbus := false }
  dev :=
    { running := false, connected := false, speed := none, pullup := false, wantPullup := false,
      startCfgDone := false }
  reqs := []
  upQueue := []
  faults := []
  lock := none
  si :=
    { wpos := 0, rings := Vector.replicate 32 { slot := none, halted := false, ended := [] }, hcRunning := false,
      hcArgs := none }
  run := { drain := false, rt := .idle, waiter := none, stopped := [], ret := none, alive := true }
  env := { agenda := [], sched := [], replies := [], hostAnswers := [], hostSteps := [], draws := 0 }

/-- The machine right after reset: the controller record as probe leaves it (R62, R490, R494) with the
default configuration (log entry 1), the registers of log entry 2, and memory with nothing listed. -/
def State.reset : State := State.init Config.standard Regs.reset []

end Sys2Proof.Machine
end

