-- ==== Sys2Proof/Machine/Store.lean ====
section
/-!
DEFINITION. The plain reads and updates of the state: DMA memory as a list in one canonical form
(R71, R74), the register file (R44), the endpoint array (R25), the request map (R38).
-/

namespace Sys2Proof.Machine

/-! ## DMA memory -/

/-- What an address that nothing has written reads as (log entry 3, DESIGN CHOICE: R492 leaves the
contents at probe to a draw). -/
def Memory.unlisted : Byte := 0

/-- The byte at an address. -/
def Memory.read : List Host.Cell → Nat → Byte
  | [], _ => Memory.unlisted
  | c :: rest, a => if c.1 = a then c.2 else Memory.read rest a

/-- The memory without an entry for `a`. -/
def Memory.erase (m : List Host.Cell) (a : Nat) : List Host.Cell := m.filter fun c => c.1 ≠ a

/-- The memory with an entry for `a` put at its place in the order. -/
def Memory.insert : List Host.Cell → Nat → Byte → List Host.Cell
  | [], a, v => [(a, v)]
  | c :: rest, a, v => if a < c.1 then (a, v) :: c :: rest else c :: Memory.insert rest a v

/-- Writing one byte; a byte equal to what an unlisted address reads as is not listed. -/
def Memory.write (m : List Host.Cell) (a : Nat) (v : Byte) : List Host.Cell :=
  if v = Memory.unlisted then Memory.erase m a else Memory.insert (Memory.erase m a) a v

/-- The canonical form: addresses strictly rising, no entry equal to what an unlisted address reads as. -/
abbrev Memory.wf (m : List Host.Cell) : Prop :=
  m.Pairwise (fun c d => c.1 < d.1) ∧ ∀ c ∈ m, c.2 ≠ Memory.unlisted

/-- The four bytes from `a` as a little-endian word (R74). -/
def Memory.readWord (m : List Host.Cell) (a : Nat) : Word :=
  wordOfBytes (Memory.read m a) (Memory.read m (a + 1)) (Memory.read m (a + 2)) (Memory.read m (a + 3))

/-- Writing bytes from `a` on, lowest address first. -/
def Memory.writeBytes : List Host.Cell → Nat → List Byte → List Host.Cell
  | m, _, [] => m
  | m, a, b :: bs => Memory.writeBytes (Memory.write m a b) (a + 1) bs

/-- Writing a word, little-endian (R74). -/
def Memory.writeWord (m : List Host.Cell) (a : Nat) (w : Word) : List Host.Cell :=
  Memory.writeBytes m a (bytesOfWord w)

/-! ## The register file -/

/-- A register's value. -/
def Regs.get (g : Regs) : Reg → Word
  | .gsbuscfg0 => g.gsbuscfg0
  | .gsbuscfg1 => g.gsbuscfg1
  | .gctl => g.gctl
  | .gsts => g.gsts
  | .gsnpsid => g.gsnpsid
  | .ghwparams i => g.ghwparams[i]
  | .gevntadrlo => g.gevntadrlo
  | .gevntadrhi => g.gevntadrhi
  | .gevntsiz => g.gevntsiz
  | .gevntcount => g.gevntcount
  | .dcfg => g.dcfg
  | .dctl => g.dctl
  | .devten => g.devten
  | .dsts => g.dsts
  | .dgcmdpar => g.dgcmdpar
  | .dgcmd => g.dgcmd
  | .dalepena => g.dalepena
  | .depcmdpar2 n => g.depcmdpar2[n]
  | .depcmdpar1 n => g.depcmdpar1[n]
  | .depcmdpar0 n => g.depcmdpar0[n]
  | .depcmd n => g.depcmd[n]
  | .ocfg => g.ocfg
  | .octl => g.octl
  | .oevt => g.oevt
  | .oevten => g.oevten
  | .osts => g.osts

/-- The register file with one register replaced. -/
def Regs.set (g : Regs) (r : Reg) (v : Word) : Regs :=
  match r with
  | .gsbuscfg0 => { g with gsbuscfg0 := v }
  | .gsbuscfg1 => { g with gsbuscfg1 := v }
  | .gctl => { g with gctl := v }
  | .gsts => { g with gsts := v }
  | .gsnpsid => { g with gsnpsid := v }
  | .ghwparams i => { g with ghwparams := g.ghwparams.set i.val v }
  | .gevntadrlo => { g with gevntadrlo := v }
  | .gevntadrhi => { g with gevntadrhi := v }
  | .gevntsiz => { g with gevntsiz := v }
  | .gevntcount => { g with gevntcount := v }
  | .dcfg => { g with dcfg := v }
  | .dctl => { g with dctl := v }
  | .devten => { g with devten := v }
  | .dsts => { g with dsts := v }
  | .dgcmdpar => { g with dgcmdpar := v }
  | .dgcmd => { g with dgcmd := v }
  | .dalepena => { g with dalepena := v }
  | .depcmdpar2 n => { g with depcmdpar2 := g.depcmdpar2.set n.val v }
  | .depcmdpar1 n => { g with depcmdpar1 := g.depcmdpar1.set n.val v }
  | .depcmdpar0 n => { g with depcmdpar0 := g.depcmdpar0.set n.val v }
  | .depcmd n => { g with depcmd := g.depcmd.set n.val v }
  | .ocfg => { g with ocfg := v }
  | .octl => { g with octl := v }
  | .oevt => { g with oevt := v }
  | .oevten => { g with oevten := v }
  | .osts => { g with osts := v }

/-- The registers no rule accesses (R44, R54, R55). -/
def Reg.isOpaque : Reg → Bool
  | .gsbuscfg0 | .gsbuscfg1 | .gsts | .dgcmdpar | .dgcmd | .ocfg | .octl | .oevt | .oevten | .osts => true
  | .gctl | .gsnpsid | .ghwparams _ | .gevntadrlo | .gevntadrhi | .gevntsiz | .gevntcount | .dcfg
  | .dctl | .devten | .dsts | .dalepena | .depcmdpar2 _ | .depcmdpar1 _ | .depcmdpar0 _
  | .depcmd _ => false

/-- The registers that are never written: `DSTS`, which R51 marks so, and the revision and the snapshot registers,
which the model takes to be so, as R58 has the core only read them (log entry 29, DESIGN CHOICE). -/
def Reg.isReadOnly : Reg → Bool
  | .gsnpsid | .ghwparams _ | .dsts => true
  | .gctl | .gevntadrlo | .gevntadrhi | .gevntsiz | .gevntcount | .dcfg | .dctl | .devten | .dalepena
  | .depcmdpar2 _ | .depcmdpar1 _ | .depcmdpar0 _ | .depcmd _ | .gsbuscfg0 | .gsbuscfg1 | .gsts
  | .dgcmdpar | .dgcmd | .ocfg | .octl | .oevt | .oevten | .osts => false

/-- The register at an offset from `REGBASE`; `none` for an offset that is not in `REGMAP` (R44, R70), and so for
one that is not a multiple of 4 (R80). Where a map gives two registers one offset, it is the first of them (log
entry 1). -/
def regAt (m : RegMap) (off : Nat) : Option Reg := Config.allRegs.find? fun r => m.offset r == off

/-- The bits of a register that the rules leave to the silicon: all of `DSTS` (R51) and of an opaque register
(R54); the bits of `GCTL`, `DCFG` and `DCTL` outside the fields of R45, R48 and R49; and the bits of `DALEPENA`
past the implemented endpoints (R52). Which they are is log entry 27. -/
def siBits (numEps : Nat) : Reg → Word
  | .gctl => 0xFFFFCFFF#32
  | .dcfg => 0xFFFFFC00#32
  | .dctl => 0x7FFFFE1F#32
  | .dalepena => 0xFFFFFFFF#32 <<< numEps
  | .dsts | .gsbuscfg0 | .gsbuscfg1 | .gsts | .dgcmdpar | .dgcmd | .ocfg | .octl | .oevt | .oevten | .osts =>
    0xFFFFFFFF#32
  | .gsnpsid | .ghwparams _ | .gevntadrlo | .gevntadrhi | .gevntsiz | .gevntcount | .devten | .depcmdpar2 _
  | .depcmdpar1 _ | .depcmdpar0 _ | .depcmd _ => 0

/-- Whether a value may be written to a register: its reserved fields are 0 and its codes are not
reserved (R46, R47, R49, R120, R122, R151, R162). -/
def writable (r : Reg) (v : Word) : Bool :=
  match r with
  | .gevntsiz => v.extractLsb' 16 15 == 0
  | .gevntcount => v.extractLsb' 16 16 == 0
  | .dctl => requestCodeLegal (v.extractLsb' 5 4)
  | .depcmd _ => v.extractLsb' 4 4 == 0 && !bitAt v 9 && cmdTypLegal (v.extractLsb' 0 4)
  | .gsbuscfg0 | .gsbuscfg1 | .gctl | .gsts | .gsnpsid | .ghwparams _ | .gevntadrlo | .gevntadrhi
  | .dcfg | .devten | .dsts | .dgcmdpar | .dgcmd | .dalepena | .depcmdpar2 _ | .depcmdpar1 _
  | .depcmdpar0 _ | .ocfg | .octl | .oevt | .oevten | .osts => true

/-- What a write of `v` leaves in a register that held `old`: the value, but for `GEVNTCOUNT`, where the
write says that `v[15:0]` bytes were consumed (R47); the count does not go below 0 (log entry 13). -/
def written (r : Reg) (old v : Word) : Word :=
  match r with
  | .gevntcount => BitVec.ofNat 32 (old.toNat - (v.extractLsb' 0 16).toNat)
  | .gevntsiz | .dctl | .depcmd _ | .gsbuscfg0 | .gsbuscfg1 | .gctl | .gsts | .gsnpsid | .ghwparams _
  | .gevntadrlo | .gevntadrhi | .dcfg | .devten | .dsts | .dgcmdpar | .dgcmd | .dalepena
  | .depcmdpar2 _ | .depcmdpar1 _ | .depcmdpar0 _ | .ocfg | .octl | .oevt | .oevten | .osts => v

/-! ## State updates -/

/-- The state with a register replaced. -/
def State.setReg (s : State) (r : Reg) (v : Word) : State := { s with regs := s.regs.set r v }

/-- The state with another memory. -/
def State.setMem (s : State) (m : List Host.Cell) : State := { s with mem := m }

/-- The endpoint entry `C.eps[n]` (R25). -/
def State.ep (s : State) (n : EpNum) : Option Endpoint := s.eps[n]

/-- `C.eps[n] <- e`. -/
def State.setEp (s : State) (n : EpNum) (e : Option Endpoint) : State :=
  { s with eps := s.eps.set n.val e }

/-- A write to fields of the record `C.eps[n]`; nothing where there is no record. -/
def State.modEp (s : State) (n : EpNum) (f : Endpoint → Endpoint) : State :=
  match s.ep n with
  | none => s
  | some e => s.setEp n (some (f e))

/-- The request record of an id, `C.reqs[id]` (R38). -/
def State.req (s : State) (id : ReqId) : Option Request := s.reqs.find? fun r => r.id == id

/-- `delete C.reqs[id]`. -/
def State.delReq (s : State) (id : ReqId) : State := { s with reqs := s.reqs.filter fun r => r.id ≠ id }

/-- `C.reqs[r.id] <- r`. -/
def State.addReq (s : State) (r : Request) : State := { s.delReq r.id with reqs := (s.delReq r.id).reqs ++ [r] }

/-- A write to fields of the record `C.reqs[id]`. -/
def State.modReq (s : State) (id : ReqId) (f : Request → Request) : State :=
  { s with reqs := s.reqs.map fun r => if r.id = id then f r else r }

/-- `notify` (R457): append at the tail of `C.up_queue`. -/
def State.note (s : State) (n : Note) : State := { s with upQueue := s.upQueue ++ [n] }

/-- The state with other `C.evbuf` fields. -/
def State.modEvbuf (s : State) (f : Evbuf → Evbuf) : State := { s with evbuf := f s.evbuf }

/-- The state with other `C.ep0` fields. -/
def State.modEp0 (s : State) (f : Ep0 → Ep0) : State := { s with ep0 := f s.ep0 }

/-- The state with other `C.link` fields. -/
def State.modLink (s : State) (f : Link → Link) : State := { s with link := f s.link }

/-- The state with other `C.role` fields. -/
def State.modRole (s : State) (f : Role → Role) : State := { s with role := f s.role }

/-- The state with other `C.dev` fields. -/
def State.modDev (s : State) (f : Dev → Dev) : State := { s with dev := f s.dev }

/-- The state with other silicon fields. -/
def State.modSi (s : State) (f : Silicon → Silicon) : State := { s with si := f s.si }

/-- The state with another place of the silicon on ring `n` (R90). -/
def State.modRing (s : State) (n : EpNum) (f : SiRing → SiRing) : State :=
  s.modSi fun u => { u with rings := u.rings.set n.val (f u.rings[n]) }

/-- The state with other run-control fields. -/
def State.modRun (s : State) (f : Run → Run) : State := { s with run := f s.run }

/-- The state with other environment fields. -/
def State.modEnv (s : State) (f : Env → Env) : State := { s with env := f s.env }

/-- `C.lock` (R472). -/
def State.setLock (s : State) (l : Option Agent) : State := { s with lock := l }

/-- The fault in the set `C.faults` (R59, R462). -/
def State.addFault (s : State) (f : ModelFault) : State :=
  { s with faults := if f ∈ s.faults then s.faults else s.faults ++ [f] }

/-- An agent that takes no more steps (R462). -/
def State.stop (s : State) (a : Agent) : State :=
  s.modRun fun u => { u with stopped := if a ∈ u.stopped then u.stopped else u.stopped ++ [a] }

/-- The address of slot `i` of ring `n` (R34, R76). -/
def State.slotAddr (s : State) (n : EpNum) (i : Nat) : Nat := s.cfg.ringBase[n].toNat + 16 * i

/-- The unread bytes the silicon reports, `GEVNTCOUNT.COUNT` (R47). -/
def State.hwCount (s : State) : BitVec 16 := s.regs.gevntcount.extractLsb' 0 16

end Sys2Proof.Machine
end

