-- ==== Sys2Proof/Machine/Operands.lean ====
section
/-!
DEFINITION. The operand forms: endpoint addresses (R156), parameter words (R126 to R129), descriptor
values (R134), ring arithmetic (R280 to R285), the extra descriptor (R287), the isochronous start
frame (R294) and the EP0 sizes (R341, R349).
-/

namespace Sys2Proof.Machine

/-! ## Endpoints -/

/-- R26: an odd physical number is the IN direction. -/
def isIn (n : EpNum) : Bool := n.val % 2 == 1

/-- R156: the physical number of an endpoint address; `none` when `a[6:4]` is not 0. -/
def physOf (a : BitVec 8) : Option EpNum :=
  if a.extractLsb' 4 3 = 0 then some (epNum ((a.extractLsb' 0 4) ++ (a.extractLsb' 7 1))) else none

/-- R421: `new_ep`. -/
def newEp (n : EpNum) (type : EpType) (mps : BitVec 16) (interval : BitVec 8) : Endpoint where
  number := n
  type := type
  maxpacket := mps
  interval := interval
  rsc := none
  enabled := false
  stalled := false
  wedged := false
  xferStarted := false
  endPending := false
  cmdStuck := false
  isocArmed := false
  isocFrame := 0
  pending := []
  started := []
  cancelled := []
  enq := 0
  deq := 0

/-! ## Parameter words -/

/-- R126: `cfg_p0`. -/
def cfgP0 (e : Endpoint) (action : CfgAction) : Word :=
  place (epTypeCode e.type) 1 ||| place (e.maxpacket.setWidth 11) 3
    ||| place (if isIn e.number then (epBits e.number) >>> 1 else 0) 17 ||| place (actionCode action) 30

/-- The types with a service interval (R28, R127). -/
def hasInterval (t : EpType) : Bool :=
  match t with
  | .isoc | .interrupt => true
  | .control | .bulk => false

/-- R127: `cfg_p1`. -/
def cfgP1 (e : Endpoint) : Word :=
  bitWord true 8 ||| bitWord (e.type != .control) 9 ||| bitWord (e.type == .control || e.type == .isoc) 10
    ||| place (if hasInterval e.type then e.interval - 1 else 0) 16 ||| place (epBits e.number) 25

/-- R129: the address a `STARTTRANSFER` names, `RING_BASE(n) + 16 * i`. -/
def tdAddr (s : State) (n : EpNum) (i : Slot) : Quad := BitVec.ofNat 64 (s.slotAddr n i.val)

/-! ## Descriptor values -/

/-- The four words of a descriptor (R130). -/
structure Desc where
  bpl : Word
  bph : Word
  size : Word
  ctrl : Word
deriving DecidableEq, Repr

/-- The `CTRL` bits of a constructor of R134: every unlisted field 0, `HWO` set. -/
def ctrlFlags (lst chn isp ioc : Bool) : CtrlBits :=
  { hwo := true, lst, chn, csp := false, isp, ioc, rsvLo := 0, sid := 0, rsvHi := 0 }

/-- A descriptor value with buffer `a`, `len` bytes, a type and its `CTRL` bits. -/
def mkDesc (a : Quad) (len : Nat) (t : TrbTyp) (c : CtrlBits) : Desc :=
  { bpl := quadLow a, bph := quadHigh a, size := place (BitVec.ofNat 24 len) 0, ctrl := ctrlWord t c }

/-- R134: `mk_normal`. -/
def mkNormal (a : Quad) (len : Nat) (chn ioc isp : Bool) : Desc :=
  mkDesc a len .normal (ctrlFlags false chn isp ioc)

/-- R134: `mk_isoc`. -/
def mkIsoc (a : Quad) (len : Nat) (first chn ioc : Bool) : Desc :=
  mkDesc a len (if first then .isocFirst else .isoc) (ctrlFlags false chn false ioc)

/-- R134: `mk_setup`. -/
def mkSetup (cfg : Cfg) : Desc := mkDesc cfg.setupBufAddr 8 .controlSetup (ctrlFlags true false true true)

/-- R134, R338: `mk_data`. -/
def mkData (a : Quad) (len : Nat) (out : Bool) : Desc :=
  mkDesc a len .controlData (ctrlFlags true false out true)

/-- R134: `mk_status`. -/
def mkStatus (cfg : Cfg) (three : Bool) : Desc :=
  mkDesc cfg.setupBufAddr 0 (if three then .controlStatus3 else .controlStatus2)
    (ctrlFlags true false false true)

/-- R134: `mk_link`. -/
def mkLink (cfg : Cfg) (n : EpNum) : Desc :=
  mkDesc cfg.ringBase[n] 0 .link (ctrlFlags false false false false)

/-- The descriptor an instruction names. -/
def descOf (t : TrbTyp) (f : TrbFields) : Desc :=
  { bpl := f.bpl, bph := f.bph, size := f.size, ctrl := ctrlWord t f.ctrl }

/-- A `CTRL` word the core may write: its type is not reserved and the fields that the core writes as 0 are 0
(R130, R132, R162). -/
def ctrlWritable (ctrl : Word) : Bool :=
  (trbTypOf (ctrl.extractLsb' 4 6)).isSome && (ctrlBitsOf ctrl).reservedZero

/-- A descriptor the core may write (R130, R134, R162). That R134's zero in `CSP`, `SID`, `PCM1` and `TRBSTS`
makes them reserved fields is the model's choice (log entry 10). -/
def Desc.writable (d : Desc) : Bool := ctrlWritable d.ctrl && d.size.extractLsb' 24 8 == 0

/-! ## Ring arithmetic -/

/-- R280: `adv`. -/
def adv (i : Slot) : Slot := if i.val = 254 then 0 else ⟨(i.val + 1) % 255, Nat.mod_lt _ (by decide)⟩

/-- R280: `k` applications of `adv`. -/
def advN : Nat → Slot → Slot
  | 0, i => i
  | k + 1, i => advN k (adv i)

/-- R281: descriptors handed over and not yet retired or released, `(enq - deq) mod 255`. -/
def outstanding (e : Endpoint) : Nat := (e.enq.val + 255 - e.deq.val) % 255

/-- R282: the free count. -/
def freeSlots (e : Endpoint) : Nat := Config.ringCap - outstanding e

/-- R285: the descriptors a request needs. -/
def need (r : Request) : Nat := r.segs.length + (if r.extra = .none then 0 else 1)

/-- The slots a request holds, `first, adv(first), ...`, `ndesc` of them (R40). -/
def slotsOf (r : Request) : List Slot :=
  match r.first with
  | none => []
  | some i => (List.range r.ndesc).map fun k => advN k i

/-- The least multiple of `m` that is at least `n` (R341). -/
def roundUp (n m : Nat) : Nat := (n + m - 1) / m * m

/-- R287: `needs_extra`. -/
def needsExtra (e : Endpoint) (length : Nat) (zero : Bool) : Extra :=
  if e.type = .bulk ∨ e.type = .interrupt then
    let m := e.maxpacket.toNat
    if isIn e.number = true then
      if zero = true ∧ 0 < length ∧ length % m = 0 then .zlp else .none
    else if length = 0 ∨ length % m ≠ 0 then .pad
    else .none
  else .none

/-- R288: `desc(ep, r, k)`. -/
def descAt (cfg : Cfg) (e : Endpoint) (r : Request) (k : Nat) : Desc :=
  let last := k + 1 == need r
  let m := e.maxpacket.toNat
  let seg : Quad × Nat :=
    match r.segs[k]? with
    | some s => s
    | none => (cfg.padBufAddr, if r.extra = .zlp then 0 else m - r.length % m)
  if e.type = .isoc then mkIsoc seg.1 seg.2 (k == 0) (!last) last
  else mkNormal seg.1 seg.2 (!last) last (!isIn e.number)

/-- R294: `isoc_start_frame`. -/
def isocStartFrame (e : Endpoint) : BitVec 16 :=
  let period := 2 ^ (e.interval.toNat - 1)
  let base := e.isocFrame.toNat / period * period
  BitVec.ofNat 16 (base + max 4 period)

/-! ## EP0 -/

/-- R349: `ep0_mps`. -/
def ep0Mps : Speed → BitVec 16
  | .ss => 512
  | .hs => 64
  | .fs => 64
  | .ls => 8

/-- R155: `wLength`, little-endian in bytes 6 and 7. -/
def wLength (p : Vector Byte 8) : BitVec 16 := p[7] ++ p[6]

/-- R155: bit 7 of `bmRequestType`. -/
def setupIsIn (p : Vector Byte 8) : Bool := p[0].getLsbD 7

/-- R331: the setup-stage request. -/
def setupRequest (cfg : Cfg) : Request :=
  { id := .intSetup, ep := 0, segs := [(cfg.setupBufAddr, 8)], length := 8, zero := false, first := none,
    ndesc := 0, extra := .none, actual := 0, outcome := none, kind := .ep0Setup }

/-- R331: the status-stage request. -/
def statusRequest (cfg : Cfg) : Request :=
  { id := .intStatus, ep := 0, segs := [(cfg.setupBufAddr, 0)], length := 0, zero := false, first := none,
    ndesc := 0, extra := .none, actual := 0, outcome := none, kind := .ep0Status }

/-- R424: a fresh request of an upstream `submit`. -/
def userRequest (n : EpNum) (k : BitVec 32) (segs : List (Quad × Nat)) (zero : Bool) : Request :=
  { id := .user k, ep := n, segs := segs, length := (segs.map fun s => s.2).sum, zero := zero, first := none,
    ndesc := 0, extra := .none, actual := 0, outcome := none, kind := .user }

/-! ## Descriptors of direct calls (log entry 10) -/

/-- The segment that a descriptor's operands name. -/
def trbSeg (f : TrbFields) : Quad × Nat := (quadOf f.bpl f.bph, (f.size.extractLsb' 0 24).toNat)

/-- The types that the ring manager writes, on an endpoint above EP0 (R134, R288). -/
def ringTyp : TrbTyp → Bool
  | .normal | .isocFirst | .isoc => true
  | .controlSetup | .controlStatus2 | .controlStatus3 | .controlData | .link => false

/-- The request of the first descriptor of a direct call, at slot `i` of ring `n` (R38, R288). -/
def directRequest (n : EpNum) (i : Slot) (f : TrbFields) : Request :=
  { userRequest n f.req [trbSeg f] false with first := some i, ndesc := 1 }

/-- A request with one more descriptor of a direct call. -/
def Request.extend (r : Request) (f : TrbFields) : Request :=
  { r with segs := r.segs ++ [trbSeg f], length := r.length + (trbSeg f).2, ndesc := r.ndesc + 1 }

/-- The request of the stage that a descriptor type stands for on EP0 (R331). -/
def stageRequest (cfg : Cfg) (n : EpNum) (t : TrbTyp) (f : TrbFields) : Request :=
  match t with
  | .controlSetup => setupRequest cfg
  | .controlStatus2 | .controlStatus3 => statusRequest cfg
  | .normal | .controlData | .isocFirst | .isoc | .link => userRequest n f.req [trbSeg f] false

end Sys2Proof.Machine
end

