-- ==== Sys2Proof/Machine/Flags.lean ====
section
/-!
DEFINITION. The status computations: event status bits (R104), descriptor status (R131, R133), the
classes of a request's descriptors (R296), outcomes (R297), the interrupt line (R465), the desired
role (R391), terminal link states (R377), and the code and information of an error (R451, R463).
-/

namespace Sys2Proof.Machine

/-! ## Status bits -/

/-- `STATUS[0]`, `BUSERR` (R104). -/
def busErr (s : BitVec 4) : Bool := s.getLsbD 0

/-- `STATUS[1]`, `SHORT` (R104). -/
def shortBit (s : BitVec 4) : Bool := s.getLsbD 1

/-- `STATUS[3]`, `MISSED_ISOC` on an isochronous endpoint (R104). -/
def missedBit (s : BitVec 4) : Bool := s.getLsbD 3

/-- `HWO` of a `CTRL` word (R130). -/
def hwoOf (ctrl : Word) : Bool := bitAt ctrl 0

/-- `SIZE.BUFSIZ` (R130). -/
def bufSiz (size : Word) : Nat := (size.extractLsb' 0 24).toNat

/-- `SIZE.TRBSTS` (R130). -/
def trbSts (size : Word) : BitVec 4 := size.extractLsb' 28 4

/-- A `CTRL` word with `HWO` cleared. -/
def clearHwo (ctrl : Word) : Word := ctrl &&& 0xFFFFFFFE#32

/-- `CMDACT` of a command word (R120). -/
def cmdActive (w : Word) : Bool := bitAt w 10

/-- `CMDSTATUS` of a read-back command word (R121). -/
def cmdStatus (w : Word) : BitVec 4 := w.extractLsb' 12 4

/-- The transfer-resource index of a read-back command word (R121). -/
def cmdRsc (w : Word) : BitVec 7 := w.extractLsb' 16 7

/-! ## Accounting -/

/-- How far the silicon has come with a request (R296). -/
inductive Cls where
  | full
  | untouched
  | shortEvident
  | partly
deriving DecidableEq, Repr

/-- What `account` reports (R296): the class, the bytes moved, a missed interval, and the slots the
silicon skipped. -/
structure Account where
  cls : Cls
  actual : Nat
  missed : Bool
  tail : List Slot
deriving DecidableEq, Repr

/-- The bytes the leading descriptors moved for the request's own segments, clamped at 0 for each
(R296, R298); `sizes` are the `SIZE` words of the descriptors that read `HWO = 0`. -/
def movedBytes : List (Quad × Nat) → List Word → Nat
  | seg :: segs, size :: sizes => (seg.2 - min (bufSiz size) seg.2) + movedBytes segs sizes
  | [], _ => 0
  | _ :: _, [] => 0

/-- R296: the account of a request from the `SIZE` words of its leading descriptors and its `tail`. -/
def accountOf (r : Request) (sizes : List Word) (tail : List Slot) : Account where
  cls :=
    if sizes.length = r.ndesc then .full
    else if sizes = [] then .untouched
    else if sizes.any fun w => 0 < bufSiz w then .shortEvident
    else .partly
  actual := movedBytes r.segs sizes
  missed := sizes.any fun w => trbSts w == 1
  tail := tail

/-- R297: the outcome of a retired request. -/
def outcomeOf (type : EpType) (st : BitVec 4) (length actual : Nat) (missed : Bool) : Outcome :=
  if busErr st then .busError
  else if type = .isoc ∧ (missed = true ∨ missedBit st = true) then .missedIsoc
  else if actual < length then .short
  else .ok

/-! ## Interrupt, role, link -/

/-- R465: the silicon asserts the interrupt while the buffer is enabled, its unread count is not 0 and
`INTMASK` is 0. -/
def irq (s : State) : Bool := s.evbuf.enabled && s.hwCount != 0 && !bitAt s.regs.gevntsiz 31

/-- R391: the desired role. -/
def desired (caps : DrCaps) (id vbus : Bool) : OtgRole :=
  match caps with
  | .hostOnly => .host
  | .deviceOnly => .device
  | .dualRole => if id = false then .host else if vbus = true then .device else .idle

/-- R377: the terminal link states. -/
def terminal : LinkState → Bool
  | .u0 | .u1 | .u2 | .u3 | .ssDisabled | .rxDetect | .ssInactive | .compliance | .loopback => true
  | .polling | .recovery | .hotReset | .reset | .resume => false

/-- R376: the state a request waits for; recovery ends in `U0`. -/
def wanted (target : LinkState) : LinkState := if target = .recovery then .u0 else target

/-! ## Errors -/

/-- The code of an error (R451). -/
def Err.code : Err → Code
  | .cmdFailed _ _ => .cmdFailed
  | .cmdTimeout _ => .cmdTimeout
  | .busy _ => .busy
  | .inval => .inval
  | .linkTimeout => .linkTimeout
  | .linkMismatch _ => .linkMismatch

/-- The number of a code (R451). -/
def Code.number : Code → Nat
  | .cmdFailed => 1
  | .cmdTimeout => 2
  | .busy => 3
  | .inval => 4
  | .linkTimeout => 5
  | .linkMismatch => 6
  | .hostStart => 7
  | .deviceStart => 8
  | .erratic => 9
  | .evtOverflow => 10
  | .devOverflow => 11
  | .unknownEvent => 12
  | .auxEvent => 13

/-- R455: codes 10 to 13 are warnings. -/
def Code.isWarning (c : Code) : Bool := 10 ≤ c.number

/-- R463: the payload `(n, info)` of a notified command error; `n` alone where there is no further
information. -/
def errInfo (n : EpNum) : Err → Info
  | .cmdFailed _ st => .epStatus n st
  | .cmdTimeout _ | .busy _ | .inval | .linkTimeout | .linkMismatch _ => .ep n

end Sys2Proof.Machine
end

