-- ==== Sys2Proof/Machine/Silicon.lean ====
section
/-!
DEFINITION. What happens between two accesses of a core agent (R12, R88): the steps of the silicon
`SI` under its contract (R87 to R93), and of the top half `TH` (R466), which is the block's only analogue of
taking an exception (R469). Each is a total function; one that may not step where it stands leaves the state as
it is.
-/

namespace Sys2Proof.Machine

/-! ## The top half -/

/-- R466: `TH`'s atomic step. It masks the interrupt and defers to the bottom half; it saves no state
(R469). The mask is a register write like any other, so R162 applies to it. -/
def topHalf (s : State) : State :=
  if irq s = false ∨ s.evbuf.pending = true ∨ Agent.th ∈ s.run.stopped then s
  else
    let v := setField s.regs.gevntsiz 31 (1 : BitVec 1)
    if writable .gevntsiz v = true then
      (s.setReg .gevntsiz v).modEvbuf fun b => { b with pending := true }
    else (s.addFault .reservedWrite).stop .th

/-! ## Commands -/

/-- The slot of ring `n` that a `STARTTRANSFER`'s parameter words name (R90, R129). -/
def startSlot (s : State) (n : EpNum) : Option Slot :=
  let off := (quadOf s.regs.depcmdpar1[n] s.regs.depcmdpar0[n]).toNat - s.slotAddr n 0
  if h : off / 16 < 255 then some ⟨off / 16, h⟩ else none

/-- A ring on which the silicon has no transfer. -/
def SiRing.idle : SiRing := { slot := none, halted := false, ended := [] }

/-- What the silicon does with its place on the ring when the command `old` completes with success (R90, R92
(b)): a started transfer begins at the slot it named; an update lets it go on; an `ENDTRANSFER` without
`CMDIOC` ends the transfer, and one with it ends it at its `EPCMDCMPLT` event. -/
def siOnDone (s : State) (n : EpNum) (old w : Word) : State :=
  if cmdStatus w ≠ 0 then s
  else if old.extractLsb' 0 4 = cmdTypCode .startTransfer then
    s.modRing n fun _ => { SiRing.idle with slot := startSlot s n }
  else if old.extractLsb' 0 4 = cmdTypCode .updateTransfer then s.modRing n fun g => { g with halted := false }
  else if old.extractLsb' 0 4 = cmdTypCode .endTransfer ∧ bitAt old 8 = false then
    s.modRing n fun _ => SiRing.idle
  else s

/-- R89: `SI` completes the active command on `n`, writing `DEPCMD(n)` once with `CMDACT = 0`. -/
def siCmdDone (s : State) (n : EpNum) (w : Word) : State :=
  if cmdActive s.regs.depcmd[n] = true then
    siOnDone (s.setReg (.depcmd n) (w &&& 0xFFFFFBFF#32)) n s.regs.depcmd[n] w
  else s

/-- R89: `SI` writes the result of an active `GETEPSTATE`. -/
def siEpState (s : State) (n : EpNum) (w : Word) : State :=
  if cmdActive s.regs.depcmd[n] = true ∧ s.regs.depcmd[n].extractLsb' 0 4 = cmdTypCode .getEpState then
    s.setReg (.depcmdpar2 n) w
  else s

/-! ## Descriptors -/

/-- Where the silicon goes on after a short packet, from slot `i` (R90): the descriptors of the chain that are
its own are passed, the first without `CHN` included; `fuel` bounds the walk by the ring. -/
def skipChain (s : State) (n : EpNum) : Nat → Slot → Slot
  | 0, i => i
  | fuel + 1, i =>
    let ctrl := Memory.readWord s.mem (s.slotAddr n i.val + 12)
    if hwoOf ctrl = false then i
    else if bitAt ctrl 2 = true then skipChain s n fuel (adv i)
    else adv i

/-- An `UPDATETRANSFER` is active on `n`. -/
def updating (s : State) (n : EpNum) : Bool :=
  cmdActive s.regs.depcmd[n] && s.regs.depcmd[n].extractLsb' 0 4 == cmdTypCode .updateTransfer

/-- R90: the silicon may process descriptors of ring `n`: the transfer is started, and the silicon has not
stopped there or an update is under way. -/
def siMayProcess (s : State) (n : EpNum) : Bool :=
  ((s.ep n).any fun e => e.xferStarted) && (!s.si.rings[n].halted || updating s n)

/-- The silicon's place after the descriptor in slot `i` with the word `ctrl` (R90): `LST` ends the transfer, a
short packet skips the rest of the chain, and an ended chain is one to report. -/
def SiRing.after (g : SiRing) (s : State) (n : EpNum) (i : Slot) (ctrl : Word) (short : Bool) : SiRing where
  slot :=
    if bitAt ctrl 1 = true then none
    else if short = true ∧ bitAt ctrl 2 = true then some (skipChain s n 255 (adv i))
    else some (adv i)
  halted := false
  ended := if short = true ∨ bitAt ctrl 2 = false then g.ended ++ [short && !isIn n] else g.ended

/-- R90: `SI` processes the descriptor its place names: it stores `data` (OUT), writes the bytes remaining and
the status, then clears `HWO`. At `HWO = 0` it stops until an update. A store past the address space does not
happen. That these writes are one step is the model's choice (R12, R87; log entry 32). -/
def siProcess (s : State) (n : EpNum) (rem : BitVec 24) (sts : BitVec 4) (short : Bool)
    (data : List Byte) : State :=
  match s.si.rings[n].slot with
  | none => s
  | some i =>
    let a := s.slotAddr n i.val
    let ctrl := Memory.readWord s.mem (a + 12)
    let size := Memory.readWord s.mem (a + 8)
    let buf := (quadOf (Memory.readWord s.mem a) (Memory.readWord s.mem (a + 4))).toNat
    let data := if isIn n = true then [] else data
    if siMayProcess s n = false then s
    else if hwoOf ctrl = false then s.modRing n fun g => { g with halted := true }
    else if rem.toNat ≤ bufSiz size ∧ data.length ≤ bufSiz size - rem.toNat
        ∧ buf + data.length ≤ 2 ^ s.cfg.dmaAddrBits ∧ a + 16 ≤ 2 ^ s.cfg.dmaAddrBits then
      let m := Memory.writeBytes s.mem buf data
      let m := Memory.writeWord m (a + 8) (setField (setField size 0 rem) 28 sts)
      let m := Memory.writeWord m (a + 12) (clearHwo ctrl)
      (s.setMem m).modRing n fun g => g.after s n i ctrl short
    else s

/-! ## Events -/

/-- The endpoint of an event word (R102). -/
def eventEp (w : Word) : EpNum := epNum (w.extractLsb' 1 5)

/-- An event word that reports a transfer's progress or end (R103). -/
def isTransferEvent (w : Word) : Bool :=
  !bitAt w 0 && (w.extractLsb' 6 4 == epEvtCode .xferComplete || w.extractLsb' 6 4 == epEvtCode .xferInProgress)

/-- R90: a transfer event carries `SHORT` when it reports a chain that a short packet ended on an OUT endpoint,
and no other event does. An event with it reports the chains up to the first such one; `XFERINPROGRESS` without
it reports the oldest, and `XFERCOMPLETE` without it all that are left (log entry 12). -/
def shortBitRight (s : State) (w : Word) : Bool :=
  if isTransferEvent w then
    let ended := s.si.rings[eventEp w].ended
    if shortBit (w.extractLsb' 12 4) then ended.any id
    else if w.extractLsb' 6 4 = epEvtCode .xferComplete then !ended.any id
    else !(ended.headD false)
  else true

/-- What the silicon does with its place on a ring once it has written an event word: the chain is reported
(R90); an `XFERCOMPLETE`, and the `EPCMDCMPLT` of an `ENDTRANSFER`, end the transfer (R92 (b)). -/
def siOnEvent (s : State) (w : Word) : State :=
  if bitAt w 0 = true then s
  else if w.extractLsb' 6 4 = epEvtCode .xferComplete then s.modRing (eventEp w) fun _ => SiRing.idle
  else if w.extractLsb' 6 4 = epEvtCode .xferInProgress then
    s.modRing (eventEp w) fun g =>
      { g with ended := (if shortBit (w.extractLsb' 12 4) then g.ended.dropWhile (!·) else g.ended).tail }
  else if w.extractLsb' 6 4 = epEvtCode .epCmdCmplt ∧ w.extractLsb' 24 4 = cmdTypCode .endTransfer then
    s.modRing (eventEp w) fun _ => SiRing.idle
  else s

/-- R91: `SI` writes an event word at its write offset, then adds 4 to the count it reports. That it writes
none where 4 more would pass the count's 16 bits is the model's choice (log entry 12), and so is that the word and
its count are one step (R12, R87; log entry 32). -/
def siEvent (s : State) (w : Word) : State :=
  let a := s.cfg.evbufAddr.toNat + s.si.wpos.toNat
  if s.evbuf.enabled = true ∧ shortBitRight s w = true ∧ s.hwCount.toNat + 4 < 2 ^ 16
      ∧ a + 4 ≤ 2 ^ s.cfg.dmaAddrBits then
    siOnEvent (((s.setMem (Memory.writeWord s.mem a w)).setReg .gevntcount (s.regs.gevntcount + 4)).modSi
      fun u => { u with wpos := BitVec.ofNat 16 ((u.wpos.toNat + 4) % Config.evbufLen) }) w
  else s

/-- R91, R205: `SI` reports an overflow once the unread count would pass the buffer's length; the words
of the buffer are then whatever it leaves. The words and the count are one step (log entry 32). -/
def siOverflow (s : State) (c : BitVec 16) (words : List Word) : State :=
  let a := s.cfg.evbufAddr.toNat
  if s.evbuf.enabled = true ∧ Config.evbufLen < s.hwCount.toNat + 4 ∧ Config.evbufLen < c.toNat
      ∧ words.length ≤ Config.evbufWords ∧ a + Config.evbufLen ≤ 2 ^ s.cfg.dmaAddrBits then
    (s.setMem (Memory.writeBytes s.mem a (words.flatMap bytesOfWord))).setReg .gevntcount (c.setWidth 32)
  else s

/-! ## One environment step -/

/-- `SI` changes what is its own in a register (R11, R51, R93; log entry 27). -/
def siReg (s : State) (r : Reg) (v : Word) : State :=
  let mask := siBits s.cfg.hw.numEps r
  s.setReg r ((s.regs.get r &&& ~~~mask) ||| (v &&& mask))

/-- One step of `SI` or `TH`. -/
def envStep (s : State) : EnvStep → State
  | .cmdDone n w => siCmdDone s n w
  | .epState n w => siEpState s n w
  | .process n rem sts short data => siProcess s n rem sts short data
  | .endXfer n => s.modRing n fun g => { g with slot := none }
  | .event w => siEvent s w
  | .overflow c words => siOverflow s c words
  | .reg r v => siReg s r v
  | .topHalf => topHalf s

/-- What happens between this access and the one before: the next entry of the schedule. -/
def tickState (s : State) : State :=
  match s.env.sched with
  | [] => s
  | es :: rest => es.foldl envStep (s.modEnv fun e => { e with sched := rest })

end Sys2Proof.Machine
end

