-- ==== Sys2Proof/Machine/Ops.lean ====
section
/-!
DEFINITION. The primitives of R11 as operations of one agent: register and memory accesses, with the
environment's steps just before each (R12, R88); notifications, model faults, draws and the lock; and
the block's analogues of taking an exception and returning from one (R466, R467, R469, R471).
-/

namespace Sys2Proof.Machine

/-- How an operation ends early: a raised error (R453), an agent stopped by a model fault (R462), an
access outside the address space, or an access the rules do not make. -/
inductive Exit where
  | raised (e : Err)
  | halted
  | fault (f : Fault)
  | refused (r : Refusal)
deriving DecidableEq, Repr

/-- An operation of one agent. State written before an early end stays written (R453). -/
abbrev M := EStateM Exit State

/-- How an agent's step ends for the machine: a raised error and a model fault are next states. -/
def toOutcome (m : M Unit) (s : State) : Host.Outcome State Fault Refusal :=
  match m s with
  | .ok _ t => .next t
  | .error (.raised _) t => .next t
  | .error .halted t => .next t
  | .error (.fault f) _ => .fault f
  | .error (.refused r) _ => .refused r

/-! ## Control -/

/-- `f` for each element in order. -/
def forEach {α : Type} : List α → (α → M Unit) → M Unit
  | [], _ => pure ()
  | a :: rest, f => do
    f a
    forEach rest f

/-- An update of the state. -/
def upd (f : State → State) : M Unit := modify f

/-- `raise e` (R453). -/
def raise {α : Type} (e : Err) : M α := throw (.raised e)

/-- The agent at work, which is the holder of the lock (R472), recorded as stopped. -/
def State.stopHolder (s : State) : State :=
  match s.lock with
  | none => s
  | some a => s.stop a

/-- `fault F` (R462): record the model fault and stop the agent at work. -/
def modelFault {α : Type} (f : ModelFault) : M α := do
  upd fun s => (s.addFault f).stopHolder
  throw .halted

/-- `notify` (R457). -/
def notify (n : Note) : M Unit := upd fun s => s.note n

/-- `notify` of a code of R451. -/
def notifyCode (c : Code) (i : Info) : M Unit := notify (.code c i)

/-- `notify(e, (n, i))` of a command's error (R463). -/
def notifyErr (n : EpNum) (e : Err) : M Unit := notifyCode (Err.code e) (errInfo n e)

/-- `notify(e, n)`: the endpoint alone (R222, R223, R463). -/
def notifyErrEp (n : EpNum) (e : Err) : M Unit := notifyCode (Err.code e) (.ep n)

/-! ## Accesses -/

/-- The environment's turn before an access. -/
def tick : M Unit := upd tickState

/-- `RegRead` (R11, R70, R83): no side effect of its own. -/
def regRead (r : Reg) : M Word := do
  tick
  if Reg.isOpaque r then throw (.refused .opaqueRegister)
  else return (← get).regs.get r

/-- `RegWrite` (R11, R83, R162). -/
def regWrite (r : Reg) (v : Word) : M Unit := do
  tick
  if Reg.isOpaque r then throw (.refused .opaqueRegister)
  else if Reg.isReadOnly r then throw (.refused .readOnlyRegister)
  else if writable r v then upd fun s => s.setReg r (written r (s.regs.get r) v)
  else modelFault .reservedWrite

/-- `RegRMW` (R11, R84): a read and then a write, with the environment's turn between. -/
def regRMW {n : Nat} (r : Reg) (lo : Nat) (v : BitVec n) : M Unit := do
  let w ← regRead r
  regWrite r (setField w lo v)

/-- `RegRead` at an offset from `REGBASE` (R70, R80). -/
def regReadAt (off : Nat) : M Word := do
  match regAt (← get).cfg.regMap off with
  | none => throw (.refused .badOffset)
  | some r => regRead r

/-- `RegWrite` at an offset from `REGBASE` (R70, R80). -/
def regWriteAt (off : Nat) (v : Word) : M Unit := do
  match regAt (← get).cfg.regMap off with
  | none => throw (.refused .badOffset)
  | some r => regWrite r v

/-- The environment's turn, then a check that `len` bytes from `a` are in the address space (R71). -/
def access (a len : Nat) : M Unit := do
  tick
  if a + len ≤ 2 ^ (← get).cfg.dmaAddrBits then pure () else throw (.fault .dmaAddress)

/-- `MemRead(a, 4)`, little-endian (R74, R75, R82). -/
def memRead32 (a : Nat) : M Word := do
  access a 4
  return Memory.readWord (← get).mem a

/-- `MemRead(a, 1)`. -/
def memRead8 (a : Nat) : M Byte := do
  access a 1
  return Memory.read (← get).mem a

/-- `MemWrite(a, 4, w)`, little-endian. -/
def memWrite32 (a : Nat) (w : Word) : M Unit := do
  access a 4
  upd fun s => s.setMem (Memory.writeWord s.mem a w)

/-- `MemWrite(a, 1, b)`. -/
def memWrite8 (a : Nat) (b : Byte) : M Unit := do
  access a 1
  upd fun s => s.setMem (Memory.write s.mem a b)

/-- R422: `k` words of zeros from `a` on, one write each. -/
def zeroWords (a : Nat) : Nat → M Unit
  | 0 => pure ()
  | k + 1 => do
    memWrite32 a 0
    zeroWords (a + 4) k

/-- `Publish` (R86). Memory and registers are one sequentially consistent store (R95), so every write
is visible to the silicon at once and the ordering point changes no state. -/
def publish : M Unit := pure ()

/-! ## Records -/

/-- `C.eps[n]`. -/
def getEp (n : EpNum) : M (Option Endpoint) := return (← get).ep n

/-- `C.eps[n]` where a rule reads its fields; a missing record is `F_RESERVED_WRITE` (R240, R462, log
entry 12). -/
def needEp (n : EpNum) : M Endpoint := do
  match (← get).ep n with
  | some e => pure e
  | none => modelFault .reservedWrite

/-- A write to fields of `C.eps[n]`. -/
def modEp (n : EpNum) (f : Endpoint → Endpoint) : M Unit := upd fun s => s.modEp n f

/-- `C.eps[n] <- e`. -/
def putEp (n : EpNum) (e : Option Endpoint) : M Unit := upd fun s => s.setEp n e

/-- `C.reqs[id]`. -/
def getReq (id : ReqId) : M (Option Request) := return (← get).req id

/-- A write to fields of `C.reqs[id]`. -/
def modReq (id : ReqId) (f : Request → Request) : M Unit := upd fun s => s.modReq id f

/-- The configuration (R21). -/
def getCfg : M Cfg := return (← get).cfg

/-! ## Draws (R11) -/

/-- The next free value's index. -/
def draw : M Nat := do
  let k := (← get).env.draws
  upd fun s => s.modEnv fun e => { e with draws := e.draws + 1 }
  return k

/-- `draw({ACCEPT, DELAY, STALL})` (R335, R336): the environment's next reply, or a free value. -/
def drawReply : M SetupReply := do
  match (← get).env.replies with
  | r :: rest =>
    upd fun s => s.modEnv fun e => { e with replies := rest }
    return r
  | [] => return Config.freeReply (← draw)

/-- One write of the host child, with the environment's turn before it (R12, R403). An offset that is no register
of `REGMAP`, a register that is read only (log entry 29), and an address past the address space are not the
state's. That it may write DMA memory is R470's exception, for which R403 gives no detail (log entry 22). -/
def hostWrite (w : HostStep) : M Unit := do
  tick
  upd fun s =>
    match w with
    | .reg off v =>
      match regAt s.cfg.regMap off with
      | none => s
      | some r => if Reg.isReadOnly r then s else s.setReg r (written r (s.regs.get r) v)
    | .mem a b => if a < 2 ^ s.cfg.dmaAddrBits then s.setMem (Memory.write s.mem a b) else s

/-- What the host child writes inside one of its two calls (R12, R403): the next entry of its schedule (log entry
22). -/
def hostTurn : M Unit := do
  match (← get).env.hostSteps with
  | [] => pure ()
  | ws :: rest => do
    upd fun s => s.modEnv fun e => { e with hostSteps := rest }
    forEach ws hostWrite

/-- `draw({OK, FAIL})` (R403): the host child's next answer, or a free value. -/
def drawHostAnswer : M Bool := do
  match (← get).env.hostAnswers with
  | r :: rest =>
    upd fun s => s.modEnv fun e => { e with hostAnswers := rest }
    return r
  | [] => return Config.freeHostAnswer (← draw)

/-- `draw({0, 4, 8, ..., 4092})` (R205): a free word index, times 4. -/
def drawOffset : M (BitVec 16) := return ((Config.freeOverflowWord (← draw)).setWidth 16) <<< 2

/-- The resource index a command carries: the endpoint's, or a free value where it holds none
(R123, log entry 9). -/
def rscOf (e : Endpoint) : M (BitVec 7) :=
  match e.rsc with
  | some r => pure r
  | none => return Config.freeRsc (← draw)

/-! ## The lock (R472) -/

/-- Take the lock. -/
def acquire (a : Agent) : M Unit := upd fun s => s.setLock (some a)

/-- Give the lock back. -/
def release : M Unit := upd fun s => s.setLock none

/-! ## The interrupt: entry and return -/

/-- R466, R469: entry. `TH` masks the interrupt and sets `pending`; nothing is saved. -/
def takeInterrupt : M Unit := upd topHalf

/-- R201, R471: return. The drain clears `pending` and unmasks, and `BH` releases the lock. -/
def returnFromInterrupt : M Unit := do
  upd fun s => s.modEvbuf fun b => { b with pending := false }
  regRMW .gevntsiz 31 (0 : BitVec 1)
  upd fun s => s.modRun fun u => { u with drain := false }
  release

end Sys2Proof.Machine
end

