-- ==== Sys2Proof/Machine/Engine.lean ====
section
/-!
DEFINITION. The Endpoint Command Engine (R240 to R249) and the nine commands' operations (R250 to
R258). Each command's operation is the one other rules call; the command words of the opcode table
call them too (Commands.lean).
-/

namespace Sys2Proof.Machine

/-! ## The engine -/

/-- R244: whether the timed-out command on `n` is still active; if it is not, the mark is dropped. -/
def precheckBusy (n : EpNum) : M Bool := do
  let e ← needEp n
  if e.cmdStuck then
    let w ← regRead (.depcmd n)
    if cmdActive w then return true
    else
      modEp n fun e => { e with cmdStuck := false }
      return false
  else return false

/-- R243: the result in a read-back command word. -/
def resultOf (n : EpNum) (rb : Word) : CmdResult :=
  if cmdStatus rb = 0 then .ok rb else .err (.cmdFailed n (cmdStatus rb))

/-- R242: at most `k` polls, each after a yield to the environment; then the timeout. -/
def pollLoop (n : EpNum) : Nat → M CmdResult
  | 0 => do
    modEp n fun e => { e with cmdStuck := true }
    return .err (.cmdTimeout n)
  | k + 1 => do
    let rb ← regRead (.depcmd n)
    if cmdActive rb then pollLoop n k else return resultOf n rb

/-- R242: `poll`, bounded by `CMD_POLL_LIMIT`. -/
def poll (n : EpNum) : M CmdResult := pollLoop n Config.cmdPollLimit

/-- The operands of a command (R240). -/
structure Cmd where
  typ : CmdTyp
  p0 : Word := 0
  p1 : Word := 0
  p2 : Word := 0
  param : BitVec 16 := 0
  ioc : Bool := false
  forcerm : Bool := false
deriving DecidableEq, Repr

/-- The command word of a command (R120, R241). -/
def Cmd.word (c : Cmd) : Word := commandWord (cmdTypCode c.typ) c.param c.ioc c.forcerm

/-- R162: the reserved fields of a command's parameter words are 0 (R126 to R129): those of `cfg_p0` and `cfg_p1`,
the high half of `SETXFERRSC`'s, and every word a command does not use. -/
def Cmd.paramsLegal (c : Cmd) : Bool :=
  match c.typ with
  | .setEpConfig => c.p0 &&& 0x3C01C001#32 == 0 && c.p1 &&& 0x0000D0E0#32 == 0 && c.p2 == 0
  | .setXferRsc => c.p0.extractLsb' 16 16 == 0 && c.p1 == 0 && c.p2 == 0
  | .startTransfer => c.p2 == 0
  | .getEpState | .setStall | .clearStall | .updateTransfer | .endTransfer | .depStartCfg =>
    c.p0 == 0 && c.p1 == 0 && c.p2 == 0

/-- R241: the three parameter words, then the command word, then the polls; the parameter words are checked as
R162 has every register write checked. -/
def writeAndPoll (n : EpNum) (c : Cmd) : M CmdResult := do
  if c.paramsLegal then
    regWrite (.depcmdpar2 n) c.p2
    regWrite (.depcmdpar1 n) c.p1
    regWrite (.depcmdpar0 n) c.p0
    publish
    regWrite (.depcmd n) c.word
    poll n
  else modelFault .reservedWrite

/-- R241: `issue`. -/
def issue (n : EpNum) (c : Cmd) : M CmdResult := do
  if (← precheckBusy n) then return .err (.busy (some n)) else writeAndPoll n c

/-- R246: whether an attempt's result ends the attempts. -/
def CmdResult.settled : CmdResult → Bool
  | .err (.cmdFailed _ _) => false
  | .ok _ | .err _ => true

/-- R246: at most `k + 1` attempts; only `E_CMD_FAILED` is tried again. -/
def attempts (n : EpNum) (c : Cmd) : Nat → M CmdResult
  | 0 => issue n c
  | k + 1 => do
    let r ← issue n c
    if CmdResult.settled r then return r else attempts n c k

/-- R246: `issue_retry`, `CMD_ATTEMPTS` attempts in all. -/
def issueRetry (n : EpNum) (c : Cmd) : M CmdResult := attempts n c (Config.cmdAttempts - 1)

/-! ## The commands -/

/-- R250: `cmd_setepconfig`. -/
def cmdSetepconfig (n : EpNum) (action : CfgAction) : M CmdResult := do
  let e ← needEp n
  issueRetry n { typ := .setEpConfig, p0 := cfgP0 e action, p1 := cfgP1 e }

/-- R251: `cmd_setxferrsc`. -/
def cmdSetxferrsc (n : EpNum) : M CmdResult := issueRetry n { typ := .setXferRsc, p0 := 1 }

/-- R252: `cmd_getepstate`; the result is `DEPCMDPAR2(n)`. -/
def cmdGetepstate (n : EpNum) : M CmdResult := do
  match (← issueRetry n { typ := .getEpState }) with
  | .ok _ => return .ok (← regRead (.depcmdpar2 n))
  | .err e => return .err e

/-- R253: `cmd_setstall`; the caller sets the flag. -/
def cmdSetstall (n : EpNum) : M CmdResult := issueRetry n { typ := .setStall }

/-- R254: `cmd_clearstall`; the caller clears the flags. -/
def cmdClearstall (n : EpNum) : M CmdResult := issueRetry n { typ := .clearStall }

/-- R255: `cmd_starttransfer`. -/
def cmdStarttransfer (n : EpNum) (i : Slot) (frame : BitVec 16) : M CmdResult := do
  let td := tdAddr (← get) n i
  match (← issueRetry n { typ := .startTransfer, p0 := quadHigh td, p1 := quadLow td, param := frame }) with
  | .ok rb =>
    modEp n fun e => { e with rsc := some (cmdRsc rb), xferStarted := true, isocArmed := false }
    return .ok rb
  | .err e => return .err e

/-- R256: `cmd_updatetransfer` with the resource index `rsc`. -/
def cmdUpdatetransfer (n : EpNum) (rsc : BitVec 7) : M CmdResult :=
  issueRetry n { typ := .updateTransfer, param := rsc.setWidth 16 }

/-- R257: `cmd_endtransfer` with the resource index `rsc`; with `CMDIOC` the end waits for its event. -/
def cmdEndtransfer (n : EpNum) (rsc : BitVec 7) (ioc : Bool) : M CmdResult := do
  match (← issueRetry n { typ := .endTransfer, param := rsc.setWidth 16, ioc := ioc, forcerm := true }) with
  | .ok rb =>
    if ioc then modEp n fun e => { e with endPending := true } else pure ()
    return .ok rb
  | .err e => return .err e

/-- R245: whether a timed-out command on one of the endpoints is still active. -/
def exclusiveBusy : List EpNum → M Bool
  | [] => pure false
  | n :: rest => do
    match (← getEp n) with
    | none => exclusiveBusy rest
    | some e =>
      if e.cmdStuck then
        let w ← regRead (.depcmd n)
        if cmdActive w then return true else exclusiveBusy rest
      else exclusiveBusy rest

/-- R258: `cmd_depstartcfg`, on endpoint 0, refused before anything is written while another command
may be active (R245, R509). That its `E_BUSY` names no endpoint is the model's choice (log entry 19). -/
def cmdDepstartcfg (base : BitVec 16) : M CmdResult := do
  if (← exclusiveBusy Config.allEps) then return .err (.busy none)
  else issueRetry 0 { typ := .depStartCfg, param := base }

/-- `ENDTRANSFER` with the endpoint's own resource index (R257, R510). -/
def endTransferOf (n : EpNum) (ioc : Bool) : M CmdResult := do
  cmdEndtransfer n (← rscOf (← needEp n)) ioc

end Sys2Proof.Machine
end

