-- ==== Sys2Proof/Machine/Ring.lean ====
section
/-!
DEFINITION. The Transfer Ring Manager (R286 to R309). Endpoints are named by their physical number;
each operation reads the record it needs.
-/

namespace Sys2Proof.Machine

/-! ## Descriptors -/

/-- The fields of a descriptor at address `a`, `CTRL` without `HWO` (R289, R422); a reserved code or field is
`F_RESERVED_WRITE` (R162). -/
def fillAt (a : Nat) (d : Desc) : M Unit :=
  if d.writable then do
    memWrite32 a d.bpl
    memWrite32 (a + 4) d.bph
    memWrite32 (a + 8) d.size
    memWrite32 (a + 12) (clearHwo d.ctrl)
  else modelFault .reservedWrite

/-- The hand-over of a filled descriptor: `CTRL` with `HWO`, after `Publish` (R289, R422, R505). -/
def handAt (a : Nat) (d : Desc) : M Unit := do
  publish
  memWrite32 (a + 12) d.ctrl

/-- R289 up to the hand-over, at the enqueue slot: a hardware-owned slot is `F_RING_OVERWRITE` (R290). It answers
the slot's address. -/
def fillDesc (n : EpNum) (d : Desc) : M Nat := do
  let e ← needEp n
  let a := (← get).slotAddr n e.enq.val
  if hwoOf (← memRead32 (a + 12)) then modelFault .ringOverwrite
  else do
    fillAt a d
    return a

/-- The enqueue index advances (R289). -/
def advEnq (n : EpNum) : M Unit := modEp n fun e => { e with enq := adv e.enq }

/-- R289: `write_desc`. -/
def writeDesc (n : EpNum) (d : Desc) : M Unit := do
  let a ← fillDesc n d
  handAt a d
  advEnq n

/-- R296: `reclaim`; also one round of R305's `release_ring`: the slot's `HWO` is cleared. The rewritten word is
checked as R162 has every descriptor write checked. -/
def reclaim (n : EpNum) (i : Slot) : M Unit := do
  let a := (← get).slotAddr n i.val
  let ctrl ← memRead32 (a + 12)
  if ctrlWritable ctrl then memWrite32 (a + 12) (clearHwo ctrl) else modelFault .reservedWrite

/-- The slots from `i` up to, not including, `stop`, at most `fuel` of them. -/
def slotsUpTo (stop : Slot) : Nat → Slot → List Slot
  | 0, _ => []
  | fuel + 1, i => if i = stop then [] else i :: slotsUpTo stop fuel (adv i)

/-- R305: `release_ring`, the slots from `deq` to `enq`. A slot that a retirement after a cancel has passed by stays
as it is, though R290 and R305 have every slot software owned then (log entry 30). -/
def releaseRing (n : EpNum) : M Unit := do
  let e ← needEp n
  forEach (slotsUpTo e.enq 255 e.deq) (reclaim n)
  modEp n fun e => { e with enq := e.deq }

/-- R422: the link descriptor, written to the link slot with `HWO` last. -/
def writeLink (n : EpNum) (d : Desc) : M Unit := do
  let a := (← get).slotAddr n Config.linkSlot
  fillAt a d
  handAt a d

/-- R422: `ring_init`: the 1020 words of slots 0 to 254 zeroed one by one, then the link descriptor. The zero
words are R422's own and not checked against R162's reserved type 0 (log entry 15). -/
def ringInit (n : EpNum) : M Unit := do
  zeroWords ((← get).slotAddr n 0) (4 * Config.linkSlot)
  writeLink n (mkLink (← getCfg) n)
  modEp n fun e => { e with enq := 0, deq := 0 }

/-! ## Completion -/

/-- The request id taken out of every queue of a record. -/
def Endpoint.without (e : Endpoint) (id : ReqId) : Endpoint :=
  { e with pending := e.pending.filter (· ≠ id), started := e.started.filter (· ≠ id),
           cancelled := e.cancelled.filter (· ≠ id) }

/-- R299: `complete`. Only a `USER` request is notified (R331). -/
def complete (r : Request) (oc : Outcome) : M Unit := do
  modEp r.ep fun e => e.without r.id
  if r.kind = .user then notify (.complete r.id oc r.actual) else pure ()
  upd fun s => s.delReq r.id

/-- R296: the leading descriptors' `SIZE` words and the slots that still read `HWO = 1` after them.
`CTRL` is read first, and `SIZE` only when `HWO = 0` (R87, R507). -/
def readSlots (n : EpNum) : List Slot → Bool → M (List Word × List Slot)
  | [], _ => pure ([], [])
  | i :: rest, leading => do
    let a := (← get).slotAddr n i.val
    let owned := hwoOf (← memRead32 (a + 12))
    if leading && !owned then
      let w ← memRead32 (a + 8)
      let (sizes, tail) ← readSlots n rest true
      return (w :: sizes, tail)
    else
      let (sizes, tail) ← readSlots n rest false
      return (sizes, if owned then i :: tail else tail)

/-- R296: `account`. -/
def account (n : EpNum) (r : Request) : M Account := do
  let (sizes, tail) ← readSlots n (slotsOf r) true
  return accountOf r sizes tail

/-! ## Kick -/

/-- R288: the descriptors of a request from its `k`-th on, `fuel` of them. -/
def writeDescs (n : EpNum) (e : Endpoint) (r : Request) : Nat → Nat → M Unit
  | 0, _ => pure ()
  | fuel + 1, k => do
    writeDesc n (descAt (← getCfg) e r k)
    writeDescs n e r fuel (k + 1)

/-- The `count` descriptors of a request's chain, the first handed over after the rest (R505, D18; log entry
28). -/
def writeChain (n : EpNum) (e : Endpoint) (r : Request) : Nat → M Unit
  | 0 => pure ()
  | rest + 1 => do
    let d := descAt (← getCfg) e r 0
    let a ← fillDesc n d
    advEnq n
    writeDescs n e r rest 1
    handAt a d

/-- R288: `enqueue` of the request at the head of the pending queue. -/
def enqueue (n : EpNum) (e : Endpoint) (r : Request) : M Unit := do
  modReq r.id fun q => { q with first := some e.enq, ndesc := need r }
  writeChain n e r (need r)
  modEp n fun e => { e with pending := e.pending.tail, started := e.started ++ [r.id] }

/-- R292: the loop of `kick` over the pending queue, in order; the first request that does not fit
blocks the ones behind it (R301). It answers whether anything was posted. -/
def admitPending (n : EpNum) : List ReqId → Bool → M Bool
  | [], posted => pure posted
  | id :: rest, posted => do
    match (← getEp n), (← getReq id) with
    | some e, some r =>
      if need r ≤ freeSlots e then
        enqueue n e r
        admitPending n rest true
      else return posted
    | _, _ => return posted

/-- R308: `rollback`. -/
def rollback (n : EpNum) : M Unit := do
  releaseRing n
  let e ← needEp n
  forEach e.started fun id => modReq id fun r => { r with first := none, ndesc := 0 }
  modEp n fun e => { e with pending := e.started ++ e.pending, started := [], isocArmed := false }

/-- R293: `start_or_update`. -/
def startOrUpdate (n : EpNum) (posted : Bool) : M Unit := do
  publish
  let e ← needEp n
  if e.xferStarted then
    if posted then
      match (← cmdUpdatetransfer n (← rscOf e)) with
      | .ok _ => pure ()
      | .err err => notifyErr n err
    else pure ()
  else
    match (← cmdStarttransfer n e.deq (if e.type = .isoc then isocStartFrame e else 0)) with
    | .ok _ => pure ()
    | .err (.cmdFailed m st) => do
      rollback n
      notifyErr n (.cmdFailed m st)
    | .err err => notifyErrEp n err

/-- R292: whether `kick` may post anything for the record. -/
def kickable (e : Endpoint) : Bool :=
  e.enabled && !e.endPending && !e.stalled && !(e.type = .isoc && !e.xferStarted && !e.isocArmed)

/-- R292: `kick`. -/
def kick (n : EpNum) : M Unit := do
  match (← getEp n) with
  | none => pure ()
  | some e =>
    if kickable e then
      let posted ← admitPending n e.pending false
      match (← getEp n) with
      | none => pure ()
      | some e' => if e'.started = [] then pure () else startOrUpdate n posted
    else pure ()

/-! ## Retirement -/

/-- A retired request with its account's missed interval. -/
abbrev Retired := Request × Bool

/-- R295: whether the request is finished, given the event's unspent short bit, and the short bit after
it. -/
def retires (c : Cls) (sp : Bool) : Option Bool :=
  match c with
  | .full => some sp
  | .shortEvident | .partly => if sp then some false else none
  | .untouched => none

/-- R295: the first loop of `dequeue_complete`, over the started queue. -/
def retireLoop (n : EpNum) : List ReqId → Bool → M (List Retired)
  | [], _ => pure []
  | id :: rest, sp => do
    match (← getReq id) with
    | none => pure []
    | some r => do
      let acc ← account n r
      match retires acc.cls sp with
      | none => return []
      | some sp' => do
        forEach acc.tail (reclaim n)
        modEp n fun e => { e with deq := advN r.ndesc e.deq, started := e.started.tail }
        modReq id fun q => { q with actual := acc.actual }
        let done ← retireLoop n rest sp'
        return ({ r with actual := acc.actual }, acc.missed) :: done

/-- R295: the second loop: the event's status bits go to the last retired request. -/
def completeRetired (type : EpType) (s : BitVec 4) : List Retired → M Unit
  | [] => pure ()
  | (r, missed) :: rest => do
    complete r (outcomeOf type (if rest = [] then s else 0) r.length r.actual missed)
    completeRetired type s rest

/-- R295: `dequeue_complete`. -/
def dequeueComplete (n : EpNum) (s : BitVec 4) : M Unit := do
  let e ← needEp n
  let done ← retireLoop n e.started (shortBit s)
  completeRetired e.type s done

/-! ## Ending a transfer -/

/-- R305: the requests that were not cancelled. It answers the ids that go back to pending. -/
def finishStarted (n : EpNum) (type : EpType) (poc : Outcome) : List ReqId → M (List ReqId)
  | [] => pure []
  | id :: rest => do
    match (← getReq id) with
    | none => finishStarted n type poc rest
    | some r => do
      let acc ← account n r
      modReq id fun q => { q with actual := acc.actual }
      let r' := { r with actual := acc.actual }
      match acc.cls with
      | .untouched => return id :: (← finishStarted n type poc rest)
      | .full | .shortEvident => do
        complete r' (outcomeOf type 0 r.length acc.actual acc.missed)
        finishStarted n type poc rest
      | .partly => do
        complete r' poc
        finishStarted n type poc rest

/-- R305: the cancelled requests, each with the outcome it was given. -/
def finishCancelled (n : EpNum) : List ReqId → M Unit
  | [] => pure ()
  | id :: rest => do
    match (← getReq id) with
    | none => pure ()
    | some r =>
      let actual ← match r.first with
        | none => pure 0
        | some _ => do pure (← account n r).actual
      complete { r with actual := actual } (r.outcome.getD .cancelled)
    finishCancelled n rest

/-- R305: what a disable was waiting for: the `DALEPENA` bit cleared and the record removed. -/
def removeEp (n : EpNum) : M Unit := do
  regRMW .dalepena n.val (0 : BitVec 1)
  putEp n none

/-- R305: `finish_end_transfer`. -/
def finishEndTransfer (n : EpNum) (poc : Outcome) : M Unit := do
  modEp n fun e => { e with endPending := false, xferStarted := false, rsc := none, isocArmed := false }
  let e ← needEp n
  let back ← finishStarted n e.type poc e.started
  finishCancelled n e.cancelled
  releaseRing n
  forEach back fun id => modReq id fun r => { r with first := none, ndesc := 0 }
  modEp n fun e => { e with started := [], pending := back ++ e.pending }
  if e.enabled then kick n else removeEp n

/-- R302, R304 (log entry 30): the ids given an outcome and moved to the tail of the cancelled queue. -/
def moveToCancelled (n : EpNum) (ids : List ReqId) (oc : Outcome) : M Unit :=
  forEach ids fun id => do
    modReq id fun r => { r with outcome := some oc }
    modEp n fun e =>
      { e with pending := e.pending.filter (· ≠ id), started := e.started.filter (· ≠ id),
               cancelled := e.cancelled.filter (· ≠ id) ++ [id] }

/-- R304: the `ENDTRANSFER` of `flush_endpoint`; false when it fails, which is notified (R306). -/
def flushEnd (n : EpNum) : M Bool := do
  let e ← needEp n
  if e.xferStarted && !e.endPending then
    match (← endTransferOf n true) with
    | .ok _ => return true
    | .err err => do
      notifyErr n err
      return false
  else return true

/-- R304: `flush_endpoint`. -/
def flushEndpoint (n : EpNum) (oc : Outcome) : M Bool := do
  if (← flushEnd n) then
    let e ← needEp n
    moveToCancelled n (e.started ++ e.pending) oc
    if e.endPending then pure () else finishEndTransfer n oc
    return true
  else return false

/-! ## Submission and cancellation -/

/-- R286: the checks of `submit_ring` on a request's operands. -/
def segsLegal (segs : List (Quad × Nat)) : Bool :=
  !segs.isEmpty && segs.all fun s => s.2 ≤ Config.maxSegLen

/-- R286: `submit_ring`. -/
def submitRing (n : EpNum) (k : BitVec 32) (segs : List (Quad × Nat)) (zero : Bool) : M Unit := do
  match (← getEp n) with
  | none => raise .inval
  | some e =>
    if !e.enabled then raise .inval
    else if (← getReq (.user k)).isSome then raise .inval
    else if !segsLegal segs then raise .inval
    else
      let r := userRequest n k segs zero
      let r := { r with extra := needsExtra e r.length zero }
      if Config.ringCap < need r then raise .inval
      else
        upd fun s => s.addReq r
        modEp n fun e => { e with pending := e.pending ++ [r.id] }
        kick n

/-- R302: `cancel`. The request it moves may stand before others of the started queue, which then breaks R283's
invariant until the transfer's end; the model follows R302's text (log entry 30). -/
def cancelRing (n : EpNum) (id : ReqId) : M Unit := do
  match (← getEp n), (← getReq id) with
  | some e, some r =>
    if r.ep ≠ n then raise .inval
    else if id ∈ e.pending then complete r .cancelled
    else if id ∈ e.cancelled then pure ()
    else if e.endPending then moveToCancelled n [id] .cancelled
    else if e.xferStarted then
      match (← endTransferOf n true) with
      | .ok _ => moveToCancelled n [id] .cancelled
      | .err err => raise err
    else
      moveToCancelled n [id] .cancelled
      finishEndTransfer n .cancelled
  | _, _ => raise .inval

end Sys2Proof.Machine
end

