-- ==== Sys2Proof/Machine/Ep0.lean ====
section
/-!
DEFINITION. The Control Transfer State Machine (R330 to R353), over endpoints 0 and 1.
-/

namespace Sys2Proof.Machine

/-- A write to fields of `C.ep0`. -/
def modEp0 (f : Ep0 → Ep0) : M Unit := upd fun s => s.modEp0 f

/-- `C.ep0`. -/
def getEp0 : M Ep0 := return (← get).ep0

/-- The request of a stage posted at slot `i` of ring `n` (R331). -/
def Request.posted (r : Request) (n : EpNum) (i : Slot) : Request :=
  { r with ep := n, first := some i, ndesc := 1, actual := 0, outcome := none, extra := .none }

/-- R331: one stage put on ring `n`, whose record is `e`. -/
def ep0Put (n : EpNum) (e : Endpoint) (r : Request) (d : Desc) : M Unit := do
  upd fun s => s.addReq (r.posted n e.enq)
  writeDesc n d
  modEp n fun e => { e with started := e.started ++ [r.id] }

/-- R331: `ep0_post`: one stage on ring `n`, started at once. A failed start leaves no stage. -/
def ep0Post (n : EpNum) (r : Request) (d : Desc) : M CmdResult := do
  let e ← needEp n
  ep0Put n e r d
  publish
  match (← cmdStarttransfer n e.enq 0) with
  | .ok rb => return .ok rb
  | .err err => do
    releaseRing n
    modEp n fun e => { e with started := [] }
    upd fun s => s.delReq r.id
    return .err err

/-- R332: the fields of the transfer that `arm_setup` ends. -/
def Ep0.cleared (c : Ep0) : Ep0 :=
  { c with threeStage := false, dataIn := false, delayed := false, statusIssued := false, bounce := false,
           dataReq := none }

/-- R332: `arm_setup`. A command error is notified and leaves `UNCONNECTED`. -/
def armSetup : M Unit := do
  modEp0 Ep0.cleared
  let cfg ← getCfg
  match (← ep0Post 0 (setupRequest cfg) (mkSetup cfg)) with
  | .ok _ => modEp0 fun c => { c with state := .setupPhase }
  | .err err => do
    modEp0 fun c => { c with state := .unconnected }
    notifyErr 0 err

/-- R346: the end of ring `n`'s transfer, once the silicon has ended it. -/
def ep0Release (oc : Outcome) (n : EpNum) : M Unit := do
  let e ← needEp n
  modEp n fun e => { e with xferStarted := false, rsc := none }
  forEach e.started fun id => do
    match (← getReq id) with
    | some r => complete r oc
    | none => pure ()
  releaseRing n
  modEp n fun e => { e with started := [] }

/-- R346: one ring of `ep0_stop`; the core goes on after a failed `ENDTRANSFER` (R512 (d)). -/
def ep0StopRing (oc : Outcome) (n : EpNum) : M Unit := do
  let e ← needEp n
  if e.xferStarted then
    match (← endTransferOf n false) with
    | .ok _ => pure ()
    | .err err => notifyErr n err
  else pure ()
  ep0Release oc n

/-- R346: no stage is left. -/
def ep0NoStage : M Unit :=
  modEp0 fun c => { c with dataReq := none, bounce := false, statusIssued := false, delayed := false }

/-- R346: `ep0_stop`. -/
def ep0Stop (oc : Outcome) : M Unit := do
  forEach [0, 1] (ep0StopRing oc)
  ep0NoStage

/-- R346: `ep0_restart`. -/
def ep0Restart : M Unit := do
  ep0Stop .shutdown
  armSetup

/-- R353: `ep0_stall_restart_with`. -/
def ep0StallRestartWith (oc : Outcome) : M Unit := do
  ep0Stop oc
  match (← cmdSetstall 0) with
  | .ok _ => pure ()
  | .err err => notifyErr 0 err
  armSetup

/-- R353: `ep0_stall_restart`. -/
def ep0StallRestart : M Unit := ep0StallRestartWith .cancelled

/-- R344: the endpoint that carries the status stage. -/
def statusEp (threeStage dataIn : Bool) : EpNum :=
  if threeStage then (if dataIn then 0 else 1) else 1

/-- R344: `issue_status`. -/
def issueStatus : M Unit := do
  let c ← getEp0
  let cfg ← getCfg
  let n := statusEp c.threeStage c.dataIn
  modEp0 fun c => { c with statusIssued := true }
  match (← ep0Post n (statusRequest cfg) (mkStatus cfg c.threeStage)) with
  | .ok _ => pure ()
  | .err err => do
    modEp0 fun c => { c with statusIssued := false }
    notifyErr n err
    ep0StallRestart

/-- R336: `setup_reply`. -/
def setupReply (reply : SetupReply) : M Unit := do
  match reply with
  | .stall => ep0StallRestart
  | .accept | .delay => do
    let c ← getEp0
    modEp0 fun c => { c with delayed := reply = .delay }
    if c.threeStage then modEp0 fun c => { c with state := .dataPhase }
    else do
      modEp0 fun c => { c with state := .statusPhase }
      if reply = .delay then pure () else issueStatus

/-- R335: the setup packet, byte by byte (R75). -/
def readSetup : M (Vector Byte 8) := do
  let a := (← getCfg).setupBufAddr.toNat
  let b0 ← memRead8 a
  let b1 ← memRead8 (a + 1)
  let b2 ← memRead8 (a + 2)
  let b3 ← memRead8 (a + 3)
  let b4 ← memRead8 (a + 4)
  let b5 ← memRead8 (a + 5)
  let b6 ← memRead8 (a + 6)
  let b7 ← memRead8 (a + 7)
  return #v[b0, b1, b2, b3, b4, b5, b6, b7]

/-- R335: `on_setup`. -/
def onSetup : M Unit := do
  let p ← readSetup
  modEp0 fun c => { c with setup := p, threeStage := wLength p ≠ 0, dataIn := setupIsIn p,
                           state := .setupPhase }
  notify (.setup p)
  setupReply (← drawReply)

/-- R343: `copy_back`, the bytes `k`, `k + 1`, ... of the bounce buffer, `fuel` of them. -/
def copyBack (src dst : Nat) : Nat → Nat → M Unit
  | 0, _ => pure ()
  | fuel + 1, k => do
    memWrite8 (dst + k) (← memRead8 (src + k))
    copyBack src dst fuel (k + 1)

/-- R339: the outcome of a data stage. -/
def dataOutcome (s : BitVec 4) (length actual : Nat) : Outcome :=
  if busErr s then .busError else if actual < length then .short else .ok

/-- R339, R342: the bytes of the request's own that the silicon moved; `size` is the descriptor's. -/
def dataActual (length size rem : Nat) : Nat := min length (size - min rem size)

/-- R339: `ep0_data_done`. -/
def ep0DataDone (r : Request) (rem : Nat) (s : BitVec 4) : M Unit := do
  let c ← getEp0
  let actual := dataActual r.length (if c.bounce then roundUp r.length c.mps.toNat else r.length) rem
  modReq r.id fun q => { q with actual := actual }
  if c.bounce then
    match r.segs with
    | seg :: _ => copyBack (← getCfg).bounceBufAddr.toNat seg.1.toNat actual 0
    | [] => pure ()
  else pure ()
  modEp0 fun c => { c with dataReq := none, bounce := false }
  complete { r with actual := actual } (dataOutcome s r.length actual)
  if busErr s then ep0StallRestart
  else do
    modEp0 fun c => { c with state := .statusPhase }
    if c.delayed then pure () else issueStatus

/-- R345: `on_status_done`. -/
def onStatusDone : M Unit := armSetup

/-- R334: what the end of a retired stage does. -/
def stageDone (r : Request) (rem : Nat) (s : BitVec 4) : M Unit := do
  match r.kind with
  | .ep0Setup => do
    complete { r with actual := 8 - min rem 8 } .ok
    if busErr s then ep0StallRestart else onSetup
  | .user => ep0DataDone r rem s
  | .ep0Status => do
    complete r .ok
    if busErr s then ep0StallRestart else onStatusDone

/-- R334: `ep0_xfer_complete`. -/
def ep0XferComplete (n : EpNum) (s : BitVec 4) : M Unit := do
  let e ← needEp n
  match e.started with
  | [] => pure ()
  | id :: _ => do
    match (← getReq id) with
    | none => pure ()
    | some r => do
      let a := (← get).slotAddr n (r.first.getD e.deq).val
      if hwoOf (← memRead32 (a + 12)) then pure ()
      else do
        let rem := bufSiz (← memRead32 (a + 8))
        modEp n fun e => { e with deq := adv e.deq, started := e.started.tail, xferStarted := false,
                                  rsc := none }
        stageDone r rem s

/-! ## Upstream operations on EP0 -/

/-- R337: the checks of `ep0_submit` on its operands, with the one segment. -/
def ep0SubmitSeg (c : Ep0) (n : EpNum) (taken : Bool) (segs : List (Quad × Nat)) : Option (Quad × Nat) :=
  if c.state ≠ .dataPhase ∨ c.dataReq.isSome = true then none
  else if n ≠ (if c.dataIn then 1 else 0) then none
  else if taken = true then none
  else
    match segs with
    | [seg] =>
      if Config.maxSegLen < seg.2 then none
      else if !c.dataIn && seg.2 % c.mps.toNat != 0 && Config.bounceSize < roundUp seg.2 c.mps.toNat then
        none
      else some seg
    | _ => none

/-- R340: an OUT length that is not a whole number of packets is received in the bounce buffer. -/
def bounces (c : Ep0) (length : Nat) : Bool := !c.dataIn && length % c.mps.toNat != 0

/-- R337: `ep0_submit`. -/
def ep0Submit (n : EpNum) (k : BitVec 32) (segs : List (Quad × Nat)) (zero : Bool) : M Unit := do
  let c ← getEp0
  match ep0SubmitSeg c n (← getReq (.user k)).isSome segs with
  | none => raise .inval
  | some seg => do
    let cfg ← getCfg
    let d :=
      if bounces c seg.2 then mkData cfg.bounceBufAddr (roundUp seg.2 c.mps.toNat) true
      else mkData seg.1 seg.2 (!c.dataIn)
    modEp0 fun q => { q with bounce := bounces c seg.2 || q.bounce, dataReq := some (.user k) }
    match (← ep0Post n (userRequest n k segs zero) d) with
    | .ok _ => pure ()
    | .err err => do
      modEp0 fun c => { c with dataReq := none, bounce := false }
      ep0StallRestart
      raise err

/-- R347: `resume_status`. -/
def resumeStatus : M Unit := do
  let c ← getEp0
  if !c.delayed then raise .inval
  else do
    modEp0 fun c => { c with delayed := false }
    if c.state = .statusPhase ∧ c.statusIssued = false then issueStatus else pure ()

/-- R352: `ep0_cancel`. -/
def ep0Cancel (n : EpNum) (id : ReqId) : M Unit := do
  let c ← getEp0
  match (← getReq id) with
  | none => raise .inval
  | some r =>
    if c.dataReq ≠ some id ∨ r.ep ≠ n then raise .inval
    else do
      modReq id fun r => { r with outcome := some .cancelled }
      ep0StallRestartWith .cancelled

/-- R427: `ep0_set_stall`. -/
def ep0SetStall : M Unit := do
  let c ← getEp0
  if c.state = .dataPhase ∨ c.state = .statusPhase then ep0StallRestart else raise .inval

/-! ## A stage posted by a direct call (log entry 10) -/

/-- Rings 0 and 1 hold no stage request (R331, R332). -/
def stagesIdle (s : State) : Bool := [0, 1].all fun n => (s.ep n).all fun e => e.started.isEmpty

/-- Where the EP0 machine itself would post the stage that the descriptor stands for, with that descriptor: the
setup stage on ring 0 (R332), the data stage of a transfer that waits for it and needs no bounce buffer (R337,
R338, R340), the status stage that waits (R344, R347). -/
def stageLegal (cfg : Cfg) (c : Ep0) (n : EpNum) (t : TrbTyp) (f : TrbFields) : Bool :=
  match t with
  | .controlSetup => n == 0 && descOf t f == mkSetup cfg
  | .controlStatus2 | .controlStatus3 =>
    c.state == .statusPhase && !c.statusIssued && n == statusEp c.threeStage c.dataIn
      && descOf t f == mkStatus cfg c.threeStage
  | .controlData =>
    (ep0SubmitSeg c n false [trbSeg f]).isSome && !bounces c (trbSeg f).2
      && descOf t f == mkData (trbSeg f).1 (trbSeg f).2 (!c.dataIn)
  | .normal | .isocFirst | .isoc | .link => false

/-- `C.ep0` once the stage is posted: as `arm_setup` (R332), `ep0_submit` (R337) and `resume_status` with
`issue_status` (R344, R347) leave it. -/
def stagePosted (t : TrbTyp) (f : TrbFields) (c : Ep0) : Ep0 :=
  match t with
  | .controlSetup => { c.cleared with state := .setupPhase }
  | .controlStatus2 | .controlStatus3 => { c with delayed := false, statusIssued := true }
  | .controlData => { c with dataReq := some (.user f.req) }
  | .normal | .isocFirst | .isoc | .link => c

end Sys2Proof.Machine
end

