-- ==== Sys2Proof/Machine/Link.lean ====
section
/-!
DEFINITION. The Link State Tracker (R370 to R380) and the arbiter's trigger (R390 to R393), which the
event handlers call.
-/

namespace Sys2Proof.Machine

/-- R372: `power_notify`. -/
def powerNotify (old new : Option LinkState) : M Unit := do
  if new = some .u3 ∧ old ≠ some .u3 then notify .suspend else pure ()
  if old = some .u3 ∧ new ≠ some .u3 then notify .resume else pure ()

/-- R371: `link_change`; a reserved code notifies the event's word with its reserved bits 0. -/
def linkChange (info : BitVec 9) : M Unit := do
  match linkStateOf (info.extractLsb' 0 4) with
  | none => notifyCode .unknownEvent (.word (encodeEvent (.dev (devEvtCode .linkChange) info)))
  | some new => do
    let old := (← get).link.state
    upd fun s => s.modLink fun l => { l with prev := old, state := some new, seq := l.seq + 1 }
    powerNotify old (some new)

/-- R374: `link_init`. -/
def linkInit : M Unit := do
  let w ← regRead .dsts
  upd fun s => s.modLink fun l => { l with state := linkStateOf (w.extractLsb' 18 4), prev := none }

/-- R375: the first half of `request_transition`, up to the wait. That its `E_BUSY` carries nothing is the model's
choice (log entry 19). -/
def requestTransition (k : Nat) (target : LinkState) : M Unit := do
  let s ← get
  match requestCode target with
  | none => raise .inval
  | some code =>
    if !s.dev.running then raise .inval
    else if s.link.req.isSome then raise (.busy none)
    else do
      upd fun s => s.modLink fun l => { l with req := some target }
      regRMW .dctl 5 code
      upd fun t => t.modRun fun u =>
        { u with waiter := some { k, target, seq0 := s.link.seq, left := t.cfg.linkWaitLimit } }

/-- R376: what one poll of the wait finds; `none` while it goes on. -/
def waitResult (s : State) (w : Waiter) : Option Ret :=
  if s.dev.running = false then some (.err (.linkMismatch none))
  else if s.link.state = some (wanted w.target) then some .ok
  else
    match s.link.state with
    | none => if w.left ≤ 1 then some (.err .linkTimeout) else none
    | some st =>
      if s.link.seq ≠ w.seq0 ∧ terminal st = true then some (.err (.linkMismatch (some st)))
      else if w.left ≤ 1 then some (.err .linkTimeout)
      else none

/-- R375: the second half of `request_transition`: the request code is withdrawn while the device
role runs, and the request ends. -/
def endTransition (r : Ret) : M Unit := do
  if (← get).dev.running then regRMW .dctl 5 (0 : BitVec 4) else pure ()
  upd fun s => (s.modLink fun l => { l with req := none }).modRun fun u =>
    { u with waiter := none, ret := some r }

/-- R376: one poll of the wait. -/
def linkPoll (w : Waiter) : M Unit := do
  match waitResult (← get) w with
  | some r => endTransition r
  | none => upd fun s => s.modRun fun u => { u with waiter := some { w with left := w.left - 1 } }

/-! ## The arbiter's trigger -/

/-- R392 as a function of the state: the desired role follows the signals, and a task is queued when
there is none and the role is not the current one. -/
def triggered (s : State) : State :=
  s.modRole fun r =>
    let des := desired s.cfg.drCaps r.sigId r.sigVbus
    { r with otgDes := des, task := if r.task = .none ∧ des ≠ r.otgCur then .queued else r.task }

/-- R392: `dra_trigger`. -/
def draTrigger : M Unit := upd triggered

/-- R390: `ext_signal`. -/
def extSignal (id vbus : Bool) : M Unit := do
  upd fun s => s.modRole fun r => { r with sigId := id, sigVbus := vbus }
  draTrigger

end Sys2Proof.Machine
end

