-- ==== Sys2Proof/Machine/Device.lean ====
section
/-!
DEFINITION. Creation, bring-up and teardown (R490 to R504): probe and its allocation check, the device
role's start and stop, and the role switch's stop, direction and start (R396 to R398).
-/

namespace Sys2Proof.Machine

/-! ## Probe -/

/-- The DMA regions of R492 with their sizes. -/
def regionsOf (cfg : Cfg) : List (Nat × Nat) :=
  [(cfg.evbufAddr.toNat, Config.evbufLen), (cfg.setupBufAddr.toNat, Config.setupLen),
   (cfg.bounceBufAddr.toNat, Config.bounceSize), (cfg.padBufAddr.toNat, Config.padSize)]
  ++ cfg.ringBase.toList.map fun a => (a.toNat, Config.ringSize * Config.descBytes)

/-- Two regions without a common byte. -/
def disjoint (r q : Nat × Nat) : Bool := r.1 + r.2 ≤ q.1 || q.1 + q.2 ≤ r.1

/-- No region overlaps a later one. -/
def noOverlap : List (Nat × Nat) → Bool
  | [] => true
  | r :: rest => rest.all (disjoint r) && noOverlap rest

/-- The alignments of R81. -/
def aligned (cfg : Cfg) : Bool :=
  cfg.evbufAddr.toNat % 4 == 0 && cfg.setupBufAddr.toNat % 8 == 0 && cfg.bounceBufAddr.toNat % 4 == 0
    && cfg.padBufAddr.toNat % 4 == 0 && cfg.ringBase.toList.all fun a => a.toNat % 16 == 0

/-- R492: `check_alloc`: aligned regions of the address space that do not overlap. -/
def checkAlloc (cfg : Cfg) : Bool :=
  aligned cfg && noOverlap (regionsOf cfg)
    && (regionsOf cfg).all fun r => r.1 + r.2 ≤ 2 ^ cfg.dmaAddrBits

/-- The ranges of the OPEN parameters a step reads (R9, R71). That probe refuses a configuration outside them with
`E_INVAL` is the model's choice (log entry 24). -/
def paramsLegal (cfg : Cfg) : Bool :=
  32 ≤ cfg.dmaAddrBits && cfg.dmaAddrBits ≤ 64 && 1 ≤ cfg.linkWaitLimit

/-- R58: the snapshot of `GHWPARAMS0..7`. -/
def snapshot (h : Vector Word 8) : HwParams where
  numEps := (h[3].extractLsb' 12 6).toNat
  numInEps := (h[3].extractLsb' 18 5).toNat
  scratchBufs := (h[4].extractLsb' 13 4).toNat
  fifoDepths := ((h[7].extractLsb' 0 16).toNat, (h[7].extractLsb' 16 16).toNat)

/-- R491: `probe`. It reads the revision and the snapshot, writes no register (R493), gives every
runtime field its value of R62 and ends with one trigger (R494). -/
def probe (cfg : Cfg) (regs : Regs) (mem : List Host.Cell) : Except Err State :=
  let hw := snapshot regs.ghwparams
  if checkAlloc cfg = false ∨ paramsLegal cfg = false then .error .inval
  else if hw.numEps < 2 ∨ 32 < hw.numEps then .error .inval
  else .ok (triggered (State.init { cfg with revision := regs.gsnpsid, hw := hw } regs mem))

/-! ## Bring-up -/

/-- R497: `evbuf_setup`. The silicon's write offset starts at 0 (R91). -/
def evbufSetup : M Unit := do
  let a := (← getCfg).evbufAddr
  regWrite .gevntadrlo (quadLow a)
  regWrite .gevntadrhi (quadHigh a)
  regWrite .gevntsiz 0x80001000#32
  let c := (← regRead .gevntcount) &&& 0x0000FFFC#32
  if c ≠ 0 then regWrite .gevntcount c else pure ()
  upd fun s => (s.modEvbuf fun b => { b with lpos := 0, count := 0, enabled := true }).modSi
    fun u => { u with wpos := 0 }
  regWrite .gevntsiz 0x00001000#32

/-- R498: `dev_config`. -/
def devConfig : M Unit := do
  regRMW .dcfg 3 (0 : BitVec 7)
  regRMW .dcfg 0 (speedCode (← getCfg).maxSpeed)
  regWrite .devten Config.devtenMask
  regWrite .dalepena 0
  upd fun s => s.modDev fun d => { d with connected := false, speed := none, startCfgDone := false }

/-- R430: `set_runstop`; the link request field is written 0. -/
def setRunstop (v : Bool) : M Unit := do
  let d ← regRead .dctl
  regWrite .dctl (setField (setField d 31 (BitVec.ofBool v)) 5 (0 : BitVec 4))
  upd fun s => s.modDev fun d => { d with pullup := v }

/-- The commands of a list, in order, up to the first that fails. -/
def allOk : List (M CmdResult) → M (Option Err)
  | [] => pure none
  | m :: rest => do
    match (← m) with
    | .ok _ => allOk rest
    | .err e => return some e

/-- R499: `ep0_bringup`; the first command error ends it. -/
def ep0Bringup : M (Option Err) := do
  putEp 0 (some (newEp 0 .control 512 1))
  putEp 1 (some (newEp 1 .control 512 1))
  modEp0 fun c => { c with mps := 512 }
  ringInit 0
  ringInit 1
  match (← allOk [cmdDepstartcfg 0, cmdSetepconfig 0 .init, cmdSetepconfig 1 .init, cmdSetxferrsc 0,
      cmdSetxferrsc 1]) with
  | some e => return some e
  | none => do
    regRMW .dalepena 0 (1 : BitVec 1)
    regRMW .dalepena 1 (1 : BitVec 1)
    modEp 0 fun e => { e with enabled := true }
    modEp 1 fun e => { e with enabled := true }
    upd fun s => s.modDev fun d => { d with running := true }
    linkInit
    armSetup
    setRunstop (← get).dev.wantPullup
    return none

/-- R503: `evbuf_disable`. -/
def evbufDisable : M Unit := do
  regRMW .gevntsiz 31 (1 : BitVec 1)
  upd fun s => s.modEvbuf fun b => { b with enabled := false }

/-- R500: one endpoint of `device_undo`. -/
def undoEp (n : EpNum) : M Unit := do
  match (← getEp n) with
  | none => pure ()
  | some _ => do
    releaseRing n
    putEp n none

/-- R500: `device_undo`. -/
def deviceUndo : M Unit := do
  regWrite .dalepena 0
  forEach [0, 1] undoEp
  modEp0 fun c => { c with state := .unconnected }
  upd fun s => s.modDev fun d => { d with running := false }
  evbufDisable

/-- R496: `device_start`. -/
def deviceStart : M (Option Err) := do
  evbufSetup
  devConfig
  match (← ep0Bringup) with
  | none => return none
  | some e => do
    deviceUndo
    return some e

/-! ## Teardown -/

/-- R502: `teardown_ep`; it goes on whatever the command answers (R512 (e)). -/
def teardownEp (n : EpNum) : M Unit := do
  match (← getEp n) with
  | none => pure ()
  | some e => do
    modEp n fun e => { e with enabled := false }
    if e.xferStarted && !e.endPending then
      match (← endTransferOf n false) with
      | .ok _ => pure ()
      | .err err => notifyErr n err
    else pure ()
    modEp n fun e => { e with endPending := false }
    moveToCancelled n (e.started ++ e.pending) .shutdown
    finishEndTransfer n .shutdown

/-- R501: `device_stop`. -/
def deviceStop : M Unit := do
  if (← get).dev.running then
    setRunstop false
    forEach Config.upperEps teardownEp
    ep0Stop .shutdown
    modEp0 fun c => { c with state := .unconnected }
    regWrite .dalepena 0
    putEp 0 none
    putEp 1 none
    upd fun s => (s.modLink fun l => { l with state := none, prev := none }).modDev fun d =>
      { d with running := false, connected := false, speed := none, startCfgDone := false }
    evbufDisable
  else pure ()

/-! ## The host child (R403) -/

/-- What the host child is started with (R398). -/
def hostArgs (cfg : Cfg) : HostArgs := { regBase := cfg.regBase, irq := .irq, imod := cfg.imodCfg }

/-- `HC.start(resources, imod)`: the child is given its configuration, acts on registers and memory inside the call
(R12), and answers by a draw; on `OK` it owns the registers. -/
def hcStart (a : HostArgs) : M Bool := do
  upd fun s => s.modSi fun u => { u with hcArgs := some a }
  hostTurn
  let ok ← drawHostAnswer
  upd fun s => s.modSi fun u => { u with hcRunning := ok }
  return ok

/-- `HC.stop`: the child acts on registers and memory inside the call (R12); it always returns. -/
def hcStop : M Unit := do
  hostTurn
  upd fun s => s.modSi fun u => { u with hcRunning := false }

/-! ## The role switch -/

/-- R396: `stop_role`. -/
def stopRole (role : OtgRole) : M Unit :=
  match role with
  | .device => deviceStop
  | .host => hcStop
  | .idle => pure ()

/-- R397: `set_direction` to a role that is not `IDLE`. -/
def writeDirection (code : BitVec 2) (dir : DrRole) : M Unit := do
  upd fun s => s.modRole fun r => { r with drDes := dir }
  regRMW .gctl 12 code
  upd fun s => s.modRole fun r => { r with drCur := r.drDes }

/-- R397: `set_direction`. -/
def setDirection (target : OtgRole) : M Unit :=
  match target with
  | .idle => pure ()
  | .host => writeDirection 1 .host
  | .device => writeDirection 2 .device

/-- R398: `start_role`; a failure is notified (R399, R400). -/
def startRole (target : OtgRole) : M Bool := do
  match target with
  | .idle => return true
  | .device =>
    match (← deviceStart) with
    | none => return true
    | some e => do
      notifyCode .deviceStart (.error e)
      return false
  | .host =>
    if (← hcStart (hostArgs (← getCfg))) then return true
    else do
      notifyCode .hostStart .none
      return false

/-- R395: the task ends. -/
def endTask : M Unit := do
  upd fun s => (s.modRole fun r => { r with task := .none }).modRun fun u => { u with rt := .idle }
  release

/-- R395: phases A and B, up to the yield after the stop. -/
def phaseAB : M Unit := do
  let r := (← get).role
  if r.otgDes = r.otgCur then endTask
  else do
    stopRole r.otgCur
    upd fun s => (s.modRole fun r => { r with otgCur := .idle }).modRun fun u => { u with rt := .afterStop }
    release

/-- R395: phases C and D, up to the yield after the start. -/
def phaseCD : M Unit := do
  let target := (← get).role.otgDes
  setDirection target
  if (← startRole target) then
    upd fun s => (s.modRole fun r => { r with otgCur := target }).modRun fun u => { u with rt := .afterStart }
    release
  else endTask

/-- R395: one turn of `RT`, with the lock free. -/
def rtTurn : M Unit := do
  acquire .rt
  match (← get).run.rt with
  | .idle => do
    upd fun s => s.modRole fun r => { r with task := .running }
    phaseAB
  | .afterStop => phaseCD
  | .afterStart => phaseAB

/-- R504: `remove`, with the lock free and no task. -/
def removeController : M Unit := do
  acquire .platform
  stopRole (← get).role.otgCur
  upd fun s => s.modRun fun u => { u with alive := false }
  release

end Sys2Proof.Machine
end

