-- ==== Sys2Proof/Machine/Upstream.lean ====
section
/-!
DEFINITION. The upstream contract (R420 to R436). Each operation runs with the lock held by its
caller; `runUp` is the call as a whole, from entry to return.
-/

namespace Sys2Proof.Machine

/-- R420: the physical number, or `E_INVAL`. -/
def phys (a : BitVec 8) : M EpNum :=
  match physOf a with
  | some n => pure n
  | none => raise .inval

/-- A command's error raised to the caller (R453). -/
def orRaise (m : M CmdResult) : M Unit := do
  match (← m) with
  | .ok _ => pure ()
  | .err e => raise e

/-- R421: the first failing check of `ep_enable`, in its order; `none` when all pass. That its `E_BUSY` carries the
endpoint is the model's choice (log entry 19). -/
def enableCheck (s : State) (n : EpNum) (type : EpType) (mps : BitVec 16) (interval : BitVec 8) :
    Option Err :=
  if s.dev.running = false then some .inval
  else if n.val < 2 ∨ s.cfg.hw.numEps ≤ n.val then some .inval
  else if type = .control then some .inval
  else if mps.toNat < 1 ∨ 1024 < mps.toNat then some .inval
  else if hasInterval type = true ∧ (interval.toNat < 1 ∨ 16 < interval.toNat) then some .inval
  else if (s.ep n).isSome = true then some (.busy (some n))
  else none

/-- R421: the first `DEPSTARTCFG` after device start or a bus reset. -/
def startNewCfg : M Unit := do
  if (← get).dev.startCfgDone then pure ()
  else do
    orRaise (cmdDepstartcfg 2)
    upd fun s => s.modDev fun d => { d with startCfgDone := true }

/-- R421: `ep_enable`. A failed command removes the record. -/
def epEnable (a : BitVec 8) (type : EpType) (mps : BitVec 16) (interval : BitVec 8) : M Unit := do
  let n ← phys a
  match enableCheck (← get) n type mps interval with
  | some e => raise e
  | none => do
    startNewCfg
    putEp n (some (newEp n type mps (if hasInterval type then interval else 1)))
    ringInit n
    match (← allOk [cmdSetepconfig n .init, cmdSetxferrsc n]) with
    | some e => do
      putEp n none
      raise e
    | none => do
      regRMW .dalepena n.val (1 : BitVec 1)
      modEp n fun e => { e with enabled := true }

/-- R423: the forced flush after a failed `ENDTRANSFER` (R512 (b)). -/
def forceFlush (n : EpNum) : M Unit := do
  modEp n fun e => { e with endPending := false }
  let e ← needEp n
  moveToCancelled n (e.started ++ e.pending) .shutdown
  finishEndTransfer n .shutdown

/-- R423: `ep_disable`. -/
def epDisable (a : BitVec 8) : M Unit := do
  let n ← phys a
  match (← getEp n) with
  | none => raise .inval
  | some e =>
    if n.val < 2 ∨ e.enabled = false then raise .inval
    else do
      modEp n fun e => { e with enabled := false }
      if (← flushEndpoint n .shutdown) then pure () else forceFlush n

/-- R424: `submit`. -/
def submit (a : BitVec 8) (k : BitVec 32) (segs : List (Quad × Nat)) (zero : Bool) : M Unit := do
  let n ← phys a
  if n.val < 2 then ep0Submit n k segs zero else submitRing n k segs zero

/-- R425: `cancel_op`. -/
def cancelOp (a : BitVec 8) (id : ReqId) : M Unit := do
  let n ← phys a
  if n.val < 2 then ep0Cancel n id else cancelRing n id

/-- R426: the checks of `set_stall` on an endpoint above EP0. That its `E_BUSY` carries the endpoint is the model's
choice (log entry 19). -/
def stallCheck (n : EpNum) (o : Option Endpoint) : Option Err :=
  match o with
  | none => some .inval
  | some e =>
    if e.enabled = false ∨ e.type = .isoc then some .inval
    else if isIn n = true ∧ e.started ≠ [] then some (.busy (some n))
    else none

/-- R426: `set_stall` on an endpoint above EP0. -/
def stallRing (n : EpNum) : M Unit := do
  match stallCheck n (← getEp n) with
  | some e => raise e
  | none => do
    orRaise (cmdSetstall n)
    modEp n fun e => { e with stalled := true }

/-- R426, R427: `set_stall`. -/
def setStall (a : BitVec 8) : M Unit := do
  let n ← phys a
  if n.val < 2 then ep0SetStall else stallRing n

/-- R428: `set_wedge`. -/
def setWedge (a : BitVec 8) : M Unit := do
  let n ← phys a
  if n.val < 2 then raise .inval
  else do
    stallRing n
    modEp n fun e => { e with wedged := true }

/-- R429: `clear_stall`. -/
def clearStall (a : BitVec 8) (protocol : Bool) : M Unit := do
  let n ← phys a
  if n.val < 2 then raise .inval
  else
    match (← getEp n) with
    | none => raise .inval
    | some e =>
      if e.enabled = false then raise .inval
      else if protocol = true ∧ e.wedged = true then pure ()
      else do
        orRaise (cmdClearstall n)
        modEp n fun e => { e with stalled := false, wedged := false }
        kick n

/-- R430: `connect` (true) and `disconnect` (false). -/
def setPullup (v : Bool) : M Unit := do
  upd fun s => s.modDev fun d => { d with wantPullup := v }
  if (← get).dev.running then setRunstop v else pure ()

/-- R459: `take_notification`. -/
def takeNotification : M (Option Note) := do
  match (← get).upQueue with
  | [] => return none
  | n :: rest => do
    upd fun s => { s with upQueue := rest }
    return some n

/-- R434: `get_ep_state`. -/
def getEpState (a : BitVec 8) : M Word := do
  let n ← phys a
  match (← getEp n) with
  | none => raise .inval
  | some _ =>
    match (← cmdGetepstate n) with
    | .ok w => return w
    | .err e => raise e

/-- One upstream operation's value; `none` while a link request waits (R375, R432). -/
def upValue (k : Nat) : UpOp → M (Option Ret)
  | .epEnable a type mps interval => do epEnable a type mps interval; return some .ok
  | .epDisable a => do epDisable a; return some .ok
  | .submit a id segs zero => do submit a id segs zero; return some .ok
  | .cancel a id => do cancelOp a id; return some .ok
  | .setStall a => do setStall a; return some .ok
  | .setWedge a => do setWedge a; return some .ok
  | .clearStall a protocol => do clearStall a protocol; return some .ok
  | .connect => do setPullup true; return some .ok
  | .disconnect => do setPullup false; return some .ok
  | .linkState => return some (.link (← get).link.state)
  | .setLinkState target => do requestTransition k target; return none
  | .takeNotification => return some (.note (← takeNotification))
  | .getEpState a => return some (.word (← getEpState a))
  | .resumeStatus => do resumeStatus; return some .ok

/-- The returned value recorded. -/
def setRet (r : Option Ret) : M Unit := upd fun s => s.modRun fun u => { u with ret := r }

/-- A raised error made the call's return value (R453); other ends pass on. -/
def catching (m : M (Option Ret)) : M (Option Ret) := fun s =>
  match m s with
  | .ok r t => .ok r t
  | .error (.raised e) t => .ok (some (.err e)) t
  | .error x t => .error x t

/-- R420, R436, R472: the call, with the lock from entry to return, an error's return included. -/
def runUp (k : Nat) (op : UpOp) : M Unit := do
  acquire (.up k)
  setRet (← catching (upValue k op))
  release

end Sys2Proof.Machine
end

