-- ==== Sys2Proof/Machine/EpEvents.lean ====
section
/-!
DEFINITION. The meanings of the endpoint event words: `dispatch_ep` (R210) with its handlers (R211 to
R216), and the words of EP0 (R333, R334, R348, R351).
-/

namespace Sys2Proof.Machine

/-! ## Dispatch -/

/-- R333: `ep0_event` up to the handler `h`; without a record the event is notified as unknown, its
reserved bits 0. -/
def ep0Event (t : EpEvt) (e : BitVec 5) (status : BitVec 4) (param : BitVec 16) (h : M Unit) : M Unit := do
  match (← getEp (epNum e)) with
  | none => notifyCode .unknownEvent (.word (encodeEvent (.ep e (epEvtCode t) status param)))
  | some _ => h

/-- R210: `dispatch_ep` above EP0 up to the handler `h`; `awaited` says which events a disabled
endpoint still takes. -/
def ringEvent (e : BitVec 5) (w : Word) (awaited : Endpoint → Bool) (h : M Unit) : M Unit := do
  match (← getEp (epNum e)) with
  | none => notifyCode .unknownEvent (.word w)
  | some ep => if ep.enabled || awaited ep then h else pure ()

/-- R210: `dispatch_ep`, with EP0's handler and the ring's. -/
def epEvent (t : EpEvt) (f : EpFields) (awaited : Endpoint → Bool) (h0 h : M Unit) : M Unit :=
  if f.ep.toNat < 2 then ep0Event t f.ep f.status f.param h0
  else ringEvent f.ep (epEventWord t f.ep f.rsv f.status f.param) awaited h

/-- R210: no event but the awaited command completion reaches a disabled endpoint. -/
def neverAwaited (_ : Endpoint) : Bool := false

/-- R210: the awaited `ENDTRANSFER` completion reaches a disabled endpoint. -/
def endAwaited (e : Endpoint) : Bool := e.endPending

/-! ## Handlers -/

/-- R211: `on_xfer_complete`. -/
def onXferComplete (n : EpNum) (s : BitVec 4) : M Unit := do
  dequeueComplete n s
  let e ← needEp n
  if e.endPending then pure () else finishEndTransfer n (if busErr s then .busError else .cancelled)

/-- R212: `on_xfer_inprogress`. -/
def onXferInprogress (n : EpNum) (s : BitVec 4) : M Unit := do
  dequeueComplete n s
  let e ← needEp n
  if e.endPending then pure () else kick n

/-- R213: `on_xfer_notready`. -/
def onXferNotready (n : EpNum) (p : BitVec 16) : M Unit := do
  let e ← needEp n
  if e.endPending || e.xferStarted then pure ()
  else do
    if e.type = .isoc then modEp n fun e => { e with isocArmed := true, isocFrame := p } else pure ()
    kick n

/-- R216: `on_ep_cmd_complete`. -/
def onEpCmdComplete (n : EpNum) (s : BitVec 4) (p : BitVec 16) : M Unit := do
  let e ← needEp n
  if p.extractLsb' 8 4 = cmdTypCode .endTransfer ∧ e.endPending = true then do
    if s ≠ 0 then notifyCode .cmdFailed (.epStatus n s) else pure ()
    finishEndTransfer n .cancelled
  else pure ()

/-! ## Meanings -/

/-- `EVT.EP.XFERCOMPLETE` (R211). -/
def execEvtEpXfercomplete (f : EpFields) (s : State) : Host.Outcome State Fault Refusal :=
  toOutcome (epEvent .xferComplete f neverAwaited (ep0XferComplete (epNum f.ep) f.status)
    (onXferComplete (epNum f.ep) f.status)) s

/-- `EVT.EP.XFERINPROGRESS` (R212); on EP0 no action (R348). -/
def execEvtEpXferinprogress (f : EpFields) (s : State) : Host.Outcome State Fault Refusal :=
  toOutcome (epEvent .xferInProgress f neverAwaited (pure ()) (onXferInprogress (epNum f.ep) f.status)) s

/-- `EVT.EP.XFERNOTREADY` (R213); on EP0 no action (R351). -/
def execEvtEpXfernotready (f : EpFields) (s : State) : Host.Outcome State Fault Refusal :=
  toOutcome (epEvent .xferNotReady f neverAwaited (pure ()) (onXferNotready (epNum f.ep) f.param)) s

/-- `EVT.EP.RXTXFIFO` (R214): no action on an endpoint that has a record. -/
def execEvtEpRxtxfifo (f : EpFields) (s : State) : Host.Outcome State Fault Refusal :=
  toOutcome (epEvent .rxTxFifo f neverAwaited (pure ()) (pure ())) s

/-- `EVT.EP.STREAM` (R215): no action on an endpoint that has a record. -/
def execEvtEpStream (f : EpFields) (s : State) : Host.Outcome State Fault Refusal :=
  toOutcome (epEvent .stream f neverAwaited (pure ()) (pure ())) s

/-- `EVT.EP.EPCMDCMPLT` (R216); on EP0 no action (R333, R348). -/
def execEvtEpEpcmdcmplt (f : EpFields) (s : State) : Host.Outcome State Fault Refusal :=
  toOutcome (epEvent .epCmdCmplt f endAwaited (pure ()) (onEpCmdComplete (epNum f.ep) f.status f.param)) s

/-- `EVT.EP.XFERCOMPLETE` on endpoint 0 (R334). -/
def execEvtEpXfercompleteEp0 (f : Ep0Fields) (s : State) : Host.Outcome State Fault Refusal :=
  toOutcome (ep0Event .xferComplete 0 f.status f.param (ep0XferComplete 0 f.status)) s

/-- `EVT.EP.XFERNOTREADY` on endpoint 0 (R351): no action. -/
def execEvtEpXfernotreadyEp0 (f : Ep0Fields) (s : State) : Host.Outcome State Fault Refusal :=
  toOutcome (ep0Event .xferNotReady 0 f.status f.param (pure ())) s

/-- `EVT.EP.XFERCOMPLETE` on endpoint 1 (R334). -/
def execEvtEpXfercompleteEp1 (f : Ep0Fields) (s : State) : Host.Outcome State Fault Refusal :=
  toOutcome (ep0Event .xferComplete 1 f.status f.param (ep0XferComplete 1 f.status)) s

/-- `EVT.EP.XFERNOTREADY` on endpoint 1 (R351): no action. -/
def execEvtEpXfernotreadyEp1 (f : Ep0Fields) (s : State) : Host.Outcome State Fault Refusal :=
  toOutcome (ep0Event .xferNotReady 1 f.status f.param (pure ())) s

end Sys2Proof.Machine
end

