-- ==== Sys2Proof/Machine/DevEvents.lean ====
section
/-!
DEFINITION. The meanings of the device event words (R220 to R228, R371).
-/

namespace Sys2Proof.Machine

/-! ## Handlers -/

/-- R222: one endpoint of `on_reset`. -/
def resetEp (n : EpNum) : M Unit := do
  match (← getEp n) with
  | none => pure ()
  | some e =>
    if e.enabled then do
      let _ ← flushEndpoint n .shutdown
      if (← needEp n).stalled then
        match (← cmdClearstall n) with
        | .ok _ => modEp n fun e => { e with stalled := false, wedged := false }
        | .err err => notifyErrEp n err
      else pure ()
    else pure ()

/-- R222: `on_reset`. As its pseudocode has it, `connected` stays, though R57 has it mean a connect-done since the
last reset (log entry 26). -/
def onReset : M Unit := do
  upd fun s => s.modDev fun d => { d with startCfgDone := false }
  forEach Config.upperEps resetEp
  regRMW .dcfg 3 (0 : BitVec 7)
  if (← getEp0).state = .setupPhase then pure () else ep0Restart
  notify .reset

/-- R221: `on_disconnect`. -/
def onDisconnect : M Unit := do
  upd fun s => s.modDev fun d => { d with connected := false, speed := none }
  notify .disconnect
  draTrigger

/-- R223: one endpoint of `on_connect_done`. -/
def reconfigureEp0 (mps : BitVec 16) (n : EpNum) : M Unit := do
  let _ ← needEp n
  modEp n fun e => { e with maxpacket := mps }
  match (← cmdSetepconfig n .modify) with
  | .ok _ => pure ()
  | .err err => notifyErrEp n err

/-- R223: `on_connect_done`. -/
def onConnectDone : M Unit := do
  let c := (← regRead .dsts).extractLsb' 0 3
  match speedOf c with
  | none => notifyCode .unknownEvent (.word (c.setWidth 32))
  | some spd => do
    upd fun s => s.modDev fun d => { d with speed := some spd }
    modEp0 fun e => { e with mps := ep0Mps spd }
    forEach [0, 1] (reconfigureEp0 (ep0Mps spd))
    upd fun s => s.modDev fun d => { d with connected := true }
    notify (.connect spd)
    draTrigger

/-! ## Meanings -/

/-- `EVT.DEV.DISCONNECT` (R221). -/
def execEvtDevDisconnect (_ : DevFields) (s : State) : Host.Outcome State Fault Refusal :=
  toOutcome onDisconnect s

/-- `EVT.DEV.RESET` (R222). -/
def execEvtDevReset (_ : DevFields) (s : State) : Host.Outcome State Fault Refusal :=
  toOutcome onReset s

/-- `EVT.DEV.CONNECT_DONE` (R223). -/
def execEvtDevConnectDone (_ : DevFields) (s : State) : Host.Outcome State Fault Refusal :=
  toOutcome onConnectDone s

/-- `EVT.DEV.LINK_CHANGE` (R371). -/
def execEvtDevLinkChange (f : DevFields) (s : State) : Host.Outcome State Fault Refusal :=
  toOutcome (linkChange f.info) s

/-- `EVT.DEV.WAKEUP` (R224). -/
def execEvtDevWakeup (_ : DevFields) (s : State) : Host.Outcome State Fault Refusal :=
  toOutcome (notify .resume) s

/-- `EVT.DEV.SOF` (R225): no action. -/
def execEvtDevSof (_ : DevFields) (s : State) : Host.Outcome State Fault Refusal :=
  toOutcome (pure ()) s

/-- `EVT.DEV.ERRATIC_ERROR` (R226). -/
def execEvtDevErraticError (f : DevFields) (s : State) : Host.Outcome State Fault Refusal :=
  toOutcome (notifyCode .erratic (.info9 f.info)) s

/-- `EVT.DEV.CMD_CMPL` (R227): no action. -/
def execEvtDevCmdCmpl (_ : DevFields) (s : State) : Host.Outcome State Fault Refusal :=
  toOutcome (pure ()) s

/-- `EVT.DEV.OVERFLOW` (R228): a warning; `lpos` is not touched. -/
def execEvtDevOverflow (f : DevFields) (s : State) : Host.Outcome State Fault Refusal :=
  toOutcome (notifyCode .devOverflow (.info9 f.info)) s

end Sys2Proof.Machine
end

