-- ==== Sys2Proof/Machine/AuxEvents.lean ====
section
/-!
DEFINITION. The meanings of the auxiliary event words (R229), and what a reserved word does (R230).
-/

namespace Sys2Proof.Machine

/-- `EVT.AUXA` (R229): the raw word is notified. -/
def execEvtAuxa (f : AuxFields) (s : State) : Host.Outcome State Fault Refusal :=
  toOutcome (notifyCode .auxEvent (.word (auxEventWord 3 f))) s

/-- `EVT.AUXB` (R229): the raw word is notified. -/
def execEvtAuxb (f : AuxFields) (s : State) : Host.Outcome State Fault Refusal :=
  toOutcome (notifyCode .auxEvent (.word (auxEventWord 4 f))) s

/-- R161, R230: a reserved event word. A reserved sub-type on an existing EP0 is notified with its
reserved bits 0 (R333); on a disabled endpoint above EP0 it is dropped (R210). -/
def unknownEvent (w : Word) : M Unit := do
  match decodeEvent w with
  | .ep e t s p =>
    if e.toNat < 2 then notifyCode .unknownEvent (.word (encodeEvent (.ep e t s p)))
    else
      match (← getEp (epNum e)) with
      | none => notifyCode .unknownEvent (.word w)
      | some ep => if ep.enabled then notifyCode .unknownEvent (.word w) else pure ()
  | .dev _ _ | .auxA _ | .auxB _ | .unknown _ => notifyCode .unknownEvent (.word w)

end Sys2Proof.Machine
end

