-- ==== Sys2Proof/Machine/Commands.lean ====
section
/-!
DEFINITION. The meanings of the command words: one call of the command's operation (R250 to R258) by
the agent that holds the lock, through the component contract of the command engine (R8, R240), and
on success the writes its rule lists under "State written on success". The result is the call's
return value (log entry 10).
-/

namespace Sys2Proof.Machine

/-- A command's result as a call's return value. -/
def retOf : CmdResult → Ret
  | .ok rb => .word rb
  | .err e => .err e

/-- A call of the command engine. -/
def commandCall (m : M CmdResult) : M Unit := do
  let r ← m
  setRet (some (retOf r))

/-- What a rule writes on success: `f` after an `OK`. -/
def onOk (m : M CmdResult) (f : M Unit) : M CmdResult := do
  match (← m) with
  | .ok rb =>
    f
    return .ok rb
  | .err e => return .err e

/-- R253: a stall is kept as a flag, but not on EP0 (R353). -/
def markStalled (n : EpNum) : M Unit :=
  if n.val < 2 then pure () else modEp n fun e => { e with stalled := true }

/-- R254: the stall and the wedge end. -/
def markCleared (n : EpNum) : M Unit := modEp n fun e => { e with stalled := false, wedged := false }

/-- What a direct `UPDATETRANSFER` or `ENDTRANSFER` requires (R29, R256, R257, R510): a started transfer, and the
index that the endpoint keeps. -/
def namesTransfer (e : Endpoint) (rsc : BitVec 7) : Bool := e.xferStarted && e.rsc == some rsc

/-- A direct call where its command's requirement `ok` on the record holds; else `E_INVAL`, and nothing is issued
(log entry 10). -/
def whenLegal (n : EpNum) (ok : Endpoint → Bool) (m : M CmdResult) : M CmdResult := do
  if ok (← needEp n) then m else return .err .inval

/-- `C.ep0` once a stage that was posted is taken back, by its request's id: without its setup stage no setup
descriptor is armed (R330); a data or a status stage is to be posted again (R41; log entry 10). -/
def Ep0.withdrawn (c : Ep0) : ReqId → Ep0
  | .intSetup => { c with state := .unconnected }
  | .intStatus => { c with statusIssued := false }
  | .user _ => { c with dataReq := none, bounce := false }

/-- The end of ring `n`'s transfer on EP0 by a direct call: no end is awaited there, that ring alone is released, as
R346 releases it, and `C.ep0` loses the stage that was posted there, if any (log entry 10). -/
def ep0Ended (n : EpNum) : M Unit := do
  let e ← needEp n
  modEp n fun e => { e with endPending := false }
  ep0Release .cancelled n
  modEp0 fun c => e.started.foldl Ep0.withdrawn c

/-- R257 with `CMDIOC = 0`: the `CMDACT` clear is the acknowledgment and the transfer is finished at once (R305,
on EP0 `ep0Ended`), though an earlier end may still be awaited; that, and the outcome `CANCELLED`, are the model's
choice (log entry 10). -/
def finishEnded (n : EpNum) : M Unit := if n.val < 2 then ep0Ended n else finishEndTransfer n .cancelled

/-- R258: with base 2 the new configuration is marked as started. -/
def markStartCfg (base : BitVec 16) : M Unit :=
  if base = 2 then upd fun s => s.modDev fun d => { d with startCfgDone := true } else pure ()

/-- `DEPCMD.SETEPCONFIG` (R250). A direct call may `MODIFY` any endpoint at any time (log entry 10). -/
def execDepcmdSetepconfig (ep : BitVec 5) (action : CfgAction) (s : State) :
    Host.Outcome State Fault Refusal :=
  toOutcome (commandCall (cmdSetepconfig (epNum ep) action)) s

/-- `DEPCMD.SETXFERRSC` (R251). A direct call is issued at any time and any number of times (log entry 10). -/
def execDepcmdSetxferrsc (ep : BitVec 5) (s : State) : Host.Outcome State Fault Refusal :=
  toOutcome (commandCall (cmdSetxferrsc (epNum ep))) s

/-- `DEPCMD.GETEPSTATE` (R252). -/
def execDepcmdGetepstate (ep : BitVec 5) (s : State) : Host.Outcome State Fault Refusal :=
  toOutcome (commandCall (cmdGetepstate (epNum ep))) s

/-- `DEPCMD.SETSTALL` (R253). A direct call does not refuse a busy IN, a disabled or an isochronous endpoint, as
R426's caller does (log entry 10). -/
def execDepcmdSetstall (ep : BitVec 5) (s : State) : Host.Outcome State Fault Refusal :=
  toOutcome (commandCall (onOk (cmdSetstall (epNum ep)) (markStalled (epNum ep)))) s

/-- `DEPCMD.CLEARSTALL` (R254). A direct call is issued on EP0 too (log entry 10). -/
def execDepcmdClearstall (ep : BitVec 5) (s : State) : Host.Outcome State Fault Refusal :=
  toOutcome (commandCall (onOk (cmdClearstall (epNum ep)) (markCleared (epNum ep)))) s

/-- `DEPCMD.STARTTRANSFER` (R255). A direct call is issued though a transfer is started, and with any frame on
any endpoint; one that fails rolls nothing back, which R308 has its caller do (log entry 10). -/
def execDepcmdStarttransfer (ep : BitVec 5) (slot : BitVec 8) (frame : BitVec 16) (s : State) :
    Host.Outcome State Fault Refusal :=
  toOutcome (commandCall (cmdStarttransfer (epNum ep) (slotOf slot) frame)) s

/-- `DEPCMD.UPDATETRANSFER` (R256): not while an end is awaited. -/
def execDepcmdUpdatetransfer (ep : BitVec 5) (rsc : BitVec 7) (s : State) :
    Host.Outcome State Fault Refusal :=
  toOutcome (commandCall (whenLegal (epNum ep) (fun e => namesTransfer e rsc && !e.endPending)
    (cmdUpdatetransfer (epNum ep) rsc))) s

/-- `DEPCMD.DEPSTARTCFG` (R258). A direct call is issued with either base at any time (log entry 10). -/
def execDepcmdDepstartcfg (base : BitVec 16) (s : State) : Host.Outcome State Fault Refusal :=
  toOutcome (commandCall (onOk (cmdDepstartcfg base) (markStartCfg base))) s

/-- `DEPCMD.ENDTRANSFER ioc forcerm` (R257). A direct call is issued on EP0 too, and while an end is awaited (log
entry 10). -/
def execDepcmdEndtransferIocForcerm (ep : BitVec 5) (rsc : BitVec 7) (s : State) :
    Host.Outcome State Fault Refusal :=
  toOutcome (commandCall (whenLegal (epNum ep) (namesTransfer · rsc) (cmdEndtransfer (epNum ep) rsc true))) s

/-- `DEPCMD.ENDTRANSFER forcerm` (R257). A direct call is issued while an end is awaited too, and on EP0 it ends one
ring (log entry 10). -/
def execDepcmdEndtransferForcerm (ep : BitVec 5) (rsc : BitVec 7) (s : State) :
    Host.Outcome State Fault Refusal :=
  toOutcome (commandCall (whenLegal (epNum ep) (namesTransfer · rsc)
    (onOk (cmdEndtransfer (epNum ep) rsc false) (finishEnded (epNum ep))))) s

end Sys2Proof.Machine
end

