-- ==== Sys2Proof/Machine/Descriptors.lean ====
section
/-!
DEFINITION. The meanings of the descriptor types: a direct call posts one descriptor, `HWO` last, above EP0 for a
request on the ring (R33, R134, R288, R289), on EP0 for the stage its machine waits for (R331); the link
descriptor goes to the link slot (R36, R422). What the silicon then does with it is `siProcess` (R90). The result
is the call's return value (log entry 10).
-/

namespace Sys2Proof.Machine

/-- A descriptor of a new request: it is written and handed over, the record is made, and the request is the
youngest of the started ones (R288). -/
def postFirst (n : EpNum) (e : Endpoint) (t : TrbTyp) (f : TrbFields) : M Unit := do
  writeDesc n (descOf t f)
  upd fun s => s.addReq (directRequest n e.enq f)
  modEp n fun e => { e with started := e.started ++ [.user f.req] }

/-- One more descriptor of the youngest started request. Each is handed over by its own call, so the chain's first
precedes the rest, which R505 has otherwise for `enqueue` (log entry 10). -/
def postNext (n : EpNum) (r : Request) (t : TrbTyp) (f : TrbFields) : M Unit := do
  writeDesc n (descOf t f)
  modReq r.id fun q => q.extend f

/-- The request that one more descriptor may extend: the youngest started one of the endpoint, with no extra
descriptor at its end (R38, R287). -/
def extendable (n : EpNum) (e : Endpoint) (r : Request) : Bool :=
  r.kind == .user && r.ep == n && e.started.getLast? == some r.id && r.extra == .none

/-- A direct call's descriptor on ring `n` above EP0; an id in use for anything but the request it extends is
`E_INVAL` (log entry 10). -/
def postRing (n : EpNum) (e : Endpoint) (t : TrbTyp) (f : TrbFields) : M Unit := do
  match (← getReq (.user f.req)) with
  | none => postFirst n e t f
  | some r => if extendable n e r then postNext n r t f else raise .inval

/-- A direct call's descriptor on EP0: the EP0 machine's own stage, where that machine would post it (R39, R331),
and else `E_INVAL`; it is started by a direct `STARTTRANSFER` (log entry 10). -/
def postStage (n : EpNum) (e : Endpoint) (t : TrbTyp) (f : TrbFields) : M Unit := do
  let s ← get
  let r := stageRequest s.cfg n t f
  if stagesIdle s = false then raise (.busy (some n))
  else if (s.req r.id).isSome = true ∨ stageLegal s.cfg s.ep0 n t f = false then raise .inval
  else do
    ep0Put n e r (descOf t f)
    modEp0 (stagePosted t f)

/-- A direct call that posts a descriptor. A full ring, or one whose transfer is being ended, is `E_BUSY`; a type
that is not the ring's is `E_INVAL` (log entry 10). -/
def postDesc (n : EpNum) (t : TrbTyp) (f : TrbFields) : M Unit := do
  let e ← needEp n
  if freeSlots e = 0 ∨ e.endPending = true then raise (.busy (some n))
  else if n.val < 2 then postStage n e t f
  else if ringTyp t then postRing n e t f
  else raise .inval

/-- R36: a direct call that writes the link descriptor. It is always `mk_link(n)`, else `E_INVAL` (log entry 10);
the slot of an enabled endpoint, or one the silicon owns, is not rewritten (R98, R290). The slot is read to see
that, though nothing may have written it yet (R492; log entry 10). -/
def postLink (n : EpNum) (d : Desc) : M Unit := do
  if d ≠ mkLink (← getCfg) n then raise .inval
  else
    let owned := hwoOf (← memRead32 ((← get).slotAddr n Config.linkSlot + 12))
    if owned || ((← getEp n).any fun e => e.enabled) then modelFault .ringOverwrite else writeLink n d

/-- A call without a value of its own. -/
def descriptorCall (m : M Unit) : M Unit := do
  setRet (← catching (do m; return some .ok))

/-- `TRB.NORMAL` (R132, R289). -/
def execTrbNormal (f : TrbFields) (s : State) : Host.Outcome State Fault Refusal :=
  toOutcome (descriptorCall (postDesc (epNum f.ep) .normal f)) s

/-- `TRB.CONTROL_SETUP` (R132, R331). -/
def execTrbControlSetup (f : TrbFields) (s : State) : Host.Outcome State Fault Refusal :=
  toOutcome (descriptorCall (postDesc (epNum f.ep) .controlSetup f)) s

/-- `TRB.CONTROL_STATUS2` (R132, R331). -/
def execTrbControlStatus2 (f : TrbFields) (s : State) : Host.Outcome State Fault Refusal :=
  toOutcome (descriptorCall (postDesc (epNum f.ep) .controlStatus2 f)) s

/-- `TRB.CONTROL_STATUS3` (R132, R331). -/
def execTrbControlStatus3 (f : TrbFields) (s : State) : Host.Outcome State Fault Refusal :=
  toOutcome (descriptorCall (postDesc (epNum f.ep) .controlStatus3 f)) s

/-- `TRB.CONTROL_DATA` (R132, R331). -/
def execTrbControlData (f : TrbFields) (s : State) : Host.Outcome State Fault Refusal :=
  toOutcome (descriptorCall (postDesc (epNum f.ep) .controlData f)) s

/-- `TRB.ISOC_FIRST` (R132, R289). -/
def execTrbIsocFirst (f : TrbFields) (s : State) : Host.Outcome State Fault Refusal :=
  toOutcome (descriptorCall (postDesc (epNum f.ep) .isocFirst f)) s

/-- `TRB.ISOC` (R132, R289). -/
def execTrbIsoc (f : TrbFields) (s : State) : Host.Outcome State Fault Refusal :=
  toOutcome (descriptorCall (postDesc (epNum f.ep) .isoc f)) s

/-- `TRB.LINK` (R36, R132, R422). -/
def execTrbLink (f : TrbFields) (s : State) : Host.Outcome State Fault Refusal :=
  toOutcome (descriptorCall (postLink (epNum f.ep) (descOf .link f))) s

end Sys2Proof.Machine
end

