-- ==== Sys2Proof/Machine/Agents.lean ====
section
/-!
DEFINITION. The agents' turns around the instructions: the drain of the bottom half, word by word (R200
to R206, R467), the scheduler's turns (R468, R472), and where `withFetchWord` puts an instruction.
-/

namespace Sys2Proof.Machine

/-! ## The drain -/

/-- R24, R462: the read offset is in the buffer and a multiple of 4. -/
def lposValid (l : BitVec 16) : Bool := l.toNat < Config.evbufLen && l.toNat % 4 == 0

/-- R201 (a): the event word at the read offset. -/
def fetchWord : M Word := do
  let s ← get
  if lposValid s.evbuf.lpos then memRead32 (s.cfg.evbufAddr.toNat + s.evbuf.lpos.toNat)
  else modelFault .lpos

/-- R201 (c), (d): the word is consumed: the offset advances, the count falls, and the silicon is told
(R204, R508). -/
def ackWord : M Unit := do
  upd fun s => s.modEvbuf fun b =>
    { b with lpos := BitVec.ofNat 16 ((b.lpos.toNat + 4) % Config.evbufLen), count := b.count - 4 }
  publish
  regWrite .gevntcount 4

/-- The bottom half goes on after a word it dispatched, unless a model fault has stopped it (R462). -/
def afterDispatch (s : State) : Host.Outcome State Fault Refusal :=
  if Agent.bh ∈ s.run.stopped then .next s else toOutcome ackWord s

/-- R205: `overflow_resync`. The drawn offset is the silicon's write offset, where its next event word goes (R87
(a), R91). -/
def overflowResync (hw : BitVec 16) : M Unit := do
  notifyCode .evtOverflow (.count hw)
  let l ← drawOffset
  upd fun s => (s.modEvbuf fun b => { b with lpos := l, count := 0 }).modSi fun u => { u with wpos := l }
  regWrite .gevntcount (hw.setWidth 32)

/-- R201, R202: the drain's start: nothing while the buffer is disabled; else the count, read once. The
words follow one step each. -/
def drainStart : M Unit := do
  acquire .bh
  if (← get).evbuf.enabled then
    let hw := (← regRead .gevntcount).extractLsb' 0 16 &&& 0xFFFC#16
    if Config.evbufLen < hw.toNat then overflowResync hw
    else upd fun s => s.modEvbuf fun b => { b with count := hw }
    upd fun s => s.modRun fun u => { u with drain := true }
  else
    upd fun s => s.modEvbuf fun b => { b with pending := false }
    release

/-! ## The scheduler -/

/-- The instruction of a direct call; a call whose words are no instruction writes a reserved code or
field (R162). -/
def callInstr (fmt : Format) (ws : List Word) : Option Instr :=
  match decodeWords fmt ws with
  | .ok i => some i
  | .error _ => none

/-- The caller at work is stopped (R462). -/
def callerStopped (s : State) (k : Nat) : Bool := decide (Agent.up k ∈ s.run.stopped)

/-- The end of a direct call: the lock is released unless the caller was stopped. -/
def endCall (k : Nat) (s : State) : State := if callerStopped s k then s else s.setLock none

/-- A direct call's start: the caller takes the lock. -/
def beginCall (k : Nat) (s : State) : State := s.setLock (some (.up k))

/-- An outcome's next state, changed. -/
def mapNext (o : Host.Outcome State Fault Refusal) (f : State → State) : Host.Outcome State Fault Refusal :=
  match o with
  | .next s => .next (f s)
  | .fault e => .fault e
  | .refused r => .refused r

/-- A turn given to an agent whose next line is `acquire` waits while the lock is held (R472). -/
def needsLock : Act → Bool
  | .env _ => false
  | .bh | .rt | .ext _ _ | .up _ _ | .poll | .command _ _ _ | .descriptor _ _ _ _ _ _ _ | .remove => true

/-- The agent of an environment step. -/
def envAgent : EnvStep → Agent
  | .topHalf => .th
  | .cmdDone _ _ | .epState _ _ | .process _ _ _ _ _ | .endXfer _ | .event _ | .overflow _ _ | .reg _ _ => .si

/-- The agent a turn belongs to. -/
def actAgent (s : State) : Act → Agent
  | .env e => envAgent e
  | .bh => .bh
  | .rt => .rt
  | .ext _ _ => .ext
  | .up k _ => .up k
  | .poll =>
    match s.run.waiter with
    | some w => .up w.k
    | none => .platform
  | .command k _ _ => .up k
  | .descriptor k _ _ _ _ _ _ => .up k
  | .remove => .platform

/-- The caller of a turn is still inside its link request's wait: it calls one operation at a time (R8, R376). -/
def callerWaiting (s : State) (a : Act) : Bool :=
  match a with
  | .up k _ | .command k _ _ | .descriptor k _ _ _ _ _ _ => s.run.waiter.any fun w => w.k == k
  | .env _ | .bh | .rt | .ext _ _ | .poll | .remove => false

/-- Whether the agent may step at all (R395, R462, R467, R504). -/
def actEnabled (s : State) : Act → Bool
  | .env _ => true
  | .bh => s.evbuf.pending
  | .rt =>
    match s.run.rt with
    | .idle => s.role.task == .queued
    | .afterStop | .afterStart => true
  | .poll => s.run.waiter.isSome
  | .remove => s.role.task == .none
  | .ext _ _ | .up _ _ | .command _ _ _ | .descriptor _ _ _ _ _ _ _ => true

/-- A turn that is not a direct call. -/
def plainAct (a : Act) : M Unit :=
  match a with
  | .env e => upd fun s => envStep s e
  | .bh => drainStart
  | .rt => rtTurn
  | .ext id vbus => do
    acquire .ext
    extSignal id vbus
    release
  | .up k op => runUp k op
  | .poll => do
    match (← get).run.waiter with
    | none => pure ()
    | some w =>
      acquire (.up w.k)
      linkPoll w
      release
  | .remove => removeController
  | .command k _ _ => do
    acquire (.up k)
    modelFault .reservedWrite
  | .descriptor k _ _ _ _ _ _ => do
    acquire (.up k)
    modelFault .reservedWrite

/-- The instruction a turn's direct call runs, with its caller. -/
def actCall : Act → Option (Nat × Instr)
  | .command k w op => (callInstr .command [w, op]).map fun i => (k, i)
  | .descriptor k ctrl bpl bph size op req =>
    (callInstr .descriptor [ctrl, bpl, bph, size, op, req]).map fun i => (k, i)
  | .env _ | .bh | .rt | .ext _ _ | .up _ _ | .poll | .remove => none

/-- The state with the agenda replaced. -/
def State.setAgenda (s : State) (l : List Act) : State := s.modEnv fun e => { e with agenda := l }

/-! ## Placing an instruction (the host's `withFetchWord`) -/

/-- The read offset the drain will fetch at: the state's, or 0 where that is no offset. -/
def fetchOffset (s : State) : BitVec 16 := if lposValid s.evbuf.lpos then s.evbuf.lpos else 0

/-- The state with an event word where the drain fetches next, in the middle of a drain of one word
with nothing scheduled (log entry 5). -/
def placeEvent (s : State) (bytes : List Byte) : State :=
  let off := fetchOffset s
  { s with
    mem := Memory.writeBytes s.mem (s.cfg.evbufAddr.toNat + off.toNat) bytes
    regs := { s.regs with gevntcount := 4 }
    evbuf := { lpos := off, count := 4, enabled := true, pending := true }
    lock := some .bh
    run := { s.run with drain := true, alive := true, stopped := s.run.stopped.filter (· ≠ .bh) }
    env := { s.env with sched := [] } }

/-- The state with a direct call as the next turn, its caller not waiting and nothing scheduled (log entry 5). -/
def placeCall (s : State) (a : Act) : State :=
  { s with
    lock := none
    run :=
      { s.run with
        drain := false, alive := true, waiter := s.run.waiter.filter fun w => w.k ≠ 0
        stopped := s.run.stopped.filter (· ≠ .up 0) }
    env := { s.env with agenda := [a], sched := [] } }

/-- The call of a table word's words. -/
def placeWords (s : State) (fmt : Format) (bytes : List Byte) : State :=
  match fmt, wordsOfBytes bytes with
  | .command, w :: op :: _ => placeCall s (.command 0 w op)
  | .descriptor, ctrl :: bpl :: bph :: size :: op :: req :: _ =>
    placeCall s (.descriptor 0 ctrl bpl bph size op req)
  | _, _ => placeEvent s (bytes.take 4)

end Sys2Proof.Machine
end

