-- ==== Sys2Proof/Machine/Dispatch.lean ====
section
/-!
DEFINITION. The dispatch: one arm per constructor of `Instr`, each one direct call of its meaning.
-/

namespace Sys2Proof.Machine

def exec (i : Instr) (s : State) : Host.Outcome State Fault Refusal :=
  match i with
  | .evtEpXfercomplete f => Sys2Proof.Machine.execEvtEpXfercomplete f s
  | .evtEpXferinprogress f => Sys2Proof.Machine.execEvtEpXferinprogress f s
  | .evtEpXfernotready f => Sys2Proof.Machine.execEvtEpXfernotready f s
  | .evtEpRxtxfifo f => Sys2Proof.Machine.execEvtEpRxtxfifo f s
  | .evtEpStream f => Sys2Proof.Machine.execEvtEpStream f s
  | .evtEpEpcmdcmplt f => Sys2Proof.Machine.execEvtEpEpcmdcmplt f s
  | .evtEpXfercompleteEp0 f => Sys2Proof.Machine.execEvtEpXfercompleteEp0 f s
  | .evtEpXfernotreadyEp0 f => Sys2Proof.Machine.execEvtEpXfernotreadyEp0 f s
  | .evtEpXfercompleteEp1 f => Sys2Proof.Machine.execEvtEpXfercompleteEp1 f s
  | .evtEpXfernotreadyEp1 f => Sys2Proof.Machine.execEvtEpXfernotreadyEp1 f s
  | .evtDevDisconnect f => Sys2Proof.Machine.execEvtDevDisconnect f s
  | .evtDevReset f => Sys2Proof.Machine.execEvtDevReset f s
  | .evtDevConnectDone f => Sys2Proof.Machine.execEvtDevConnectDone f s
  | .evtDevLinkChange f => Sys2Proof.Machine.execEvtDevLinkChange f s
  | .evtDevWakeup f => Sys2Proof.Machine.execEvtDevWakeup f s
  | .evtDevSof f => Sys2Proof.Machine.execEvtDevSof f s
  | .evtDevErraticError f => Sys2Proof.Machine.execEvtDevErraticError f s
  | .evtDevCmdCmpl f => Sys2Proof.Machine.execEvtDevCmdCmpl f s
  | .evtDevOverflow f => Sys2Proof.Machine.execEvtDevOverflow f s
  | .evtAuxa f => Sys2Proof.Machine.execEvtAuxa f s
  | .evtAuxb f => Sys2Proof.Machine.execEvtAuxb f s
  | .depcmdSetepconfig ep action => Sys2Proof.Machine.execDepcmdSetepconfig ep action s
  | .depcmdSetxferrsc ep => Sys2Proof.Machine.execDepcmdSetxferrsc ep s
  | .depcmdGetepstate ep => Sys2Proof.Machine.execDepcmdGetepstate ep s
  | .depcmdSetstall ep => Sys2Proof.Machine.execDepcmdSetstall ep s
  | .depcmdClearstall ep => Sys2Proof.Machine.execDepcmdClearstall ep s
  | .depcmdStarttransfer ep slot frame => Sys2Proof.Machine.execDepcmdStarttransfer ep slot frame s
  | .depcmdUpdatetransfer ep rsc => Sys2Proof.Machine.execDepcmdUpdatetransfer ep rsc s
  | .depcmdDepstartcfg base => Sys2Proof.Machine.execDepcmdDepstartcfg base s
  | .depcmdEndtransferIocForcerm ep rsc => Sys2Proof.Machine.execDepcmdEndtransferIocForcerm ep rsc s
  | .depcmdEndtransferForcerm ep rsc => Sys2Proof.Machine.execDepcmdEndtransferForcerm ep rsc s
  | .trbNormal f => Sys2Proof.Machine.execTrbNormal f s
  | .trbControlSetup f => Sys2Proof.Machine.execTrbControlSetup f s
  | .trbControlStatus2 f => Sys2Proof.Machine.execTrbControlStatus2 f s
  | .trbControlStatus3 f => Sys2Proof.Machine.execTrbControlStatus3 f s
  | .trbControlData f => Sys2Proof.Machine.execTrbControlData f s
  | .trbIsocFirst f => Sys2Proof.Machine.execTrbIsocFirst f s
  | .trbIsoc f => Sys2Proof.Machine.execTrbIsoc f s
  | .trbLink f => Sys2Proof.Machine.execTrbLink f s

end Sys2Proof.Machine
end

