-- ==== Sys2Proof/Machine/Step.lean ====
section
/-!
DEFINITION. One step of the machine. In the middle of a drain it is the bottom half's next word (R201);
else it is the turn the schedule gives (R468). Nothing but the silicon and the top half acts inside a
step (R473).
-/

namespace Sys2Proof.Machine

/-- R201 (a) to (d) for one word: fetched, decoded, run, acknowledged. -/
def drainWord (s : State) : Host.Outcome State Fault Refusal :=
  match fetchWord s with
  | .error x t => toOutcome (fun u => .error x u) t
  | .ok w t =>
    match decodeEventWord w with
    | .ok i =>
      match exec i t with
      | .next u => afterDispatch u
      | .fault f => .fault f
      | .refused r => .refused r
    | .error _ =>
      match toOutcome (unknownEvent w) t with
      | .next u => afterDispatch u
      | .fault f => .fault f
      | .refused r => .refused r

/-- The bottom half's step in the middle of a drain: the next word, or the end (R467, R471). -/
def drainStep (s : State) : Host.Outcome State Fault Refusal :=
  if s.evbuf.count = 0 then toOutcome returnFromInterrupt s else drainWord s

/-- A direct call of one instruction: the lock, the instruction, the lock given back (R472). -/
def callStep (k : Nat) (i : Instr) (s : State) : Host.Outcome State Fault Refusal :=
  mapNext (exec i (beginCall k s)) (endCall k)

/-- One turn of the schedule (R468, R472): an agent that is stopped or may not step does nothing, and
one that waits for the lock, or whose caller is inside a link request, gets a later turn (R8). -/
def turn (a : Act) (rest : List Act) (s : State) : Host.Outcome State Fault Refusal :=
  if actAgent s a ∈ s.run.stopped ∨ actEnabled s a = false then .next (s.setAgenda rest)
  else if (needsLock a = true ∧ s.lock ≠ none) ∨ callerWaiting s a = true then .next (s.setAgenda (rest ++ [a]))
  else
    match actCall a with
    | some (k, i) => callStep k i (s.setAgenda rest)
    | none => toOutcome (plainAct a) (s.setAgenda rest)

/-- One step. -/
def step (s : State) : Host.Outcome State Fault Refusal :=
  if s.run.alive = false then .next s
  else if s.run.drain = true ∧ Agent.bh ∉ s.run.stopped then drainStep s
  else
    match s.env.agenda with
    | [] => .next s
    | a :: rest => turn a rest s

/-- `s` with a table word's instruction where the next step runs it. -/
def State.withFetchWord (s : State) (nbits w : Nat) : State :=
  placeWords s (tableFormat nbits (BitVec.ofNat 32 (w % 2 ^ nbits))) (tableBytes nbits w)

end Sys2Proof.Machine
end

