-- ==== Sys2Proof/Safety.lean ====
section
/-!
DEFINITION. What statements call a safe state, the invariants of R23 to R59 in the terms of the model;
and the states and schedules that statements about commands, descriptors and stages name.
-/

namespace Sys2Proof.Machine

/-! ## Invariants -/

/-- R23, R24 (a): the read offset is below the buffer's length, and it and the cached count are
multiples of 4. -/
def evbufOk (b : Evbuf) : Bool := lposValid b.lpos && b.count.toNat % 4 == 0

/-- `evbufOk` of a state. -/
def EvbufOk (s : State) : Prop := evbufOk s.evbuf = true

/-- R71: the memory is in its canonical form. -/
def MemOk (s : State) : Prop := Memory.wf s.mem

/-- R25, R31: a record carries its own number, and a wedged endpoint is stalled. -/
def EpsOk (s : State) : Prop :=
  ∀ n e, s.ep n = some e → e.number = n ∧ (e.wedged = true → e.stalled = true)

/-- R462: no model fault has been recorded. -/
def NoFault (s : State) : Prop := s.faults = []

/-- R404 (c): the device core runs only while the current role is the device role, the host child owns
the registers only while it is the host role, and between a stop and the next start there is no role. -/
def RolesExclusive (s : State) : Prop :=
  (s.dev.running = true → s.role.otgCur = .device) ∧ (s.si.hcRunning = true → s.role.otgCur = .host)
    ∧ (s.run.rt = .afterStop → s.role.otgCur = .idle)

/-! ## What an instruction leaves -/

/-- The fields that no instruction writes: the configuration, the lock, the role, the device core's
`running`, where the role switch and the drain stand, the event buffer's cursor, and the turns to come. -/
def SameControl (s t : State) : Prop :=
  t.cfg = s.cfg ∧ t.lock = s.lock ∧ t.role.otgCur = s.role.otgCur ∧ t.role.drCur = s.role.drCur
    ∧ t.dev.running = s.dev.running ∧ t.run.rt = s.run.rt ∧ t.run.drain = s.run.drain
    ∧ t.run.waiter = s.run.waiter ∧ t.evbuf.lpos = s.evbuf.lpos ∧ t.evbuf.count = s.evbuf.count
    ∧ t.evbuf.enabled = s.evbuf.enabled ∧ t.env.agenda = s.env.agenda ∧ t.si.hcRunning = s.si.hcRunning

/-! ## Commands -/

/-- A schedule in which nothing happens before a command's four register writes and the silicon
completes the command on `n`, with read-back word `w`, before the first poll (R89, R242). -/
def answers (n : EpNum) (w : Word) : List (List EnvStep) := [[], [], [], [], [.cmdDone n w]]

/-- The command word as the core reads it back after the silicon has written `w` (R89, R121). -/
def readBack (w : Word) : Word := w &&& 0xFFFFFBFF#32

/-- The state after the four register writes of a command (R241), the schedule then being `rest`. -/
def State.issued (s : State) (n : EpNum) (c : Cmd) (rest : List (List EnvStep)) : State :=
  ((((s.modEnv fun e => { e with sched := rest }).setReg (.depcmdpar2 n) c.p2).setReg (.depcmdpar1 n) c.p1).setReg
    (.depcmdpar0 n) c.p0).setReg (.depcmd n) c.word

/-- The state after a command and the silicon's completion of it with `w` (R89, R241). -/
def State.commanded (s : State) (n : EpNum) (c : Cmd) (w : Word) (rest : List (List EnvStep)) : State :=
  siCmdDone (s.issued n c rest) n w

/-- The state with a call's return value. -/
def State.returning (s : State) (r : Ret) : State := s.modRun fun u => { u with ret := some r }

/-- The command of `SETEPCONFIG` (R250). -/
def setepconfigCmd (e : Endpoint) (a : CfgAction) : Cmd := { typ := .setEpConfig, p0 := cfgP0 e a, p1 := cfgP1 e }

/-- No command on the endpoint has timed out (R244), and there is a record for it (R240). -/
def Commandable (s : State) (n : EpNum) : Prop := ∃ e, s.ep n = some e ∧ e.cmdStuck = false

/-! ## Descriptors -/

/-- The memory after the writes of `write_desc` at address `a` (R289): the fields, `CTRL` without `HWO`,
then `CTRL`. -/
def descWritten (m : List Host.Cell) (a : Nat) (d : Desc) : List Host.Cell :=
  Memory.writeWord (Memory.writeWord (Memory.writeWord (Memory.writeWord (Memory.writeWord m a d.bpl) (a + 4) d.bph)
    (a + 8) d.size) (a + 12) (clearHwo d.ctrl)) (a + 12) d.ctrl

/-- The descriptor of a slot is in the address space (R71). -/
def SlotInSpace (s : State) (n : EpNum) (i : Nat) : Prop := s.slotAddr n i + 16 ≤ 2 ^ s.cfg.dmaAddrBits

/-- `HWO` of the descriptor in a slot. -/
def slotHwo (s : State) (n : EpNum) (i : Nat) : Bool := hwoOf (Memory.readWord s.mem (s.slotAddr n i + 12))

/-- The `SIZE` word of the descriptor in a slot. -/
def slotSize (s : State) (n : EpNum) (i : Nat) : Word := Memory.readWord s.mem (s.slotAddr n i + 8)

/-- The record with its oldest descriptor retired and its started queue empty. -/
def Endpoint.retired (e : Endpoint) : Endpoint := { e with deq := adv e.deq, started := [] }

/-- The record with its transfer ended and every queue empty (R305). -/
def Endpoint.ended (e : Endpoint) : Endpoint :=
  { e with endPending := false, xferStarted := false, rsc := none, isocArmed := false, started := [], pending := [] }

/-- A ring that holds one finished descriptor: one started request of one segment, whose descriptor the
silicon has given back, and nothing pending or cancelled; nothing is scheduled. -/
structure OneDone (s : State) (n : EpNum) (e : Endpoint) (r : Request) : Prop where
  record : s.ep n = some e
  enabled : e.enabled = true
  started : e.started = [r.id]
  pending : e.pending = []
  cancelled : e.cancelled = []
  empty : e.enq = adv e.deq
  request : s.req r.id = some r
  ofEp : r.ep = n
  user : r.kind = .user
  first : r.first = some e.deq
  ndesc : r.ndesc = 1
  inSpace : SlotInSpace s n e.deq.val
  given : slotHwo s n e.deq.val = false
  quiet : s.env.sched = []

/-- A stage on ring `n` of EP0 that the silicon has finished (R331, R334); nothing is scheduled. -/
structure StageDone (s : State) (n : EpNum) (e : Endpoint) (r : Request) : Prop where
  record : s.ep n = some e
  started : e.started = [r.id]
  pending : e.pending = []
  cancelled : e.cancelled = []
  request : s.req r.id = some r
  ofEp : r.ep = n
  first : r.first = some e.deq
  inSpace : SlotInSpace s n e.deq.val
  given : slotHwo s n e.deq.val = false
  quiet : s.env.sched = []

/-- The state with a request's end reported: a `USER` request is notified (R299, R331). -/
def State.reported (s : State) (r : Request) (oc : Outcome) : State :=
  (if r.kind = .user then s.note (.complete r.id oc r.actual) else s).delReq r.id

/-- The record after R334 has retired its stage. -/
def Endpoint.stageRetired (e : Endpoint) : Endpoint :=
  { e with deq := adv e.deq, started := [], xferStarted := false, rsc := none }

/-- The eight bytes from an address on. -/
def setupAt (m : List Host.Cell) (a : Nat) : Vector Byte 8 :=
  #v[Memory.read m a, Memory.read m (a + 1), Memory.read m (a + 2), Memory.read m (a + 3), Memory.read m (a + 4),
    Memory.read m (a + 5), Memory.read m (a + 6), Memory.read m (a + 7)]

end Sys2Proof.Machine
end

