-- ==== Sys2Proof/Certificates/Slice0/Obligations.lean ====
section
/-!
DEFINITION. The statements for the provers. An instruction's next state is written out, so each such
statement is the result, the frame and the completion at once: whatever the equation does not change
is as before.
-/

section

open Sys2Proof Sys2Proof.Machine

/-! ## Encodings -/

/-- R112: `encode` field by field, and both round trips. -/
def Obligations.EventRoundTrip : Prop :=
  (∀ (e : BitVec 5) (t s : BitVec 4) (p : BitVec 16),
    encodeEvent (.ep e t s p)
      = p.setWidth 32 <<< 16 ||| s.setWidth 32 <<< 12 ||| t.setWidth 32 <<< 6 ||| e.setWidth 32 <<< 1)
  ∧ (∀ (t : BitVec 4) (i : BitVec 9),
    encodeEvent (.dev t i) = i.setWidth 32 <<< 16 ||| t.setWidth 32 <<< 8 ||| 0x01#32)
  ∧ (∀ p : BitVec 4, encodeEvent (.auxA p) = p.setWidth 32 <<< 8 ||| 0x07#32)
  ∧ (∀ p : BitVec 4, encodeEvent (.auxB p) = p.setWidth 32 <<< 8 ||| 0x09#32)
  ∧ (∀ ev : Event, (∀ r, ev ≠ .unknown r) → decodeEvent (encodeEvent ev) = ev)
  ∧ ∀ w : Word, (∀ r, decodeEvent w ≠ .unknown r) → encodeEvent (decodeEvent w) = w &&& resvClear w

/-- R109: reserved bits of an event word do not change what it decodes to. -/
def Obligations.EventReservedBitsIgnored : Prop :=
  ∀ w : Word, decodeEvent (w &&& resvClear w) = decodeEvent w

/-- The decoder undoes the encoder on every well-formed instruction, in every operand. -/
def Obligations.DecodeEncode : Prop :=
  ∀ i : Instr, i.wf = true → decode (formatOf i) (encodeBytes i) = .ok i

/-- The encoder undoes the decoder on every event word: no bit of it is dropped. -/
def Obligations.EncodeDecodeEvent : Prop :=
  ∀ (w : Word) (i : Instr), decodeEventWord w = .ok i → i.wf = true ∧ formatOf i = .event ∧ encode i = [w]

/-- The event words that are no instruction are exactly the reserved ones of R161. -/
def Obligations.ReservedEventsAreR161 : Prop :=
  ∀ w : Word, (∃ x, decodeEventWord w = .error x) ↔
    (w.getLsbD 0 = true ∧ w.extractLsb' 1 7 ≠ 0 ∧ w.extractLsb' 1 7 ≠ 3 ∧ w.extractLsb' 1 7 ≠ 4)
    ∨ (w.getLsbD 0 = false ∧
        (w.extractLsb' 6 4 = 0x0 ∨ w.extractLsb' 6 4 = 0x5 ∨ 0x8 ≤ (w.extractLsb' 6 4).toNat))
    ∨ (w.getLsbD 0 = true ∧ w.extractLsb' 1 7 = 0 ∧
        (w.extractLsb' 8 4 = 0x5 ∨ w.extractLsb' 8 4 = 0x6 ∨ w.extractLsb' 8 4 = 0x8
          ∨ 0xC ≤ (w.extractLsb' 8 4).toNat))

/-- R161, R230: a reserved event word is notified, or dropped, and changes nothing else. That a reserved
sub-type on EP0 is notified with its reserved bits 0, and is dropped on a disabled endpoint above EP0, is the
model's reading of R210 and R333 (log entry 25, DEDUCED). -/
def Obligations.ReservedEventNotified : Prop :=
  ∀ (w : Word) (x : Reject) (s : State), decodeEventWord w = .error x →
    toOutcome (unknownEvent w) s = .next (
      if w.getLsbD 0 = true then s.note (.code .unknownEvent (.word w))
      else if (w.extractLsb' 1 5).toNat < 2 then s.note (.code .unknownEvent (.word (w &&& resvClear w)))
      else
        match s.ep (epNum (w.extractLsb' 1 5)) with
        | none => s.note (.code .unknownEvent (.word w))
        | some e => if e.enabled = true then s.note (.code .unknownEvent (.word w)) else s)

/-- Words written out from the tables of R102 to R132 decode to the instructions they stand for. The operand
words of calls are the model's choice (log entry 10). -/
def Obligations.WrittenWordsDecode : Prop :=
  decodeEventWord 0x12346084#32 = .ok (.evtEpXferinprogress { ep := 2, rsv := 0, status := 6, param := 0x1234 })
  ∧ decodeEventWord 0x080001CA#32 = .ok (.evtEpEpcmdcmplt { ep := 5, rsv := 0, status := 0, param := 0x0800 })
  ∧ decodeEventWord 0x0000C040#32 = .ok (.evtEpXfercompleteEp0 { rsv := 0, status := 0xC, param := 0 })
  ∧ decodeEventWord 0x000020C2#32 = .ok (.evtEpXfernotreadyEp1 { rsv := 0, status := 2, param := 0 })
  ∧ decodeEventWord 0x00030301#32 = .ok (.evtDevLinkChange { rsvLo := 0, info := 3, rsvHi := 0 })
  ∧ decodeEventWord 0x00000307#32 = .ok (.evtAuxa { port := 3, rsv := 0 })
  ∧ decodeEventWord 0x00000005#32 = .error .reservedClass
  ∧ decodeEventWord 0x00000501#32 = .error .reservedDevSubtype
  ∧ decodeCommand 0x00030D08#32 2 = .ok (.depcmdEndtransferIocForcerm 2 3)
  ∧ decodeCommand 0x00020409#32 0 = .ok (.depcmdDepstartcfg 2)
  ∧ decodeCommand 0x12380406#32 0x0502 = .ok (.depcmdStarttransfer 2 5 0x1238)
  ∧ decodeDescriptor 0x00000C23#32 0x80050000 0 8 0 0
    = .ok (.trbControlSetup { ep := 0, bpl := 0x80050000, bph := 0, size := 8, req := 0, ctrl :=
        { hwo := true, lst := true, chn := false, csp := false, isp := true, ioc := true, rsvLo := 0, sid := 0,
          rsvHi := 0 } })
  ∧ decodeDescriptor 0x00000005#32 0 0 0 0 0 = .error .reservedDescriptor

/-- R126, R127: the two parameter words of `SETEPCONFIG`, field by field. -/
def Obligations.SetepconfigWords : Prop :=
  (epTypeCode .control = 0 ∧ epTypeCode .isoc = 1 ∧ epTypeCode .bulk = 2 ∧ epTypeCode .interrupt = 3
    ∧ actionCode .init = 0 ∧ actionCode .modify = 2)
  ∧ ∀ (e : Endpoint) (action : CfgAction),
    (cfgP0 e action).extractLsb' 0 1 = 0
    ∧ (cfgP0 e action).extractLsb' 1 2 = epTypeCode e.type
    ∧ (cfgP0 e action).extractLsb' 3 11 = e.maxpacket.setWidth 11
    ∧ (cfgP0 e action).extractLsb' 14 3 = 0
    ∧ ((cfgP0 e action).extractLsb' 17 5).toNat = (if e.number.val % 2 = 1 then e.number.val / 2 else 0)
    ∧ (cfgP0 e action).extractLsb' 22 4 = 0
    ∧ (cfgP0 e action).extractLsb' 26 4 = 0
    ∧ (cfgP0 e action).extractLsb' 30 2 = actionCode action
  ∧ ∀ e : Endpoint,
    (cfgP1 e).extractLsb' 0 8 = 0
    ∧ (cfgP1 e).getLsbD 8 = true
    ∧ (cfgP1 e).getLsbD 9 = decide (e.type ≠ .control)
    ∧ (cfgP1 e).getLsbD 10 = decide (e.type = .control ∨ e.type = .isoc)
    ∧ (cfgP1 e).extractLsb' 11 5 = 0
    ∧ (cfgP1 e).extractLsb' 16 8 = (if e.type = .isoc ∨ e.type = .interrupt then e.interval - 1 else 0)
    ∧ (cfgP1 e).getLsbD 24 = false
    ∧ ((cfgP1 e).extractLsb' 25 5).toNat = e.number.val
    ∧ (cfgP1 e).extractLsb' 30 2 = 0

/-! ## Steps -/

/-- In the middle of a drain the step fetches the word at the read offset and runs the instruction it
decodes to; the bottom half then acknowledges the word (R201, R204). That one word is one step is the model's
choice (log entry 4). -/
def Obligations.StepRunsDrainedEvent : Prop :=
  ∀ (s : State) (w : Word) (i : Instr),
    s.run.alive = true → s.run.drain = true → Agent.bh ∉ s.run.stopped → s.evbuf.count ≠ 0 → EvbufOk s →
    s.cfg.evbufAddr.toNat + s.evbuf.lpos.toNat + 4 ≤ 2 ^ s.cfg.dmaAddrBits →
    Memory.readWord (tickState s).mem (s.cfg.evbufAddr.toNat + s.evbuf.lpos.toNat) = w →
    decodeEventWord w = .ok i →
    step s =
      match exec i (tickState s) with
      | .next u => afterDispatch u
      | .fault f => .fault f
      | .refused r => .refused r

/-- R201 (c), (d), R204: after a word the offset has advanced by 4 modulo 4096, the cached count has
fallen by 4, and 4 has been written to `GEVNTCOUNT(0)`; nothing else changes. That the register's count does
not go below 0 is the model's choice (log entry 13). -/
def Obligations.ConsumedWordAcknowledged : Prop :=
  ∀ s : State, Agent.bh ∉ s.run.stopped → s.env.sched = [] →
    afterDispatch s = .next ((s.modEvbuf fun b =>
        { b with lpos := BitVec.ofNat 16 ((b.lpos.toNat + 4) % 4096), count := b.count - 4 }).setReg .gevntcount
      (BitVec.ofNat 32 (s.regs.gevntcount.toNat - 4)))

/-- A call's turn, its caller not inside a link request (R8), takes the lock, runs the instruction its words
decode to, and gives the lock back (R472). That a caller which a model fault has stopped keeps the lock is the
model's choice (log entry 16, DEDUCED), and so are turns and calls as data (log entries 4 and 10). -/
def Obligations.StepRunsCalledInstruction : Prop :=
  ∀ (s : State) (a : Act) (k : Nat) (i : Instr) (rest : List Act),
    s.run.alive = true → (s.run.drain = true → Agent.bh ∈ s.run.stopped) → s.env.agenda = a :: rest →
    s.lock = none → Agent.up k ∉ s.run.stopped → (∀ w, s.run.waiter = some w → w.k ≠ k) →
    ((∃ w op, a = .command k w op ∧ decodeWords .command [w, op] = .ok i)
      ∨ ∃ ctrl bpl bph size op req, a = .descriptor k ctrl bpl bph size op req
          ∧ decodeWords .descriptor [ctrl, bpl, bph, size, op, req] = .ok i) →
    step s =
      match exec i ((s.setAgenda rest).setLock (some (.up k))) with
      | .next u => .next (if Agent.up k ∈ u.run.stopped then u else u.setLock none)
      | .fault f => .fault f
      | .refused r => .refused r

/-! ## The interrupt -/

/-- R466, R469: the top half's step masks the interrupt and sets `pending`, and nothing else; it does
not step while the interrupt is not asserted or already taken. -/
def Obligations.InterruptEntry : Prop :=
  ∀ s : State,
    (irq s = true → s.evbuf.pending = false → Agent.th ∉ s.run.stopped →
      s.regs.gevntsiz.extractLsb' 16 15 = 0 →
      envStep s .topHalf = (s.setReg .gevntsiz (s.regs.gevntsiz ||| 0x80000000#32)).modEvbuf
          (fun b => { b with pending := true })
        ∧ irq (envStep s .topHalf) = false)
    ∧ (irq s = false ∨ s.evbuf.pending = true → envStep s .topHalf = s)

/-- R467: a drain starts with the lock, reading the count once (R202); with the buffer disabled it only
clears `pending` (R201). Turns as data are the model's choice (log entry 4). -/
def Obligations.DrainStart : Prop :=
  ∀ (s : State) (rest : List Act),
    s.run.alive = true → s.run.drain = false → Agent.bh ∉ s.run.stopped → s.env.agenda = .bh :: rest →
    s.lock = none → s.evbuf.pending = true → s.env.sched = [] →
    (s.evbuf.enabled = false →
      step s = .next ((s.setAgenda rest).modEvbuf fun b => { b with pending := false }))
    ∧ (s.evbuf.enabled = true → (s.hwCount &&& 0xFFFC#16).toNat ≤ 4096 →
      step s = .next ((((s.setAgenda rest).setLock (some .bh)).modEvbuf fun b =>
        { b with count := s.hwCount &&& 0xFFFC#16 }).modRun fun u => { u with drain := true }))

/-- R205: a drain that starts with a count above the buffer's length notifies it and acknowledges it whole; the
read offset becomes the silicon's write offset, a free value, whatever it is (log entry 6), and no word is left
to dispatch. That the register's count does not go below 0 is the model's choice (log entry 13), and so are
turns as data (log entry 4). -/
def Obligations.OverflowResynchronises : Prop :=
  ∀ (s : State) (rest : List Act),
    s.run.alive = true → s.run.drain = false → Agent.bh ∉ s.run.stopped → s.env.agenda = .bh :: rest →
    s.lock = none → s.evbuf.pending = true → s.env.sched = [] → s.evbuf.enabled = true →
    4096 < (s.hwCount &&& 0xFFFC#16).toNat →
    ∃ l : BitVec 16, l.toNat < 4096 ∧ l.toNat % 4 = 0 ∧
      step s = .next (
        let hw := s.hwCount &&& 0xFFFC#16
        ((((((((s.setAgenda rest).setLock (some .bh)).note (.code .evtOverflow (.count hw))).modEnv fun e =>
          { e with draws := e.draws + 1 }).modEvbuf fun b => { b with lpos := l, count := 0 }).modSi fun u =>
          { u with wpos := l }).setReg .gevntcount (BitVec.ofNat 32 (s.regs.gevntcount.toNat - hw.toNat))).modRun
          fun u => { u with drain := true }))

/-- R201, R471: a drain's end clears `pending`, unmasks the interrupt and gives the lock back. The
interrupt is asserted again if the silicon has counted more (R202). -/
def Obligations.InterruptReturn : Prop :=
  ∀ s : State, s.run.alive = true → s.run.drain = true → Agent.bh ∉ s.run.stopped → s.evbuf.count = 0 →
    s.env.sched = [] → s.regs.gevntsiz.extractLsb' 16 15 = 0 →
    ∃ t, step s = .next t
      ∧ t = ((((s.modEvbuf fun b => { b with pending := false }).setReg .gevntsiz
            (s.regs.gevntsiz &&& 0x7FFFFFFF#32)).modRun fun u => { u with drain := false }).setLock none)
      ∧ irq t = (s.evbuf.enabled && s.hwCount != 0)

/-! ## Reset and probe -/

/-- R62: the runtime fields right after reset, whatever the configuration, the registers and the
memory. -/
def Obligations.ResetValues : Prop :=
  ∀ (cfg : Cfg) (regs : Regs) (mem : List Host.Cell),
    (State.init cfg regs mem).evbuf = { lpos := 0, count := 0, enabled := false, pending := false }
    ∧ (∀ n, (State.init cfg regs mem).ep n = none)
    ∧ (State.init cfg regs mem).ep0 =
      { state := .unconnected, setup := Vector.replicate 8 0, threeStage := false, dataIn := false, delayed := false,
        statusIssued := false, bounce := false, dataReq := none, mps := 512 }
    ∧ (State.init cfg regs mem).link = { state := none, prev := none, seq := 0, req := none }
    ∧ (State.init cfg regs mem).role.drCur
      = (match cfg.drCaps with | .dualRole => .otg | .hostOnly => .host | .deviceOnly => .device)
    ∧ (State.init cfg regs mem).role.drDes = (State.init cfg regs mem).role.drCur
    ∧ (State.init cfg regs mem).role.otgCur = .idle ∧ (State.init cfg regs mem).role.otgDes = .idle
    ∧ (State.init cfg regs mem).role.task = .none
    ∧ (State.init cfg regs mem).role.sigId = true ∧ (State.init cfg regs mem).role.sigVbus = false
    ∧ (State.init cfg regs mem).dev =
      { running := false, connected := false, speed := none, pullup := false,
        wantPullup := false, startCfgDone := false }
    ∧ (State.init cfg regs mem).reqs = [] ∧ (State.init cfg regs mem).upQueue = []
    ∧ (State.init cfg regs mem).faults = [] ∧ (State.init cfg regs mem).lock = none

/-- R491 to R494: probe refuses a bad allocation and an endpoint count outside 2 to 32; otherwise it
writes no register and no memory, takes the snapshot and the revision, and queues a task exactly when
the controller has a single role. The model's reset state is what probe leaves with the default
configuration and the registers of log entry 2 (log entries 1 and 2 are the model's choices, and the ranges of
`paramsLegal` are log entry 24). -/
def Obligations.ProbeResult : Prop :=
  (∀ (cfg : Cfg) (regs : Regs) (mem : List Host.Cell),
    let numEps := (regs.ghwparams[3].extractLsb' 12 6).toNat
    (checkAlloc cfg = false ∨ numEps < 2 ∨ 32 < numEps → probe cfg regs mem = .error .inval)
    ∧ (checkAlloc cfg = true → paramsLegal cfg = true → 2 ≤ numEps → numEps ≤ 32 →
      ∃ s, probe cfg regs mem = .ok s ∧ s.regs = regs ∧ s.mem = mem ∧ s.cfg.revision = regs.gsnpsid
        ∧ s.cfg.hw.numEps = numEps ∧ s.lock = none
        ∧ s.role.otgDes
          = (match cfg.drCaps with | .dualRole => .idle | .hostOnly => .host | .deviceOnly => .device)
        ∧ s.role.task = (if cfg.drCaps = .dualRole then .none else .queued)))
  ∧ probe Config.standard Regs.reset [] = .ok State.reset

/-! ## Invariants -/

/-- The invariants hold right after reset; its configuration, registers and memory are the model's choice
where R62 gives none (log entries 1 to 3). -/
def Obligations.InvariantsAtReset : Prop :=
  MemOk State.reset ∧ EvbufOk State.reset ∧ EpsOk State.reset ∧ NoFault State.reset ∧ RolesExclusive State.reset

/-- Every step keeps the memory in its canonical form; the read offset inside the buffer, and it and the
cached count multiples of 4 (R23, R24); and each record's number its index, and every wedged endpoint
stalled (R25, R31). -/
def Obligations.StepKeepsInvariants : Prop :=
  ∀ s t : State, step s = .next t →
    (MemOk s → MemOk t) ∧ (EvbufOk s → EvbufOk t) ∧ (EpsOk s → EpsOk t)

/-- No step changes the configuration (R21), and no step clears a model fault (R59). -/
def Obligations.StepKeepsConfigAndFaults : Prop :=
  ∀ s t : State, step s = .next t → t.cfg = s.cfg ∧ ∀ f ∈ s.faults, f ∈ t.faults

/-- Every step that records no model fault keeps the two roles exclusive (R404 (c)). -/
def Obligations.StepKeepsRolesExclusive : Prop :=
  ∀ s t : State, RolesExclusive s → step s = .next t → NoFault t → RolesExclusive t

/-! ## Every instruction -/

/-- R370: no instruction but `LINK_CHANGE` changes the cached link state. -/
def Obligations.LinkOnlyByLinkChange : Prop :=
  ∀ (i : Instr) (s t : State), (∀ f, i ≠ .evtDevLinkChange f) → exec i s = .next t → t.link = s.link

/-- No instruction changes the configuration, the lock, the roles, the drain's cursor, the link waiter or
the turns to come. -/
def Obligations.InstructionsKeepControl : Prop :=
  ∀ (i : Instr) (s t : State), exec i s = .next t → SameControl s t

/-- R457: an instruction only appends notifications. -/
def Obligations.NotificationsOnlyAppended : Prop :=
  ∀ (i : Instr) (s t : State), exec i s = .next t → ∃ l, t.upQueue = s.upQueue ++ l

/-- R54, R80: no instruction makes an access that the rules do not make, so none is refused. -/
def Obligations.NoInstructionRefused : Prop := ∀ (i : Instr) (s : State) (r : Refusal), exec i s ≠ .refused r

/-! ## Device and auxiliary events -/

/-- R224 to R228: `SOF` and `CMD_CMPL` change no state; `WAKEUP`, `ERRATIC_ERROR` and `OVERFLOW` append
one notification and change nothing else. -/
def Obligations.SimpleDeviceEvents : Prop :=
  (∀ w : Word, w &&& 0x00000FFF#32 = 0x00000701#32 →
    ∃ f, decodeEventWord w = .ok (.evtDevSof f) ∧ ∀ s, exec (.evtDevSof f) s = .next s)
  ∧ (∀ w : Word, w &&& 0x00000FFF#32 = 0x00000A01#32 →
    ∃ f, decodeEventWord w = .ok (.evtDevCmdCmpl f) ∧ ∀ s, exec (.evtDevCmdCmpl f) s = .next s)
  ∧ (∀ w : Word, w &&& 0x00000FFF#32 = 0x00000401#32 →
    ∃ f, decodeEventWord w = .ok (.evtDevWakeup f) ∧ ∀ s, exec (.evtDevWakeup f) s = .next (s.note .resume))
  ∧ (∀ w : Word, w &&& 0x00000FFF#32 = 0x00000901#32 →
    ∃ f, decodeEventWord w = .ok (.evtDevErraticError f) ∧
      ∀ s, exec (.evtDevErraticError f) s = .next (s.note (.code .erratic (.info9 (w.extractLsb' 16 9)))))
  ∧ ∀ w : Word, w &&& 0x00000FFF#32 = 0x00000B01#32 →
    ∃ f, decodeEventWord w = .ok (.evtDevOverflow f) ∧
      ∀ s, exec (.evtDevOverflow f) s = .next (s.note (.code .devOverflow (.info9 (w.extractLsb' 16 9))))

/-- R229: an auxiliary event appends its raw word, reserved bits included, and changes nothing else. -/
def Obligations.AuxiliaryEventsNotifyRawWord : Prop :=
  (∀ w : Word, w &&& 0xFF#32 = 0x07#32 →
    ∃ f, decodeEventWord w = .ok (.evtAuxa f) ∧
      ∀ s, exec (.evtAuxa f) s = .next (s.note (.code .auxEvent (.word w))))
  ∧ ∀ w : Word, w &&& 0xFF#32 = 0x09#32 →
    ∃ f, decodeEventWord w = .ok (.evtAuxb f) ∧
      ∀ s, exec (.evtAuxb f) s = .next (s.note (.code .auxEvent (.word w)))

/-- R221: `DISCONNECT` clears `connected` and the speed, notifies, and triggers the arbiter (R392). -/
def Obligations.DisconnectResult : Prop :=
  ∀ (f : DevFields) (s : State),
    exec (.evtDevDisconnect f) s = .next (triggered
      ((s.modDev fun d => { d with connected := false, speed := none }).note .disconnect))

/-- R391, R392: the trigger sets the desired role from the signals, queues a task when there is none and
the role is not the current one, and changes nothing else; while a task is queued or running only the
desired role changes. -/
def Obligations.TriggerResult : Prop :=
  ∀ s : State, ∃ d : OtgRole,
    d = (match s.cfg.drCaps with
      | .hostOnly => .host
      | .deviceOnly => .device
      | .dualRole => if s.role.sigId = false then .host else if s.role.sigVbus = true then .device else .idle)
    ∧ triggered s = s.modRole fun r =>
        { r with otgDes := d, task := if s.role.task = .none ∧ d ≠ s.role.otgCur then .queued else s.role.task }

/-- R371, R372: `LINK_CHANGE` moves the link state, counts the change and notifies suspend and resume; a
reserved code is notified as an unknown event, its reserved bits 0. -/
def Obligations.LinkChangeResult : Prop :=
  ∀ (f : DevFields) (s : State), exec (.evtDevLinkChange f) s = .next (
    match linkStateOf (f.info.extractLsb' 0 4) with
    | none => s.note (.code .unknownEvent (.word (f.info.setWidth 32 <<< 16 ||| 0x301#32)))
    | some new =>
      let t := s.modLink fun l => { l with prev := s.link.state, state := some new, seq := s.link.seq + 1 }
      if new = .u3 ∧ s.link.state ≠ some .u3 then t.note .suspend
      else if s.link.state = some .u3 ∧ new ≠ .u3 then t.note .resume
      else t)

/-- R223: `CONNECT_DONE` with both commands answered by success: the speed, EP0's packet size in both
records and in the silicon, the notification and the trigger. With a reserved speed code it notifies the
code and changes nothing else. -/
def Obligations.ConnectDoneResult : Prop :=
  (∀ (f : DevFields) (s : State) (spd : Speed) (e0 e1 : Endpoint) (w0 w1 : Word) (rest : List (List EnvStep)),
    speedOf (s.regs.dsts.extractLsb' 0 3) = some spd →
    s.ep 0 = some e0 → e0.cmdStuck = false → s.ep 1 = some e1 → e1.cmdStuck = false →
    s.env.sched = [] :: (answers 0 w0 ++ answers 1 w1 ++ rest) → cmdStatus w0 = 0 → cmdStatus w1 = 0 →
    exec (.evtDevConnectDone f) s = .next (
      let m := ep0Mps spd
      let s0 := ((s.modDev fun d => { d with speed := some spd }).modEp0 fun c => { c with mps := m }).modEp 0
        fun e => { e with maxpacket := m }
      let s1 := (s0.commanded 0 (setepconfigCmd { e0 with maxpacket := m } .modify) w0 (answers 1 w1 ++ rest)).modEp 1
        fun e => { e with maxpacket := m }
      let s2 := s1.commanded 1 (setepconfigCmd { e1 with maxpacket := m } .modify) w1 rest
      triggered ((s2.modDev fun d => { d with connected := true }).note (.connect spd))))
  ∧ ∀ (f : DevFields) (s : State), speedOf (s.regs.dsts.extractLsb' 0 3) = none → s.env.sched = [] →
    exec (.evtDevConnectDone f) s
      = .next (s.note (.code .unknownEvent (.word ((s.regs.dsts.extractLsb' 0 3).setWidth 32))))

/-- R222: `RESET` with no endpoint above EP0 enabled and the setup stage armed: the device address and
`start_cfg_done` are cleared, and the reset is notified. That `connected` stays, as R222's pseudocode has it and
R57 has not, is the model's choice (log entry 26). -/
def Obligations.ResetEventResult : Prop :=
  ∀ (f : DevFields) (s : State),
    (∀ (n : EpNum) (e : Endpoint), 2 ≤ n.val → s.ep n = some e → e.enabled = false) →
    s.ep0.state = .setupPhase → s.env.sched = [] →
    exec (.evtDevReset f) s = .next
      (((s.modDev fun d => { d with startCfgDone := false }).setReg .dcfg (s.regs.dcfg &&& 0xFFFFFC07#32)).note .reset)

/-! ## Endpoint events -/

/-- R210, R333: an event for an endpoint without a record is notified as unknown, with its raw word above
EP0 and with its reserved bits 0 on EP0, and changes nothing else. -/
def Obligations.EventWithoutRecord : Prop :=
  ∀ (w : Word) (i : Instr) (s : State), decodeEventWord w = .ok i → w.getLsbD 0 = false →
    s.ep (epNum (w.extractLsb' 1 5)) = none →
    exec i s = .next (s.note (.code .unknownEvent
      (.word (if (w.extractLsb' 1 5).toNat < 2 then w &&& resvClear w else w))))

/-- R210: above EP0, an event for a disabled endpoint whose `ENDTRANSFER` is not awaited is dropped. -/
def Obligations.DisabledEndpointDropsEvent : Prop :=
  ∀ (w : Word) (i : Instr) (s : State) (e : Endpoint), decodeEventWord w = .ok i → w.getLsbD 0 = false →
    2 ≤ (w.extractLsb' 1 5).toNat → s.ep (epNum (w.extractLsb' 1 5)) = some e → e.enabled = false →
    e.endPending = false → exec i s = .next s

/-- R214, R215, R348, R351: these events change no state on an endpoint that has a record: `RXTXFIFO` and
`STREAM` on any, `XFERINPROGRESS` and `EPCMDCMPLT` on EP0, `XFERNOTREADY` on EP0, and `XFERCOMPLETE` on EP0
with no stage on its ring. -/
def Obligations.EndpointEventsWithoutAction : Prop :=
  ∀ (s : State) (e : Endpoint),
    (∀ f : EpFields, s.ep (epNum f.ep) = some e →
      exec (.evtEpRxtxfifo f) s = .next s ∧ exec (.evtEpStream f) s = .next s
      ∧ (f.ep.toNat < 2 → exec (.evtEpXferinprogress f) s = .next s ∧ exec (.evtEpEpcmdcmplt f) s = .next s))
    ∧ ∀ f : Ep0Fields,
      (s.ep 0 = some e → exec (.evtEpXfernotreadyEp0 f) s = .next s
        ∧ (e.started = [] → exec (.evtEpXfercompleteEp0 f) s = .next s))
      ∧ (s.ep 1 = some e → exec (.evtEpXfernotreadyEp1 f) s = .next s
        ∧ (e.started = [] → exec (.evtEpXfercompleteEp1 f) s = .next s))

/-- R211, R212, R295 to R299, R309: `XFERINPROGRESS` retires a finished one-segment request: its slot is
taken off the ring, the request is reported with its bytes and its outcome, by R297's order `BUS_ERROR`,
`MISSED_ISOC`, `SHORT`, `OK`, and is gone. `XFERCOMPLETE` also ends the transfer. Nothing else changes. -/
def Obligations.TransferEventsRetire : Prop :=
  ∀ (f : EpFields) (s : State) (e : Endpoint) (r : Request), 2 ≤ f.ep.toNat → OneDone s (epNum f.ep) e r →
    e.endPending = false →
    (let size := slotSize s (epNum f.ep) e.deq.val
     let actual := match r.segs with
       | [] => 0
       | seg :: _ => seg.2 - min (bufSiz size) seg.2
     let oc : Outcome :=
       if f.status.getLsbD 0 = true then .busError
       else if e.type = .isoc ∧ (trbSts size = 1 ∨ f.status.getLsbD 3 = true) then .missedIsoc
       else if actual < r.length then .short
       else .ok
     let report (e' : Endpoint) : State := ((s.setEp (epNum f.ep) (some e')).note
       (.complete r.id oc actual)).delReq r.id
     exec (.evtEpXferinprogress f) s = .next (report e.retired)
     ∧ exec (.evtEpXfercomplete f) s = .next (report e.retired.ended))

/-- R213: `XFERNOTREADY` while an end is awaited or a transfer is started changes nothing; on an idle
isochronous endpoint with nothing queued it keeps the frame for the start to come. -/
def Obligations.XferNotReadyWithoutStart : Prop :=
  (∀ (f : EpFields) (s : State) (e : Endpoint), 2 ≤ f.ep.toNat → s.ep (epNum f.ep) = some e →
    e.endPending = true ∨ e.xferStarted = true → exec (.evtEpXfernotready f) s = .next s)
  ∧ ∀ (f : EpFields) (s : State) (e : Endpoint), 2 ≤ f.ep.toNat → s.ep (epNum f.ep) = some e → e.enabled = true →
    e.endPending = false → e.xferStarted = false → e.type = .isoc → e.pending = [] → e.started = [] →
    exec (.evtEpXfernotready f) s
      = .next (s.setEp (epNum f.ep) (some { e with isocArmed := true, isocFrame := f.param }))

/-- R213, R292, R288, R293, R255: `XFERNOTREADY` on an idle endpoint with one pending request of one
descriptor writes that descriptor at the enqueue slot, hands it over, and starts the transfer there; the
silicon answers with a resource index. -/
def Obligations.XferNotReadyStarts : Prop :=
  ∀ (f : EpFields) (s : State) (e : Endpoint) (r : Request) (w : Word) (rest : List (List EnvStep)),
    2 ≤ f.ep.toNat → s.ep (epNum f.ep) = some e → e.enabled = true → e.endPending = false → e.stalled = false →
    e.xferStarted = false → e.cmdStuck = false → e.type ≠ .isoc → e.pending = [r.id] → e.started = [] →
    e.enq = e.deq → s.req r.id = some r → need r = 1 → (descAt s.cfg e r 0).writable = true →
    SlotInSpace s (epNum f.ep) e.enq.val → slotHwo s (epNum f.ep) e.enq.val = false →
    s.env.sched = [] :: [] :: [] :: [] :: [] :: [] :: (answers (epNum f.ep) w ++ rest) → cmdStatus w = 0 →
    exec (.evtEpXfernotready f) s = .next (
      let n := epNum f.ep
      let s1 := (((s.modReq r.id fun q => { q with first := some e.enq, ndesc := 1 }).setMem
        (descWritten s.mem (s.slotAddr n e.enq.val) (descAt s.cfg e r 0))).setEp n
          (some { e with enq := adv e.enq, pending := [], started := [r.id] }))
      let td := tdAddr s n e.deq
      (s1.commanded n { typ := .startTransfer, p0 := quadHigh td, p1 := quadLow td } w rest).modEp n fun q =>
        { q with rsc := some (cmdRsc (readBack w)), xferStarted := true, isocArmed := false })

/-- R216, R305, R423: above EP0, a completion event of another command, or one that is not awaited,
changes nothing. The awaited `ENDTRANSFER` completion with no request left ends the transfer of an enabled
endpoint, and removes a disabled one with its `DALEPENA` bit; a failed status is notified first. -/
def Obligations.CommandCompletionResult : Prop :=
  (∀ (f : EpFields) (s : State) (e : Endpoint), 2 ≤ f.ep.toNat → s.ep (epNum f.ep) = some e →
    f.param.extractLsb' 8 4 ≠ 0x8 ∨ e.endPending = false → exec (.evtEpEpcmdcmplt f) s = .next s)
  ∧ ∀ (f : EpFields) (s : State) (e : Endpoint), 2 ≤ f.ep.toNat → s.ep (epNum f.ep) = some e →
    f.param.extractLsb' 8 4 = 0x8 → e.endPending = true → e.pending = [] → e.started = [] → e.cancelled = [] →
    e.enq = e.deq → s.env.sched = [] →
    exec (.evtEpEpcmdcmplt f) s = .next (
      let s0 := if f.status = 0 then s else s.note (.code .cmdFailed (.epStatus (epNum f.ep) f.status))
      if e.enabled = true then s0.setEp (epNum f.ep) (some e.ended)
      else (s0.setReg .dalepena (s.regs.dalepena &&& ~~~(1#32 <<< f.ep.toNat))).setEp (epNum f.ep) none)

/-! ## Control transfers -/

/-- R334 to R336: the setup stage's completion, the reply scheduled. The packet is captured and notified,
and a three-stage transfer accepted or delayed waits in its data phase. The schedule of replies is the model's
choice (log entry 7). -/
def Obligations.SetupStageCompletes : Prop :=
  ∀ (f : Ep0Fields) (s : State) (e : Endpoint) (r : Request) (reply : SetupReply) (more : List SetupReply),
    StageDone s 0 e r → r.kind = .ep0Setup → busErr f.status = false →
    s.cfg.setupBufAddr.toNat + 8 ≤ 2 ^ s.cfg.dmaAddrBits → s.env.replies = reply :: more → reply ≠ .stall →
    wLength (setupAt s.mem s.cfg.setupBufAddr.toNat) ≠ 0 →
    exec (.evtEpXfercompleteEp0 f) s = .next (
      let p := setupAt s.mem s.cfg.setupBufAddr.toNat
      ((((s.setEp 0 (some e.stageRetired)).delReq r.id).note (.setup p)).modEnv fun v =>
        { v with replies := more }).modEp0 fun c =>
          { c with setup := p, threeStage := true, dataIn := p[0].getLsbD 7, delayed := reply = .delay,
                   state := .dataPhase })

/-- R334, R339, R342: the IN data stage's completion while the status is delayed: the request is reported
with its bytes, and the status phase waits. -/
def Obligations.DelayedDataStageCompletes : Prop :=
  ∀ (f : Ep0Fields) (s : State) (e : Endpoint) (r : Request),
    StageDone s 1 e r → r.kind = .user → busErr f.status = false → s.ep0.bounce = false → s.ep0.delayed = true →
    exec (.evtEpXfercompleteEp1 f) s = .next (
      let actual := r.length - min (bufSiz (slotSize s 1 e.deq.val)) r.length
      ((((s.setEp 1 (some e.stageRetired)).delReq r.id).note
        (.complete r.id (if actual < r.length then .short else .ok) actual)).modEp0 fun c =>
          { c with dataReq := none, bounce := false, state := .statusPhase }))

/-! ## Commands -/

/-- R241 to R246, R250, R251, R253, R254, R256, R257: each command on an endpoint with a record and no
timed-out command, answered by success at the first poll: the four registers of R241 are written, the
read-back word is returned, and the state its rule lists is written; nothing else changes. An update and an end
name the index of the started transfer (R29). The end without `CMDIOC`, with no request left, finishes the
transfer at once (R305, R346); on a ring of EP0 with a stage posted, it takes that stage back, with its slot, and
`C.ep0` is as it stands without it. What a direct call returns, and that it writes what the rules leave to the caller,
is the model's choice (log entry 10). -/
def Obligations.CommandsComplete : Prop :=
  ∀ (s : State) (ep : BitVec 5) (e : Endpoint) (w : Word) (rest : List (List EnvStep)),
    s.ep (epNum ep) = some e → e.cmdStuck = false → s.env.sched = answers (epNum ep) w ++ rest → cmdStatus w = 0 →
    (∀ a, exec (.depcmdSetepconfig ep a) s = .next
      ((s.commanded (epNum ep) (setepconfigCmd e a) w rest).returning (.word (readBack w))))
    ∧ exec (.depcmdSetxferrsc ep) s = .next
      ((s.commanded (epNum ep) { typ := .setXferRsc, p0 := 1 } w rest).returning (.word (readBack w)))
    ∧ exec (.depcmdSetstall ep) s = .next
      ((let t := s.commanded (epNum ep) { typ := .setStall } w rest
        if (epNum ep).val < 2 then t else t.modEp (epNum ep) fun e => { e with stalled := true }).returning
          (.word (readBack w)))
    ∧ exec (.depcmdClearstall ep) s = .next
      (((s.commanded (epNum ep) { typ := .clearStall } w rest).modEp (epNum ep) fun e =>
        { e with stalled := false, wedged := false }).returning (.word (readBack w)))
    ∧ (∀ rsc : BitVec 7, e.xferStarted = true → e.rsc = some rsc → e.endPending = false →
      exec (.depcmdUpdatetransfer ep rsc) s = .next
      ((s.commanded (epNum ep) { typ := .updateTransfer, param := rsc.setWidth 16 } w rest).returning
        (.word (readBack w))))
    ∧ (∀ rsc : BitVec 7, e.xferStarted = true → e.rsc = some rsc → e.pending = [] → e.started = [] →
      e.cancelled = [] → e.enq = e.deq → rest = [] →
      exec (.depcmdEndtransferForcerm ep rsc) s = .next
      ((let t := s.commanded (epNum ep) { typ := .endTransfer, param := rsc.setWidth 16, forcerm := true } w []
        if (epNum ep).val < 2 then
          t.setEp (epNum ep) (some { e with endPending := false, xferStarted := false, rsc := none })
        else if e.enabled = true then t.setEp (epNum ep) (some e.ended)
        else (t.setReg .dalepena (s.regs.dalepena &&& ~~~(1#32 <<< ep.toNat))).setEp (epNum ep) none).returning
          (.word (readBack w))))
    ∧ (∀ (rsc : BitVec 7) (r : Request), (epNum ep).val < 2 → e.xferStarted = true → e.rsc = some rsc →
      e.pending = [] → e.started = [r.id] → e.cancelled = [] → e.enq = adv e.deq → s.req r.id = some r →
      r.ep = epNum ep → SlotInSpace s (epNum ep) e.deq.val → rest = [] →
      let a := s.slotAddr (epNum ep) e.deq.val + 12
      ctrlWritable (Memory.readWord s.mem a) = true →
      exec (.depcmdEndtransferForcerm ep rsc) s = .next
      (let t := s.commanded (epNum ep) { typ := .endTransfer, param := rsc.setWidth 16, forcerm := true } w []
       let u := (if r.kind = .user then t.note (.complete r.id .cancelled r.actual) else t).delReq r.id
       (((u.setMem (Memory.writeWord s.mem a (clearHwo (Memory.readWord s.mem a)))).setEp (epNum ep)
         (some { e with endPending := false, xferStarted := false, rsc := none, started := [], enq := e.deq })).modEp0
           fun c => match r.id with
             | .intSetup => { c with state := .unconnected }
             | .intStatus => { c with statusIssued := false }
             | .user _ => { c with dataReq := none, bounce := false }).returning (.word (readBack w))))
    ∧ ∀ rsc : BitVec 7, e.xferStarted = true → e.rsc = some rsc →
      exec (.depcmdEndtransferIocForcerm ep rsc) s = .next
      (((s.commanded (epNum ep) { typ := .endTransfer, param := rsc.setWidth 16, ioc := true, forcerm := true } w
        rest).modEp (epNum ep) fun e => { e with endPending := true }).returning (.word (readBack w)))

/-- R255: `STARTTRANSFER` names its slot's address and keeps the returned resource index. What a direct call
returns is the model's choice (log entry 10). -/
def Obligations.StartTransferCompletes : Prop :=
  ∀ (s : State) (ep : BitVec 5) (slot : BitVec 8) (frame : BitVec 16) (w : Word) (rest : List (List EnvStep)),
    slot.toNat < 255 → Commandable s (epNum ep) → s.env.sched = answers (epNum ep) w ++ rest → cmdStatus w = 0 →
    exec (.depcmdStarttransfer ep slot frame) s = .next (
      let td := BitVec.ofNat 64 (s.cfg.ringBase[epNum ep].toNat + 16 * slot.toNat)
      (((s.commanded (epNum ep) { typ := .startTransfer, p0 := quadHigh td, p1 := quadLow td, param := frame } w
        rest).modEp (epNum ep) fun e =>
          { e with rsc := some (w.extractLsb' 16 7), xferStarted := true, isocArmed := false }).returning
            (.word (readBack w))))

/-- R252: `GETEPSTATE` returns what the silicon wrote to `DEPCMDPAR2`. Where a direct call's value is kept is
the model's choice (log entry 10). -/
def Obligations.GetEpStateCompletes : Prop :=
  ∀ (s : State) (ep : BitVec 5) (v w : Word) (rest : List (List EnvStep)),
    Commandable s (epNum ep) → cmdStatus w = 0 →
    s.env.sched = [] :: [] :: [] :: [] :: [.epState (epNum ep) v, .cmdDone (epNum ep) w] :: [] :: rest →
    exec (.depcmdGetepstate ep) s = .next (
      ((((s.issued (epNum ep) { typ := .getEpState } rest).setReg (.depcmdpar2 (epNum ep)) v).setReg
        (.depcmd (epNum ep)) (readBack w)).returning (.word v)))

/-- R245, R258: `DEPSTARTCFG` with no timed-out command anywhere; with base 2 the new configuration is
marked as started. What a direct call returns is the model's choice (log entry 10). -/
def Obligations.DepStartCfgCompletes : Prop :=
  ∀ (s : State) (base : BitVec 16) (w : Word) (rest : List (List EnvStep)),
    (∀ n e, s.ep n = some e → e.cmdStuck = false) → (s.ep 0).isSome = true →
    s.env.sched = answers 0 w ++ rest → cmdStatus w = 0 →
    exec (.depcmdDepstartcfg base) s = .next (
      (let t := s.commanded 0 { typ := .depStartCfg, param := base } w rest
       if base = 2 then t.modDev fun d => { d with startCfgDone := true } else t).returning (.word (readBack w)))

/-- R240, R244, R245: a command on an endpoint whose timed-out command is still active is refused before
anything is written; so is `DEPSTARTCFG` while one is active on any endpoint. An update or an end that does not
name the started transfer's index, and an update while an end is awaited, is `E_INVAL` (R256, R257). A command
of an endpoint without a record is the model fault `F_RESERVED_WRITE`: nothing is written and the caller is
stopped. What a call returns and the `E_INVAL` are the model's choice (log entry 10), the `E_BUSY` of
`DEPSTARTCFG` without an endpoint too (log entry 19), and so is the fault for a missing record (log entry 12). -/
def Obligations.CommandsTurnedAway : Prop :=
  (∀ (s : State) (ep : BitVec 5) (e : Endpoint), s.env.sched = [] → s.ep (epNum ep) = some e → e.cmdStuck = true →
    cmdActive s.regs.depcmd[epNum ep] = true →
    ∀ (a : CfgAction) (slot : BitVec 8) (frame : BitVec 16) (rsc : BitVec 7) (i : Instr),
      i ∈ [Instr.depcmdSetepconfig ep a, .depcmdSetxferrsc ep, .depcmdGetepstate ep, .depcmdSetstall ep,
        .depcmdClearstall ep, .depcmdStarttransfer ep slot frame]
      ∨ (e.xferStarted = true ∧ e.rsc = some rsc ∧ e.endPending = false ∧
        i ∈ [Instr.depcmdUpdatetransfer ep rsc, .depcmdEndtransferIocForcerm ep rsc,
          .depcmdEndtransferForcerm ep rsc]) →
      exec i s = .next (s.returning (.err (.busy (some (epNum ep))))))
  ∧ (∀ (s : State) (ep : BitVec 5) (e : Endpoint) (rsc : BitVec 7), s.ep (epNum ep) = some e →
    (e.xferStarted = false ∨ e.rsc ≠ some rsc →
      exec (.depcmdUpdatetransfer ep rsc) s = .next (s.returning (.err .inval))
      ∧ exec (.depcmdEndtransferIocForcerm ep rsc) s = .next (s.returning (.err .inval))
      ∧ exec (.depcmdEndtransferForcerm ep rsc) s = .next (s.returning (.err .inval)))
    ∧ (e.endPending = true → exec (.depcmdUpdatetransfer ep rsc) s = .next (s.returning (.err .inval))))
  ∧ (∀ (s : State) (base : BitVec 16) (n : EpNum) (e : Endpoint), s.env.sched = [] → s.ep n = some e →
    e.cmdStuck = true → cmdActive s.regs.depcmd[n] = true →
    exec (.depcmdDepstartcfg base) s = .next (s.returning (.err (.busy none))))
  ∧ ∀ (s : State) (ep : BitVec 5), s.ep (epNum ep) = none →
    ∀ (a : CfgAction) (slot : BitVec 8) (frame : BitVec 16) (rsc : BitVec 7) (i : Instr),
      i ∈ [Instr.depcmdSetepconfig ep a, .depcmdSetxferrsc ep, .depcmdGetepstate ep, .depcmdSetstall ep,
        .depcmdClearstall ep, .depcmdStarttransfer ep slot frame, .depcmdUpdatetransfer ep rsc,
        .depcmdEndtransferIocForcerm ep rsc, .depcmdEndtransferForcerm ep rsc] →
      exec i s = .next (s.addFault .reservedWrite).stopHolder

/-- R242, R247: a command the silicon never completes returns a timeout, is not tried again, and leaves the
endpoint marked. Where a direct call's value is kept is the model's choice (log entry 10). -/
def Obligations.UnansweredCommandTimesOut : Prop :=
  ∀ (s : State) (ep : BitVec 5), Commandable s (epNum ep) → s.env.sched = [] →
    exec (.depcmdSetxferrsc ep) s = .next
      (((s.issued (epNum ep) { typ := .setXferRsc, p0 := 1 } []).modEp (epNum ep) fun e =>
        { e with cmdStuck := true }).returning (.err (.cmdTimeout (epNum ep))))

/-- R246, R454: a command that fails three times returns the last failure, and no endpoint flag changes.
Where a direct call's value is kept is the model's choice (log entry 10). -/
def Obligations.FailingCommandTriedThreeTimes : Prop :=
  ∀ (s : State) (ep : BitVec 5) (w1 w2 w3 : Word), Commandable s (epNum ep) →
    s.env.sched = answers (epNum ep) w1 ++ answers (epNum ep) w2 ++ answers (epNum ep) w3 →
    cmdStatus w1 ≠ 0 → cmdStatus w2 ≠ 0 → cmdStatus w3 ≠ 0 →
    exec (.depcmdSetstall ep) s = .next (
      (((s.commanded (epNum ep) { typ := .setStall } w1 (answers (epNum ep) w2 ++ answers (epNum ep) w3)).commanded
        (epNum ep) { typ := .setStall } w2 (answers (epNum ep) w3)).commanded (epNum ep) { typ := .setStall } w3
          []).returning (.err (.cmdFailed (epNum ep) (cmdStatus w3))))

/-! ## Descriptors -/

/-- R33, R289, R331: a descriptor is written at a software-owned enqueue slot, `HWO` last, and the enqueue index
advances; every byte outside the slot reads as before. Above EP0 it is the first of a request that is then the
youngest started one, or one more of that request; on EP0 it is the stage that the EP0 machine would post there
(R332, R337, R344, R347), and `C.ep0` is as that machine leaves it. Nothing else changes. With the ring full or its
transfer being ended, with a stage already posted, with an id in use elsewhere, and with a type or a stage that is
not the ring's, the call is turned away and nothing is written. That a descriptor is an instruction of a direct
call, its request and the errors are the model's choice (log entry 10). -/
def Obligations.DescriptorsWritten : Prop :=
  (∀ (t : TrbTyp) (f : TrbFields) (s : State) (e : Endpoint), ringTyp t = true → 2 ≤ (epNum f.ep).val →
    f.reservedZero = true → s.ep (epNum f.ep) = some e → e.endPending = false → 0 < freeSlots e →
    (SlotInSpace s (epNum f.ep) e.enq.val → slotHwo s (epNum f.ep) e.enq.val = false → s.env.sched = [] →
      (let a := s.slotAddr (epNum f.ep) e.enq.val
       let u := s.setMem (descWritten s.mem a (descOf t f))
       (Memory.readWord u.mem a = f.bpl ∧ Memory.readWord u.mem (a + 4) = f.bph
         ∧ Memory.readWord u.mem (a + 8) = f.size ∧ Memory.readWord u.mem (a + 12) = ctrlWord t f.ctrl
         ∧ ∀ x, x < a ∨ a + 16 ≤ x → Memory.read u.mem x = Memory.read s.mem x)
       ∧ (s.req (.user f.req) = none → exec (trbInstr t f) s = .next
         (((u.setEp (epNum f.ep) (some { e with enq := adv e.enq, started := e.started ++ [.user f.req] })).addReq
           (directRequest (epNum f.ep) e.enq f)).returning .ok))
       ∧ ∀ r, s.req (.user f.req) = some r → r.kind = .user → r.ep = epNum f.ep →
         e.started.getLast? = some r.id → r.extra = .none → exec (trbInstr t f) s = .next
           (((u.setEp (epNum f.ep) (some { e with enq := adv e.enq })).modReq r.id fun q => q.extend f).returning .ok)))
    ∧ ∀ r, s.req (.user f.req) = some r →
      r.kind ≠ .user ∨ r.ep ≠ epNum f.ep ∨ e.started.getLast? ≠ some r.id ∨ r.extra ≠ .none →
      exec (trbInstr t f) s = .next (s.returning (.err .inval)))
  ∧ (∀ (f : TrbFields) (s : State) (e : Endpoint), (epNum f.ep).val < 2 → s.ep (epNum f.ep) = some e →
    e.endPending = false → 0 < freeSlots e → stagesIdle s = true → SlotInSpace s (epNum f.ep) e.enq.val →
    slotHwo s (epNum f.ep) e.enq.val = false → s.env.sched = [] →
    let put (r : Request) (d : Desc) : State :=
      ((s.addReq { r with ep := epNum f.ep, first := some e.enq, ndesc := 1 }).setMem
        (descWritten s.mem (s.slotAddr (epNum f.ep) e.enq.val) d)).setEp (epNum f.ep)
          (some { e with enq := adv e.enq, started := [r.id] })
    (epNum f.ep = 0 → descOf .controlSetup f = mkSetup s.cfg → s.req .intSetup = none →
      exec (.trbControlSetup f) s = .next (((put (setupRequest s.cfg) (mkSetup s.cfg)).modEp0 fun c =>
        { c with threeStage := false, dataIn := false, delayed := false, statusIssued := false, bounce := false,
                 dataReq := none, state := .setupPhase }).returning .ok))
    ∧ (s.ep0.state = .dataPhase → s.ep0.dataReq = none → epNum f.ep = (if s.ep0.dataIn then 1 else 0) →
      s.ep0.dataIn = true ∨ (trbSeg f).2 % s.ep0.mps.toNat = 0 →
      descOf .controlData f = mkData (trbSeg f).1 (trbSeg f).2 (!s.ep0.dataIn) → s.req (.user f.req) = none →
      exec (.trbControlData f) s = .next (((put (userRequest (epNum f.ep) f.req [trbSeg f] false)
        (descOf .controlData f)).modEp0 fun c => { c with dataReq := some (.user f.req) }).returning .ok))
    ∧ (s.ep0.state = .statusPhase → s.ep0.statusIssued = false → s.req .intStatus = none →
      epNum f.ep = statusEp s.ep0.threeStage s.ep0.dataIn →
      ∀ t, t = TrbTyp.controlStatus2 ∨ t = TrbTyp.controlStatus3 → descOf t f = mkStatus s.cfg s.ep0.threeStage →
      exec (trbInstr t f) s = .next (((put (statusRequest s.cfg) (mkStatus s.cfg s.ep0.threeStage)).modEp0 fun c =>
        { c with delayed := false, statusIssued := true }).returning .ok)))
  ∧ ∀ (t : TrbTyp) (f : TrbFields) (s : State) (e : Endpoint), t ≠ .link → s.ep (epNum f.ep) = some e →
    (e.endPending = true ∨ freeSlots e = 0 ∨ ((epNum f.ep).val < 2 ∧ stagesIdle s = false) →
      exec (trbInstr t f) s = .next (s.returning (.err (.busy (some (epNum f.ep))))))
    ∧ (e.endPending = false → 0 < freeSlots e →
      (2 ≤ (epNum f.ep).val ∧ ringTyp t = false)
        ∨ ((epNum f.ep).val < 2 ∧ stagesIdle s = true ∧
          ((s.req (stageRequest s.cfg (epNum f.ep) t f).id).isSome = true
            ∨ stageLegal s.cfg s.ep0 (epNum f.ep) t f = false)) →
      exec (trbInstr t f) s = .next (s.returning (.err .inval)))

/-- R36, R422: the link descriptor, back to slot 0 and hardware owned, is written to slot 255 of an endpoint that
is not enabled; every byte outside it reads as before, and nothing else changes. Any other link descriptor is
`E_INVAL`, with nothing written. That it is an instruction of a direct call, and the error, are the model's choice
(log entry 10). -/
def Obligations.LinkDescriptorWritten : Prop :=
  ∀ (f : TrbFields) (s : State),
    (descOf .link f = mkLink s.cfg (epNum f.ep) → SlotInSpace s (epNum f.ep) 255 → s.env.sched = [] →
      slotHwo s (epNum f.ep) 255 = false → (∀ e, s.ep (epNum f.ep) = some e → e.enabled = false) →
      (let a := s.slotAddr (epNum f.ep) 255
       let u := (s.setMem (descWritten s.mem a (mkLink s.cfg (epNum f.ep)))).returning .ok
       exec (.trbLink f) s = .next u
       ∧ quadOf (Memory.readWord u.mem a) (Memory.readWord u.mem (a + 4)) = s.cfg.ringBase[epNum f.ep]
       ∧ Memory.readWord u.mem (a + 8) = 0 ∧ Memory.readWord u.mem (a + 12) = 0x00000081#32
       ∧ ∀ x, x < a ∨ a + 16 ≤ x → Memory.read u.mem x = Memory.read s.mem x))
    ∧ (descOf .link f ≠ mkLink s.cfg (epNum f.ep) → exec (.trbLink f) s = .next (s.returning (.err .inval)))

/-- R36, R98, R289, R290: a hardware-owned slot is not overwritten, the link slot included, and the link slot of
an enabled endpoint is never rewritten: the model fault is recorded, the agent at work is stopped, and no memory
is written; on EP0 the stage's request record has been made before the slot is read (R331). That a stopped agent
keeps the lock is the model's choice (log entry 16), and so are the forms of a direct call (log entry 10). -/
def Obligations.HardwareOwnedSlotNotOverwritten : Prop :=
  (∀ (t : TrbTyp) (f : TrbFields) (s : State) (e : Endpoint), t ≠ .link → s.ep (epNum f.ep) = some e →
    e.endPending = false → 0 < freeSlots e → SlotInSpace s (epNum f.ep) e.enq.val →
    slotHwo s (epNum f.ep) e.enq.val = true → s.env.sched = [] →
    (2 ≤ (epNum f.ep).val → ringTyp t = true →
      (∀ r, s.req (.user f.req) = some r → extendable (epNum f.ep) e r = true) →
      exec (trbInstr t f) s = .next (s.addFault .ringOverwrite).stopHolder)
    ∧ ((epNum f.ep).val < 2 → stagesIdle s = true → s.req (stageRequest s.cfg (epNum f.ep) t f).id = none →
      stageLegal s.cfg s.ep0 (epNum f.ep) t f = true →
      exec (trbInstr t f) s = .next ((s.addReq ((stageRequest s.cfg (epNum f.ep) t f).posted (epNum f.ep)
        e.enq)).addFault .ringOverwrite).stopHolder))
  ∧ ∀ (f : TrbFields) (s : State), descOf .link f = mkLink s.cfg (epNum f.ep) → SlotInSpace s (epNum f.ep) 255 →
    s.env.sched = [] →
    slotHwo s (epNum f.ep) 255 = true ∨ (∃ e, s.ep (epNum f.ep) = some e ∧ e.enabled = true) →
    exec (.trbLink f) s = .next (s.addFault .ringOverwrite).stopHolder

/-! ## Ring arithmetic and accounting -/

/-- R280: `adv` over the usable slots, and its `k`-th power: from slot 254, whose successor is the link slot
255, the index goes on at 0, and no index is ever the link slot. -/
def Obligations.AdvanceModulo255 : Prop :=
  (∀ i : Slot, (adv i).val = (if i.val + 1 = Config.linkSlot then 0 else i.val + 1) ∧ (adv i).val ≠ Config.linkSlot)
  ∧ (∀ (k : Nat) (i : Slot), (advN k i).val = (i.val + k) % 255)
  ∧ (adv 254 = 0 ∧ adv 7 = 8 ∧ advN 3 253 = 1)

/-- R281, R282: advancing the enqueue index by `k` while the ring has room raises the outstanding count by
`k`, and advancing the dequeue index by `k` outstanding descriptors lowers it. -/
def Obligations.OutstandingCount : Prop :=
  ∀ (e : Endpoint) (k : Nat),
    (k ≤ freeSlots e → outstanding { e with enq := advN k e.enq } = outstanding e + k)
    ∧ (k ≤ outstanding e → outstanding { e with deq := advN k e.deq } = outstanding e - k)
    ∧ outstanding e + freeSlots e = 254

/-- R298: the bytes an account gives a request are never more than its length. -/
def Obligations.ActualAtMostLength : Prop :=
  ∀ (r : Request) (sizes : List Word) (tail : List Slot), r.length = (r.segs.map fun s => s.2).sum →
    (accountOf r sizes tail).actual ≤ r.length

/-- R294: the isochronous start frame as the rule computes it, with its mask. -/
def Obligations.IsocStartFrame : Prop :=
  ∀ e : Endpoint, 1 ≤ e.interval.toNat → e.interval.toNat ≤ 16 →
    isocStartFrame e =
      (e.isocFrame &&& ~~~(BitVec.ofNat 16 (2 ^ (e.interval.toNat - 1) - 1)))
        + BitVec.ofNat 16 (max 4 (2 ^ (e.interval.toNat - 1)))

/-- R287, R288: on a bulk or interrupt OUT endpoint the buffers of a request, the one its extra descriptor names
included, are a whole number of packets and at least one. The extra descriptor, `PAD` or on an IN endpoint `ZLP`
of no bytes, is the chain's last, in the pad buffer. -/
def Obligations.OutBuffersAreWholePackets : Prop :=
  ∀ (cfg : Cfg) (e : Endpoint) (r : Request), e.type = .bulk ∨ e.type = .interrupt → 0 < e.maxpacket.toNat →
    r.extra = needsExtra e r.length r.zero →
    (e.number.val % 2 = 0 → ∃ k, 0 < k ∧ k * e.maxpacket.toNat =
      r.length + (if r.extra = .none then 0 else bufSiz (descAt cfg e r r.segs.length).size))
    ∧ (e.number.val % 2 = 1 → (r.extra = .zlp ↔ r.zero = true ∧ 0 < r.length ∧ r.length % e.maxpacket.toNat = 0)
      ∧ (r.extra = .zlp → bufSiz (descAt cfg e r r.segs.length).size = 0))
    ∧ (r.extra ≠ .none →
      quadOf (descAt cfg e r r.segs.length).bpl (descAt cfg e r r.segs.length).bph = cfg.padBufAddr
      ∧ bitAt (descAt cfg e r r.segs.length).ctrl 2 = false ∧ bitAt (descAt cfg e r r.segs.length).ctrl 11 = true
      ∧ hwoOf (descAt cfg e r r.segs.length).ctrl = true)

/-! ## Upstream operations and the arbiter -/

/-- R303: cancelling a request that the silicon has not been given completes it at once, with the bytes of its
record (0, as it owns no descriptor) and no command. -/
def Obligations.CancelPendingAtOnce : Prop :=
  ∀ (s : State) (n : EpNum) (e : Endpoint) (r : Request), s.ep n = some e → s.req r.id = some r → r.ep = n →
    r.id ∈ e.pending → r.kind = .user →
    cancelRing n r.id s = .ok () (((s.modEp n fun e => e.without r.id).note
      (.complete r.id .cancelled r.actual)).delReq r.id)

/-- R429, R31: the host's stall clear on a wedged endpoint changes nothing and issues no command. -/
def Obligations.WedgeHoldsStall : Prop :=
  ∀ (s : State) (a : BitVec 8) (n : EpNum) (e : Endpoint), physOf a = some n → 2 ≤ n.val → s.ep n = some e →
    e.enabled = true → e.wedged = true → clearStall a true s = .ok () s

/-- R375, R376: what one poll of the link wait finds, in the rule's order. -/
def Obligations.LinkWaitResult : Prop :=
  ∀ (s : State) (w : Waiter),
    (s.dev.running = false → waitResult s w = some (.err (.linkMismatch none)))
    ∧ (s.dev.running = true →
      (∀ st, s.link.state = some st → st = wanted w.target → waitResult s w = some .ok)
      ∧ (∀ st, s.link.state = some st → st ≠ wanted w.target → s.link.seq ≠ w.seq0 → terminal st = true →
        waitResult s w = some (.err (.linkMismatch (some st))))
      ∧ (s.link.state ≠ some (wanted w.target) →
        (∀ st, s.link.state = some st → s.link.seq = w.seq0 ∨ terminal st = false) →
        waitResult s w = if w.left ≤ 1 then some (.err .linkTimeout) else none))

/-- R395, R398, R399, R403: the host child is given `REGBASE`, the interrupt and `IMOD_CFG`; a start that fails is
notified and leaves the controller idle, the task ended; `GCTL.PRTCAPDIR` has been written 1 (R397). The child
writes no register here; its schedules of answers and of writes are the model's choice (log entries 8 and 22). -/
def Obligations.HostStartFailureLeavesIdle : Prop :=
  ∀ (s : State) (rest : List Act) (more : List Bool),
    s.run.alive = true → s.run.drain = false → Agent.rt ∉ s.run.stopped → s.env.agenda = .rt :: rest →
    s.lock = none → s.env.sched = [] → s.run.rt = .afterStop → s.role.otgCur = .idle → s.role.otgDes = .host →
    s.env.hostAnswers = false :: more → s.env.hostSteps = [] →
    ∃ t, step s = .next t ∧ t.role.otgCur = .idle ∧ t.role.task = .none ∧ t.run.rt = .idle ∧ t.lock = none
      ∧ t.regs = s.regs.set .gctl ((s.regs.gctl &&& 0xFFFFCFFF#32) ||| 0x1000#32)
      ∧ t.role.drCur = .host ∧ t.si.hcRunning = false
      ∧ t.si.hcArgs = some { regBase := s.cfg.regBase, irq := .irq, imod := s.cfg.imodCfg } ∧ t.upQueue = s.upQueue ++ [.code .hostStart .none]

end
end

