-- ==== Sys2Proof/Laws/State.lean ====
section
/-!
SUPPORT. One lemma for each field of the state under each update: the field it writes, and every other
field unchanged. Later proofs rewrite with these and unfold no record update.
-/

namespace Sys2Proof.Machine

variable (s : State)

@[simp] theorem State.setReg_cfg (r : Reg) (v : Word) :
    (s.setReg r v).cfg = s.cfg := rfl
@[simp] theorem State.setReg_regs (r : Reg) (v : Word) :
    (s.setReg r v).regs = s.regs.set r v := rfl
@[simp] theorem State.setReg_mem (r : Reg) (v : Word) :
    (s.setReg r v).mem = s.mem := rfl
@[simp] theorem State.setReg_evbuf (r : Reg) (v : Word) :
    (s.setReg r v).evbuf = s.evbuf := rfl
@[simp] theorem State.setReg_eps (r : Reg) (v : Word) :
    (s.setReg r v).eps = s.eps := rfl
@[simp] theorem State.setReg_ep0 (r : Reg) (v : Word) :
    (s.setReg r v).ep0 = s.ep0 := rfl
@[simp] theorem State.setReg_link (r : Reg) (v : Word) :
    (s.setReg r v).link = s.link := rfl
@[simp] theorem State.setReg_role (r : Reg) (v : Word) :
    (s.setReg r v).role = s.role := rfl
@[simp] theorem State.setReg_dev (r : Reg) (v : Word) :
    (s.setReg r v).dev = s.dev := rfl
@[simp] theorem State.setReg_reqs (r : Reg) (v : Word) :
    (s.setReg r v).reqs = s.reqs := rfl
@[simp] theorem State.setReg_upQueue (r : Reg) (v : Word) :
    (s.setReg r v).upQueue = s.upQueue := rfl
@[simp] theorem State.setReg_faults (r : Reg) (v : Word) :
    (s.setReg r v).faults = s.faults := rfl
@[simp] theorem State.setReg_lock (r : Reg) (v : Word) :
    (s.setReg r v).lock = s.lock := rfl
@[simp] theorem State.setReg_si (r : Reg) (v : Word) :
    (s.setReg r v).si = s.si := rfl
@[simp] theorem State.setReg_run (r : Reg) (v : Word) :
    (s.setReg r v).run = s.run := rfl
@[simp] theorem State.setReg_env (r : Reg) (v : Word) :
    (s.setReg r v).env = s.env := rfl

@[simp] theorem State.setMem_cfg (m : List Host.Cell) :
    (s.setMem m).cfg = s.cfg := rfl
@[simp] theorem State.setMem_regs (m : List Host.Cell) :
    (s.setMem m).regs = s.regs := rfl
@[simp] theorem State.setMem_mem (m : List Host.Cell) :
    (s.setMem m).mem = m := rfl
@[simp] theorem State.setMem_evbuf (m : List Host.Cell) :
    (s.setMem m).evbuf = s.evbuf := rfl
@[simp] theorem State.setMem_eps (m : List Host.Cell) :
    (s.setMem m).eps = s.eps := rfl
@[simp] theorem State.setMem_ep0 (m : List Host.Cell) :
    (s.setMem m).ep0 = s.ep0 := rfl
@[simp] theorem State.setMem_link (m : List Host.Cell) :
    (s.setMem m).link = s.link := rfl
@[simp] theorem State.setMem_role (m : List Host.Cell) :
    (s.setMem m).role = s.role := rfl
@[simp] theorem State.setMem_dev (m : List Host.Cell) :
    (s.setMem m).dev = s.dev := rfl
@[simp] theorem State.setMem_reqs (m : List Host.Cell) :
    (s.setMem m).reqs = s.reqs := rfl
@[simp] theorem State.setMem_upQueue (m : List Host.Cell) :
    (s.setMem m).upQueue = s.upQueue := rfl
@[simp] theorem State.setMem_faults (m : List Host.Cell) :
    (s.setMem m).faults = s.faults := rfl
@[simp] theorem State.setMem_lock (m : List Host.Cell) :
    (s.setMem m).lock = s.lock := rfl
@[simp] theorem State.setMem_si (m : List Host.Cell) :
    (s.setMem m).si = s.si := rfl
@[simp] theorem State.setMem_run (m : List Host.Cell) :
    (s.setMem m).run = s.run := rfl
@[simp] theorem State.setMem_env (m : List Host.Cell) :
    (s.setMem m).env = s.env := rfl

@[simp] theorem State.setEp_cfg (n : EpNum) (e : Option Endpoint) :
    (s.setEp n e).cfg = s.cfg := rfl
@[simp] theorem State.setEp_regs (n : EpNum) (e : Option Endpoint) :
    (s.setEp n e).regs = s.regs := rfl
@[simp] theorem State.setEp_mem (n : EpNum) (e : Option Endpoint) :
    (s.setEp n e).mem = s.mem := rfl
@[simp] theorem State.setEp_evbuf (n : EpNum) (e : Option Endpoint) :
    (s.setEp n e).evbuf = s.evbuf := rfl
@[simp] theorem State.setEp_eps (n : EpNum) (e : Option Endpoint) :
    (s.setEp n e).eps = s.eps.set n.val e := rfl
@[simp] theorem State.setEp_ep0 (n : EpNum) (e : Option Endpoint) :
    (s.setEp n e).ep0 = s.ep0 := rfl
@[simp] theorem State.setEp_link (n : EpNum) (e : Option Endpoint) :
    (s.setEp n e).link = s.link := rfl
@[simp] theorem State.setEp_role (n : EpNum) (e : Option Endpoint) :
    (s.setEp n e).role = s.role := rfl
@[simp] theorem State.setEp_dev (n : EpNum) (e : Option Endpoint) :
    (s.setEp n e).dev = s.dev := rfl
@[simp] theorem State.setEp_reqs (n : EpNum) (e : Option Endpoint) :
    (s.setEp n e).reqs = s.reqs := rfl
@[simp] theorem State.setEp_upQueue (n : EpNum) (e : Option Endpoint) :
    (s.setEp n e).upQueue = s.upQueue := rfl
@[simp] theorem State.setEp_faults (n : EpNum) (e : Option Endpoint) :
    (s.setEp n e).faults = s.faults := rfl
@[simp] theorem State.setEp_lock (n : EpNum) (e : Option Endpoint) :
    (s.setEp n e).lock = s.lock := rfl
@[simp] theorem State.setEp_si (n : EpNum) (e : Option Endpoint) :
    (s.setEp n e).si = s.si := rfl
@[simp] theorem State.setEp_run (n : EpNum) (e : Option Endpoint) :
    (s.setEp n e).run = s.run := rfl
@[simp] theorem State.setEp_env (n : EpNum) (e : Option Endpoint) :
    (s.setEp n e).env = s.env := rfl

@[simp] theorem State.delReq_cfg (id : ReqId) :
    (s.delReq id).cfg = s.cfg := rfl
@[simp] theorem State.delReq_regs (id : ReqId) :
    (s.delReq id).regs = s.regs := rfl
@[simp] theorem State.delReq_mem (id : ReqId) :
    (s.delReq id).mem = s.mem := rfl
@[simp] theorem State.delReq_evbuf (id : ReqId) :
    (s.delReq id).evbuf = s.evbuf := rfl
@[simp] theorem State.delReq_eps (id : ReqId) :
    (s.delReq id).eps = s.eps := rfl
@[simp] theorem State.delReq_ep0 (id : ReqId) :
    (s.delReq id).ep0 = s.ep0 := rfl
@[simp] theorem State.delReq_link (id : ReqId) :
    (s.delReq id).link = s.link := rfl
@[simp] theorem State.delReq_role (id : ReqId) :
    (s.delReq id).role = s.role := rfl
@[simp] theorem State.delReq_dev (id : ReqId) :
    (s.delReq id).dev = s.dev := rfl
@[simp] theorem State.delReq_reqs (id : ReqId) :
    (s.delReq id).reqs = s.reqs.filter fun r => r.id ≠ id := rfl
@[simp] theorem State.delReq_upQueue (id : ReqId) :
    (s.delReq id).upQueue = s.upQueue := rfl
@[simp] theorem State.delReq_faults (id : ReqId) :
    (s.delReq id).faults = s.faults := rfl
@[simp] theorem State.delReq_lock (id : ReqId) :
    (s.delReq id).lock = s.lock := rfl
@[simp] theorem State.delReq_si (id : ReqId) :
    (s.delReq id).si = s.si := rfl
@[simp] theorem State.delReq_run (id : ReqId) :
    (s.delReq id).run = s.run := rfl
@[simp] theorem State.delReq_env (id : ReqId) :
    (s.delReq id).env = s.env := rfl

@[simp] theorem State.addReq_cfg (q : Request) :
    (s.addReq q).cfg = s.cfg := rfl
@[simp] theorem State.addReq_regs (q : Request) :
    (s.addReq q).regs = s.regs := rfl
@[simp] theorem State.addReq_mem (q : Request) :
    (s.addReq q).mem = s.mem := rfl
@[simp] theorem State.addReq_evbuf (q : Request) :
    (s.addReq q).evbuf = s.evbuf := rfl
@[simp] theorem State.addReq_eps (q : Request) :
    (s.addReq q).eps = s.eps := rfl
@[simp] theorem State.addReq_ep0 (q : Request) :
    (s.addReq q).ep0 = s.ep0 := rfl
@[simp] theorem State.addReq_link (q : Request) :
    (s.addReq q).link = s.link := rfl
@[simp] theorem State.addReq_role (q : Request) :
    (s.addReq q).role = s.role := rfl
@[simp] theorem State.addReq_dev (q : Request) :
    (s.addReq q).dev = s.dev := rfl
@[simp] theorem State.addReq_reqs (q : Request) :
    (s.addReq q).reqs = (s.delReq q.id).reqs ++ [q] := rfl
@[simp] theorem State.addReq_upQueue (q : Request) :
    (s.addReq q).upQueue = s.upQueue := rfl
@[simp] theorem State.addReq_faults (q : Request) :
    (s.addReq q).faults = s.faults := rfl
@[simp] theorem State.addReq_lock (q : Request) :
    (s.addReq q).lock = s.lock := rfl
@[simp] theorem State.addReq_si (q : Request) :
    (s.addReq q).si = s.si := rfl
@[simp] theorem State.addReq_run (q : Request) :
    (s.addReq q).run = s.run := rfl
@[simp] theorem State.addReq_env (q : Request) :
    (s.addReq q).env = s.env := rfl

@[simp] theorem State.modReq_cfg (id : ReqId) (f : Request → Request) :
    (s.modReq id f).cfg = s.cfg := rfl
@[simp] theorem State.modReq_regs (id : ReqId) (f : Request → Request) :
    (s.modReq id f).regs = s.regs := rfl
@[simp] theorem State.modReq_mem (id : ReqId) (f : Request → Request) :
    (s.modReq id f).mem = s.mem := rfl
@[simp] theorem State.modReq_evbuf (id : ReqId) (f : Request → Request) :
    (s.modReq id f).evbuf = s.evbuf := rfl
@[simp] theorem State.modReq_eps (id : ReqId) (f : Request → Request) :
    (s.modReq id f).eps = s.eps := rfl
@[simp] theorem State.modReq_ep0 (id : ReqId) (f : Request → Request) :
    (s.modReq id f).ep0 = s.ep0 := rfl
@[simp] theorem State.modReq_link (id : ReqId) (f : Request → Request) :
    (s.modReq id f).link = s.link := rfl
@[simp] theorem State.modReq_role (id : ReqId) (f : Request → Request) :
    (s.modReq id f).role = s.role := rfl
@[simp] theorem State.modReq_dev (id : ReqId) (f : Request → Request) :
    (s.modReq id f).dev = s.dev := rfl
@[simp] theorem State.modReq_reqs (id : ReqId) (f : Request → Request) :
    (s.modReq id f).reqs = s.reqs.map fun r => if r.id = id then f r else r := rfl
@[simp] theorem State.modReq_upQueue (id : ReqId) (f : Request → Request) :
    (s.modReq id f).upQueue = s.upQueue := rfl
@[simp] theorem State.modReq_faults (id : ReqId) (f : Request → Request) :
    (s.modReq id f).faults = s.faults := rfl
@[simp] theorem State.modReq_lock (id : ReqId) (f : Request → Request) :
    (s.modReq id f).lock = s.lock := rfl
@[simp] theorem State.modReq_si (id : ReqId) (f : Request → Request) :
    (s.modReq id f).si = s.si := rfl
@[simp] theorem State.modReq_run (id : ReqId) (f : Request → Request) :
    (s.modReq id f).run = s.run := rfl
@[simp] theorem State.modReq_env (id : ReqId) (f : Request → Request) :
    (s.modReq id f).env = s.env := rfl

@[simp] theorem State.note_cfg (n : Note) :
    (s.note n).cfg = s.cfg := rfl
@[simp] theorem State.note_regs (n : Note) :
    (s.note n).regs = s.regs := rfl
@[simp] theorem State.note_mem (n : Note) :
    (s.note n).mem = s.mem := rfl
@[simp] theorem State.note_evbuf (n : Note) :
    (s.note n).evbuf = s.evbuf := rfl
@[simp] theorem State.note_eps (n : Note) :
    (s.note n).eps = s.eps := rfl
@[simp] theorem State.note_ep0 (n : Note) :
    (s.note n).ep0 = s.ep0 := rfl
@[simp] theorem State.note_link (n : Note) :
    (s.note n).link = s.link := rfl
@[simp] theorem State.note_role (n : Note) :
    (s.note n).role = s.role := rfl
@[simp] theorem State.note_dev (n : Note) :
    (s.note n).dev = s.dev := rfl
@[simp] theorem State.note_reqs (n : Note) :
    (s.note n).reqs = s.reqs := rfl
@[simp] theorem State.note_upQueue (n : Note) :
    (s.note n).upQueue = s.upQueue ++ [n] := rfl
@[simp] theorem State.note_faults (n : Note) :
    (s.note n).faults = s.faults := rfl
@[simp] theorem State.note_lock (n : Note) :
    (s.note n).lock = s.lock := rfl
@[simp] theorem State.note_si (n : Note) :
    (s.note n).si = s.si := rfl
@[simp] theorem State.note_run (n : Note) :
    (s.note n).run = s.run := rfl
@[simp] theorem State.note_env (n : Note) :
    (s.note n).env = s.env := rfl

@[simp] theorem State.modEvbuf_cfg (f : Evbuf → Evbuf) :
    (s.modEvbuf f).cfg = s.cfg := rfl
@[simp] theorem State.modEvbuf_regs (f : Evbuf → Evbuf) :
    (s.modEvbuf f).regs = s.regs := rfl
@[simp] theorem State.modEvbuf_mem (f : Evbuf → Evbuf) :
    (s.modEvbuf f).mem = s.mem := rfl
@[simp] theorem State.modEvbuf_evbuf (f : Evbuf → Evbuf) :
    (s.modEvbuf f).evbuf = f s.evbuf := rfl
@[simp] theorem State.modEvbuf_eps (f : Evbuf → Evbuf) :
    (s.modEvbuf f).eps = s.eps := rfl
@[simp] theorem State.modEvbuf_ep0 (f : Evbuf → Evbuf) :
    (s.modEvbuf f).ep0 = s.ep0 := rfl
@[simp] theorem State.modEvbuf_link (f : Evbuf → Evbuf) :
    (s.modEvbuf f).link = s.link := rfl
@[simp] theorem State.modEvbuf_role (f : Evbuf → Evbuf) :
    (s.modEvbuf f).role = s.role := rfl
@[simp] theorem State.modEvbuf_dev (f : Evbuf → Evbuf) :
    (s.modEvbuf f).dev = s.dev := rfl
@[simp] theorem State.modEvbuf_reqs (f : Evbuf → Evbuf) :
    (s.modEvbuf f).reqs = s.reqs := rfl
@[simp] theorem State.modEvbuf_upQueue (f : Evbuf → Evbuf) :
    (s.modEvbuf f).upQueue = s.upQueue := rfl
@[simp] theorem State.modEvbuf_faults (f : Evbuf → Evbuf) :
    (s.modEvbuf f).faults = s.faults := rfl
@[simp] theorem State.modEvbuf_lock (f : Evbuf → Evbuf) :
    (s.modEvbuf f).lock = s.lock := rfl
@[simp] theorem State.modEvbuf_si (f : Evbuf → Evbuf) :
    (s.modEvbuf f).si = s.si := rfl
@[simp] theorem State.modEvbuf_run (f : Evbuf → Evbuf) :
    (s.modEvbuf f).run = s.run := rfl
@[simp] theorem State.modEvbuf_env (f : Evbuf → Evbuf) :
    (s.modEvbuf f).env = s.env := rfl

@[simp] theorem State.modEp0_cfg (f : Ep0 → Ep0) :
    (s.modEp0 f).cfg = s.cfg := rfl
@[simp] theorem State.modEp0_regs (f : Ep0 → Ep0) :
    (s.modEp0 f).regs = s.regs := rfl
@[simp] theorem State.modEp0_mem (f : Ep0 → Ep0) :
    (s.modEp0 f).mem = s.mem := rfl
@[simp] theorem State.modEp0_evbuf (f : Ep0 → Ep0) :
    (s.modEp0 f).evbuf = s.evbuf := rfl
@[simp] theorem State.modEp0_eps (f : Ep0 → Ep0) :
    (s.modEp0 f).eps = s.eps := rfl
@[simp] theorem State.modEp0_ep0 (f : Ep0 → Ep0) :
    (s.modEp0 f).ep0 = f s.ep0 := rfl
@[simp] theorem State.modEp0_link (f : Ep0 → Ep0) :
    (s.modEp0 f).link = s.link := rfl
@[simp] theorem State.modEp0_role (f : Ep0 → Ep0) :
    (s.modEp0 f).role = s.role := rfl
@[simp] theorem State.modEp0_dev (f : Ep0 → Ep0) :
    (s.modEp0 f).dev = s.dev := rfl
@[simp] theorem State.modEp0_reqs (f : Ep0 → Ep0) :
    (s.modEp0 f).reqs = s.reqs := rfl
@[simp] theorem State.modEp0_upQueue (f : Ep0 → Ep0) :
    (s.modEp0 f).upQueue = s.upQueue := rfl
@[simp] theorem State.modEp0_faults (f : Ep0 → Ep0) :
    (s.modEp0 f).faults = s.faults := rfl
@[simp] theorem State.modEp0_lock (f : Ep0 → Ep0) :
    (s.modEp0 f).lock = s.lock := rfl
@[simp] theorem State.modEp0_si (f : Ep0 → Ep0) :
    (s.modEp0 f).si = s.si := rfl
@[simp] theorem State.modEp0_run (f : Ep0 → Ep0) :
    (s.modEp0 f).run = s.run := rfl
@[simp] theorem State.modEp0_env (f : Ep0 → Ep0) :
    (s.modEp0 f).env = s.env := rfl

@[simp] theorem State.modLink_cfg (f : Link → Link) :
    (s.modLink f).cfg = s.cfg := rfl
@[simp] theorem State.modLink_regs (f : Link → Link) :
    (s.modLink f).regs = s.regs := rfl
@[simp] theorem State.modLink_mem (f : Link → Link) :
    (s.modLink f).mem = s.mem := rfl
@[simp] theorem State.modLink_evbuf (f : Link → Link) :
    (s.modLink f).evbuf = s.evbuf := rfl
@[simp] theorem State.modLink_eps (f : Link → Link) :
    (s.modLink f).eps = s.eps := rfl
@[simp] theorem State.modLink_ep0 (f : Link → Link) :
    (s.modLink f).ep0 = s.ep0 := rfl
@[simp] theorem State.modLink_link (f : Link → Link) :
    (s.modLink f).link = f s.link := rfl
@[simp] theorem State.modLink_role (f : Link → Link) :
    (s.modLink f).role = s.role := rfl
@[simp] theorem State.modLink_dev (f : Link → Link) :
    (s.modLink f).dev = s.dev := rfl
@[simp] theorem State.modLink_reqs (f : Link → Link) :
    (s.modLink f).reqs = s.reqs := rfl
@[simp] theorem State.modLink_upQueue (f : Link → Link) :
    (s.modLink f).upQueue = s.upQueue := rfl
@[simp] theorem State.modLink_faults (f : Link → Link) :
    (s.modLink f).faults = s.faults := rfl
@[simp] theorem State.modLink_lock (f : Link → Link) :
    (s.modLink f).lock = s.lock := rfl
@[simp] theorem State.modLink_si (f : Link → Link) :
    (s.modLink f).si = s.si := rfl
@[simp] theorem State.modLink_run (f : Link → Link) :
    (s.modLink f).run = s.run := rfl
@[simp] theorem State.modLink_env (f : Link → Link) :
    (s.modLink f).env = s.env := rfl

@[simp] theorem State.modRole_cfg (f : Role → Role) :
    (s.modRole f).cfg = s.cfg := rfl
@[simp] theorem State.modRole_regs (f : Role → Role) :
    (s.modRole f).regs = s.regs := rfl
@[simp] theorem State.modRole_mem (f : Role → Role) :
    (s.modRole f).mem = s.mem := rfl
@[simp] theorem State.modRole_evbuf (f : Role → Role) :
    (s.modRole f).evbuf = s.evbuf := rfl
@[simp] theorem State.modRole_eps (f : Role → Role) :
    (s.modRole f).eps = s.eps := rfl
@[simp] theorem State.modRole_ep0 (f : Role → Role) :
    (s.modRole f).ep0 = s.ep0 := rfl
@[simp] theorem State.modRole_link (f : Role → Role) :
    (s.modRole f).link = s.link := rfl
@[simp] theorem State.modRole_role (f : Role → Role) :
    (s.modRole f).role = f s.role := rfl
@[simp] theorem State.modRole_dev (f : Role → Role) :
    (s.modRole f).dev = s.dev := rfl
@[simp] theorem State.modRole_reqs (f : Role → Role) :
    (s.modRole f).reqs = s.reqs := rfl
@[simp] theorem State.modRole_upQueue (f : Role → Role) :
    (s.modRole f).upQueue = s.upQueue := rfl
@[simp] theorem State.modRole_faults (f : Role → Role) :
    (s.modRole f).faults = s.faults := rfl
@[simp] theorem State.modRole_lock (f : Role → Role) :
    (s.modRole f).lock = s.lock := rfl
@[simp] theorem State.modRole_si (f : Role → Role) :
    (s.modRole f).si = s.si := rfl
@[simp] theorem State.modRole_run (f : Role → Role) :
    (s.modRole f).run = s.run := rfl
@[simp] theorem State.modRole_env (f : Role → Role) :
    (s.modRole f).env = s.env := rfl

@[simp] theorem State.modDev_cfg (f : Dev → Dev) :
    (s.modDev f).cfg = s.cfg := rfl
@[simp] theorem State.modDev_regs (f : Dev → Dev) :
    (s.modDev f).regs = s.regs := rfl
@[simp] theorem State.modDev_mem (f : Dev → Dev) :
    (s.modDev f).mem = s.mem := rfl
@[simp] theorem State.modDev_evbuf (f : Dev → Dev) :
    (s.modDev f).evbuf = s.evbuf := rfl
@[simp] theorem State.modDev_eps (f : Dev → Dev) :
    (s.modDev f).eps = s.eps := rfl
@[simp] theorem State.modDev_ep0 (f : Dev → Dev) :
    (s.modDev f).ep0 = s.ep0 := rfl
@[simp] theorem State.modDev_link (f : Dev → Dev) :
    (s.modDev f).link = s.link := rfl
@[simp] theorem State.modDev_role (f : Dev → Dev) :
    (s.modDev f).role = s.role := rfl
@[simp] theorem State.modDev_dev (f : Dev → Dev) :
    (s.modDev f).dev = f s.dev := rfl
@[simp] theorem State.modDev_reqs (f : Dev → Dev) :
    (s.modDev f).reqs = s.reqs := rfl
@[simp] theorem State.modDev_upQueue (f : Dev → Dev) :
    (s.modDev f).upQueue = s.upQueue := rfl
@[simp] theorem State.modDev_faults (f : Dev → Dev) :
    (s.modDev f).faults = s.faults := rfl
@[simp] theorem State.modDev_lock (f : Dev → Dev) :
    (s.modDev f).lock = s.lock := rfl
@[simp] theorem State.modDev_si (f : Dev → Dev) :
    (s.modDev f).si = s.si := rfl
@[simp] theorem State.modDev_run (f : Dev → Dev) :
    (s.modDev f).run = s.run := rfl
@[simp] theorem State.modDev_env (f : Dev → Dev) :
    (s.modDev f).env = s.env := rfl

@[simp] theorem State.modSi_cfg (f : Silicon → Silicon) :
    (s.modSi f).cfg = s.cfg := rfl
@[simp] theorem State.modSi_regs (f : Silicon → Silicon) :
    (s.modSi f).regs = s.regs := rfl
@[simp] theorem State.modSi_mem (f : Silicon → Silicon) :
    (s.modSi f).mem = s.mem := rfl
@[simp] theorem State.modSi_evbuf (f : Silicon → Silicon) :
    (s.modSi f).evbuf = s.evbuf := rfl
@[simp] theorem State.modSi_eps (f : Silicon → Silicon) :
    (s.modSi f).eps = s.eps := rfl
@[simp] theorem State.modSi_ep0 (f : Silicon → Silicon) :
    (s.modSi f).ep0 = s.ep0 := rfl
@[simp] theorem State.modSi_link (f : Silicon → Silicon) :
    (s.modSi f).link = s.link := rfl
@[simp] theorem State.modSi_role (f : Silicon → Silicon) :
    (s.modSi f).role = s.role := rfl
@[simp] theorem State.modSi_dev (f : Silicon → Silicon) :
    (s.modSi f).dev = s.dev := rfl
@[simp] theorem State.modSi_reqs (f : Silicon → Silicon) :
    (s.modSi f).reqs = s.reqs := rfl
@[simp] theorem State.modSi_upQueue (f : Silicon → Silicon) :
    (s.modSi f).upQueue = s.upQueue := rfl
@[simp] theorem State.modSi_faults (f : Silicon → Silicon) :
    (s.modSi f).faults = s.faults := rfl
@[simp] theorem State.modSi_lock (f : Silicon → Silicon) :
    (s.modSi f).lock = s.lock := rfl
@[simp] theorem State.modSi_si (f : Silicon → Silicon) :
    (s.modSi f).si = f s.si := rfl
@[simp] theorem State.modSi_run (f : Silicon → Silicon) :
    (s.modSi f).run = s.run := rfl
@[simp] theorem State.modSi_env (f : Silicon → Silicon) :
    (s.modSi f).env = s.env := rfl

@[simp] theorem State.modRing_cfg (n : EpNum) (f : SiRing → SiRing) :
    (s.modRing n f).cfg = s.cfg := rfl
@[simp] theorem State.modRing_regs (n : EpNum) (f : SiRing → SiRing) :
    (s.modRing n f).regs = s.regs := rfl
@[simp] theorem State.modRing_mem (n : EpNum) (f : SiRing → SiRing) :
    (s.modRing n f).mem = s.mem := rfl
@[simp] theorem State.modRing_evbuf (n : EpNum) (f : SiRing → SiRing) :
    (s.modRing n f).evbuf = s.evbuf := rfl
@[simp] theorem State.modRing_eps (n : EpNum) (f : SiRing → SiRing) :
    (s.modRing n f).eps = s.eps := rfl
@[simp] theorem State.modRing_ep0 (n : EpNum) (f : SiRing → SiRing) :
    (s.modRing n f).ep0 = s.ep0 := rfl
@[simp] theorem State.modRing_link (n : EpNum) (f : SiRing → SiRing) :
    (s.modRing n f).link = s.link := rfl
@[simp] theorem State.modRing_role (n : EpNum) (f : SiRing → SiRing) :
    (s.modRing n f).role = s.role := rfl
@[simp] theorem State.modRing_dev (n : EpNum) (f : SiRing → SiRing) :
    (s.modRing n f).dev = s.dev := rfl
@[simp] theorem State.modRing_reqs (n : EpNum) (f : SiRing → SiRing) :
    (s.modRing n f).reqs = s.reqs := rfl
@[simp] theorem State.modRing_upQueue (n : EpNum) (f : SiRing → SiRing) :
    (s.modRing n f).upQueue = s.upQueue := rfl
@[simp] theorem State.modRing_faults (n : EpNum) (f : SiRing → SiRing) :
    (s.modRing n f).faults = s.faults := rfl
@[simp] theorem State.modRing_lock (n : EpNum) (f : SiRing → SiRing) :
    (s.modRing n f).lock = s.lock := rfl
@[simp] theorem State.modRing_si (n : EpNum) (f : SiRing → SiRing) :
    (s.modRing n f).si = { s.si with rings := s.si.rings.set n.val (f s.si.rings[n]) } := rfl
@[simp] theorem State.modRing_run (n : EpNum) (f : SiRing → SiRing) :
    (s.modRing n f).run = s.run := rfl
@[simp] theorem State.modRing_env (n : EpNum) (f : SiRing → SiRing) :
    (s.modRing n f).env = s.env := rfl

@[simp] theorem State.modRun_cfg (f : Run → Run) :
    (s.modRun f).cfg = s.cfg := rfl
@[simp] theorem State.modRun_regs (f : Run → Run) :
    (s.modRun f).regs = s.regs := rfl
@[simp] theorem State.modRun_mem (f : Run → Run) :
    (s.modRun f).mem = s.mem := rfl
@[simp] theorem State.modRun_evbuf (f : Run → Run) :
    (s.modRun f).evbuf = s.evbuf := rfl
@[simp] theorem State.modRun_eps (f : Run → Run) :
    (s.modRun f).eps = s.eps := rfl
@[simp] theorem State.modRun_ep0 (f : Run → Run) :
    (s.modRun f).ep0 = s.ep0 := rfl
@[simp] theorem State.modRun_link (f : Run → Run) :
    (s.modRun f).link = s.link := rfl
@[simp] theorem State.modRun_role (f : Run → Run) :
    (s.modRun f).role = s.role := rfl
@[simp] theorem State.modRun_dev (f : Run → Run) :
    (s.modRun f).dev = s.dev := rfl
@[simp] theorem State.modRun_reqs (f : Run → Run) :
    (s.modRun f).reqs = s.reqs := rfl
@[simp] theorem State.modRun_upQueue (f : Run → Run) :
    (s.modRun f).upQueue = s.upQueue := rfl
@[simp] theorem State.modRun_faults (f : Run → Run) :
    (s.modRun f).faults = s.faults := rfl
@[simp] theorem State.modRun_lock (f : Run → Run) :
    (s.modRun f).lock = s.lock := rfl
@[simp] theorem State.modRun_si (f : Run → Run) :
    (s.modRun f).si = s.si := rfl
@[simp] theorem State.modRun_run (f : Run → Run) :
    (s.modRun f).run = f s.run := rfl
@[simp] theorem State.modRun_env (f : Run → Run) :
    (s.modRun f).env = s.env := rfl

@[simp] theorem State.modEnv_cfg (f : Env → Env) :
    (s.modEnv f).cfg = s.cfg := rfl
@[simp] theorem State.modEnv_regs (f : Env → Env) :
    (s.modEnv f).regs = s.regs := rfl
@[simp] theorem State.modEnv_mem (f : Env → Env) :
    (s.modEnv f).mem = s.mem := rfl
@[simp] theorem State.modEnv_evbuf (f : Env → Env) :
    (s.modEnv f).evbuf = s.evbuf := rfl
@[simp] theorem State.modEnv_eps (f : Env → Env) :
    (s.modEnv f).eps = s.eps := rfl
@[simp] theorem State.modEnv_ep0 (f : Env → Env) :
    (s.modEnv f).ep0 = s.ep0 := rfl
@[simp] theorem State.modEnv_link (f : Env → Env) :
    (s.modEnv f).link = s.link := rfl
@[simp] theorem State.modEnv_role (f : Env → Env) :
    (s.modEnv f).role = s.role := rfl
@[simp] theorem State.modEnv_dev (f : Env → Env) :
    (s.modEnv f).dev = s.dev := rfl
@[simp] theorem State.modEnv_reqs (f : Env → Env) :
    (s.modEnv f).reqs = s.reqs := rfl
@[simp] theorem State.modEnv_upQueue (f : Env → Env) :
    (s.modEnv f).upQueue = s.upQueue := rfl
@[simp] theorem State.modEnv_faults (f : Env → Env) :
    (s.modEnv f).faults = s.faults := rfl
@[simp] theorem State.modEnv_lock (f : Env → Env) :
    (s.modEnv f).lock = s.lock := rfl
@[simp] theorem State.modEnv_si (f : Env → Env) :
    (s.modEnv f).si = s.si := rfl
@[simp] theorem State.modEnv_run (f : Env → Env) :
    (s.modEnv f).run = s.run := rfl
@[simp] theorem State.modEnv_env (f : Env → Env) :
    (s.modEnv f).env = f s.env := rfl

@[simp] theorem State.setLock_cfg (l : Option Agent) :
    (s.setLock l).cfg = s.cfg := rfl
@[simp] theorem State.setLock_regs (l : Option Agent) :
    (s.setLock l).regs = s.regs := rfl
@[simp] theorem State.setLock_mem (l : Option Agent) :
    (s.setLock l).mem = s.mem := rfl
@[simp] theorem State.setLock_evbuf (l : Option Agent) :
    (s.setLock l).evbuf = s.evbuf := rfl
@[simp] theorem State.setLock_eps (l : Option Agent) :
    (s.setLock l).eps = s.eps := rfl
@[simp] theorem State.setLock_ep0 (l : Option Agent) :
    (s.setLock l).ep0 = s.ep0 := rfl
@[simp] theorem State.setLock_link (l : Option Agent) :
    (s.setLock l).link = s.link := rfl
@[simp] theorem State.setLock_role (l : Option Agent) :
    (s.setLock l).role = s.role := rfl
@[simp] theorem State.setLock_dev (l : Option Agent) :
    (s.setLock l).dev = s.dev := rfl
@[simp] theorem State.setLock_reqs (l : Option Agent) :
    (s.setLock l).reqs = s.reqs := rfl
@[simp] theorem State.setLock_upQueue (l : Option Agent) :
    (s.setLock l).upQueue = s.upQueue := rfl
@[simp] theorem State.setLock_faults (l : Option Agent) :
    (s.setLock l).faults = s.faults := rfl
@[simp] theorem State.setLock_lock (l : Option Agent) :
    (s.setLock l).lock = l := rfl
@[simp] theorem State.setLock_si (l : Option Agent) :
    (s.setLock l).si = s.si := rfl
@[simp] theorem State.setLock_run (l : Option Agent) :
    (s.setLock l).run = s.run := rfl
@[simp] theorem State.setLock_env (l : Option Agent) :
    (s.setLock l).env = s.env := rfl

@[simp] theorem State.addFault_cfg (f : ModelFault) :
    (s.addFault f).cfg = s.cfg := rfl
@[simp] theorem State.addFault_regs (f : ModelFault) :
    (s.addFault f).regs = s.regs := rfl
@[simp] theorem State.addFault_mem (f : ModelFault) :
    (s.addFault f).mem = s.mem := rfl
@[simp] theorem State.addFault_evbuf (f : ModelFault) :
    (s.addFault f).evbuf = s.evbuf := rfl
@[simp] theorem State.addFault_eps (f : ModelFault) :
    (s.addFault f).eps = s.eps := rfl
@[simp] theorem State.addFault_ep0 (f : ModelFault) :
    (s.addFault f).ep0 = s.ep0 := rfl
@[simp] theorem State.addFault_link (f : ModelFault) :
    (s.addFault f).link = s.link := rfl
@[simp] theorem State.addFault_role (f : ModelFault) :
    (s.addFault f).role = s.role := rfl
@[simp] theorem State.addFault_dev (f : ModelFault) :
    (s.addFault f).dev = s.dev := rfl
@[simp] theorem State.addFault_reqs (f : ModelFault) :
    (s.addFault f).reqs = s.reqs := rfl
@[simp] theorem State.addFault_upQueue (f : ModelFault) :
    (s.addFault f).upQueue = s.upQueue := rfl
@[simp] theorem State.addFault_faults (f : ModelFault) :
    (s.addFault f).faults = if f ∈ s.faults then s.faults else s.faults ++ [f] := rfl
@[simp] theorem State.addFault_lock (f : ModelFault) :
    (s.addFault f).lock = s.lock := rfl
@[simp] theorem State.addFault_si (f : ModelFault) :
    (s.addFault f).si = s.si := rfl
@[simp] theorem State.addFault_run (f : ModelFault) :
    (s.addFault f).run = s.run := rfl
@[simp] theorem State.addFault_env (f : ModelFault) :
    (s.addFault f).env = s.env := rfl

@[simp] theorem State.stop_cfg (a : Agent) :
    (s.stop a).cfg = s.cfg := rfl
@[simp] theorem State.stop_regs (a : Agent) :
    (s.stop a).regs = s.regs := rfl
@[simp] theorem State.stop_mem (a : Agent) :
    (s.stop a).mem = s.mem := rfl
@[simp] theorem State.stop_evbuf (a : Agent) :
    (s.stop a).evbuf = s.evbuf := rfl
@[simp] theorem State.stop_eps (a : Agent) :
    (s.stop a).eps = s.eps := rfl
@[simp] theorem State.stop_ep0 (a : Agent) :
    (s.stop a).ep0 = s.ep0 := rfl
@[simp] theorem State.stop_link (a : Agent) :
    (s.stop a).link = s.link := rfl
@[simp] theorem State.stop_role (a : Agent) :
    (s.stop a).role = s.role := rfl
@[simp] theorem State.stop_dev (a : Agent) :
    (s.stop a).dev = s.dev := rfl
@[simp] theorem State.stop_reqs (a : Agent) :
    (s.stop a).reqs = s.reqs := rfl
@[simp] theorem State.stop_upQueue (a : Agent) :
    (s.stop a).upQueue = s.upQueue := rfl
@[simp] theorem State.stop_faults (a : Agent) :
    (s.stop a).faults = s.faults := rfl
@[simp] theorem State.stop_lock (a : Agent) :
    (s.stop a).lock = s.lock := rfl
@[simp] theorem State.stop_si (a : Agent) :
    (s.stop a).si = s.si := rfl
@[simp] theorem State.stop_run (a : Agent) :
    (s.stop a).run = { s.run with stopped := if a ∈ s.run.stopped then s.run.stopped else s.run.stopped ++ [a] } := rfl
@[simp] theorem State.stop_env (a : Agent) :
    (s.stop a).env = s.env := rfl

@[simp] theorem State.setAgenda_cfg (l : List Act) :
    (s.setAgenda l).cfg = s.cfg := rfl
@[simp] theorem State.setAgenda_regs (l : List Act) :
    (s.setAgenda l).regs = s.regs := rfl
@[simp] theorem State.setAgenda_mem (l : List Act) :
    (s.setAgenda l).mem = s.mem := rfl
@[simp] theorem State.setAgenda_evbuf (l : List Act) :
    (s.setAgenda l).evbuf = s.evbuf := rfl
@[simp] theorem State.setAgenda_eps (l : List Act) :
    (s.setAgenda l).eps = s.eps := rfl
@[simp] theorem State.setAgenda_ep0 (l : List Act) :
    (s.setAgenda l).ep0 = s.ep0 := rfl
@[simp] theorem State.setAgenda_link (l : List Act) :
    (s.setAgenda l).link = s.link := rfl
@[simp] theorem State.setAgenda_role (l : List Act) :
    (s.setAgenda l).role = s.role := rfl
@[simp] theorem State.setAgenda_dev (l : List Act) :
    (s.setAgenda l).dev = s.dev := rfl
@[simp] theorem State.setAgenda_reqs (l : List Act) :
    (s.setAgenda l).reqs = s.reqs := rfl
@[simp] theorem State.setAgenda_upQueue (l : List Act) :
    (s.setAgenda l).upQueue = s.upQueue := rfl
@[simp] theorem State.setAgenda_faults (l : List Act) :
    (s.setAgenda l).faults = s.faults := rfl
@[simp] theorem State.setAgenda_lock (l : List Act) :
    (s.setAgenda l).lock = s.lock := rfl
@[simp] theorem State.setAgenda_si (l : List Act) :
    (s.setAgenda l).si = s.si := rfl
@[simp] theorem State.setAgenda_run (l : List Act) :
    (s.setAgenda l).run = s.run := rfl
@[simp] theorem State.setAgenda_env (l : List Act) :
    (s.setAgenda l).env = { s.env with agenda := l } := rfl

@[simp] theorem State.modEp_cfg (n : EpNum) (f : Endpoint → Endpoint) :
    (s.modEp n f).cfg = s.cfg := by unfold State.modEp; split <;> rfl
@[simp] theorem State.modEp_regs (n : EpNum) (f : Endpoint → Endpoint) :
    (s.modEp n f).regs = s.regs := by unfold State.modEp; split <;> rfl
@[simp] theorem State.modEp_mem (n : EpNum) (f : Endpoint → Endpoint) :
    (s.modEp n f).mem = s.mem := by unfold State.modEp; split <;> rfl
@[simp] theorem State.modEp_evbuf (n : EpNum) (f : Endpoint → Endpoint) :
    (s.modEp n f).evbuf = s.evbuf := by unfold State.modEp; split <;> rfl
@[simp] theorem State.modEp_ep0 (n : EpNum) (f : Endpoint → Endpoint) :
    (s.modEp n f).ep0 = s.ep0 := by unfold State.modEp; split <;> rfl
@[simp] theorem State.modEp_link (n : EpNum) (f : Endpoint → Endpoint) :
    (s.modEp n f).link = s.link := by unfold State.modEp; split <;> rfl
@[simp] theorem State.modEp_role (n : EpNum) (f : Endpoint → Endpoint) :
    (s.modEp n f).role = s.role := by unfold State.modEp; split <;> rfl
@[simp] theorem State.modEp_dev (n : EpNum) (f : Endpoint → Endpoint) :
    (s.modEp n f).dev = s.dev := by unfold State.modEp; split <;> rfl
@[simp] theorem State.modEp_reqs (n : EpNum) (f : Endpoint → Endpoint) :
    (s.modEp n f).reqs = s.reqs := by unfold State.modEp; split <;> rfl
@[simp] theorem State.modEp_upQueue (n : EpNum) (f : Endpoint → Endpoint) :
    (s.modEp n f).upQueue = s.upQueue := by unfold State.modEp; split <;> rfl
@[simp] theorem State.modEp_faults (n : EpNum) (f : Endpoint → Endpoint) :
    (s.modEp n f).faults = s.faults := by unfold State.modEp; split <;> rfl
@[simp] theorem State.modEp_lock (n : EpNum) (f : Endpoint → Endpoint) :
    (s.modEp n f).lock = s.lock := by unfold State.modEp; split <;> rfl
@[simp] theorem State.modEp_si (n : EpNum) (f : Endpoint → Endpoint) :
    (s.modEp n f).si = s.si := by unfold State.modEp; split <;> rfl
@[simp] theorem State.modEp_run (n : EpNum) (f : Endpoint → Endpoint) :
    (s.modEp n f).run = s.run := by unfold State.modEp; split <;> rfl
@[simp] theorem State.modEp_env (n : EpNum) (f : Endpoint → Endpoint) :
    (s.modEp n f).env = s.env := by unfold State.modEp; split <;> rfl

@[simp] theorem State.stopHolder_cfg  :
    (s.stopHolder ).cfg = s.cfg := by unfold State.stopHolder; split <;> rfl
@[simp] theorem State.stopHolder_regs  :
    (s.stopHolder ).regs = s.regs := by unfold State.stopHolder; split <;> rfl
@[simp] theorem State.stopHolder_mem  :
    (s.stopHolder ).mem = s.mem := by unfold State.stopHolder; split <;> rfl
@[simp] theorem State.stopHolder_evbuf  :
    (s.stopHolder ).evbuf = s.evbuf := by unfold State.stopHolder; split <;> rfl
@[simp] theorem State.stopHolder_eps  :
    (s.stopHolder ).eps = s.eps := by unfold State.stopHolder; split <;> rfl
@[simp] theorem State.stopHolder_ep0  :
    (s.stopHolder ).ep0 = s.ep0 := by unfold State.stopHolder; split <;> rfl
@[simp] theorem State.stopHolder_link  :
    (s.stopHolder ).link = s.link := by unfold State.stopHolder; split <;> rfl
@[simp] theorem State.stopHolder_role  :
    (s.stopHolder ).role = s.role := by unfold State.stopHolder; split <;> rfl
@[simp] theorem State.stopHolder_dev  :
    (s.stopHolder ).dev = s.dev := by unfold State.stopHolder; split <;> rfl
@[simp] theorem State.stopHolder_reqs  :
    (s.stopHolder ).reqs = s.reqs := by unfold State.stopHolder; split <;> rfl
@[simp] theorem State.stopHolder_upQueue  :
    (s.stopHolder ).upQueue = s.upQueue := by unfold State.stopHolder; split <;> rfl
@[simp] theorem State.stopHolder_faults  :
    (s.stopHolder ).faults = s.faults := by unfold State.stopHolder; split <;> rfl
@[simp] theorem State.stopHolder_lock  :
    (s.stopHolder ).lock = s.lock := by unfold State.stopHolder; split <;> rfl
@[simp] theorem State.stopHolder_si  :
    (s.stopHolder ).si = s.si := by unfold State.stopHolder; split <;> rfl
@[simp] theorem State.stopHolder_env  :
    (s.stopHolder ).env = s.env := by unfold State.stopHolder; split <;> rfl

/-! ## The endpoint array -/

/-- Reading the entry just written. -/
@[simp] theorem State.setEp_ep_self (n : EpNum) (e : Option Endpoint) : (s.setEp n e).ep n = e := by
  simp [State.ep, State.setEp]

/-- Reading another entry than the one written. -/
theorem State.setEp_ep_ne {n m : EpNum} (h : n ≠ m) (e : Option Endpoint) : (s.setEp n e).ep m = s.ep m := by
  simp [State.ep, State.setEp, Fin.val_ne_of_ne h]

/-- Reading any entry after a write. -/
theorem State.setEp_ep (n m : EpNum) (e : Option Endpoint) :
    (s.setEp n e).ep m = if n = m then e else s.ep m := by
  split
  · next h => rw [← h, State.setEp_ep_self]
  · next h => exact State.setEp_ep_ne s h e

/-- A field write through a record that exists. -/
theorem State.modEp_some {s : State} {n : EpNum} {e : Endpoint} (h : s.ep n = some e)
    (f : Endpoint → Endpoint) : s.modEp n f = s.setEp n (some (f e)) := by
  simp [State.modEp, h]

/-- A field write where there is no record changes nothing. -/
theorem State.modEp_none {s : State} {n : EpNum} (h : s.ep n = none) (f : Endpoint → Endpoint) :
    s.modEp n f = s := by
  simp [State.modEp, h]

/-- What a field write leaves in any entry. -/
theorem State.modEp_ep (n m : EpNum) (f : Endpoint → Endpoint) :
    (s.modEp n f).ep m = if n = m then (s.ep m).map f else s.ep m := by
  by_cases hn : n = m
  · subst hn
    cases h : s.ep n with
    | none => simp [State.modEp_none h, h]
    | some e => simp [State.modEp_some h]
  · rw [if_neg hn]
    cases h : s.ep n with
    | none => rw [State.modEp_none h]
    | some e => rw [State.modEp_some h, State.setEp_ep_ne s hn]

/-- Two writes of one entry. -/
@[simp] theorem State.setEp_setEp (n : EpNum) (e e' : Option Endpoint) :
    (s.setEp n e).setEp n e' = s.setEp n e' := by
  simp [State.setEp]

/-- Writing an entry with what it holds. -/
theorem State.setEp_same {s : State} {n : EpNum} {e : Option Endpoint} (h : s.ep n = e) :
    s.setEp n e = s := by
  subst h
  simp [State.setEp, State.ep]

/-! ## Entries that other updates leave -/

@[simp] theorem State.setReg_ep (r : Reg) (v : Word) (x : EpNum) : (s.setReg r v).ep x = s.ep x := rfl
@[simp] theorem State.setMem_ep (m : List Host.Cell) (x : EpNum) : (s.setMem m).ep x = s.ep x := rfl
@[simp] theorem State.delReq_ep (id : ReqId) (x : EpNum) : (s.delReq id).ep x = s.ep x := rfl
@[simp] theorem State.addReq_ep (q : Request) (x : EpNum) : (s.addReq q).ep x = s.ep x := rfl
@[simp] theorem State.modReq_ep (id : ReqId) (f : Request → Request) (x : EpNum) : (s.modReq id f).ep x = s.ep x := rfl
@[simp] theorem State.note_ep (n : Note) (x : EpNum) : (s.note n).ep x = s.ep x := rfl
@[simp] theorem State.modEvbuf_ep (f : Evbuf → Evbuf) (x : EpNum) : (s.modEvbuf f).ep x = s.ep x := rfl
@[simp] theorem State.modEp0_ep (f : Ep0 → Ep0) (x : EpNum) : (s.modEp0 f).ep x = s.ep x := rfl
@[simp] theorem State.modLink_ep (f : Link → Link) (x : EpNum) : (s.modLink f).ep x = s.ep x := rfl
@[simp] theorem State.modRole_ep (f : Role → Role) (x : EpNum) : (s.modRole f).ep x = s.ep x := rfl
@[simp] theorem State.modDev_ep (f : Dev → Dev) (x : EpNum) : (s.modDev f).ep x = s.ep x := rfl
@[simp] theorem State.modSi_ep (f : Silicon → Silicon) (x : EpNum) : (s.modSi f).ep x = s.ep x := rfl
@[simp] theorem State.modRing_ep (n : EpNum) (f : SiRing → SiRing) (x : EpNum) : (s.modRing n f).ep x = s.ep x := rfl
@[simp] theorem State.modRun_ep (f : Run → Run) (x : EpNum) : (s.modRun f).ep x = s.ep x := rfl
@[simp] theorem State.modEnv_ep (f : Env → Env) (x : EpNum) : (s.modEnv f).ep x = s.ep x := rfl
@[simp] theorem State.setLock_ep (l : Option Agent) (x : EpNum) : (s.setLock l).ep x = s.ep x := rfl
@[simp] theorem State.addFault_ep (f : ModelFault) (x : EpNum) : (s.addFault f).ep x = s.ep x := rfl
@[simp] theorem State.stop_ep (a : Agent) (x : EpNum) : (s.stop a).ep x = s.ep x := rfl
@[simp] theorem State.setAgenda_ep (l : List Act) (x : EpNum) : (s.setAgenda l).ep x = s.ep x := rfl

/-! ## Requests -/

@[simp] theorem State.setReg_req (r : Reg) (v : Word) (i : ReqId) : (s.setReg r v).req i = s.req i := rfl
@[simp] theorem State.setMem_req (m : List Host.Cell) (i : ReqId) : (s.setMem m).req i = s.req i := rfl
@[simp] theorem State.setEp_req (n : EpNum) (e : Option Endpoint) (i : ReqId) : (s.setEp n e).req i = s.req i := rfl
@[simp] theorem State.note_req (n : Note) (i : ReqId) : (s.note n).req i = s.req i := rfl
@[simp] theorem State.modEvbuf_req (f : Evbuf → Evbuf) (i : ReqId) : (s.modEvbuf f).req i = s.req i := rfl
@[simp] theorem State.modEp0_req (f : Ep0 → Ep0) (i : ReqId) : (s.modEp0 f).req i = s.req i := rfl
@[simp] theorem State.modLink_req (f : Link → Link) (i : ReqId) : (s.modLink f).req i = s.req i := rfl
@[simp] theorem State.modRole_req (f : Role → Role) (i : ReqId) : (s.modRole f).req i = s.req i := rfl
@[simp] theorem State.modDev_req (f : Dev → Dev) (i : ReqId) : (s.modDev f).req i = s.req i := rfl
@[simp] theorem State.modSi_req (f : Silicon → Silicon) (i : ReqId) : (s.modSi f).req i = s.req i := rfl
@[simp] theorem State.modRing_req (n : EpNum) (f : SiRing → SiRing) (i : ReqId) : (s.modRing n f).req i = s.req i := rfl
@[simp] theorem State.modRun_req (f : Run → Run) (i : ReqId) : (s.modRun f).req i = s.req i := rfl
@[simp] theorem State.modEnv_req (f : Env → Env) (i : ReqId) : (s.modEnv f).req i = s.req i := rfl
@[simp] theorem State.setLock_req (l : Option Agent) (i : ReqId) : (s.setLock l).req i = s.req i := rfl
@[simp] theorem State.addFault_req (f : ModelFault) (i : ReqId) : (s.addFault f).req i = s.req i := rfl
@[simp] theorem State.stop_req (a : Agent) (i : ReqId) : (s.stop a).req i = s.req i := rfl
@[simp] theorem State.setAgenda_req (l : List Act) (i : ReqId) : (s.setAgenda l).req i = s.req i := rfl

@[simp] theorem State.modEp_req (n : EpNum) (f : Endpoint → Endpoint) (i : ReqId) :
    (s.modEp n f).req i = s.req i := by
  simp [State.req]

/-- A request just added is found. -/
@[simp] theorem State.addReq_req_self (q : Request) : (s.addReq q).req q.id = some q := by
  simp only [State.req, State.addReq_reqs, State.delReq_reqs, List.find?_append]
  rw [List.find?_eq_none.2 (by simp)]
  simp

/-- A deleted request is not found. -/
@[simp] theorem State.delReq_req_self (id : ReqId) : (s.delReq id).req id = none := by
  simp only [State.req, State.delReq_reqs]
  exact List.find?_eq_none.2 (by simp)

/-! ## Addresses -/

@[simp] theorem State.setReg_slotAddr (r : Reg) (v : Word) (n : EpNum) (i : Nat) :
    (s.setReg r v).slotAddr n i = s.slotAddr n i := rfl
@[simp] theorem State.setMem_slotAddr (m : List Host.Cell) (n : EpNum) (i : Nat) :
    (s.setMem m).slotAddr n i = s.slotAddr n i := rfl
@[simp] theorem State.setEp_slotAddr (k : EpNum) (e : Option Endpoint) (n : EpNum) (i : Nat) :
    (s.setEp k e).slotAddr n i = s.slotAddr n i := rfl
@[simp] theorem State.delReq_slotAddr (id : ReqId) (n : EpNum) (i : Nat) :
    (s.delReq id).slotAddr n i = s.slotAddr n i := rfl
@[simp] theorem State.addReq_slotAddr (q : Request) (n : EpNum) (i : Nat) :
    (s.addReq q).slotAddr n i = s.slotAddr n i := rfl
@[simp] theorem State.modReq_slotAddr (id : ReqId) (f : Request → Request) (n : EpNum) (i : Nat) :
    (s.modReq id f).slotAddr n i = s.slotAddr n i := rfl
@[simp] theorem State.note_slotAddr (k : Note) (n : EpNum) (i : Nat) :
    (s.note k).slotAddr n i = s.slotAddr n i := rfl
@[simp] theorem State.modEvbuf_slotAddr (f : Evbuf → Evbuf) (n : EpNum) (i : Nat) :
    (s.modEvbuf f).slotAddr n i = s.slotAddr n i := rfl
@[simp] theorem State.modEp0_slotAddr (f : Ep0 → Ep0) (n : EpNum) (i : Nat) :
    (s.modEp0 f).slotAddr n i = s.slotAddr n i := rfl
@[simp] theorem State.modLink_slotAddr (f : Link → Link) (n : EpNum) (i : Nat) :
    (s.modLink f).slotAddr n i = s.slotAddr n i := rfl
@[simp] theorem State.modRole_slotAddr (f : Role → Role) (n : EpNum) (i : Nat) :
    (s.modRole f).slotAddr n i = s.slotAddr n i := rfl
@[simp] theorem State.modDev_slotAddr (f : Dev → Dev) (n : EpNum) (i : Nat) :
    (s.modDev f).slotAddr n i = s.slotAddr n i := rfl
@[simp] theorem State.modSi_slotAddr (f : Silicon → Silicon) (n : EpNum) (i : Nat) :
    (s.modSi f).slotAddr n i = s.slotAddr n i := rfl
@[simp] theorem State.modRing_slotAddr (k : EpNum) (f : SiRing → SiRing) (n : EpNum) (i : Nat) :
    (s.modRing k f).slotAddr n i = s.slotAddr n i := rfl
@[simp] theorem State.modRun_slotAddr (f : Run → Run) (n : EpNum) (i : Nat) :
    (s.modRun f).slotAddr n i = s.slotAddr n i := rfl
@[simp] theorem State.modEnv_slotAddr (f : Env → Env) (n : EpNum) (i : Nat) :
    (s.modEnv f).slotAddr n i = s.slotAddr n i := rfl
@[simp] theorem State.setLock_slotAddr (l : Option Agent) (n : EpNum) (i : Nat) :
    (s.setLock l).slotAddr n i = s.slotAddr n i := rfl
@[simp] theorem State.addFault_slotAddr (f : ModelFault) (n : EpNum) (i : Nat) :
    (s.addFault f).slotAddr n i = s.slotAddr n i := rfl
@[simp] theorem State.stop_slotAddr (a : Agent) (n : EpNum) (i : Nat) :
    (s.stop a).slotAddr n i = s.slotAddr n i := rfl
@[simp] theorem State.setAgenda_slotAddr (l : List Act) (n : EpNum) (i : Nat) :
    (s.setAgenda l).slotAddr n i = s.slotAddr n i := rfl
@[simp] theorem State.modEp_slotAddr (k : EpNum) (f : Endpoint → Endpoint) (n : EpNum) (i : Nat) :
    (s.modEp k f).slotAddr n i = s.slotAddr n i := by
  simp [State.slotAddr]

end Sys2Proof.Machine
end

