-- ==== Sys2Proof/Laws/Memory.lean ====
section
/-!
SUPPORT. The laws of DMA memory: every operation keeps the canonical form; a read after a write; a word
read after a word written; bytes outside a write unchanged.
-/

namespace Sys2Proof.Machine

/-! ## The canonical form -/

/-- Memory with nothing listed is canonical. -/
theorem Memory.wf_nil : Memory.wf [] := by simp [Memory.wf]

/-- Dropping entries keeps the form. -/
theorem Memory.wf_filter {m : List Host.Cell} (h : Memory.wf m) (p : Host.Cell → Bool) :
    Memory.wf (m.filter p) :=
  ⟨h.1.filter p, fun c hc => h.2 c (List.mem_of_mem_filter hc)⟩

/-- Dropping an address keeps the form. -/
theorem Memory.wf_erase {m : List Host.Cell} (h : Memory.wf m) (a : Nat) : Memory.wf (Memory.erase m a) :=
  Memory.wf_filter h _

/-- What an insertion lists. -/
theorem Memory.mem_insert {m : List Host.Cell} {a : Nat} {v : Byte} {c : Host.Cell}
    (h : c ∈ Memory.insert m a v) : c = (a, v) ∨ c ∈ m := by
  induction m with
  | nil => simpa [Memory.insert] using h
  | cons d rest ih =>
    simp only [Memory.insert] at h
    split at h
    · simpa using h
    · rcases List.mem_cons.1 h with h | h
      · exact .inr (by simp [h])
      · rcases ih h with h | h
        · exact .inl h
        · exact .inr (by simp [h])

/-- Inserting a new address keeps the form. -/
theorem Memory.wf_insert {m : List Host.Cell} (h : Memory.wf m) {a : Nat} {v : Byte}
    (ha : ∀ c ∈ m, c.1 ≠ a) (hv : v ≠ Memory.unlisted) : Memory.wf (Memory.insert m a v) := by
  refine ⟨?_, fun c hc => ?_⟩
  · have hp := h.1
    clear h
    induction m with
    | nil => simp [Memory.insert]
    | cons d rest ih =>
      simp only [Memory.insert]
      rw [List.pairwise_cons] at hp
      split
      · next had =>
        refine List.pairwise_cons.2 ⟨fun c hc => ?_, List.pairwise_cons.2 hp⟩
        rcases List.mem_cons.1 hc with hc | hc
        · simpa [hc] using had
        · exact lt_trans had (hp.1 c hc)
      · next had =>
        refine List.pairwise_cons.2 ⟨fun c hc => ?_, ih (fun c hc => ha c (by simp [hc])) hp.2⟩
        rcases Memory.mem_insert hc with hc | hc
        · have := ha d (by simp)
          simp only [hc]
          omega
        · exact hp.1 c hc
  · rcases Memory.mem_insert hc with hc | hc
    · simpa [hc] using hv
    · exact h.2 c hc

/-- A write keeps the canonical form. -/
theorem Memory.wf_write {m : List Host.Cell} (h : Memory.wf m) (a : Nat) (v : Byte) :
    Memory.wf (Memory.write m a v) := by
  unfold Memory.write
  split
  · exact Memory.wf_erase h a
  · next hv =>
    refine Memory.wf_insert (Memory.wf_erase h a) (fun c hc => ?_) hv
    simpa [Memory.erase] using (List.mem_filter.1 hc).2

/-- Writing bytes keeps the canonical form. -/
theorem Memory.wf_writeBytes {m : List Host.Cell} (h : Memory.wf m) (a : Nat) (bs : List Byte) :
    Memory.wf (Memory.writeBytes m a bs) := by
  induction bs generalizing m a with
  | nil => exact h
  | cons b bs ih => exact ih (Memory.wf_write h a b) (a + 1)

/-- Writing a word keeps the canonical form. -/
theorem Memory.wf_writeWord {m : List Host.Cell} (h : Memory.wf m) (a : Nat) (w : Word) :
    Memory.wf (Memory.writeWord m a w) := Memory.wf_writeBytes h a _

/-! ## Reading after writing -/

/-- Reading through a filter that keeps the address's entries. -/
theorem Memory.read_filter {m : List Host.Cell} {p : Host.Cell → Bool} {x : Nat}
    (h : ∀ c ∈ m, c.1 = x → p c = true) : Memory.read (m.filter p) x = Memory.read m x := by
  induction m with
  | nil => rfl
  | cons c rest ih =>
    have ih := ih fun d hd => h d (by simp [hd])
    by_cases hc : c.1 = x
    · simp [h c (by simp) hc, Memory.read, hc]
    · by_cases hp : p c = true
      · simp [hp, Memory.read, hc, ih]
      · simp [hp, Memory.read, hc, ih]

/-- Reading through a filter that drops the address's entries. -/
theorem Memory.read_filter_out {m : List Host.Cell} {p : Host.Cell → Bool} {x : Nat}
    (h : ∀ c ∈ m, c.1 = x → p c = false) : Memory.read (m.filter p) x = Memory.unlisted := by
  induction m with
  | nil => rfl
  | cons c rest ih =>
    have ih := ih fun d hd => h d (by simp [hd])
    by_cases hp : p c = true
    · have hc : c.1 ≠ x := fun hc => by simp [h c (by simp) hc] at hp
      simp [hp, Memory.read, hc, ih]
    · simp [hp, ih]

/-- Reading after an insertion of a new address. -/
theorem Memory.read_insert {m : List Host.Cell} {a : Nat} (v : Byte) (ha : ∀ c ∈ m, c.1 ≠ a) (x : Nat) :
    Memory.read (Memory.insert m a v) x = if x = a then v else Memory.read m x := by
  induction m with
  | nil => simp [Memory.insert, Memory.read, eq_comm]
  | cons c rest ih =>
    have ih := ih fun d hd => ha d (by simp [hd])
    simp only [Memory.insert]
    by_cases hlt : a < c.1
    · rw [if_pos hlt]
      simp [Memory.read, eq_comm]
    · rw [if_neg hlt]
      simp only [Memory.read, ih]
      by_cases hc : c.1 = x
      · have : x ≠ a := fun h => ha c (by simp) (hc.trans h)
        simp [hc, this]
      · simp [hc]

/-- A read after a write: the written byte there, and what was there everywhere else. -/
@[simp] theorem Memory.read_write (m : List Host.Cell) (a : Nat) (v : Byte) (x : Nat) :
    Memory.read (Memory.write m a v) x = if x = a then v else Memory.read m x := by
  have hne : ∀ c ∈ Memory.erase m a, c.1 ≠ a := fun c hc => by
    simpa [Memory.erase] using (List.mem_filter.1 hc).2
  have herase : x ≠ a → Memory.read (Memory.erase m a) x = Memory.read m x := fun hx =>
    Memory.read_filter fun c _ hc => by simp [hc, hx]
  unfold Memory.write
  split
  · next hv =>
    split
    · next hx =>
      rw [hv, hx]
      exact Memory.read_filter_out fun c _ hc => by simp [hc]
    · next hx => exact herase hx
  · rw [Memory.read_insert v hne]
    split
    · rfl
    · next hx => exact herase hx

/-- Bytes before a run of writes are unchanged. -/
theorem Memory.read_writeBytes_lt (m : List Host.Cell) (a : Nat) (bs : List Byte) {x : Nat} (h : x < a) :
    Memory.read (Memory.writeBytes m a bs) x = Memory.read m x := by
  induction bs generalizing m a with
  | nil => rfl
  | cons b bs ih =>
    rw [Memory.writeBytes, ih _ _ (by omega), Memory.read_write, if_neg (by omega)]

/-- Bytes after a run of writes are unchanged. -/
theorem Memory.read_writeBytes_ge (m : List Host.Cell) (a : Nat) (bs : List Byte) {x : Nat}
    (h : a + bs.length ≤ x) : Memory.read (Memory.writeBytes m a bs) x = Memory.read m x := by
  induction bs generalizing m a with
  | nil => rfl
  | cons b bs ih =>
    simp only [List.length_cons] at h
    rw [Memory.writeBytes, ih _ _ (by omega), Memory.read_write, if_neg (by omega)]

/-- The bytes of a run of writes. -/
theorem Memory.read_writeBytes_in (m : List Host.Cell) (a : Nat) (bs : List Byte) (k : Nat)
    (h : k < bs.length) : Memory.read (Memory.writeBytes m a bs) (a + k) = bs[k] := by
  induction bs generalizing m a k with
  | nil => simp at h
  | cons b bs ih =>
    cases k with
    | zero => simp [Memory.writeBytes, Memory.read_writeBytes_lt, Memory.read_write]
    | succ k =>
      simp only [List.length_cons] at h
      rw [Memory.writeBytes, show a + (k + 1) = a + 1 + k by omega, ih _ _ k (by omega)]
      simp

/-- A word is its four bytes. -/
theorem wordOfBytes_bytes (w : Word) :
    wordOfBytes (byteOf w 0) (byteOf w 1) (byteOf w 2) (byteOf w 3) = w := by
  ext i h
  simp only [wordOfBytes, byteOf, place]
  interval_cases i <;> simp

/-- A word read where it was written. -/
@[simp] theorem Memory.readWord_writeWord (m : List Host.Cell) (a : Nat) (w : Word) :
    Memory.readWord (Memory.writeWord m a w) a = w := by
  have h := fun k hk => Memory.read_writeBytes_in m a (bytesOfWord w) k hk
  have h0 := h 0 (by simp [bytesOfWord])
  have h1 := h 1 (by simp [bytesOfWord])
  have h2 := h 2 (by simp [bytesOfWord])
  have h3 := h 3 (by simp [bytesOfWord])
  simp only [Nat.add_zero] at h0
  rw [Memory.readWord, Memory.writeWord, h0, h1, h2, h3]
  exact wordOfBytes_bytes w

/-- A byte outside a written word is unchanged. -/
theorem Memory.read_writeWord_out (m : List Host.Cell) (a : Nat) (w : Word) {x : Nat}
    (h : x < a ∨ a + 4 ≤ x) : Memory.read (Memory.writeWord m a w) x = Memory.read m x := by
  rcases h with h | h
  · exact Memory.read_writeBytes_lt m a _ h
  · exact Memory.read_writeBytes_ge m a _ (by simpa [bytesOfWord] using h)

/-- A word apart from a written word is unchanged. -/
theorem Memory.readWord_writeWord_out (m : List Host.Cell) (a b : Nat) (w : Word)
    (h : b + 4 ≤ a ∨ a + 4 ≤ b) : Memory.readWord (Memory.writeWord m a w) b = Memory.readWord m b := by
  simp only [Memory.readWord]
  rw [Memory.read_writeWord_out m a w (by omega), Memory.read_writeWord_out m a w (by omega),
    Memory.read_writeWord_out m a w (by omega), Memory.read_writeWord_out m a w (by omega)]

end Sys2Proof.Machine
end

