-- ==== Sys2Proof/Laws/Ops.lean ====
section
/-!
SUPPORT. What each primitive operation can do, said once: its result and next state. The lemmas about
operations end in `_run`; where the schedule is empty the environment's turn changes nothing.
-/

namespace Sys2Proof.Machine

/-! ## The monad -/

@[simp] theorem pure_run {α : Type} (a : α) (s : State) : (pure a : M α) s = .ok a s := rfl

@[simp] theorem bind_run {α β : Type} (m : M α) (f : α → M β) (s : State) :
    (m >>= f) s = match m s with
      | .ok a t => f a t
      | .error x t => .error x t := by
  change EStateM.bind m f s = _
  unfold EStateM.bind
  cases m s <;> rfl

@[simp] theorem map_run {α β : Type} (g : α → β) (m : M α) (s : State) :
    (g <$> m) s = match m s with
      | .ok a t => .ok (g a) t
      | .error x t => .error x t := by
  change EStateM.map g m s = _
  unfold EStateM.map
  cases m s <;> rfl

@[simp] theorem get_run (s : State) : (get : M State) s = .ok s s := rfl

@[simp] theorem upd_run (f : State → State) (s : State) : upd f s = .ok () (f s) := rfl

@[simp] theorem throw_run {α : Type} (x : Exit) (s : State) : (throw x : M α) s = .error x s := rfl

@[simp] theorem raise_run {α : Type} (e : Err) (s : State) : (raise e : M α) s = .error (.raised e) s := rfl

@[simp] theorem forEach_nil {α : Type} (f : α → M Unit) : forEach [] f = pure () := rfl

@[simp] theorem forEach_cons {α : Type} (a : α) (l : List α) (f : α → M Unit) :
    forEach (a :: l) f = (do f a; forEach l f) := rfl

/-- A model fault is recorded, the holder of the lock is stopped, and the operation ends (R462). -/
@[simp] theorem modelFault_run {α : Type} (f : ModelFault) (s : State) :
    (modelFault f : M α) s = .error .halted (s.addFault f).stopHolder := rfl

@[simp] theorem notify_run (n : Note) (s : State) : notify n s = .ok () (s.note n) := rfl

@[simp] theorem notifyCode_run (c : Code) (i : Info) (s : State) :
    notifyCode c i s = .ok () (s.note (.code c i)) := rfl

@[simp] theorem notifyErr_run (n : EpNum) (e : Err) (s : State) :
    notifyErr n e s = .ok () (s.note (.code (Err.code e) (errInfo n e))) := rfl

@[simp] theorem notifyErrEp_run (n : EpNum) (e : Err) (s : State) :
    notifyErrEp n e s = .ok () (s.note (.code (Err.code e) (.ep n))) := rfl

@[simp] theorem publish_run (s : State) : publish s = .ok () s := rfl

/-! ## Outcomes -/

@[simp] theorem toOutcome_ok {m : M Unit} {s t : State} (h : m s = .ok () t) : toOutcome m s = .next t := by
  simp [toOutcome, h]

theorem toOutcome_raised {m : M Unit} {s t : State} {e : Err} (h : m s = .error (.raised e) t) :
    toOutcome m s = .next t := by
  simp [toOutcome, h]

theorem toOutcome_halted {m : M Unit} {s t : State} (h : m s = .error .halted t) :
    toOutcome m s = .next t := by
  simp [toOutcome, h]

/-- Where an operation answers a next state: a normal end, a raised error or a model fault. -/
theorem toOutcome_next_iff {m : M Unit} {s t : State} :
    toOutcome m s = .next t ↔
      m s = .ok () t ∨ (∃ e, m s = .error (.raised e) t) ∨ m s = .error .halted t := by
  unfold toOutcome
  rcases h : m s with ⟨_, u⟩ | ⟨x, u⟩
  · simp
  · cases x <;> simp

/-! ## The environment's turn -/

/-- Nothing scheduled: nothing happens. -/
theorem tickState_nil {s : State} (h : s.env.sched = []) : tickState s = s := by
  simp [tickState, h]

/-- An empty entry is only used up. -/
theorem tickState_empty {s : State} {rest : List (List EnvStep)} (h : s.env.sched = [] :: rest) :
    tickState s = s.modEnv fun e => { e with sched := rest } := by
  simp [tickState, h]

/-- An entry's steps happen in order. -/
theorem tickState_cons {s : State} {es : List EnvStep} {rest : List (List EnvStep)}
    (h : s.env.sched = es :: rest) :
    tickState s = es.foldl envStep (s.modEnv fun e => { e with sched := rest }) := by
  simp [tickState, h]

@[simp] theorem tick_run (s : State) : tick s = .ok () (tickState s) := rfl

/-! ## Register offsets -/

/-- Every offset of every `REGMAP` is a multiple of 4 (R80). -/
theorem RegMap.offset_aligned (m : RegMap) (r : Reg) : m.offset r % 4 = 0 := Nat.mul_mod_right 4 _

/-- There is no register at an offset that is not a multiple of 4 (R80). -/
theorem regAt_misaligned (m : RegMap) {off : Nat} (h : off % 4 ≠ 0) : regAt m off = none :=
  List.find?_eq_none.2 fun r _ hr => h (by rw [← beq_iff_eq.1 hr, RegMap.offset_aligned])

/-! ## Accesses -/

/-- A register read: the environment's turn, then the register's value; it changes nothing itself. -/
theorem regRead_run {r : Reg} (h : Reg.isOpaque r = false) (s : State) :
    regRead r s = .ok ((tickState s).regs.get r) (tickState s) := by
  simp [regRead, h]

/-- A register write: the environment's turn, then the write (R47 for `GEVNTCOUNT`), or the model fault
of a reserved code or field (R162). -/
theorem regWrite_run {r : Reg} (h : Reg.isOpaque r = false) (h' : Reg.isReadOnly r = false) (v : Word)
    (s : State) :
    regWrite r v s =
      if writable r v = true then
        .ok () ((tickState s).setReg r (written r ((tickState s).regs.get r) v))
      else .error .halted ((tickState s).addFault .reservedWrite).stopHolder := by
  simp only [regWrite, bind_run, tick_run, h, h', Bool.false_eq_true, if_false]
  split <;> simp

/-- A read-modify-write: a read, the environment's turn again, and the write of the changed word. -/
theorem regRMW_run {n : Nat} {r : Reg} (h : Reg.isOpaque r = false) (lo : Nat) (v : BitVec n) (s : State) :
    regRMW r lo v s = regWrite r (setField ((tickState s).regs.get r) lo v) (tickState s) := by
  simp [regRMW, regRead_run h]

/-- An access is in the address space, or the machine stops. -/
theorem access_run (a len : Nat) (s : State) :
    access a len s =
      if a + len ≤ 2 ^ (tickState s).cfg.dmaAddrBits then .ok () (tickState s)
      else .error (.fault .dmaAddress) (tickState s) := by
  simp only [access, bind_run, tick_run, get_run]
  split <;> simp_all

/-- A word read from memory. -/
theorem memRead32_run {a : Nat} {s : State} (h : a + 4 ≤ 2 ^ (tickState s).cfg.dmaAddrBits) :
    memRead32 a s = .ok (Memory.readWord (tickState s).mem a) (tickState s) := by
  simp [memRead32, access_run, h]

/-- A byte read from memory. -/
theorem memRead8_run {a : Nat} {s : State} (h : a + 1 ≤ 2 ^ (tickState s).cfg.dmaAddrBits) :
    memRead8 a s = .ok (Memory.read (tickState s).mem a) (tickState s) := by
  simp [memRead8, access_run, h]

/-- A word written to memory. -/
theorem memWrite32_run {a : Nat} {s : State} (h : a + 4 ≤ 2 ^ (tickState s).cfg.dmaAddrBits) (w : Word) :
    memWrite32 a w s = .ok () ((tickState s).setMem (Memory.writeWord (tickState s).mem a w)) := by
  simp [memWrite32, access_run, h]

/-- A byte written to memory. -/
theorem memWrite8_run {a : Nat} {s : State} (h : a + 1 ≤ 2 ^ (tickState s).cfg.dmaAddrBits) (b : Byte) :
    memWrite8 a b s = .ok () ((tickState s).setMem (Memory.write (tickState s).mem a b)) := by
  simp [memWrite8, access_run, h]

/-! ## Accesses with nothing scheduled -/

/-- A register read changes nothing. -/
theorem regRead_quiet {r : Reg} {s : State} (h : Reg.isOpaque r = false) (q : s.env.sched = []) :
    regRead r s = .ok (s.regs.get r) s := by
  rw [regRead_run h, tickState_nil q]

/-- A legal register write changes that register alone. -/
theorem regWrite_quiet {r : Reg} {v : Word} {s : State} (h : Reg.isOpaque r = false) (h' : Reg.isReadOnly r = false)
    (q : s.env.sched = []) (w : writable r v = true) :
    regWrite r v s = .ok () (s.setReg r (written r (s.regs.get r) v)) := by
  rw [regWrite_run h h', tickState_nil q, if_pos w]

/-- A legal read-modify-write changes that register alone. -/
theorem regRMW_quiet {n : Nat} {r : Reg} {lo : Nat} {v : BitVec n} {s : State} (h : Reg.isOpaque r = false)
    (h' : Reg.isReadOnly r = false) (q : s.env.sched = [])
    (w : writable r (setField (s.regs.get r) lo v) = true) :
    regRMW r lo v s = .ok () (s.setReg r (written r (s.regs.get r) (setField (s.regs.get r) lo v))) := by
  rw [regRMW_run h, tickState_nil q, regWrite_quiet h h' q w]

/-- A word read from memory changes nothing. -/
theorem memRead32_quiet {a : Nat} {s : State} (q : s.env.sched = []) (h : a + 4 ≤ 2 ^ s.cfg.dmaAddrBits) :
    memRead32 a s = .ok (Memory.readWord s.mem a) s := by
  rw [memRead32_run (by rwa [tickState_nil q]), tickState_nil q]

/-- A byte read from memory changes nothing. -/
theorem memRead8_quiet {a : Nat} {s : State} (q : s.env.sched = []) (h : a + 1 ≤ 2 ^ s.cfg.dmaAddrBits) :
    memRead8 a s = .ok (Memory.read s.mem a) s := by
  rw [memRead8_run (by rwa [tickState_nil q]), tickState_nil q]

/-- A word written to memory changes those four bytes alone. -/
theorem memWrite32_quiet {a : Nat} {s : State} (q : s.env.sched = []) (h : a + 4 ≤ 2 ^ s.cfg.dmaAddrBits) (w : Word) :
    memWrite32 a w s = .ok () (s.setMem (Memory.writeWord s.mem a w)) := by
  rw [memWrite32_run (by rwa [tickState_nil q]), tickState_nil q]

/-! ## Records -/

@[simp] theorem getEp_run (n : EpNum) (s : State) : getEp n s = .ok (s.ep n) s := rfl

@[simp] theorem getReq_run (id : ReqId) (s : State) : getReq id s = .ok (s.req id) s := rfl

@[simp] theorem getCfg_run (s : State) : getCfg s = .ok s.cfg s := rfl

@[simp] theorem getEp0_run (s : State) : getEp0 s = .ok s.ep0 s := rfl

@[simp] theorem modEp_run (n : EpNum) (f : Endpoint → Endpoint) (s : State) :
    modEp n f s = .ok () (s.modEp n f) := rfl

@[simp] theorem putEp_run (n : EpNum) (e : Option Endpoint) (s : State) :
    putEp n e s = .ok () (s.setEp n e) := rfl

@[simp] theorem modReq_run (id : ReqId) (f : Request → Request) (s : State) :
    modReq id f s = .ok () (s.modReq id f) := rfl

@[simp] theorem modEp0_run (f : Ep0 → Ep0) (s : State) : modEp0 f s = .ok () (s.modEp0 f) := rfl

@[simp] theorem acquire_run (a : Agent) (s : State) : acquire a s = .ok () (s.setLock (some a)) := rfl

@[simp] theorem release_run (s : State) : release s = .ok () (s.setLock none) := rfl

@[simp] theorem setRet_run (r : Option Ret) (s : State) :
    setRet r s = .ok () (s.modRun fun u => { u with ret := r }) := rfl

/-- The record of an endpoint that has one. -/
theorem needEp_some {n : EpNum} {s : State} {e : Endpoint} (h : s.ep n = some e) :
    needEp n s = .ok e s := by
  simp [needEp, h]

/-- A missing record is a model fault (R240). -/
theorem needEp_none {n : EpNum} {s : State} (h : s.ep n = none) :
    needEp n s = .error .halted (s.addFault .reservedWrite).stopHolder := by
  simp [needEp, h]

/-! ## Draws -/

/-- Every draw uses a new free value. -/
theorem draw_run (s : State) :
    draw s = .ok s.env.draws (s.modEnv fun e => { e with draws := e.draws + 1 }) := rfl

/-- A scheduled setup reply is taken from the schedule. -/
theorem drawReply_cons {s : State} {r : SetupReply} {rest : List SetupReply} (h : s.env.replies = r :: rest) :
    drawReply s = .ok r (s.modEnv fun e => { e with replies := rest }) := by
  simp [drawReply, h]

/-- A scheduled host answer is taken from the schedule. -/
theorem drawHostAnswer_cons {s : State} {r : Bool} {rest : List Bool} (h : s.env.hostAnswers = r :: rest) :
    drawHostAnswer s = .ok r (s.modEnv fun e => { e with hostAnswers := rest }) := by
  simp [drawHostAnswer, h]

/-- The resource index of an endpoint that has one. -/
theorem rscOf_some {e : Endpoint} {r : BitVec 7} (h : e.rsc = some r) (s : State) :
    rscOf e s = .ok r s := by
  simp [rscOf, h]

end Sys2Proof.Machine
end

