-- ==== Sys2Proof/Laws/Silicon.lean ====
section
/-!
SUPPORT. What the environment's steps leave alone (R12, R88): the silicon and the top half change registers,
memory, the silicon's own fields, `evbuf.pending` and, by a model fault of the top half, `faults` and the
stopped agents; nothing else of the record.
-/

namespace Sys2Proof.Machine

variable (s : State)

/-- The fields that no environment step writes are those of another state. -/
def SameRecord (s t : State) : Prop :=
  t.cfg = s.cfg ∧ t.eps = s.eps ∧ t.ep0 = s.ep0 ∧ t.link = s.link ∧ t.role = s.role ∧ t.dev = s.dev
    ∧ t.reqs = s.reqs ∧ t.upQueue = s.upQueue ∧ t.lock = s.lock ∧ t.env = s.env

/-- An environment step leaves them. -/
theorem envStep_record (e : EnvStep) : SameRecord s (envStep s e) := by
  unfold SameRecord
  cases e <;>
    simp only [envStep, siCmdDone, siOnDone, siEpState, siProcess, siEvent, siOnEvent, siOverflow, siReg, topHalf]
    <;> repeat' split
  all_goals simp

@[simp] theorem envStep_cfg (e : EnvStep) : (envStep s e).cfg = s.cfg :=
  (envStep_record s e).1
@[simp] theorem envStep_eps (e : EnvStep) : (envStep s e).eps = s.eps :=
  (envStep_record s e).2.1
@[simp] theorem envStep_ep0 (e : EnvStep) : (envStep s e).ep0 = s.ep0 :=
  (envStep_record s e).2.2.1
@[simp] theorem envStep_link (e : EnvStep) : (envStep s e).link = s.link :=
  (envStep_record s e).2.2.2.1
@[simp] theorem envStep_role (e : EnvStep) : (envStep s e).role = s.role :=
  (envStep_record s e).2.2.2.2.1
@[simp] theorem envStep_dev (e : EnvStep) : (envStep s e).dev = s.dev :=
  (envStep_record s e).2.2.2.2.2.1
@[simp] theorem envStep_reqs (e : EnvStep) : (envStep s e).reqs = s.reqs :=
  (envStep_record s e).2.2.2.2.2.2.1
@[simp] theorem envStep_upQueue (e : EnvStep) : (envStep s e).upQueue = s.upQueue :=
  (envStep_record s e).2.2.2.2.2.2.2.1
@[simp] theorem envStep_lock (e : EnvStep) : (envStep s e).lock = s.lock :=
  (envStep_record s e).2.2.2.2.2.2.2.2.1
@[simp] theorem envStep_env (e : EnvStep) : (envStep s e).env = s.env :=
  (envStep_record s e).2.2.2.2.2.2.2.2.2

@[simp] theorem siCmdDone_cfg (n : EpNum) (w : Word) : (siCmdDone s n w).cfg = s.cfg :=
  (envStep_record s (.cmdDone n w)).1
@[simp] theorem siCmdDone_mem (n : EpNum) (w : Word) : (siCmdDone s n w).mem = s.mem := by
  simp only [siCmdDone, siOnDone]
  split_ifs <;> rfl
@[simp] theorem siCmdDone_eps (n : EpNum) (w : Word) : (siCmdDone s n w).eps = s.eps :=
  (envStep_record s (.cmdDone n w)).2.1
@[simp] theorem siCmdDone_ep0 (n : EpNum) (w : Word) : (siCmdDone s n w).ep0 = s.ep0 :=
  (envStep_record s (.cmdDone n w)).2.2.1
@[simp] theorem siCmdDone_link (n : EpNum) (w : Word) : (siCmdDone s n w).link = s.link :=
  (envStep_record s (.cmdDone n w)).2.2.2.1
@[simp] theorem siCmdDone_role (n : EpNum) (w : Word) : (siCmdDone s n w).role = s.role :=
  (envStep_record s (.cmdDone n w)).2.2.2.2.1
@[simp] theorem siCmdDone_dev (n : EpNum) (w : Word) : (siCmdDone s n w).dev = s.dev :=
  (envStep_record s (.cmdDone n w)).2.2.2.2.2.1
@[simp] theorem siCmdDone_reqs (n : EpNum) (w : Word) : (siCmdDone s n w).reqs = s.reqs :=
  (envStep_record s (.cmdDone n w)).2.2.2.2.2.2.1
@[simp] theorem siCmdDone_upQueue (n : EpNum) (w : Word) : (siCmdDone s n w).upQueue = s.upQueue :=
  (envStep_record s (.cmdDone n w)).2.2.2.2.2.2.2.1
@[simp] theorem siCmdDone_lock (n : EpNum) (w : Word) : (siCmdDone s n w).lock = s.lock :=
  (envStep_record s (.cmdDone n w)).2.2.2.2.2.2.2.2.1
@[simp] theorem siCmdDone_env (n : EpNum) (w : Word) : (siCmdDone s n w).env = s.env :=
  (envStep_record s (.cmdDone n w)).2.2.2.2.2.2.2.2.2

@[simp] theorem topHalf_cfg : (topHalf s).cfg = s.cfg :=
  (envStep_record s .topHalf).1
@[simp] theorem topHalf_eps : (topHalf s).eps = s.eps :=
  (envStep_record s .topHalf).2.1
@[simp] theorem topHalf_ep0 : (topHalf s).ep0 = s.ep0 :=
  (envStep_record s .topHalf).2.2.1
@[simp] theorem topHalf_link : (topHalf s).link = s.link :=
  (envStep_record s .topHalf).2.2.2.1
@[simp] theorem topHalf_role : (topHalf s).role = s.role :=
  (envStep_record s .topHalf).2.2.2.2.1
@[simp] theorem topHalf_dev : (topHalf s).dev = s.dev :=
  (envStep_record s .topHalf).2.2.2.2.2.1
@[simp] theorem topHalf_reqs : (topHalf s).reqs = s.reqs :=
  (envStep_record s .topHalf).2.2.2.2.2.2.1
@[simp] theorem topHalf_upQueue : (topHalf s).upQueue = s.upQueue :=
  (envStep_record s .topHalf).2.2.2.2.2.2.2.1
@[simp] theorem topHalf_lock : (topHalf s).lock = s.lock :=
  (envStep_record s .topHalf).2.2.2.2.2.2.2.2.1
@[simp] theorem topHalf_env : (topHalf s).env = s.env :=
  (envStep_record s .topHalf).2.2.2.2.2.2.2.2.2

/-- A property that every environment step keeps, over a list of them. -/
theorem foldl_envStep_keeps {P : State → Prop} (h : ∀ s e, P s → P (envStep s e)) (es : List EnvStep)
    {s : State} (hs : P s) : P (es.foldl envStep s) := by
  induction es generalizing s with
  | nil => exact hs
  | cons e es ih => exact ih (h s e hs)

@[simp] theorem tickState_cfg : (tickState s).cfg = s.cfg := by
  unfold tickState; split
  · rfl
  · exact foldl_envStep_keeps (P := fun t => t.cfg = s.cfg) (fun t e h => by simpa using h) _ rfl
@[simp] theorem tickState_eps : (tickState s).eps = s.eps := by
  unfold tickState; split
  · rfl
  · exact foldl_envStep_keeps (P := fun t => t.eps = s.eps) (fun t e h => by simpa using h) _ rfl
@[simp] theorem tickState_ep0 : (tickState s).ep0 = s.ep0 := by
  unfold tickState; split
  · rfl
  · exact foldl_envStep_keeps (P := fun t => t.ep0 = s.ep0) (fun t e h => by simpa using h) _ rfl
@[simp] theorem tickState_link : (tickState s).link = s.link := by
  unfold tickState; split
  · rfl
  · exact foldl_envStep_keeps (P := fun t => t.link = s.link) (fun t e h => by simpa using h) _ rfl
@[simp] theorem tickState_role : (tickState s).role = s.role := by
  unfold tickState; split
  · rfl
  · exact foldl_envStep_keeps (P := fun t => t.role = s.role) (fun t e h => by simpa using h) _ rfl
@[simp] theorem tickState_dev : (tickState s).dev = s.dev := by
  unfold tickState; split
  · rfl
  · exact foldl_envStep_keeps (P := fun t => t.dev = s.dev) (fun t e h => by simpa using h) _ rfl
@[simp] theorem tickState_reqs : (tickState s).reqs = s.reqs := by
  unfold tickState; split
  · rfl
  · exact foldl_envStep_keeps (P := fun t => t.reqs = s.reqs) (fun t e h => by simpa using h) _ rfl
@[simp] theorem tickState_upQueue : (tickState s).upQueue = s.upQueue := by
  unfold tickState; split
  · rfl
  · exact foldl_envStep_keeps (P := fun t => t.upQueue = s.upQueue) (fun t e h => by simpa using h) _ rfl
@[simp] theorem tickState_lock : (tickState s).lock = s.lock := by
  unfold tickState; split
  · rfl
  · exact foldl_envStep_keeps (P := fun t => t.lock = s.lock) (fun t e h => by simpa using h) _ rfl

/-- Of the environment's plan, a turn changes the schedule alone. -/
theorem tickState_env : (tickState s).env = { s.env with sched := s.env.sched.tail } := by
  unfold tickState
  split
  · next h =>
    rw [h, List.tail_nil, ← h]
  · next es rest h =>
    rw [h]
    exact foldl_envStep_keeps (P := fun t => t.env = { s.env with sched := rest })
      (fun t e ht => by simpa using ht) _ rfl

@[simp] theorem tickState_ep (n : EpNum) : (tickState s).ep n = s.ep n := by simp [State.ep]

@[simp] theorem tickState_req (i : ReqId) : (tickState s).req i = s.req i := by simp [State.req]

@[simp] theorem tickState_slotAddr (n : EpNum) (i : Nat) : (tickState s).slotAddr n i = s.slotAddr n i := by
  simp [State.slotAddr]

/-! ## The environment and the canonical form -/

/-- Every environment step keeps the memory's canonical form. -/
theorem envStep_memOk {s : State} (h : Memory.wf s.mem) (e : EnvStep) : Memory.wf (envStep s e).mem := by
  cases e with
  | cmdDone n w =>
    simp only [envStep, siCmdDone, siOnDone]
    split_ifs <;> exact h
  | epState n w =>
    simp only [envStep, siEpState]
    split_ifs <;> exact h
  | process n rem sts sh data =>
    simp only [envStep, siProcess]
    split
    · exact h
    · split_ifs <;>
        first
          | exact h
          | exact Memory.wf_writeWord (Memory.wf_writeWord (Memory.wf_writeBytes h _ _) _ _) _ _
  | endXfer n => exact h
  | event w =>
    simp only [envStep, siEvent, siOnEvent]
    split_ifs <;> first | exact h | exact Memory.wf_writeWord h _ _
  | overflow c ws =>
    simp only [envStep, siOverflow]
    split_ifs
    · exact Memory.wf_writeBytes h _ _
    · exact h
  | reg r v => exact h
  | topHalf =>
    simp only [envStep, topHalf]
    split_ifs <;> exact h

/-- The environment's turn keeps the memory's canonical form. -/
theorem tickState_memOk {s : State} (h : Memory.wf s.mem) : Memory.wf (tickState s).mem := by
  unfold tickState
  split
  · exact h
  · exact foldl_envStep_keeps (P := fun t => Memory.wf t.mem) (fun t e ht => envStep_memOk ht e) _ h

/-- An environment step forgets no model fault. -/
theorem envStep_faults {t : State} {f : ModelFault} (ht : f ∈ t.faults) (e : EnvStep) : f ∈ (envStep t e).faults := by
  cases e with
  | cmdDone n w =>
    simp only [envStep, siCmdDone, siOnDone]
    split_ifs <;> exact ht
  | epState n w =>
    simp only [envStep, siEpState]
    split_ifs <;> exact ht
  | process n rem sts sh data =>
    simp only [envStep, siProcess]
    split
    · exact ht
    · split_ifs <;> exact ht
  | endXfer n => exact ht
  | event w =>
    simp only [envStep, siEvent, siOnEvent]
    split_ifs <;> exact ht
  | overflow c ws =>
    simp only [envStep, siOverflow]
    split_ifs <;> exact ht
  | reg r v => exact ht
  | topHalf =>
    simp only [envStep, topHalf]
    split_ifs
    · exact ht
    · exact ht
    · simp only [State.stop_faults, State.addFault_faults]
      split_ifs <;> simp [ht]

/-- The environment's turn forgets no model fault. -/
theorem tickState_faults {s : State} {f : ModelFault} (h : f ∈ s.faults) : f ∈ (tickState s).faults := by
  unfold tickState
  split
  · exact h
  · exact foldl_envStep_keeps (P := fun t => f ∈ t.faults) (fun t e ht => envStep_faults ht e) _ h

/-! ## The environment and the run control -/

/-- What the silicon and the top half leave: the drain's cursor, the run control but for
the stopped agents, and who owns the registers. -/
def SameCursor (s t : State) : Prop :=
  t.evbuf.lpos = s.evbuf.lpos ∧ t.evbuf.count = s.evbuf.count ∧ t.evbuf.enabled = s.evbuf.enabled
    ∧ t.run.rt = s.run.rt ∧ t.run.drain = s.run.drain ∧ t.run.waiter = s.run.waiter ∧ t.run.alive = s.run.alive
    ∧ t.si.hcRunning = s.si.hcRunning

/-- An environment step leaves the drain's cursor and the run control. -/
theorem envStep_cursor (s : State) (e : EnvStep) : SameCursor s (envStep s e) := by
  unfold SameCursor
  cases e <;> simp only [envStep, siCmdDone, siOnDone, siEpState, siProcess, siEvent, siOnEvent, siOverflow, siReg,
    topHalf] <;> repeat' split
  all_goals simp [State.stop]

/-- The environment's turn leaves the drain's cursor and the run control. -/
theorem tickState_cursor (s : State) : SameCursor s (tickState s) := by
  unfold tickState
  split
  · simp [SameCursor]
  · refine foldl_envStep_keeps (P := SameCursor s) (fun t e ht => ?_) _ (by simp [SameCursor])
    have h := envStep_cursor t e
    unfold SameCursor at *
    simp_all

end Sys2Proof.Machine
end

