-- ==== Sys2Proof/Laws/Commands.lean ====
section
/-!
SUPPORT. What one command does, said once: refused, answered at the first poll, or never answered.
-/

namespace Sys2Proof.Machine

/-! ## The command word -/

/-- Low bits of a word with a 16-bit field at the top. -/
theorem extractLsb'_place16 (p : BitVec 16) (x : Word) {lo len : Nat} (h : lo + len ≤ 16) :
    (place p 16 ||| x).extractLsb' lo len = x.extractLsb' lo len := by
  ext i hi
  simp [place, BitVec.getLsbD_or, show lo + i < 16 by omega]

/-- A low bit of a word with a 16-bit field at the top. -/
theorem bitAt_place16 (p : BitVec 16) (x : Word) {i : Nat} (h : i < 16) : bitAt (place p 16 ||| x) i = bitAt x i := by
  simp [bitAt, place, BitVec.getLsbD_or, h]

/-- The command word without its parameter. -/
def Cmd.low (c : Cmd) : Word :=
  bitWord c.forcerm 11 ||| 0x400#32 ||| bitWord c.ioc 8 ||| place (cmdTypCode c.typ) 0

/-- A command word is its parameter over its low half. -/
theorem Cmd.word_eq (c : Cmd) : c.word = place c.param 16 ||| c.low := by
  simp [Cmd.word, commandWord, Cmd.low, BitVec.or_assoc]

/-- What the core writes in the low half of a command word (R120). -/
theorem Cmd.low_fields (c : Cmd) : c.low.extractLsb' 4 4 = 0 ∧ bitAt c.low 9 = false ∧ bitAt c.low 10 = true
    ∧ c.low.extractLsb' 0 4 = cmdTypCode c.typ := by
  have key : ∀ (t : CmdTyp) (a b : Bool),
      let x : Word := bitWord a 11 ||| 0x400#32 ||| bitWord b 8 ||| place (cmdTypCode t) 0
      x.extractLsb' 4 4 = 0 ∧ bitAt x 9 = false ∧ bitAt x 10 = true ∧ x.extractLsb' 0 4 = cmdTypCode t := by
    intro t a b
    cases t <;> cases a <;> cases b <;> decide
  exact key c.typ c.forcerm c.ioc

/-- The core may write every command word of a command (R162). -/
theorem writable_word (n : EpNum) (c : Cmd) : writable (.depcmd n) c.word = true := by
  obtain ⟨h1, h2, -, h4⟩ := c.low_fields
  have hl : ∀ t : CmdTyp, cmdTypLegal (cmdTypCode t) = true := by intro t; cases t <;> rfl
  rw [Cmd.word_eq]
  simp only [writable, extractLsb'_place16 c.param c.low (lo := 4) (len := 4) (by omega),
    extractLsb'_place16 c.param c.low (lo := 0) (len := 4) (by omega), bitAt_place16 c.param c.low (i := 9) (by omega),
    h1, h2, h4, hl]
  rfl

/-- A command word starts a command (R83). -/
theorem cmdActive_word (c : Cmd) : cmdActive c.word = true := by
  rw [Cmd.word_eq, cmdActive, bitAt_place16 c.param c.low (by omega)]
  exact c.low_fields.2.2.1

/-- The reserved fields of `cfg_p0` are 0 (R126, R162). -/
theorem cfgP0_reserved (e : Endpoint) (a : CfgAction) : cfgP0 e a &&& 0x3C01C001#32 = 0 := by
  unfold cfgP0
  ext i hi
  interval_cases i <;> simp [place, epTypeCode, actionCode]

/-- The reserved fields of `cfg_p1` are 0 (R127, R162). -/
theorem cfgP1_reserved (e : Endpoint) : cfgP1 e &&& 0x0000D0E0#32 = 0 := by
  unfold cfgP1
  ext i hi
  interval_cases i <;> simp [place, bitWord]

/-- The core may write the parameter words of a `SETEPCONFIG` (R162). -/
theorem setepconfig_legal (e : Endpoint) (a : CfgAction) : (setepconfigCmd e a).paramsLegal = true := by
  simp [Cmd.paramsLegal, setepconfigCmd, cfgP0_reserved, cfgP1_reserved]

/-- A read-back word is inactive, with the status and index the silicon wrote. -/
theorem readBack_fields (w : Word) :
    cmdActive (readBack w) = false ∧ cmdStatus (readBack w) = cmdStatus w ∧ cmdRsc (readBack w) = cmdRsc w := by
  refine ⟨?_, ?_, ?_⟩
  · simp [cmdActive, readBack, bitAt]
  · unfold cmdStatus readBack
    ext i hi
    interval_cases i <;> simp
  · unfold cmdRsc readBack
    ext i hi
    interval_cases i <;> simp

/-! ## One command -/

/-- The registers right after a command is issued. -/
theorem issued_depcmd (s : State) (n : EpNum) (c : Cmd) (rest : List (List EnvStep)) :
    (s.issued n c rest).regs.depcmd[n] = c.word := by
  simp [State.issued, State.setReg, Regs.set]

/-- The command word read back after the silicon has completed it. -/
theorem commanded_depcmd (s : State) (n : EpNum) (c : Cmd) (w : Word) (rest : List (List EnvStep)) :
    (s.commanded n c w rest).regs.depcmd[n] = readBack w := by
  unfold State.commanded siCmdDone
  rw [if_pos (by rw [issued_depcmd]; exact cmdActive_word c)]
  unfold siOnDone
  split_ifs <;> simp [State.setReg, Regs.set, readBack]

/-- The four writes of a command, nothing happening between them (R241). -/
theorem writeAndPoll_run {s : State} {n : EpNum} {c : Cmd} {rest : List (List EnvStep)}
    (hc : c.paramsLegal = true) (h : s.env.sched = [] :: [] :: [] :: [] :: rest) : writeAndPoll n c s = poll n (s.issued n c rest) := by
  have t : ∀ (u : State) (r : List (List EnvStep)), u.env.sched = [] :: r →
      tickState u = u.modEnv fun e => { e with sched := r } := fun u r hu => tickState_empty hu
  unfold writeAndPoll
  simp only [hc, if_true, bind_run, publish_run]
  rw [regWrite_run rfl rfl, t s _ h]
  simp only [writable, written, if_true]
  rw [regWrite_run rfl rfl, t _ ([] :: [] :: rest) rfl]
  simp only [writable, written, if_true]
  rw [regWrite_run rfl rfl, t _ ([] :: rest) rfl]
  simp only [writable, written, if_true]
  rw [regWrite_run rfl rfl, t _ rest rfl, writable_word]
  rfl

/-- A command completed before its first poll (R242, R243). -/
theorem poll_answered {s : State} {n : EpNum} {w : Word} {rest : List (List EnvStep)}
    (h : s.env.sched = [.cmdDone n w] :: rest) (ha : cmdActive s.regs.depcmd[n] = true) :
    poll n s = .ok (resultOf n (readBack w)) (siCmdDone (s.modEnv fun e => { e with sched := rest }) n w) := by
  have hk : Config.cmdPollLimit = 999 + 1 := rfl
  unfold poll
  rw [hk, pollLoop, bind_run, regRead_run rfl, tickState_cons h]
  have hd : (siCmdDone (s.modEnv fun e => { e with sched := rest }) n w).regs.get (.depcmd n) = readBack w := by
    unfold siCmdDone
    rw [if_pos (by exact ha)]
    unfold siOnDone
    split_ifs <;> simp [State.setReg, Regs.set, Regs.get, readBack]
  simp only [List.foldl_cons, List.foldl_nil, envStep, hd, (readBack_fields w).1]
  rfl

/-- No timed-out command: a command is issued at once (R244). -/
theorem issue_unstuck {s : State} {n : EpNum} {e : Endpoint} (c : Cmd) (he : s.ep n = some e)
    (hs : e.cmdStuck = false) : issue n c s = writeAndPoll n c s := by
  simp [issue, precheckBusy, needEp_some he, hs]

/-- One attempt, answered at its first poll. -/
theorem issue_answered {s : State} {n : EpNum} {e : Endpoint} (c : Cmd) {w : Word} {rest : List (List EnvStep)}
    (hc : c.paramsLegal = true) (he : s.ep n = some e) (hs : e.cmdStuck = false)
    (h : s.env.sched = answers n w ++ rest) : issue n c s = .ok (resultOf n (readBack w)) (s.commanded n c w rest) := by
  rw [issue_unstuck c he hs, writeAndPoll_run (rest := [.cmdDone n w] :: rest) hc h,
    poll_answered (rest := rest) rfl (by rw [issued_depcmd]; exact cmdActive_word c)]
  rfl

/-- A command answered by success is not tried again (R246). -/
theorem issueRetry_answered {s : State} {n : EpNum} {e : Endpoint} (c : Cmd) {w : Word} {rest : List (List EnvStep)}
    (hc : c.paramsLegal = true) (he : s.ep n = some e) (hs : e.cmdStuck = false)
    (h : s.env.sched = answers n w ++ rest) (hw : cmdStatus w = 0) :
    issueRetry n c s = .ok (.ok (readBack w)) (s.commanded n c w rest) := by
  have hr : resultOf n (readBack w) = .ok (readBack w) := by simp [resultOf, (readBack_fields w).2.1, hw]
  have hk : Config.cmdAttempts - 1 = 1 + 1 := rfl
  unfold issueRetry
  rw [hk, attempts, bind_run, issue_answered c hc he hs h, hr]
  rfl

/-- A command leaves every endpoint record as it was. -/
@[simp] theorem commanded_ep (s : State) (n m : EpNum) (c : Cmd) (w : Word) (rest : List (List EnvStep)) :
    (s.commanded n c w rest).ep m = s.ep m := by
  simp [State.commanded, State.ep, State.issued]

/-- A command uses up its part of the schedule. -/
@[simp] theorem commanded_sched (s : State) (n : EpNum) (c : Cmd) (w : Word) (rest : List (List EnvStep)) :
    (s.commanded n c w rest).env.sched = rest := by
  simp [State.commanded, State.issued]

/-- A command leaves the memory. -/
@[simp] theorem commanded_mem (s : State) (n : EpNum) (c : Cmd) (w : Word) (rest : List (List EnvStep)) :
    (s.commanded n c w rest).mem = s.mem := by
  simp [State.commanded, State.issued]

/-- A command leaves the configuration. -/
@[simp] theorem commanded_cfg (s : State) (n : EpNum) (c : Cmd) (w : Word) (rest : List (List EnvStep)) :
    (s.commanded n c w rest).cfg = s.cfg := by
  simp [State.commanded, State.issued]

/-- A command leaves every request record. -/
@[simp] theorem commanded_req (s : State) (n : EpNum) (c : Cmd) (w : Word) (rest : List (List EnvStep)) (id : ReqId) :
    (s.commanded n c w rest).req id = s.req id := by
  simp [State.commanded, State.req, State.issued]

/-- A command leaves the rings where they are. -/
@[simp] theorem commanded_slotAddr (s : State) (n m : EpNum) (c : Cmd) (w : Word) (rest : List (List EnvStep))
    (i : Nat) : (s.commanded n c w rest).slotAddr m i = s.slotAddr m i := by
  simp [State.slotAddr]

/-- A timed-out command that is still active: the new one is refused before anything is written (R244). -/
theorem issue_busy {s : State} {n : EpNum} {e : Endpoint} (c : Cmd) (he : s.ep n = some e) (hs : e.cmdStuck = true)
    (ha : cmdActive (tickState s).regs.depcmd[n] = true) : issue n c s = .ok (.err (.busy (some n))) (tickState s) := by
  have hr : regRead (.depcmd n) s = .ok ((tickState s).regs.get (.depcmd n)) (tickState s) := regRead_run rfl s
  have ha' : cmdActive ((tickState s).regs.get (.depcmd n)) = true := ha
  simp [issue, precheckBusy, needEp_some he, hs, hr, ha']

/-- Polls that find the command active (R242). -/
theorem pollLoop_active {s : State} {n : EpNum} (h : s.env.sched = []) (ha : cmdActive s.regs.depcmd[n] = true)
    (k : Nat) : pollLoop n k s = .ok (.err (.cmdTimeout n)) (s.modEp n fun e => { e with cmdStuck := true }) := by
  have hr : regRead (.depcmd n) s = .ok (s.regs.get (.depcmd n)) s := by rw [regRead_run rfl, tickState_nil h]
  have ha' : cmdActive (s.regs.get (.depcmd n)) = true := ha
  induction k with
  | zero => rfl
  | succ k ih => simp [pollLoop, hr, ha', ih]

end Sys2Proof.Machine
end

