-- ==== Sys2Proof/Laws/Keeps.lean ====
section
/-!
SUPPORT. The induction over the operations, once: a relation between the state before and the state
after that is reflexive, transitive and holds for each primitive update holds for every operation and
every instruction. A frame or an invariant of all instructions is then one check per primitive.
-/

namespace Sys2Proof.Machine

/-- An operation keeps a relation: between its start and its end, however it ends; and it makes no
access that the rules do not make, so it never ends in a refusal (R54, R80). -/
def Keeps {α : Type} (R : State → State → Prop) (m : M α) : Prop :=
  ∀ s, match m s with
    | .ok _ t => R s t
    | .error x t => (∀ r, x ≠ .refused r) ∧ R s t

/-- A write to an endpoint record that keeps its number, and a wedge only on a stalled endpoint (R25,
R31). -/
def EpWrite (f : Endpoint → Endpoint) : Prop :=
  ∀ e, (f e).number = e.number ∧
    ((e.wedged = true → e.stalled = true) → (f e).wedged = true → (f e).stalled = true)

/-- A write to the device fields that keeps `running` (R57). -/
def DevWrite (f : Dev → Dev) : Prop := ∀ d, (f d).running = d.running

/-- A write to the environment's plan that leaves the turns and the schedule. -/
def EnvWrite (f : Env → Env) : Prop := ∀ e, (f e).agenda = e.agenda ∧ (f e).sched = e.sched

/-- A relation that every primitive update of an instruction keeps. -/
structure Stable (R : State → State → Prop) : Prop where
  refl : ∀ s, R s s
  trans : ∀ s t u, R s t → R t u → R s u
  tick : ∀ s, R s (tickState s)
  reg : ∀ s r v, R s (s.setReg r v)
  word : ∀ s a w, R s (s.setMem (Memory.writeWord s.mem a w))
  byte : ∀ s a b, R s (s.setMem (Memory.write s.mem a b))
  ep : ∀ s n f, EpWrite f → R s (s.modEp n f)
  epNone : ∀ s n, R s (s.setEp n none)
  epNew : ∀ s n type mps int, R s (s.setEp n (some (newEp n type mps int)))
  req : ∀ s id f, R s (s.modReq id f)
  addReq : ∀ s r, R s (s.addReq r)
  delReq : ∀ s id, R s (s.delReq id)
  note : ∀ s n, R s (s.note n)
  ep0 : ∀ s f, R s (s.modEp0 f)
  role : ∀ s, R s (triggered s)
  dev : ∀ s f, DevWrite f → R s (s.modDev f)
  env : ∀ s f, EnvWrite f → R s (s.modEnv f)
  ret : ∀ s r, R s (s.modRun fun u => { u with ret := r })
  fault : ∀ s f, R s (s.addFault f).stopHolder

variable {R : State → State → Prop}

/-! ## Combinators -/

theorem keeps_pure (h : Stable R) {α : Type} (a : α) : Keeps R (pure a : M α) := fun s => h.refl s

theorem keeps_throw (h : Stable R) {α : Type} (x : Exit) (hx : ∀ r, x ≠ .refused r) : Keeps R (throw x : M α) :=
  fun s => ⟨hx, h.refl s⟩

theorem keeps_raise (h : Stable R) {α : Type} (e : Err) : Keeps R (raise e : M α) :=
  fun s => ⟨fun _ => Exit.noConfusion, h.refl s⟩

theorem keeps_bind (h : Stable R) {α β : Type} {m : M α} {f : α → M β} (hm : Keeps R m)
    (hf : ∀ a, Keeps R (f a)) : Keeps R (m >>= f) := by
  intro s
  have h1 := hm s
  rw [bind_run]
  rcases hm : m s with ⟨a, t⟩ | ⟨x, t⟩ <;> rw [hm] at h1
  · have h2 := hf a t
    simp only at h1 ⊢
    rcases hf : f a t with ⟨b, u⟩ | ⟨x, u⟩ <;> rw [hf] at h2
    · exact h.trans _ _ _ h1 h2
    · exact ⟨h2.1, h.trans _ _ _ h1 h2.2⟩
  · exact h1

theorem keeps_get (h : Stable R) : Keeps R (get : M State) := fun s => h.refl s

theorem keeps_upd {f : State → State} (hf : ∀ s, R s (f s)) : Keeps R (upd f) := fun s => hf s

theorem keeps_ite {α : Type} {c : Prop} [Decidable c] {m m' : M α} (h1 : Keeps R m) (h2 : Keeps R m') :
    Keeps R (if c then m else m') := by
  split
  · exact h1
  · exact h2

/-- A raised error made a return value is an end like any other. -/
theorem keeps_catching {m : M (Option Ret)} (hm : Keeps R m) : Keeps R (catching m) := by
  intro s
  have h1 := hm s
  unfold catching
  rcases hs : m s with ⟨r, t⟩ | ⟨x, t⟩ <;> rw [hs] at h1
  · exact h1
  · cases x
    case raised e => exact h1.2
    all_goals exact h1

theorem keeps_forEach (h : Stable R) {α : Type} {f : α → M Unit} (hf : ∀ a, Keeps R (f a)) (l : List α) :
    Keeps R (forEach l f) := by
  induction l with
  | nil => exact keeps_pure h ()
  | cons a l ih => exact keeps_bind h (hf a) fun _ => ih

theorem keeps_toOutcome {m : M Unit} (hm : Keeps R m) {s t : State} (ht : toOutcome m s = .next t) : R s t := by
  have h := hm s
  rcases toOutcome_next_iff.1 ht with ht | ⟨e, ht⟩ | ht <;> rw [ht] at h
  · exact h
  · exact h.2
  · exact h.2

/-- An operation that keeps a relation is not refused. -/
theorem keeps_not_refused {m : M Unit} (hm : Keeps R m) (s : State) (r : Refusal) : toOutcome m s ≠ .refused r := by
  have h := hm s
  unfold toOutcome
  rcases hs : m s with ⟨a, t⟩ | ⟨x, t⟩ <;> rw [hs] at h
  · simp
  · cases x
    case refused q => exact absurd rfl (h.1 q)
    all_goals simp

/-! ## Primitives -/

theorem keeps_modelFault (h : Stable R) {α : Type} (f : ModelFault) : Keeps R (modelFault f : M α) :=
  fun s => ⟨fun _ => Exit.noConfusion, h.fault s f⟩

theorem keeps_tick (h : Stable R) : Keeps R tick := keeps_upd h.tick

theorem keeps_regRead (h : Stable R) (r : Reg) (ho : Reg.isOpaque r = false) : Keeps R (regRead r) := by
  unfold regRead
  refine keeps_bind h (keeps_tick h) fun _ => ?_
  rw [ho, if_neg Bool.false_ne_true]
  exact keeps_bind h (keeps_get h) fun _ => keeps_pure h _

theorem keeps_regWrite (h : Stable R) (r : Reg) (v : Word) (ho : Reg.isOpaque r = false)
    (hr : Reg.isReadOnly r = false) : Keeps R (regWrite r v) := by
  unfold regWrite
  refine keeps_bind h (keeps_tick h) fun _ => ?_
  rw [ho, hr, if_neg Bool.false_ne_true, if_neg Bool.false_ne_true]
  exact keeps_ite (keeps_upd fun s => h.reg s _ _) (keeps_modelFault h _)

theorem keeps_regRMW (h : Stable R) {n : Nat} (r : Reg) (lo : Nat) (v : BitVec n) (ho : Reg.isOpaque r = false)
    (hr : Reg.isReadOnly r = false) : Keeps R (regRMW r lo v) :=
  keeps_bind h (keeps_regRead h r ho) fun _ => keeps_regWrite h r _ ho hr

theorem keeps_access (h : Stable R) (a len : Nat) : Keeps R (access a len) :=
  keeps_bind h (keeps_tick h) fun _ =>
    keeps_bind h (keeps_get h) fun _ => keeps_ite (keeps_pure h _) (keeps_throw h _ fun _ => Exit.noConfusion)

theorem keeps_memRead32 (h : Stable R) (a : Nat) : Keeps R (memRead32 a) :=
  keeps_bind h (keeps_access h a 4) fun _ => keeps_bind h (keeps_get h) fun _ => keeps_pure h _

theorem keeps_memRead8 (h : Stable R) (a : Nat) : Keeps R (memRead8 a) :=
  keeps_bind h (keeps_access h a 1) fun _ => keeps_bind h (keeps_get h) fun _ => keeps_pure h _

theorem keeps_memWrite32 (h : Stable R) (a : Nat) (w : Word) : Keeps R (memWrite32 a w) :=
  keeps_bind h (keeps_access h a 4) fun _ => keeps_upd fun s => h.word s a w

theorem keeps_memWrite8 (h : Stable R) (a : Nat) (b : Byte) : Keeps R (memWrite8 a b) :=
  keeps_bind h (keeps_access h a 1) fun _ => keeps_upd fun s => h.byte s a b

theorem keeps_zeroWords (h : Stable R) (a k : Nat) : Keeps R (zeroWords a k) := by
  induction k generalizing a with
  | zero => exact keeps_pure h _
  | succ k ih => exact keeps_bind h (keeps_memWrite32 h a 0) fun _ => ih _

theorem keeps_publish (h : Stable R) : Keeps R publish := keeps_pure h ()

theorem keeps_notify (h : Stable R) (n : Note) : Keeps R (notify n) := keeps_upd fun s => h.note s n

theorem keeps_notifyCode (h : Stable R) (c : Code) (i : Info) : Keeps R (notifyCode c i) := keeps_notify h _

theorem keeps_notifyErr (h : Stable R) (n : EpNum) (e : Err) : Keeps R (notifyErr n e) := keeps_notify h _

theorem keeps_notifyErrEp (h : Stable R) (n : EpNum) (e : Err) : Keeps R (notifyErrEp n e) := keeps_notify h _

theorem keeps_getEp (h : Stable R) (n : EpNum) : Keeps R (getEp n) := fun s => h.refl s

theorem keeps_getReq (h : Stable R) (id : ReqId) : Keeps R (getReq id) := fun s => h.refl s

theorem keeps_getCfg (h : Stable R) : Keeps R getCfg := fun s => h.refl s

theorem keeps_getEp0 (h : Stable R) : Keeps R getEp0 := fun s => h.refl s

theorem keeps_needEp (h : Stable R) (n : EpNum) : Keeps R (needEp n) := by
  unfold needEp
  refine keeps_bind h (keeps_get h) fun s => ?_
  split
  · exact keeps_pure h _
  · exact keeps_modelFault h _

theorem keeps_modEp (h : Stable R) {n : EpNum} {f : Endpoint → Endpoint} (hf : EpWrite f) :
    Keeps R (modEp n f) := keeps_upd fun s => h.ep s n f hf

theorem keeps_modReq (h : Stable R) (id : ReqId) (f : Request → Request) : Keeps R (modReq id f) :=
  keeps_upd fun s => h.req s id f

theorem keeps_modEp0 (h : Stable R) (f : Ep0 → Ep0) : Keeps R (modEp0 f) := keeps_upd fun s => h.ep0 s f

theorem keeps_draw (h : Stable R) : Keeps R draw := by
  refine keeps_bind h (keeps_get h) fun s => keeps_bind h (keeps_upd fun s => h.env s _ ?_)
    fun _ => keeps_pure h _
  exact fun e => ⟨rfl, rfl⟩

theorem keeps_drawReply (h : Stable R) : Keeps R drawReply := by
  unfold drawReply
  refine keeps_bind h (keeps_get h) fun s => ?_
  split
  · exact keeps_bind h (keeps_upd fun s => h.env s _ fun e => ⟨rfl, rfl⟩) fun _ => keeps_pure h _
  · exact keeps_bind h (keeps_draw h) fun _ => keeps_pure h _

theorem keeps_rscOf (h : Stable R) (e : Endpoint) : Keeps R (rscOf e) := by
  unfold rscOf
  split
  · exact keeps_pure h _
  · exact keeps_bind h (keeps_draw h) fun _ => keeps_pure h _

theorem keeps_setRet (h : Stable R) (r : Option Ret) : Keeps R (setRet r) := keeps_upd fun s => h.ret s r

end Sys2Proof.Machine
end

