-- ==== Sys2Proof/Laws/KeepsOps.lean ====
section
/-!
SUPPORT. Every operation that an instruction's meaning is made of keeps a `Stable` relation.
-/

namespace Sys2Proof.Machine

variable {R : State → State → Prop}

/-! ## The command engine -/

theorem keeps_precheckBusy (h : Stable R) (n : EpNum) : Keeps R (precheckBusy n) := by
  unfold precheckBusy
  repeat' first
    | exact keeps_pure h _
    | exact keeps_regRead h _ rfl
    | exact keeps_needEp h _
    | exact keeps_modEp h fun e => ⟨rfl, fun w => w⟩
    | exact keeps_modEp h fun e => ⟨rfl, by simp⟩
    | refine keeps_bind h ?_ fun _ => ?_
    | split

theorem keeps_pollLoop (h : Stable R) (n : EpNum) (k : Nat) : Keeps R (pollLoop n k) := by
  induction k with
  | zero =>
    unfold pollLoop
    repeat' first
      | exact keeps_pure h _
      | exact keeps_regRead h _ rfl
      | exact keeps_modEp h fun e => ⟨rfl, fun w => w⟩
  | succ k ih =>
    unfold pollLoop
    repeat' first
      | exact keeps_pure h _
      | exact ih
      | exact keeps_regRead h _ rfl
      | exact keeps_modEp h fun e => ⟨rfl, fun w => w⟩
      | exact keeps_modEp h fun e => ⟨rfl, by simp⟩
      | refine keeps_bind h ?_ fun _ => ?_
      | split

theorem keeps_poll (h : Stable R) (n : EpNum) : Keeps R (poll n) := by
  unfold poll
  repeat' first
    | exact keeps_pure h _
    | exact keeps_pollLoop h _ _

theorem keeps_writeAndPoll (h : Stable R) (n : EpNum) (c : Cmd) : Keeps R (writeAndPoll n c) := by
  unfold writeAndPoll
  repeat' first
    | exact keeps_pure h _
    | exact keeps_regWrite h _ _ rfl rfl
    | exact keeps_modelFault h _
    | exact keeps_publish h
    | exact keeps_poll h _
    | refine keeps_bind h ?_ fun _ => ?_
    | split

theorem keeps_issue (h : Stable R) (n : EpNum) (c : Cmd) : Keeps R (issue n c) := by
  unfold issue
  repeat' first
    | exact keeps_pure h _
    | exact keeps_precheckBusy h _
    | exact keeps_writeAndPoll h _ _
    | refine keeps_bind h ?_ fun _ => ?_
    | split

theorem keeps_attempts (h : Stable R) (n : EpNum) (c : Cmd) (k : Nat) : Keeps R (attempts n c k) := by
  induction k with
  | zero =>
    unfold attempts
    repeat' first
      | exact keeps_pure h _
      | exact keeps_issue h _ _
  | succ k ih =>
    unfold attempts
    repeat' first
      | exact keeps_pure h _
      | exact ih
      | exact keeps_issue h _ _
      | refine keeps_bind h ?_ fun _ => ?_
      | split

theorem keeps_issueRetry (h : Stable R) (n : EpNum) (c : Cmd) : Keeps R (issueRetry n c) := by
  unfold issueRetry
  repeat' first
    | exact keeps_pure h _
    | exact keeps_attempts h _ _ _

theorem keeps_cmdSetepconfig (h : Stable R) (n : EpNum) (a : CfgAction) : Keeps R (cmdSetepconfig n a) := by
  unfold cmdSetepconfig
  repeat' first
    | exact keeps_pure h _
    | exact keeps_needEp h _
    | exact keeps_issueRetry h _ _
    | refine keeps_bind h ?_ fun _ => ?_

theorem keeps_cmdSetxferrsc (h : Stable R) (n : EpNum) : Keeps R (cmdSetxferrsc n) := by
  unfold cmdSetxferrsc
  repeat' first
    | exact keeps_pure h _
    | exact keeps_issueRetry h _ _

theorem keeps_cmdGetepstate (h : Stable R) (n : EpNum) : Keeps R (cmdGetepstate n) := by
  unfold cmdGetepstate
  repeat' first
    | exact keeps_pure h _
    | exact keeps_regRead h _ rfl
    | exact keeps_issueRetry h _ _
    | refine keeps_bind h ?_ fun _ => ?_
    | split

theorem keeps_cmdSetstall (h : Stable R) (n : EpNum) : Keeps R (cmdSetstall n) := by
  unfold cmdSetstall
  repeat' first
    | exact keeps_pure h _
    | exact keeps_issueRetry h _ _

theorem keeps_cmdClearstall (h : Stable R) (n : EpNum) : Keeps R (cmdClearstall n) := by
  unfold cmdClearstall
  repeat' first
    | exact keeps_pure h _
    | exact keeps_issueRetry h _ _

theorem keeps_cmdStarttransfer (h : Stable R) (n : EpNum) (i : Slot) (f : BitVec 16) : Keeps R (cmdStarttransfer n i f) := by
  unfold cmdStarttransfer
  repeat' first
    | exact keeps_pure h _
    | exact keeps_get h
    | exact keeps_issueRetry h _ _
    | exact keeps_modEp h fun e => ⟨rfl, fun w => w⟩
    | exact keeps_modEp h fun e => ⟨rfl, by simp⟩
    | refine keeps_bind h ?_ fun _ => ?_
    | split

theorem keeps_cmdUpdatetransfer (h : Stable R) (n : EpNum) (r : BitVec 7) : Keeps R (cmdUpdatetransfer n r) := by
  unfold cmdUpdatetransfer
  repeat' first
    | exact keeps_pure h _
    | exact keeps_issueRetry h _ _

theorem keeps_cmdEndtransfer (h : Stable R) (n : EpNum) (r : BitVec 7) (ioc : Bool) : Keeps R (cmdEndtransfer n r ioc) := by
  unfold cmdEndtransfer
  repeat' first
    | exact keeps_pure h _
    | exact keeps_issueRetry h _ _
    | exact keeps_modEp h fun e => ⟨rfl, fun w => w⟩
    | exact keeps_modEp h fun e => ⟨rfl, by simp⟩
    | refine keeps_bind h ?_ fun _ => ?_
    | split

theorem keeps_exclusiveBusy (h : Stable R) (l : List EpNum) : Keeps R (exclusiveBusy l) := by
  induction l with
  | nil =>
    unfold exclusiveBusy
    repeat' first
      | exact keeps_pure h _
  | cons a l ih =>
    unfold exclusiveBusy
    repeat' first
      | exact keeps_pure h _
      | exact ih
      | exact keeps_regRead h _ rfl
      | exact keeps_getEp h _
      | refine keeps_bind h ?_ fun _ => ?_
      | split

theorem keeps_cmdDepstartcfg (h : Stable R) (b : BitVec 16) : Keeps R (cmdDepstartcfg b) := by
  unfold cmdDepstartcfg
  repeat' first
    | exact keeps_pure h _
    | exact keeps_issueRetry h _ _
    | exact keeps_exclusiveBusy h _
    | refine keeps_bind h ?_ fun _ => ?_
    | split

theorem keeps_endTransferOf (h : Stable R) (n : EpNum) (ioc : Bool) : Keeps R (endTransferOf n ioc) := by
  unfold endTransferOf
  repeat' first
    | exact keeps_pure h _
    | exact keeps_needEp h _
    | exact keeps_rscOf h _
    | exact keeps_cmdEndtransfer h _ _ _
    | refine keeps_bind h ?_ fun _ => ?_

/-! ## The ring manager -/

theorem keeps_fillAt (h : Stable R) (a : Nat) (d : Desc) : Keeps R (fillAt a d) := by
  unfold fillAt
  repeat' first
    | exact keeps_pure h _
    | exact keeps_memWrite32 h _ _
    | exact keeps_modelFault h _
    | refine keeps_bind h ?_ fun _ => ?_
    | split

theorem keeps_handAt (h : Stable R) (a : Nat) (d : Desc) : Keeps R (handAt a d) :=
  keeps_bind h (keeps_publish h) fun _ => keeps_memWrite32 h _ _

theorem keeps_fillDesc (h : Stable R) (n : EpNum) (d : Desc) : Keeps R (fillDesc n d) := by
  unfold fillDesc
  repeat' first
    | exact keeps_pure h _
    | exact keeps_get h
    | exact keeps_needEp h _
    | exact keeps_memRead32 h _
    | exact keeps_modelFault h _
    | exact keeps_fillAt h _ _
    | refine keeps_bind h ?_ fun _ => ?_
    | split

theorem keeps_advEnq (h : Stable R) (n : EpNum) : Keeps R (advEnq n) := keeps_modEp h fun _ => ⟨rfl, fun w => w⟩

theorem keeps_writeDesc (h : Stable R) (n : EpNum) (d : Desc) : Keeps R (writeDesc n d) :=
  keeps_bind h (keeps_fillDesc h n d) fun _ => keeps_bind h (keeps_handAt h _ d) fun _ => keeps_advEnq h n

theorem keeps_reclaim (h : Stable R) (n : EpNum) (i : Slot) : Keeps R (reclaim n i) := by
  unfold reclaim
  repeat' first
    | exact keeps_pure h _
    | exact keeps_get h
    | exact keeps_memRead32 h _
    | exact keeps_memWrite32 h _ _
    | exact keeps_modelFault h _
    | refine keeps_bind h ?_ fun _ => ?_
    | split

theorem keeps_releaseRing (h : Stable R) (n : EpNum) : Keeps R (releaseRing n) := by
  unfold releaseRing
  repeat' first
    | exact keeps_pure h _
    | exact keeps_needEp h _
    | exact keeps_reclaim h _ _
    | exact keeps_modEp h fun e => ⟨rfl, fun w => w⟩
    | exact keeps_modEp h fun e => ⟨rfl, by simp⟩
    | refine keeps_forEach h (fun _ => ?_) _
    | refine keeps_bind h ?_ fun _ => ?_

theorem keeps_writeLink (h : Stable R) (n : EpNum) (d : Desc) : Keeps R (writeLink n d) :=
  keeps_bind h (keeps_get h) fun _ => keeps_bind h (keeps_fillAt h _ d) fun _ => keeps_handAt h _ d

theorem keeps_complete (h : Stable R) (r : Request) (oc : Outcome) : Keeps R (complete r oc) := by
  unfold complete
  repeat' first
    | exact keeps_pure h _
    | exact keeps_notify h _
    | exact keeps_modEp h fun e => ⟨rfl, fun w => w⟩
    | exact keeps_modEp h fun e => ⟨rfl, by simp⟩
    | exact keeps_upd fun s => h.delReq s _
    | refine keeps_bind h ?_ fun _ => ?_
    | split

theorem keeps_readSlots (h : Stable R) (n : EpNum) (l : List Slot) (p : Bool) : Keeps R (readSlots n l p) := by
  induction l generalizing p with
  | nil =>
    unfold readSlots
    repeat' first
      | exact keeps_pure h _
  | cons a l ih =>
    unfold readSlots
    repeat' first
      | exact keeps_pure h _
      | exact keeps_get h
      | exact ih _
      | exact keeps_memRead32 h _
      | refine keeps_bind h ?_ fun _ => ?_
      | split
      | dsimp only

theorem keeps_account (h : Stable R) (n : EpNum) (r : Request) : Keeps R (account n r) := by
  unfold account
  repeat' first
    | exact keeps_pure h _
    | exact keeps_readSlots h _ _ _
    | refine keeps_bind h ?_ fun _ => ?_

theorem keeps_writeDescs (h : Stable R) (n : EpNum) (e : Endpoint) (r : Request) (k i : Nat) : Keeps R (writeDescs n e r k i) := by
  induction k generalizing i with
  | zero =>
    unfold writeDescs
    repeat' first
      | exact keeps_pure h _
  | succ k ih =>
    unfold writeDescs
    repeat' first
      | exact keeps_pure h _
      | exact ih _
      | exact keeps_getCfg h
      | exact keeps_writeDesc h _ _
      | refine keeps_bind h ?_ fun _ => ?_

theorem keeps_writeChain (h : Stable R) (n : EpNum) (e : Endpoint) (r : Request) (k : Nat) :
    Keeps R (writeChain n e r k) := by
  cases k with
  | zero => exact keeps_pure h _
  | succ k =>
    exact keeps_bind h (keeps_getCfg h) fun _ => keeps_bind h (keeps_fillDesc h n _) fun _ =>
      keeps_bind h (keeps_advEnq h n) fun _ => keeps_bind h (keeps_writeDescs h n e r k 1) fun _ => keeps_handAt h _ _

theorem keeps_enqueue (h : Stable R) (n : EpNum) (e : Endpoint) (r : Request) : Keeps R (enqueue n e r) := by
  unfold enqueue
  repeat' first
    | exact keeps_pure h _
    | exact keeps_modReq h _ _
    | exact keeps_writeChain h _ _ _ _
    | exact keeps_modEp h fun e => ⟨rfl, fun w => w⟩
    | exact keeps_modEp h fun e => ⟨rfl, by simp⟩
    | refine keeps_bind h ?_ fun _ => ?_

theorem keeps_admitPending (h : Stable R) (n : EpNum) (l : List ReqId) (p : Bool) : Keeps R (admitPending n l p) := by
  induction l generalizing p with
  | nil =>
    unfold admitPending
    repeat' first
      | exact keeps_pure h _
  | cons a l ih =>
    unfold admitPending
    repeat' first
      | exact keeps_pure h _
      | exact ih _
      | exact keeps_getEp h _
      | exact keeps_getReq h _
      | exact keeps_enqueue h _ _ _
      | refine keeps_bind h ?_ fun _ => ?_
      | split

theorem keeps_rollback (h : Stable R) (n : EpNum) : Keeps R (rollback n) := by
  unfold rollback
  repeat' first
    | exact keeps_pure h _
    | exact keeps_needEp h _
    | exact keeps_modReq h _ _
    | exact keeps_releaseRing h _
    | exact keeps_modEp h fun e => ⟨rfl, fun w => w⟩
    | exact keeps_modEp h fun e => ⟨rfl, by simp⟩
    | refine keeps_forEach h (fun _ => ?_) _
    | refine keeps_bind h ?_ fun _ => ?_

theorem keeps_startOrUpdate (h : Stable R) (n : EpNum) (p : Bool) : Keeps R (startOrUpdate n p) := by
  unfold startOrUpdate
  repeat' first
    | exact keeps_pure h _
    | exact keeps_publish h
    | exact keeps_notifyErr h _ _
    | exact keeps_notifyErrEp h _ _
    | exact keeps_needEp h _
    | exact keeps_rscOf h _
    | exact keeps_cmdStarttransfer h _ _ _
    | exact keeps_cmdUpdatetransfer h _ _
    | exact keeps_rollback h _
    | refine keeps_bind h ?_ fun _ => ?_
    | split

theorem keeps_kick (h : Stable R) (n : EpNum) : Keeps R (kick n) := by
  unfold kick
  repeat' first
    | exact keeps_pure h _
    | exact keeps_getEp h _
    | exact keeps_admitPending h _ _ _
    | exact keeps_startOrUpdate h _ _
    | refine keeps_bind h ?_ fun _ => ?_
    | split

theorem keeps_retireLoop (h : Stable R) (n : EpNum) (l : List ReqId) (p : Bool) : Keeps R (retireLoop n l p) := by
  induction l generalizing p with
  | nil =>
    unfold retireLoop
    repeat' first
      | exact keeps_pure h _
  | cons a l ih =>
    unfold retireLoop
    repeat' first
      | exact keeps_pure h _
      | exact ih _
      | exact keeps_getReq h _
      | exact keeps_modReq h _ _
      | exact keeps_reclaim h _ _
      | exact keeps_account h _ _
      | exact keeps_modEp h fun e => ⟨rfl, fun w => w⟩
      | exact keeps_modEp h fun e => ⟨rfl, by simp⟩
      | refine keeps_forEach h (fun _ => ?_) _
      | refine keeps_bind h ?_ fun _ => ?_
      | split

theorem keeps_completeRetired (h : Stable R) (t : EpType) (s : BitVec 4) (l : List Retired) : Keeps R (completeRetired t s l) := by
  induction l with
  | nil =>
    unfold completeRetired
    repeat' first
      | exact keeps_pure h _
  | cons a l ih =>
    unfold completeRetired
    repeat' first
      | exact keeps_pure h _
      | exact ih
      | exact keeps_complete h _ _
      | refine keeps_bind h ?_ fun _ => ?_

theorem keeps_dequeueComplete (h : Stable R) (n : EpNum) (s : BitVec 4) : Keeps R (dequeueComplete n s) := by
  unfold dequeueComplete
  repeat' first
    | exact keeps_pure h _
    | exact keeps_needEp h _
    | exact keeps_retireLoop h _ _ _
    | exact keeps_completeRetired h _ _ _
    | refine keeps_bind h ?_ fun _ => ?_

theorem keeps_finishStarted (h : Stable R) (n : EpNum) (t : EpType) (oc : Outcome) (l : List ReqId) : Keeps R (finishStarted n t oc l) := by
  induction l with
  | nil =>
    unfold finishStarted
    repeat' first
      | exact keeps_pure h _
  | cons a l ih =>
    unfold finishStarted
    repeat' first
      | exact keeps_pure h _
      | exact ih
      | exact keeps_getReq h _
      | exact keeps_modReq h _ _
      | exact keeps_complete h _ _
      | exact keeps_account h _ _
      | refine keeps_bind h ?_ fun _ => ?_
      | split

theorem keeps_finishCancelled (h : Stable R) (n : EpNum) (l : List ReqId) : Keeps R (finishCancelled n l) := by
  induction l with
  | nil =>
    unfold finishCancelled
    repeat' first
      | exact keeps_pure h _
  | cons a l ih =>
    unfold finishCancelled
    repeat' first
      | exact keeps_pure h _
      | exact ih
      | exact keeps_getReq h _
      | exact keeps_complete h _ _
      | exact keeps_account h _ _
      | refine keeps_bind h ?_ fun _ => ?_
      | split

theorem keeps_removeEp (h : Stable R) (n : EpNum) : Keeps R (removeEp n) := by
  unfold removeEp
  repeat' first
    | exact keeps_pure h _
    | exact keeps_regRMW h _ _ _ rfl rfl
    | exact keeps_upd fun s => h.epNone s _
    | refine keeps_bind h ?_ fun _ => ?_

theorem keeps_finishEndTransfer (h : Stable R) (n : EpNum) (oc : Outcome) : Keeps R (finishEndTransfer n oc) := by
  unfold finishEndTransfer
  repeat' first
    | exact keeps_pure h _
    | exact keeps_needEp h _
    | exact keeps_modReq h _ _
    | exact keeps_releaseRing h _
    | exact keeps_kick h _
    | exact keeps_finishStarted h _ _ _ _
    | exact keeps_finishCancelled h _ _
    | exact keeps_removeEp h _
    | exact keeps_modEp h fun e => ⟨rfl, fun w => w⟩
    | exact keeps_modEp h fun e => ⟨rfl, by simp⟩
    | refine keeps_forEach h (fun _ => ?_) _
    | refine keeps_bind h ?_ fun _ => ?_
    | split

theorem keeps_moveToCancelled (h : Stable R) (n : EpNum) (l : List ReqId) (oc : Outcome) : Keeps R (moveToCancelled n l oc) := by
  unfold moveToCancelled
  repeat' first
    | exact keeps_pure h _
    | exact keeps_modReq h _ _
    | exact keeps_modEp h fun e => ⟨rfl, fun w => w⟩
    | exact keeps_modEp h fun e => ⟨rfl, by simp⟩
    | refine keeps_forEach h (fun _ => ?_) _
    | refine keeps_bind h ?_ fun _ => ?_

theorem keeps_flushEnd (h : Stable R) (n : EpNum) : Keeps R (flushEnd n) := by
  unfold flushEnd
  repeat' first
    | exact keeps_pure h _
    | exact keeps_notifyErr h _ _
    | exact keeps_needEp h _
    | exact keeps_endTransferOf h _ _
    | refine keeps_bind h ?_ fun _ => ?_
    | split

theorem keeps_flushEndpoint (h : Stable R) (n : EpNum) (oc : Outcome) : Keeps R (flushEndpoint n oc) := by
  unfold flushEndpoint
  repeat' first
    | exact keeps_pure h _
    | exact keeps_needEp h _
    | exact keeps_finishEndTransfer h _ _
    | exact keeps_moveToCancelled h _ _ _
    | exact keeps_flushEnd h _
    | refine keeps_bind h ?_ fun _ => ?_
    | split

/-! ## Control transfers -/

theorem keeps_ep0Put (h : Stable R) (n : EpNum) (e : Endpoint) (r : Request) (d : Desc) : Keeps R (ep0Put n e r d) := by
  unfold ep0Put
  repeat' first
    | exact keeps_writeDesc h _ _
    | exact keeps_modEp h fun e => ⟨rfl, fun w => w⟩
    | exact keeps_modEp h fun e => ⟨rfl, by simp⟩
    | exact keeps_upd fun s => h.addReq s _
    | refine keeps_bind h ?_ fun _ => ?_

theorem keeps_ep0Post (h : Stable R) (n : EpNum) (r : Request) (d : Desc) : Keeps R (ep0Post n r d) := by
  unfold ep0Post
  repeat' first
    | exact keeps_pure h _
    | exact keeps_publish h
    | exact keeps_needEp h _
    | exact keeps_cmdStarttransfer h _ _ _
    | exact keeps_ep0Put h _ _ _ _
    | exact keeps_releaseRing h _
    | exact keeps_modEp h fun e => ⟨rfl, fun w => w⟩
    | exact keeps_modEp h fun e => ⟨rfl, by simp⟩
    | exact keeps_upd fun s => h.delReq s _
    | refine keeps_bind h ?_ fun _ => ?_
    | split

theorem keeps_armSetup (h : Stable R) : Keeps R (armSetup) := by
  unfold armSetup
  repeat' first
    | exact keeps_pure h _
    | exact keeps_notifyErr h _ _
    | exact keeps_getCfg h
    | exact keeps_modEp0 h _
    | exact keeps_ep0Post h _ _ _
    | refine keeps_bind h ?_ fun _ => ?_
    | split

theorem keeps_ep0Release (h : Stable R) (oc : Outcome) (n : EpNum) : Keeps R (ep0Release oc n) := by
  unfold ep0Release
  repeat' first
    | exact keeps_pure h _
    | exact keeps_getReq h _
    | exact keeps_needEp h _
    | exact keeps_releaseRing h _
    | exact keeps_complete h _ _
    | exact keeps_modEp h fun e => ⟨rfl, fun w => w⟩
    | exact keeps_modEp h fun e => ⟨rfl, by simp⟩
    | refine keeps_forEach h (fun _ => ?_) _
    | refine keeps_bind h ?_ fun _ => ?_
    | split

theorem keeps_ep0StopRing (h : Stable R) (oc : Outcome) (n : EpNum) : Keeps R (ep0StopRing oc n) := by
  unfold ep0StopRing
  repeat' first
    | exact keeps_pure h _
    | exact keeps_notifyErr h _ _
    | exact keeps_needEp h _
    | exact keeps_endTransferOf h _ _
    | exact keeps_ep0Release h _ _
    | refine keeps_bind h ?_ fun _ => ?_
    | split

theorem keeps_ep0NoStage (h : Stable R) : Keeps R ep0NoStage := keeps_modEp0 h _

theorem keeps_ep0Stop (h : Stable R) (oc : Outcome) : Keeps R (ep0Stop oc) :=
  keeps_bind h (keeps_forEach h (fun _ => keeps_ep0StopRing h _ _) _) fun _ => keeps_ep0NoStage h

theorem keeps_ep0Restart (h : Stable R) : Keeps R (ep0Restart) := by
  unfold ep0Restart
  repeat' first
    | exact keeps_pure h _
    | exact keeps_armSetup h
    | exact keeps_ep0Stop h _
    | refine keeps_bind h ?_ fun _ => ?_

theorem keeps_ep0StallRestartWith (h : Stable R) (oc : Outcome) : Keeps R (ep0StallRestartWith oc) := by
  unfold ep0StallRestartWith
  repeat' first
    | exact keeps_pure h _
    | exact keeps_notifyErr h _ _
    | exact keeps_cmdSetstall h _
    | exact keeps_armSetup h
    | exact keeps_ep0Stop h _
    | refine keeps_bind h ?_ fun _ => ?_
    | split

theorem keeps_ep0StallRestart (h : Stable R) : Keeps R (ep0StallRestart) := by
  unfold ep0StallRestart
  repeat' first
    | exact keeps_pure h _
    | exact keeps_ep0StallRestartWith h _

theorem keeps_issueStatus (h : Stable R) : Keeps R (issueStatus) := by
  unfold issueStatus
  repeat' first
    | exact keeps_pure h _
    | exact keeps_notifyErr h _ _
    | exact keeps_getCfg h
    | exact keeps_getEp0 h
    | exact keeps_modEp0 h _
    | exact keeps_ep0Post h _ _ _
    | exact keeps_ep0StallRestart h
    | refine keeps_bind h ?_ fun _ => ?_
    | split

theorem keeps_setupReply (h : Stable R) (p : SetupReply) : Keeps R (setupReply p) := by
  unfold setupReply
  repeat' first
    | exact keeps_pure h _
    | exact keeps_getEp0 h
    | exact keeps_modEp0 h _
    | exact keeps_ep0StallRestart h
    | exact keeps_issueStatus h
    | refine keeps_bind h ?_ fun _ => ?_
    | split

theorem keeps_readSetup (h : Stable R) : Keeps R (readSetup) := by
  unfold readSetup
  repeat' first
    | exact keeps_pure h _
    | exact keeps_memRead8 h _
    | exact keeps_getCfg h
    | refine keeps_bind h ?_ fun _ => ?_

theorem keeps_onSetup (h : Stable R) : Keeps R (onSetup) := by
  unfold onSetup
  repeat' first
    | exact keeps_pure h _
    | exact keeps_notify h _
    | exact keeps_modEp0 h _
    | exact keeps_drawReply h
    | exact keeps_setupReply h _
    | exact keeps_readSetup h
    | refine keeps_bind h ?_ fun _ => ?_

theorem keeps_copyBack (h : Stable R) (a b : Nat) (k i : Nat) : Keeps R (copyBack a b k i) := by
  induction k generalizing i with
  | zero =>
    unfold copyBack
    repeat' first
      | exact keeps_pure h _
  | succ k ih =>
    unfold copyBack
    repeat' first
      | exact keeps_pure h _
      | exact ih _
      | exact keeps_memRead8 h _
      | exact keeps_memWrite8 h _ _
      | refine keeps_bind h ?_ fun _ => ?_

theorem keeps_ep0DataDone (h : Stable R) (r : Request) (k : Nat) (s : BitVec 4) : Keeps R (ep0DataDone r k s) := by
  unfold ep0DataDone
  repeat' first
    | exact keeps_pure h _
    | exact keeps_getCfg h
    | exact keeps_getEp0 h
    | exact keeps_modReq h _ _
    | exact keeps_modEp0 h _
    | exact keeps_complete h _ _
    | exact keeps_ep0StallRestart h
    | exact keeps_issueStatus h
    | exact keeps_copyBack h _ _ _ _
    | refine keeps_bind h ?_ fun _ => ?_
    | split

theorem keeps_onStatusDone (h : Stable R) : Keeps R (onStatusDone) := by
  unfold onStatusDone
  repeat' first
    | exact keeps_pure h _
    | exact keeps_armSetup h

theorem keeps_stageDone (h : Stable R) (r : Request) (k : Nat) (s : BitVec 4) : Keeps R (stageDone r k s) := by
  unfold stageDone
  repeat' first
    | exact keeps_pure h _
    | exact keeps_complete h _ _
    | exact keeps_ep0StallRestart h
    | exact keeps_onSetup h
    | exact keeps_ep0DataDone h _ _ _
    | exact keeps_onStatusDone h
    | refine keeps_bind h ?_ fun _ => ?_
    | split

theorem keeps_ep0XferComplete (h : Stable R) (n : EpNum) (s : BitVec 4) : Keeps R (ep0XferComplete n s) := by
  unfold ep0XferComplete
  repeat' first
    | exact keeps_pure h _
    | exact keeps_get h
    | exact keeps_memRead32 h _
    | exact keeps_getReq h _
    | exact keeps_needEp h _
    | exact keeps_stageDone h _ _ _
    | exact keeps_modEp h fun e => ⟨rfl, fun w => w⟩
    | exact keeps_modEp h fun e => ⟨rfl, by simp⟩
    | refine keeps_bind h ?_ fun _ => ?_
    | split

/-! ## Event handlers and calls -/

theorem keeps_powerNotify (h : Stable R) (a b : Option LinkState) : Keeps R (powerNotify a b) := by
  unfold powerNotify
  repeat' first
    | exact keeps_pure h _
    | exact keeps_notify h _
    | refine keeps_bind h ?_ fun _ => ?_
    | split

theorem keeps_draTrigger (h : Stable R) : Keeps R (draTrigger) := by
  unfold draTrigger
  repeat' first
    | exact keeps_pure h _
    | exact keeps_upd fun s => h.role s

theorem keeps_onXferComplete (h : Stable R) (n : EpNum) (s : BitVec 4) : Keeps R (onXferComplete n s) := by
  unfold onXferComplete
  repeat' first
    | exact keeps_pure h _
    | exact keeps_needEp h _
    | exact keeps_dequeueComplete h _ _
    | exact keeps_finishEndTransfer h _ _
    | refine keeps_bind h ?_ fun _ => ?_
    | split

theorem keeps_onXferInprogress (h : Stable R) (n : EpNum) (s : BitVec 4) : Keeps R (onXferInprogress n s) := by
  unfold onXferInprogress
  repeat' first
    | exact keeps_pure h _
    | exact keeps_needEp h _
    | exact keeps_kick h _
    | exact keeps_dequeueComplete h _ _
    | refine keeps_bind h ?_ fun _ => ?_
    | split

theorem keeps_onXferNotready (h : Stable R) (n : EpNum) (p : BitVec 16) : Keeps R (onXferNotready n p) := by
  unfold onXferNotready
  repeat' first
    | exact keeps_pure h _
    | exact keeps_needEp h _
    | exact keeps_kick h _
    | exact keeps_modEp h fun e => ⟨rfl, fun w => w⟩
    | exact keeps_modEp h fun e => ⟨rfl, by simp⟩
    | refine keeps_bind h ?_ fun _ => ?_
    | split

theorem keeps_onEpCmdComplete (h : Stable R) (n : EpNum) (s : BitVec 4) (p : BitVec 16) : Keeps R (onEpCmdComplete n s p) := by
  unfold onEpCmdComplete
  repeat' first
    | exact keeps_pure h _
    | exact keeps_notifyCode h _ _
    | exact keeps_needEp h _
    | exact keeps_finishEndTransfer h _ _
    | refine keeps_bind h ?_ fun _ => ?_
    | split

theorem keeps_resetEp (h : Stable R) (n : EpNum) : Keeps R (resetEp n) := by
  unfold resetEp
  repeat' first
    | exact keeps_pure h _
    | exact keeps_notifyErrEp h _ _
    | exact keeps_getEp h _
    | exact keeps_needEp h _
    | exact keeps_cmdClearstall h _
    | exact keeps_flushEndpoint h _ _
    | exact keeps_modEp h fun e => ⟨rfl, fun w => w⟩
    | exact keeps_modEp h fun e => ⟨rfl, by simp⟩
    | refine keeps_bind h ?_ fun _ => ?_
    | split

theorem keeps_onReset (h : Stable R) : Keeps R (onReset) := by
  unfold onReset
  repeat' first
    | exact keeps_pure h _
    | exact keeps_regRMW h _ _ _ rfl rfl
    | exact keeps_notify h _
    | exact keeps_getEp0 h
    | exact keeps_ep0Restart h
    | exact keeps_resetEp h _
    | exact keeps_upd fun s => h.dev s _ fun d => rfl
    | refine keeps_forEach h (fun _ => ?_) _
    | refine keeps_bind h ?_ fun _ => ?_
    | split

theorem keeps_onDisconnect (h : Stable R) : Keeps R (onDisconnect) := by
  unfold onDisconnect
  repeat' first
    | exact keeps_pure h _
    | exact keeps_notify h _
    | exact keeps_draTrigger h
    | exact keeps_upd fun s => h.dev s _ fun d => rfl
    | refine keeps_bind h ?_ fun _ => ?_

theorem keeps_reconfigureEp0 (h : Stable R) (m : BitVec 16) (n : EpNum) : Keeps R (reconfigureEp0 m n) := by
  unfold reconfigureEp0
  repeat' first
    | exact keeps_pure h _
    | exact keeps_notifyErrEp h _ _
    | exact keeps_needEp h _
    | exact keeps_cmdSetepconfig h _ _
    | exact keeps_modEp h fun e => ⟨rfl, fun w => w⟩
    | exact keeps_modEp h fun e => ⟨rfl, by simp⟩
    | refine keeps_bind h ?_ fun _ => ?_
    | split

theorem keeps_onConnectDone (h : Stable R) : Keeps R (onConnectDone) := by
  unfold onConnectDone
  repeat' first
    | exact keeps_pure h _
    | exact keeps_regRead h _ rfl
    | exact keeps_notify h _
    | exact keeps_notifyCode h _ _
    | exact keeps_modEp0 h _
    | exact keeps_draTrigger h
    | exact keeps_reconfigureEp0 h _ _
    | exact keeps_upd fun s => h.dev s _ fun d => rfl
    | refine keeps_forEach h (fun _ => ?_) _
    | refine keeps_bind h ?_ fun _ => ?_
    | split
    | dsimp only

theorem keeps_unknownEvent (h : Stable R) (w : Word) : Keeps R (unknownEvent w) := by
  unfold unknownEvent
  repeat' first
    | exact keeps_pure h _
    | exact keeps_notifyCode h _ _
    | exact keeps_getEp h _
    | refine keeps_bind h ?_ fun _ => ?_
    | split

theorem keeps_markStalled (h : Stable R) (n : EpNum) : Keeps R (markStalled n) := by
  unfold markStalled
  repeat' first
    | exact keeps_pure h _
    | exact keeps_modEp h fun e => ⟨rfl, fun w => w⟩
    | exact keeps_modEp h fun e => ⟨rfl, by simp⟩
    | refine keeps_bind h ?_ fun _ => ?_
    | split

theorem keeps_markCleared (h : Stable R) (n : EpNum) : Keeps R (markCleared n) := by
  unfold markCleared
  repeat' first
    | exact keeps_pure h _
    | exact keeps_modEp h fun e => ⟨rfl, fun w => w⟩
    | exact keeps_modEp h fun e => ⟨rfl, by simp⟩

theorem keeps_markStartCfg (h : Stable R) (b : BitVec 16) : Keeps R (markStartCfg b) := by
  unfold markStartCfg
  repeat' first
    | exact keeps_pure h _
    | exact keeps_upd fun s => h.dev s _ fun d => rfl
    | refine keeps_bind h ?_ fun _ => ?_
    | split

theorem keeps_ep0Ended (h : Stable R) (n : EpNum) : Keeps R (ep0Ended n) :=
  keeps_bind h (keeps_needEp h n) fun _ => keeps_bind h (keeps_modEp h fun _ => ⟨rfl, fun w => w⟩) fun _ =>
    keeps_bind h (keeps_ep0Release h _ _) fun _ => keeps_modEp0 h _

theorem keeps_finishEnded (h : Stable R) (n : EpNum) : Keeps R (finishEnded n) :=
  keeps_ite (keeps_ep0Ended h n) (keeps_finishEndTransfer h _ _)

theorem keeps_whenLegal (h : Stable R) (n : EpNum) (ok : Endpoint → Bool) {m : M CmdResult} (hm : Keeps R m) :
    Keeps R (whenLegal n ok m) :=
  keeps_bind h (keeps_needEp h n) fun _ => keeps_ite hm (keeps_pure h _)

theorem keeps_postFirst (h : Stable R) (n : EpNum) (e : Endpoint) (t : TrbTyp) (f : TrbFields) : Keeps R (postFirst n e t f) := by
  unfold postFirst
  repeat' first
    | exact keeps_pure h _
    | exact keeps_writeDesc h _ _
    | exact keeps_upd fun s => h.addReq s _
    | exact keeps_modEp h fun e => ⟨rfl, fun w => w⟩
    | exact keeps_modEp h fun e => ⟨rfl, by simp⟩
    | refine keeps_bind h ?_ fun _ => ?_

theorem keeps_postNext (h : Stable R) (n : EpNum) (r : Request) (t : TrbTyp) (f : TrbFields) : Keeps R (postNext n r t f) := by
  unfold postNext
  repeat' first
    | exact keeps_pure h _
    | exact keeps_writeDesc h _ _
    | exact keeps_modReq h _ _
    | refine keeps_bind h ?_ fun _ => ?_

theorem keeps_postRing (h : Stable R) (n : EpNum) (e : Endpoint) (t : TrbTyp) (f : TrbFields) :
    Keeps R (postRing n e t f) := by
  unfold postRing
  repeat' first
    | exact keeps_getReq h _
    | exact keeps_raise h _
    | exact keeps_postFirst h _ _ _ _
    | exact keeps_postNext h _ _ _ _
    | refine keeps_bind h ?_ fun _ => ?_
    | split

theorem keeps_postStage (h : Stable R) (n : EpNum) (e : Endpoint) (t : TrbTyp) (f : TrbFields) :
    Keeps R (postStage n e t f) := by
  unfold postStage
  refine keeps_bind h (keeps_get h) fun s => keeps_ite (keeps_raise h _) (keeps_ite (keeps_raise h _) ?_)
  exact keeps_bind h (keeps_ep0Put h _ _ _ _) fun _ => keeps_modEp0 h _

theorem keeps_postDesc (h : Stable R) (n : EpNum) (t : TrbTyp) (f : TrbFields) : Keeps R (postDesc n t f) := by
  unfold postDesc
  repeat' first
    | exact keeps_needEp h _
    | exact keeps_raise h _
    | exact keeps_postStage h _ _ _ _
    | exact keeps_postRing h _ _ _ _
    | refine keeps_bind h ?_ fun _ => ?_
    | split

theorem keeps_postLink (h : Stable R) (n : EpNum) (d : Desc) : Keeps R (postLink n d) := by
  unfold postLink
  repeat' first
    | exact keeps_pure h _
    | exact keeps_getCfg h
    | exact keeps_get h
    | exact keeps_getEp h _
    | exact keeps_memRead32 h _
    | exact keeps_raise h _
    | exact keeps_modelFault h _
    | exact keeps_writeLink h _ _
    | refine keeps_bind h ?_ fun _ => ?_
    | split

theorem keeps_descriptorCall (h : Stable R) {m : M Unit} (hm : Keeps R m) : Keeps R (descriptorCall m) :=
  keeps_bind h (keeps_catching (keeps_bind h hm fun _ => keeps_pure h _)) fun _ => keeps_setRet h _

end Sys2Proof.Machine
end

