-- ==== Sys2Proof/Laws/KeepsExec.lean ====
section
/-!
SUPPORT. A `Stable` relation holds between the state an instruction starts in and the next state it
answers: the one induction over all instructions. `LINK_CHANGE` alone also writes `C.link`.
-/

namespace Sys2Proof.Machine

variable {R : State → State → Prop}

theorem keeps_linkChange (h : Stable R) (hl : ∀ s f, R s (s.modLink f)) (v : BitVec 9) :
    Keeps R (linkChange v) := by
  unfold linkChange
  split
  · exact keeps_notifyCode h _ _
  · exact keeps_bind h (keeps_get h) fun _ => keeps_bind h (keeps_upd fun s => hl s _) fun _ =>
      keeps_powerNotify h _ _

theorem keeps_ep0Event (h : Stable R) (t : EpEvt) (e : BitVec 5) (st : BitVec 4) (p : BitVec 16) {m : M Unit}
    (hm : Keeps R m) : Keeps R (ep0Event t e st p m) := by
  unfold ep0Event
  refine keeps_bind h (keeps_getEp h _) fun o => ?_
  split
  · exact keeps_notifyCode h _ _
  · exact hm

theorem keeps_epEvent (h : Stable R) (t : EpEvt) (f : EpFields) (a : Endpoint → Bool) {m0 m : M Unit}
    (h0 : Keeps R m0) (hm : Keeps R m) : Keeps R (epEvent t f a m0 m) := by
  refine keeps_ite (keeps_ep0Event h _ _ _ _ h0) ?_
  unfold ringEvent
  refine keeps_bind h (keeps_getEp h _) fun o => ?_
  split
  · exact keeps_notifyCode h _ _
  · exact keeps_ite hm (keeps_pure h _)

theorem keeps_commandCall (h : Stable R) {m : M CmdResult} (hm : Keeps R m) : Keeps R (commandCall m) :=
  keeps_bind h hm fun _ => keeps_setRet h _

theorem keeps_onOk (h : Stable R) {m : M CmdResult} {f : M Unit} (hm : Keeps R m) (hf : Keeps R f) :
    Keeps R (onOk m f) := by
  refine keeps_bind h hm fun r => ?_
  cases r
  · exact keeps_bind h hf fun _ => keeps_pure h _
  · exact keeps_pure h _

/-- Every instruction but `LINK_CHANGE` is an operation that keeps a stable relation. -/
theorem exec_op_of_ne_linkChange (h : Stable R) {i : Instr} (hi : ∀ f, i ≠ .evtDevLinkChange f) :
    ∃ m : M Unit, Keeps R m ∧ ∀ s, exec i s = toOutcome m s := by
  cases i
  case evtDevLinkChange f => exact absurd rfl (hi f)
  case evtEpXfercomplete f =>
    exact ⟨_, (keeps_epEvent h _ _ _ (keeps_ep0XferComplete h _ _) (keeps_onXferComplete h _ _)), fun _ => rfl⟩
  case evtEpXferinprogress f =>
    exact ⟨_, (keeps_epEvent h _ _ _ (keeps_pure h _) (keeps_onXferInprogress h _ _)), fun _ => rfl⟩
  case evtEpXfernotready f =>
    exact ⟨_, (keeps_epEvent h _ _ _ (keeps_pure h _) (keeps_onXferNotready h _ _)), fun _ => rfl⟩
  case evtEpEpcmdcmplt f =>
    exact ⟨_, (keeps_epEvent h _ _ _ (keeps_pure h _) (keeps_onEpCmdComplete h _ _ _)), fun _ => rfl⟩
  case evtEpRxtxfifo f => exact ⟨_, (keeps_epEvent h _ _ _ (keeps_pure h _) (keeps_pure h _)), fun _ => rfl⟩
  case evtEpStream f => exact ⟨_, (keeps_epEvent h _ _ _ (keeps_pure h _) (keeps_pure h _)), fun _ => rfl⟩
  case evtEpXfercompleteEp0 f =>
    exact ⟨_, (keeps_ep0Event h _ _ _ _ (keeps_ep0XferComplete h _ _)), fun _ => rfl⟩
  case evtEpXfercompleteEp1 f =>
    exact ⟨_, (keeps_ep0Event h _ _ _ _ (keeps_ep0XferComplete h _ _)), fun _ => rfl⟩
  case evtEpXfernotreadyEp0 f => exact ⟨_, (keeps_ep0Event h _ _ _ _ (keeps_pure h _)), fun _ => rfl⟩
  case evtEpXfernotreadyEp1 f => exact ⟨_, (keeps_ep0Event h _ _ _ _ (keeps_pure h _)), fun _ => rfl⟩
  case evtDevDisconnect f => exact ⟨_, (keeps_onDisconnect h), fun _ => rfl⟩
  case evtDevReset f => exact ⟨_, (keeps_onReset h), fun _ => rfl⟩
  case evtDevConnectDone f => exact ⟨_, (keeps_onConnectDone h), fun _ => rfl⟩
  case evtDevWakeup f => exact ⟨_, (keeps_notify h _), fun _ => rfl⟩
  case evtDevSof f => exact ⟨_, (keeps_pure h ()), fun _ => rfl⟩
  case evtDevErraticError f => exact ⟨_, (keeps_notifyCode h _ _), fun _ => rfl⟩
  case evtDevCmdCmpl f => exact ⟨_, (keeps_pure h ()), fun _ => rfl⟩
  case evtDevOverflow f => exact ⟨_, (keeps_notifyCode h _ _), fun _ => rfl⟩
  case evtAuxa f => exact ⟨_, (keeps_notifyCode h _ _), fun _ => rfl⟩
  case evtAuxb f => exact ⟨_, (keeps_notifyCode h _ _), fun _ => rfl⟩
  case depcmdSetepconfig e a => exact ⟨_, (keeps_commandCall h (keeps_cmdSetepconfig h _ _)), fun _ => rfl⟩
  case depcmdSetxferrsc e => exact ⟨_, (keeps_commandCall h (keeps_cmdSetxferrsc h _)), fun _ => rfl⟩
  case depcmdGetepstate e => exact ⟨_, (keeps_commandCall h (keeps_cmdGetepstate h _)), fun _ => rfl⟩
  case depcmdSetstall e =>
    exact ⟨_, (keeps_commandCall h (keeps_onOk h (keeps_cmdSetstall h _) (keeps_markStalled h _))), fun _ => rfl⟩
  case depcmdClearstall e =>
    exact ⟨_, (keeps_commandCall h (keeps_onOk h (keeps_cmdClearstall h _) (keeps_markCleared h _))), fun _ => rfl⟩
  case depcmdStarttransfer e i f =>
    exact ⟨_, (keeps_commandCall h (keeps_cmdStarttransfer h _ _ _)), fun _ => rfl⟩
  case depcmdUpdatetransfer e r =>
    exact ⟨_, (keeps_commandCall h (keeps_whenLegal h _ _ (keeps_cmdUpdatetransfer h _ _))), fun _ => rfl⟩
  case depcmdDepstartcfg b =>
    exact ⟨_, (keeps_commandCall h (keeps_onOk h (keeps_cmdDepstartcfg h _) (keeps_markStartCfg h _))), fun _ => rfl⟩
  case depcmdEndtransferIocForcerm e r =>
    exact ⟨_, (keeps_commandCall h (keeps_whenLegal h _ _ (keeps_cmdEndtransfer h _ _ _))), fun _ => rfl⟩
  case depcmdEndtransferForcerm e r =>
    exact ⟨_, (keeps_commandCall h (keeps_whenLegal h _ _ (keeps_onOk h (keeps_cmdEndtransfer h _ _ _)
      (keeps_finishEnded h _)))), fun _ => rfl⟩
  case trbNormal f => exact ⟨_, (keeps_descriptorCall h (keeps_postDesc h _ _ _)), fun _ => rfl⟩
  case trbControlSetup f => exact ⟨_, (keeps_descriptorCall h (keeps_postDesc h _ _ _)), fun _ => rfl⟩
  case trbControlStatus2 f => exact ⟨_, (keeps_descriptorCall h (keeps_postDesc h _ _ _)), fun _ => rfl⟩
  case trbControlStatus3 f => exact ⟨_, (keeps_descriptorCall h (keeps_postDesc h _ _ _)), fun _ => rfl⟩
  case trbControlData f => exact ⟨_, (keeps_descriptorCall h (keeps_postDesc h _ _ _)), fun _ => rfl⟩
  case trbIsocFirst f => exact ⟨_, (keeps_descriptorCall h (keeps_postDesc h _ _ _)), fun _ => rfl⟩
  case trbIsoc f => exact ⟨_, (keeps_descriptorCall h (keeps_postDesc h _ _ _)), fun _ => rfl⟩
  case trbLink f => exact ⟨_, (keeps_descriptorCall h (keeps_postLink h _ _)), fun _ => rfl⟩

/-- Every instruction but `LINK_CHANGE` keeps a stable relation. -/
theorem exec_keeps_of_ne_linkChange (h : Stable R) {i : Instr} (hi : ∀ f, i ≠ .evtDevLinkChange f) {s t : State}
    (ht : exec i s = .next t) : R s t := by
  obtain ⟨m, hm, he⟩ := exec_op_of_ne_linkChange h hi
  exact keeps_toOutcome hm (he s ▸ ht)

/-- Every instruction is an operation that keeps a stable relation that also allows any change of
`C.link`. -/
theorem exec_op (h : Stable R) (hl : ∀ s f, R s (s.modLink f)) (i : Instr) :
    ∃ m : M Unit, Keeps R m ∧ ∀ s, exec i s = toOutcome m s := by
  by_cases hi : ∃ f, i = .evtDevLinkChange f
  · obtain ⟨f, rfl⟩ := hi
    exact ⟨_, keeps_linkChange h hl f.info, fun _ => rfl⟩
  · exact exec_op_of_ne_linkChange h fun f hf => hi ⟨f, hf⟩

/-- Every instruction keeps a stable relation that also allows any change of `C.link`. -/
theorem exec_keeps (h : Stable R) (hl : ∀ s f, R s (s.modLink f)) (i : Instr) {s t : State}
    (ht : exec i s = .next t) : R s t := by
  obtain ⟨m, hm, he⟩ := exec_op h hl i
  exact keeps_toOutcome hm (he s ▸ ht)

end Sys2Proof.Machine
end

