-- ==== Sys2Proof/Laws/KeepsStep.lean ====
section
/-!
SUPPORT. A relation that every primitive update of a step keeps holds between a state and the next:
the one induction over all the turns of the machine. An invariant of every step is then one check per
primitive update.
-/

namespace Sys2Proof.Machine

/-- A write of the run control that leaves where the role switch stands (R395). -/
def RunWrite (f : Run → Run) : Prop := ∀ u, (f u).rt = u.rt

/-- A relation that every primitive update of a turn keeps, but for the role switch's turns and the
removal: those of an instruction, and those of the drain, the signals and the upstream operations. A
write of the event buffer's record keeps `evbufOk`. -/
structure StableTurn (R : State → State → Prop) : Prop extends Stable R where
  link : ∀ s f, R s (s.modLink f)
  signals : ∀ s a b, R s (s.modRole fun r => { r with sigId := a, sigVbus := b })
  run : ∀ s f, RunWrite f → R s (s.modRun f)
  lock : ∀ s l, R s (s.setLock l)
  envAny : ∀ s f, R s (s.modEnv f)
  queue : ∀ s l, R s { s with upQueue := l }
  wedge : ∀ s n, (∀ e, s.ep n = some e → e.stalled = true) → R s (s.modEp n fun e => { e with wedged := true })
  envStep : ∀ s e, R s (Machine.envStep s e)
  wpos : ∀ s v, R s (s.modSi fun u => { u with wpos := v })
  evbuf : ∀ s f, (∀ b, evbufOk b = true → evbufOk (f b) = true) → R s (s.modEvbuf f)

/-- A relation that every primitive update of a step keeps: those of the role switch and the removal
besides. -/
structure StableStep (R : State → State → Prop) : Prop extends StableTurn R where
  devAny : ∀ s f, R s (s.modDev f)
  roleAny : ∀ s f, R s (s.modRole f)
  siAny : ∀ s f, R s (s.modSi f)
  runAny : ∀ s f, R s (s.modRun f)

variable {R : State → State → Prop}

/-- What a consumed word leaves is legal. -/
theorem evbufOk_next {b : Evbuf} (h : evbufOk b = true) : evbufOk
    { b with lpos := BitVec.ofNat 16 ((b.lpos.toNat + 4) % Config.evbufLen), count := b.count - 4 } = true := by
  have := b.count.isLt
  have h4 : (4 : BitVec 16).toNat = 4 := rfl
  simp only [evbufOk, lposValid, Config.evbufLen, Bool.and_eq_true, decide_eq_true_eq, beq_iff_eq, BitVec.toNat_ofNat,
    BitVec.toNat_sub] at h ⊢
  omega

/-- What an overflow leaves is legal. -/
theorem evbufOk_overflow (b : Evbuf) (w : BitVec 10) :
    evbufOk { b with lpos := (w.setWidth 16) <<< 2, count := 0 } = true := by
  have := w.isLt
  have h0 : (0 : BitVec 16).toNat = 0 := rfl
  simp only [evbufOk, lposValid, Config.evbufLen, Bool.and_eq_true, decide_eq_true_eq, beq_iff_eq,
    BitVec.toNat_shiftLeft, BitVec.toNat_setWidth, Nat.shiftLeft_eq]
  omega

/-- The count that a drain starts with is legal. -/
theorem evbufOk_count {b : Evbuf} (h : evbufOk b = true) (c : BitVec 16) :
    evbufOk { b with count := c &&& 0xFFFC#16 } = true := by
  have hc : (c &&& 0xFFFC#16).toNat % 4 = 0 := by
    rw [BitVec.toNat_and, ← Nat.and_two_pow_sub_one_eq_mod _ 2, Nat.and_assoc]
    simp
  simp only [evbufOk, Bool.and_eq_true, beq_iff_eq] at h ⊢
  exact ⟨h.1, hc⟩

theorem keeps_orRaise (h : StableTurn R) {m : M CmdResult} (hm : Keeps R m) : Keeps R (orRaise m) := by
  refine keeps_bind h.toStable hm fun r => ?_
  cases r
  · exact keeps_pure h.toStable _
  · exact keeps_raise h.toStable _

theorem keeps_allOk (h : StableTurn R) {l : List (M CmdResult)} (hl : ∀ m ∈ l, Keeps R m) : Keeps R (allOk l) := by
  induction l with
  | nil => exact keeps_pure h.toStable _
  | cons m l ih =>
    refine keeps_bind h.toStable (hl m (by simp)) fun r => ?_
    cases r
    · exact ih fun m hm => hl m (by simp [hm])
    · exact keeps_pure h.toStable _

theorem keeps_fetchWord (h : StableTurn R) : Keeps R fetchWord := by
  refine keeps_bind h.toStable (keeps_get h.toStable) fun s => ?_
  exact keeps_ite (keeps_memRead32 h.toStable _) (keeps_modelFault h.toStable _)

theorem keeps_drawHostAnswer (h : StableTurn R) : Keeps R (drawHostAnswer) := by
  unfold drawHostAnswer
  repeat' first
  | exact keeps_pure h.toStable _
  | exact keeps_get h.toStable
  | exact keeps_draw h.toStable
  | exact keeps_upd fun s => h.envAny s _
  | refine keeps_bind h.toStable ?_ fun _ => ?_
  | split

theorem keeps_drawOffset (h : StableTurn R) : Keeps R (drawOffset) := by
  unfold drawOffset
  repeat' first
  | exact keeps_pure h.toStable _
  | exact keeps_draw h.toStable

theorem keeps_acquire (h : StableTurn R) (a : Agent) : Keeps R (acquire a) := by
  unfold acquire
  repeat' first
  | exact keeps_pure h.toStable _
  | exact keeps_upd fun s => h.lock s _

theorem keeps_release (h : StableTurn R) : Keeps R (release) := by
  unfold release
  repeat' first
  | exact keeps_pure h.toStable _
  | exact keeps_upd fun s => h.lock s _

theorem keeps_returnFromInterrupt (h : StableTurn R) : Keeps R (returnFromInterrupt) := by
  unfold returnFromInterrupt
  repeat' first
  | exact keeps_pure h.toStable _
  | exact keeps_regRMW h.toStable _ _ _ rfl rfl
  | exact keeps_release h
  | exact keeps_upd fun s => h.evbuf s _ fun b hb => hb
  | exact keeps_upd fun s => h.run s _ fun _ => rfl
  | refine keeps_bind h.toStable ?_ fun _ => ?_

theorem keeps_setRunstop (h : StableTurn R) (v : Bool) : Keeps R (setRunstop v) := by
  unfold setRunstop
  repeat' first
  | exact keeps_pure h.toStable _
  | exact keeps_regRead h.toStable _ rfl
  | exact keeps_regWrite h.toStable _ _ rfl rfl
  | exact keeps_upd fun s => h.dev s _ fun _ => rfl
  | refine keeps_bind h.toStable ?_ fun _ => ?_

theorem keeps_ringInit (h : StableTurn R) (n : EpNum) : Keeps R (ringInit n) :=
  keeps_bind h.toStable (keeps_get h.toStable) fun _ => keeps_bind h.toStable (keeps_zeroWords h.toStable _ _) fun _ =>
    keeps_bind h.toStable (keeps_getCfg h.toStable) fun _ => keeps_bind h.toStable (keeps_writeLink h.toStable _ _)
      fun _ => keeps_modEp h.toStable fun _ => ⟨rfl, fun w => w⟩

/-! ## Link -/

theorem keeps_linkInit (h : StableTurn R) : Keeps R (linkInit) := by
  unfold linkInit
  repeat' first
  | exact keeps_pure h.toStable _
  | exact keeps_regRead h.toStable _ rfl
  | exact keeps_upd fun s => h.link s _
  | refine keeps_bind h.toStable ?_ fun _ => ?_

theorem keeps_requestTransition (h : StableTurn R) (k : Nat) (t : LinkState) : Keeps R (requestTransition k t) := by
  unfold requestTransition
  repeat' first
  | exact keeps_pure h.toStable _
  | exact keeps_raise h.toStable _
  | exact keeps_get h.toStable
  | exact keeps_regRMW h.toStable _ _ _ rfl rfl
  | exact keeps_upd fun s => h.link s _
  | exact keeps_upd fun s => h.trans _ _ _ (h.link s _) (h.run _ _ fun _ => rfl)
  | exact keeps_upd fun s => h.run s _ fun _ => rfl
  | refine keeps_bind h.toStable ?_ fun _ => ?_
  | split

theorem keeps_endTransition (h : StableTurn R) (r : Ret) : Keeps R (endTransition r) := by
  unfold endTransition
  repeat' first
  | exact keeps_pure h.toStable _
  | exact keeps_get h.toStable
  | exact keeps_regRMW h.toStable _ _ _ rfl rfl
  | exact keeps_upd fun s => h.link s _
  | exact keeps_upd fun s => h.trans _ _ _ (h.link s _) (h.run _ _ fun _ => rfl)
  | exact keeps_upd fun s => h.run s _ fun _ => rfl
  | refine keeps_bind h.toStable ?_ fun _ => ?_
  | split

theorem keeps_linkPoll (h : StableTurn R) (w : Waiter) : Keeps R (linkPoll w) := by
  unfold linkPoll
  repeat' first
  | exact keeps_pure h.toStable _
  | exact keeps_get h.toStable
  | exact keeps_endTransition h _
  | exact keeps_upd fun s => h.run s _ fun _ => rfl
  | refine keeps_bind h.toStable ?_ fun _ => ?_
  | split

theorem keeps_extSignal (h : StableTurn R) (a b : Bool) : Keeps R (extSignal a b) := by
  unfold extSignal
  repeat' first
  | exact keeps_pure h.toStable _
  | exact keeps_draTrigger h.toStable
  | exact keeps_upd fun s => h.signals s _ _
  | refine keeps_bind h.toStable ?_ fun _ => ?_

/-! ## Upstream operations -/

theorem keeps_submitRing (h : StableTurn R) (n : EpNum) (k : BitVec 32) (l : List (Quad × Nat)) (z : Bool) : Keeps R (submitRing n k l z) := by
  unfold submitRing
  repeat' first
  | exact keeps_pure h.toStable _
  | exact keeps_raise h.toStable _
  | exact keeps_getEp h.toStable _
  | exact keeps_getReq h.toStable _
  | exact keeps_kick h.toStable _
  | exact keeps_modEp h.toStable fun e => ⟨rfl, fun w => w⟩
  | exact keeps_modEp h.toStable fun e => ⟨rfl, by simp⟩
  | exact keeps_upd fun s => h.addReq s _
  | refine keeps_bind h.toStable ?_ fun _ => ?_
  | split
  | dsimp only

theorem keeps_cancelRing (h : StableTurn R) (n : EpNum) (i : ReqId) : Keeps R (cancelRing n i) := by
  unfold cancelRing
  repeat' first
  | exact keeps_pure h.toStable _
  | exact keeps_raise h.toStable _
  | exact keeps_getEp h.toStable _
  | exact keeps_getReq h.toStable _
  | exact keeps_endTransferOf h.toStable _ _
  | exact keeps_complete h.toStable _ _
  | exact keeps_finishEndTransfer h.toStable _ _
  | exact keeps_moveToCancelled h.toStable _ _ _
  | refine keeps_bind h.toStable ?_ fun _ => ?_
  | split

theorem keeps_ep0Submit (h : StableTurn R) (n : EpNum) (k : BitVec 32) (l : List (Quad × Nat)) (z : Bool) : Keeps R (ep0Submit n k l z) := by
  unfold ep0Submit
  repeat' first
  | exact keeps_pure h.toStable _
  | exact keeps_raise h.toStable _
  | exact keeps_getReq h.toStable _
  | exact keeps_getCfg h.toStable
  | exact keeps_getEp0 h.toStable
  | exact keeps_modEp0 h.toStable _
  | exact keeps_ep0Post h.toStable _ _ _
  | exact keeps_ep0StallRestart h.toStable
  | refine keeps_bind h.toStable ?_ fun _ => ?_
  | split

theorem keeps_resumeStatus (h : StableTurn R) : Keeps R (resumeStatus) := by
  unfold resumeStatus
  repeat' first
  | exact keeps_pure h.toStable _
  | exact keeps_raise h.toStable _
  | exact keeps_getEp0 h.toStable
  | exact keeps_modEp0 h.toStable _
  | exact keeps_issueStatus h.toStable
  | refine keeps_bind h.toStable ?_ fun _ => ?_
  | split

theorem keeps_ep0Cancel (h : StableTurn R) (n : EpNum) (i : ReqId) : Keeps R (ep0Cancel n i) := by
  unfold ep0Cancel
  repeat' first
  | exact keeps_pure h.toStable _
  | exact keeps_raise h.toStable _
  | exact keeps_getReq h.toStable _
  | exact keeps_getEp0 h.toStable
  | exact keeps_modReq h.toStable _ _
  | exact keeps_ep0StallRestartWith h.toStable _
  | refine keeps_bind h.toStable ?_ fun _ => ?_
  | split

theorem keeps_ep0SetStall (h : StableTurn R) : Keeps R (ep0SetStall) := by
  unfold ep0SetStall
  repeat' first
  | exact keeps_pure h.toStable _
  | exact keeps_raise h.toStable _
  | exact keeps_getEp0 h.toStable
  | exact keeps_ep0StallRestart h.toStable
  | refine keeps_bind h.toStable ?_ fun _ => ?_
  | split

theorem keeps_phys (h : StableTurn R) (a : BitVec 8) : Keeps R (phys a) := by
  unfold phys
  repeat' first
  | exact keeps_pure h.toStable _
  | exact keeps_raise h.toStable _
  | refine keeps_bind h.toStable ?_ fun _ => ?_
  | split

theorem keeps_startNewCfg (h : StableTurn R) : Keeps R (startNewCfg) := by
  unfold startNewCfg
  repeat' first
  | exact keeps_pure h.toStable _
  | exact keeps_get h.toStable
  | exact keeps_cmdDepstartcfg h.toStable _
  | refine keeps_orRaise h ?_
  | exact keeps_upd fun s => h.dev s _ fun _ => rfl
  | refine keeps_bind h.toStable ?_ fun _ => ?_
  | split

theorem keeps_epEnable (h : StableTurn R) (a : BitVec 8) (t : EpType) (m : BitVec 16) (i : BitVec 8) : Keeps R (epEnable a t m i) := by
  unfold epEnable
  repeat' first
  | exact keeps_pure h.toStable _
  | exact keeps_raise h.toStable _
  | exact keeps_get h.toStable
  | exact keeps_regRMW h.toStable _ _ _ rfl rfl
  | exact keeps_cmdSetepconfig h.toStable _ _
  | exact keeps_cmdSetxferrsc h.toStable _
  | exact keeps_ringInit h _
  | exact keeps_phys h _
  | exact keeps_startNewCfg h
  | refine keeps_allOk h (List.forall_mem_cons.2 ⟨?_, List.forall_mem_cons.2 ⟨?_, by simp⟩⟩)
  | exact keeps_modEp h.toStable fun e => ⟨rfl, fun w => w⟩
  | exact keeps_modEp h.toStable fun e => ⟨rfl, by simp⟩
  | exact keeps_upd fun s => h.epNone s _
  | exact keeps_upd fun s => h.epNew s _ _ _ _
  | refine keeps_bind h.toStable ?_ fun _ => ?_
  | split

theorem keeps_forceFlush (h : StableTurn R) (n : EpNum) : Keeps R (forceFlush n) := by
  unfold forceFlush
  repeat' first
  | exact keeps_pure h.toStable _
  | exact keeps_needEp h.toStable _
  | exact keeps_finishEndTransfer h.toStable _ _
  | exact keeps_moveToCancelled h.toStable _ _ _
  | exact keeps_modEp h.toStable fun e => ⟨rfl, fun w => w⟩
  | exact keeps_modEp h.toStable fun e => ⟨rfl, by simp⟩
  | refine keeps_bind h.toStable ?_ fun _ => ?_

theorem keeps_epDisable (h : StableTurn R) (a : BitVec 8) : Keeps R (epDisable a) := by
  unfold epDisable
  repeat' first
  | exact keeps_pure h.toStable _
  | exact keeps_raise h.toStable _
  | exact keeps_getEp h.toStable _
  | exact keeps_flushEndpoint h.toStable _ _
  | exact keeps_phys h _
  | exact keeps_forceFlush h _
  | exact keeps_modEp h.toStable fun e => ⟨rfl, fun w => w⟩
  | exact keeps_modEp h.toStable fun e => ⟨rfl, by simp⟩
  | refine keeps_bind h.toStable ?_ fun _ => ?_
  | split

theorem keeps_submit (h : StableTurn R) (a : BitVec 8) (k : BitVec 32) (l : List (Quad × Nat)) (z : Bool) : Keeps R (submit a k l z) := by
  unfold submit
  repeat' first
  | exact keeps_pure h.toStable _
  | exact keeps_submitRing h _ _ _ _
  | exact keeps_ep0Submit h _ _ _ _
  | exact keeps_phys h _
  | refine keeps_bind h.toStable ?_ fun _ => ?_
  | split

theorem keeps_cancelOp (h : StableTurn R) (a : BitVec 8) (i : ReqId) : Keeps R (cancelOp a i) := by
  unfold cancelOp
  repeat' first
  | exact keeps_pure h.toStable _
  | exact keeps_cancelRing h _ _
  | exact keeps_ep0Cancel h _ _
  | exact keeps_phys h _
  | refine keeps_bind h.toStable ?_ fun _ => ?_
  | split

theorem keeps_stallRing (h : StableTurn R) (n : EpNum) : Keeps R (stallRing n) := by
  unfold stallRing
  repeat' first
  | exact keeps_pure h.toStable _
  | exact keeps_raise h.toStable _
  | exact keeps_getEp h.toStable _
  | exact keeps_cmdSetstall h.toStable _
  | refine keeps_orRaise h ?_
  | exact keeps_modEp h.toStable fun e => ⟨rfl, fun w => w⟩
  | exact keeps_modEp h.toStable fun e => ⟨rfl, by simp⟩
  | refine keeps_bind h.toStable ?_ fun _ => ?_
  | split

theorem keeps_setStall (h : StableTurn R) (a : BitVec 8) : Keeps R (setStall a) := by
  unfold setStall
  repeat' first
  | exact keeps_pure h.toStable _
  | exact keeps_ep0SetStall h
  | exact keeps_phys h _
  | exact keeps_stallRing h _
  | refine keeps_bind h.toStable ?_ fun _ => ?_
  | split

theorem stallRing_stalls {n : EpNum} {s t : State} {x : Unit} (hr : stallRing n s = .ok x t) :
    ∀ e, t.ep n = some e → e.stalled = true := by
  unfold stallRing at hr
  simp only [bind_run, getEp_run] at hr
  rcases hc : stallCheck n (s.ep n) with - | e <;> rw [hc] at hr <;> simp only at hr
  rotate_left
  · cases hr
  · rcases ho : orRaise (cmdSetstall n) s with ⟨a, u⟩ | ⟨a, u⟩ <;> rw [bind_run, ho] at hr
    · cases hr
      intro e he
      change (u.modEp n fun e => { e with stalled := true }).ep n = some e at he
      rw [State.modEp_ep, if_pos rfl] at he
      cases hu : u.ep n <;> rw [hu] at he <;> cases he
      rfl
    · cases hr

theorem keeps_setWedge (h : StableTurn R) (a : BitVec 8) : Keeps R (setWedge a) := by
  unfold setWedge
  refine keeps_bind h.toStable (keeps_phys h _) fun n => ?_
  split
  · exact keeps_raise h.toStable _
  · intro s
    have h1 := keeps_stallRing h n s
    rw [bind_run]
    rcases hs : stallRing n s with ⟨x, t⟩ | ⟨x, t⟩ <;> rw [hs] at h1
    · exact h.trans _ _ _ h1 (h.wedge t n (stallRing_stalls hs))
    · exact h1

theorem keeps_clearStall (h : StableTurn R) (a : BitVec 8) (p : Bool) : Keeps R (clearStall a p) := by
  unfold clearStall
  repeat' first
  | exact keeps_pure h.toStable _
  | exact keeps_raise h.toStable _
  | exact keeps_getEp h.toStable _
  | exact keeps_cmdClearstall h.toStable _
  | exact keeps_kick h.toStable _
  | exact keeps_phys h _
  | refine keeps_orRaise h ?_
  | exact keeps_modEp h.toStable fun e => ⟨rfl, fun w => w⟩
  | exact keeps_modEp h.toStable fun e => ⟨rfl, by simp⟩
  | refine keeps_bind h.toStable ?_ fun _ => ?_
  | split

theorem keeps_setPullup (h : StableTurn R) (v : Bool) : Keeps R (setPullup v) := by
  unfold setPullup
  repeat' first
  | exact keeps_pure h.toStable _
  | exact keeps_get h.toStable
  | exact keeps_setRunstop h _
  | exact keeps_upd fun s => h.dev s _ fun _ => rfl
  | refine keeps_bind h.toStable ?_ fun _ => ?_
  | split

theorem keeps_takeNotification (h : StableTurn R) : Keeps R (takeNotification) := by
  unfold takeNotification
  repeat' first
  | exact keeps_pure h.toStable _
  | exact keeps_get h.toStable
  | exact keeps_upd fun s => h.queue s _
  | refine keeps_bind h.toStable ?_ fun _ => ?_
  | split

theorem keeps_getEpState (h : StableTurn R) (a : BitVec 8) : Keeps R (getEpState a) := by
  unfold getEpState
  repeat' first
  | exact keeps_pure h.toStable _
  | exact keeps_raise h.toStable _
  | exact keeps_getEp h.toStable _
  | exact keeps_cmdGetepstate h.toStable _
  | exact keeps_phys h _
  | refine keeps_bind h.toStable ?_ fun _ => ?_
  | split

theorem keeps_upValue (h : StableTurn R) (k : Nat) (o : UpOp) : Keeps R (upValue k o) := by
  unfold upValue
  repeat' first
  | exact keeps_pure h.toStable _
  | exact keeps_get h.toStable
  | exact keeps_requestTransition h _ _
  | exact keeps_resumeStatus h
  | exact keeps_epEnable h _ _ _ _
  | exact keeps_epDisable h _
  | exact keeps_submit h _ _ _ _
  | exact keeps_cancelOp h _ _
  | exact keeps_setStall h _
  | exact keeps_setWedge h _
  | exact keeps_clearStall h _ _
  | exact keeps_setPullup h _
  | exact keeps_takeNotification h
  | exact keeps_getEpState h _
  | refine keeps_bind h.toStable ?_ fun _ => ?_
  | split

theorem keeps_runUp (h : StableTurn R) (k : Nat) (o : UpOp) : Keeps R (runUp k o) := by
  unfold runUp
  repeat' first
  | exact keeps_pure h.toStable _
  | exact keeps_setRet h.toStable _
  | exact keeps_acquire h _
  | exact keeps_release h
  | exact keeps_upValue h _ _
  | refine keeps_catching ?_
  | refine keeps_bind h.toStable ?_ fun _ => ?_

/-! ## The drain and the turns -/

theorem keeps_ackWord (h : StableTurn R) : Keeps R (ackWord) := by
  unfold ackWord
  repeat' first
  | exact keeps_pure h.toStable _
  | exact keeps_regWrite h.toStable _ _ rfl rfl
  | exact keeps_publish h.toStable
  | exact keeps_upd fun s => h.evbuf s _ fun b hb => hb
  | exact keeps_upd fun s => h.evbuf s _ fun b hb => evbufOk_next hb
  | refine keeps_bind h.toStable ?_ fun _ => ?_

theorem keeps_overflowResync (h : StableTurn R) (c : BitVec 16) : Keeps R (overflowResync c) := by
  refine keeps_bind h.toStable (keeps_notifyCode h.toStable _ _) fun _ => ?_
  have hd : ∀ w : BitVec 10, Keeps R (do
      upd fun s => (s.modEvbuf fun b => { b with lpos := (w.setWidth 16) <<< 2, count := 0 }).modSi fun u =>
        { u with wpos := (w.setWidth 16) <<< 2 }
      regWrite .gevntcount (c.setWidth 32)) := fun w =>
    keeps_bind h.toStable
      (keeps_upd fun s => h.trans _ _ _ (h.evbuf s _ fun b _ => evbufOk_overflow b w) (h.wpos _ _))
      fun _ => keeps_regWrite h.toStable _ _ rfl rfl
  intro s
  have h1 := keeps_drawOffset h s
  rw [bind_run]
  have hk : ∃ k t, drawOffset s = .ok (((Config.freeOverflowWord k).setWidth 16) <<< 2) t :=
    ⟨_, _, rfl⟩
  obtain ⟨k, t, hk⟩ := hk
  rw [hk] at h1 ⊢
  have h2 := hd (Config.freeOverflowWord k) t
  simp only at h1 ⊢
  split <;> rename_i heq <;> rw [heq] at h2
  · exact h.trans _ _ _ h1 h2
  · exact ⟨h2.1, h.trans _ _ _ h1 h2.2⟩

theorem keeps_drainStart (h : StableTurn R) : Keeps R (drainStart) := by
  unfold drainStart
  repeat' first
  | exact keeps_pure h.toStable _
  | exact keeps_get h.toStable
  | exact keeps_regRead h.toStable _ rfl
  | exact keeps_acquire h _
  | exact keeps_release h
  | exact keeps_overflowResync h _
  | exact keeps_upd fun s => h.evbuf s _ fun b hb => hb
  | exact keeps_upd fun s => h.evbuf s _ fun b hb => evbufOk_count hb _
  | exact keeps_upd fun s => h.run s _ fun _ => rfl
  | refine keeps_bind h.toStable ?_ fun _ => ?_
  | split
  | dsimp only

/-- Every turn but the role switch's and the removal's. -/
theorem keeps_plainTurn (h : StableTurn R) {a : Act} (h1 : a ≠ .rt) (h2 : a ≠ .remove) : Keeps R (plainAct a) := by
  cases a
  case rt => exact absurd rfl h1
  case remove => exact absurd rfl h2
  case env e => exact keeps_upd fun s => h.envStep s e
  case bh => exact keeps_drainStart h
  case ext x y =>
    exact keeps_bind h.toStable (keeps_acquire h _) fun _ => keeps_bind h.toStable (keeps_extSignal h _ _) fun _ =>
      keeps_release h
  case up k op => exact keeps_runUp h k op
  case poll =>
    refine keeps_bind h.toStable (keeps_get h.toStable) fun s => ?_
    split
    · exact keeps_pure h.toStable _
    · exact keeps_bind h.toStable (keeps_acquire h _) fun _ => keeps_bind h.toStable (keeps_linkPoll h _) fun _ =>
        keeps_release h
  case command k w x =>
    exact keeps_bind h.toStable (keeps_acquire h _) fun _ => keeps_modelFault h.toStable _
  case descriptor k v w x y z q =>
    exact keeps_bind h.toStable (keeps_acquire h _) fun _ => keeps_modelFault h.toStable _

/-! ## Device role and role switch -/


theorem keeps_evbufSetup (h : StableStep R) : Keeps R (evbufSetup) := by
  unfold evbufSetup
  repeat' first
  | exact keeps_pure h.toStable _
  | exact keeps_regRead h.toStable _ rfl
  | exact keeps_regWrite h.toStable _ _ rfl rfl
  | exact keeps_getCfg h.toStable
  | exact keeps_upd fun s => h.siAny s _
  | exact keeps_upd fun s => h.trans _ _ _ (h.evbuf s _ fun _ _ => rfl) (h.siAny _ _)
  | refine keeps_bind h.toStable ?_ fun _ => ?_
  | split
  | dsimp only

theorem keeps_devConfig (h : StableStep R) : Keeps R devConfig :=
  keeps_bind h.toStable (keeps_regRMW h.toStable _ _ _ rfl rfl) fun _ =>
    keeps_bind h.toStable (keeps_getCfg h.toStable) fun _ =>
      keeps_bind h.toStable (keeps_regRMW h.toStable _ _ _ rfl rfl) fun _ =>
        keeps_bind h.toStable (keeps_regWrite h.toStable _ _ rfl rfl) fun _ =>
          keeps_bind h.toStable (keeps_regWrite h.toStable _ _ rfl rfl) fun _ => keeps_upd fun s => h.devAny s _

theorem keeps_ep0Bringup (h : StableStep R) : Keeps R (ep0Bringup) := by
  unfold ep0Bringup
  repeat' first
  | exact keeps_pure h.toStable _
  | exact keeps_get h.toStable
  | exact keeps_regRMW h.toStable _ _ _ rfl rfl
  | exact keeps_modEp0 h.toStable _
  | exact keeps_cmdSetepconfig h.toStable _ _
  | exact keeps_cmdSetxferrsc h.toStable _
  | exact keeps_cmdDepstartcfg h.toStable _
  | exact keeps_armSetup h.toStable
  | exact keeps_setRunstop h.toStableTurn _
  | exact keeps_ringInit h.toStableTurn _
  | exact keeps_linkInit h.toStableTurn
  | refine keeps_allOk h.toStableTurn (List.forall_mem_cons.2 ⟨?_, List.forall_mem_cons.2 ⟨?_, List.forall_mem_cons.2 ⟨?_, List.forall_mem_cons.2 ⟨?_, List.forall_mem_cons.2 ⟨?_, by simp⟩⟩⟩⟩⟩)
  | exact keeps_modEp h.toStable fun e => ⟨rfl, fun w => w⟩
  | exact keeps_modEp h.toStable fun e => ⟨rfl, by simp⟩
  | exact keeps_upd fun s => h.epNone s _
  | exact keeps_upd fun s => h.epNew s _ _ _ _
  | exact keeps_upd fun s => h.devAny s _
  | refine keeps_bind h.toStable ?_ fun _ => ?_
  | split

theorem keeps_evbufDisable (h : StableStep R) : Keeps R (evbufDisable) := by
  unfold evbufDisable
  repeat' first
  | exact keeps_pure h.toStable _
  | exact keeps_regRMW h.toStable _ _ _ rfl rfl
  | exact keeps_upd fun s => h.evbuf s _ fun b hb => hb
  | refine keeps_bind h.toStable ?_ fun _ => ?_

theorem keeps_undoEp (h : StableStep R) (n : EpNum) : Keeps R (undoEp n) := by
  unfold undoEp
  repeat' first
  | exact keeps_pure h.toStable _
  | exact keeps_getEp h.toStable _
  | exact keeps_releaseRing h.toStable _
  | exact keeps_upd fun s => h.epNone s _
  | exact keeps_upd fun s => h.epNew s _ _ _ _
  | refine keeps_bind h.toStable ?_ fun _ => ?_
  | split

theorem keeps_deviceUndo (h : StableStep R) : Keeps R (deviceUndo) := by
  unfold deviceUndo
  repeat' first
  | exact keeps_pure h.toStable _
  | exact keeps_regWrite h.toStable _ _ rfl rfl
  | exact keeps_modEp0 h.toStable _
  | exact keeps_evbufDisable h
  | exact keeps_undoEp h _
  | exact keeps_upd fun s => h.devAny s _
  | refine keeps_forEach h.toStable (fun _ => ?_) _
  | refine keeps_bind h.toStable ?_ fun _ => ?_

theorem keeps_deviceStart (h : StableStep R) : Keeps R (deviceStart) := by
  unfold deviceStart
  repeat' first
  | exact keeps_pure h.toStable _
  | exact keeps_evbufSetup h
  | exact keeps_devConfig h
  | exact keeps_ep0Bringup h
  | exact keeps_deviceUndo h
  | refine keeps_bind h.toStable ?_ fun _ => ?_
  | split

theorem keeps_teardownEp (h : StableStep R) (n : EpNum) : Keeps R (teardownEp n) := by
  unfold teardownEp
  repeat' first
  | exact keeps_pure h.toStable _
  | exact keeps_notifyErr h.toStable _ _
  | exact keeps_getEp h.toStable _
  | exact keeps_endTransferOf h.toStable _ _
  | exact keeps_finishEndTransfer h.toStable _ _
  | exact keeps_moveToCancelled h.toStable _ _ _
  | exact keeps_modEp h.toStable fun e => ⟨rfl, fun w => w⟩
  | exact keeps_modEp h.toStable fun e => ⟨rfl, by simp⟩
  | refine keeps_bind h.toStable ?_ fun _ => ?_
  | split

theorem keeps_deviceStop (h : StableStep R) : Keeps R (deviceStop) := by
  unfold deviceStop
  repeat' first
  | exact keeps_pure h.toStable _
  | exact keeps_get h.toStable
  | exact keeps_regWrite h.toStable _ _ rfl rfl
  | exact keeps_modEp0 h.toStable _
  | exact keeps_ep0Stop h.toStable _
  | exact keeps_setRunstop h.toStableTurn _
  | exact keeps_evbufDisable h
  | exact keeps_teardownEp h _
  | exact keeps_upd fun s => h.epNone s _
  | exact keeps_upd fun s => h.epNew s _ _ _ _
  | exact keeps_upd fun s => h.devAny s _
  | exact keeps_upd fun s => h.link s _
  | exact keeps_upd fun s => h.trans _ _ _ (h.link s _) (h.devAny _ _)
  | refine keeps_forEach h.toStable (fun _ => ?_) _
  | refine keeps_bind h.toStable ?_ fun _ => ?_
  | split

theorem keeps_hostWrite (h : StableStep R) (w : HostStep) : Keeps R (hostWrite w) := by
  refine keeps_bind h.toStable (keeps_tick h.toStable) fun _ => keeps_upd fun s => ?_
  repeat' first
  | exact h.refl s
  | exact h.reg s _ _
  | exact h.byte s _ _
  | split

theorem keeps_hostTurn (h : StableStep R) : Keeps R hostTurn := by
  unfold hostTurn
  refine keeps_bind h.toStable (keeps_get h.toStable) fun s => ?_
  split
  · exact keeps_pure h.toStable _
  · exact keeps_bind h.toStable (keeps_upd fun s => h.envAny s _) fun _ =>
      keeps_forEach h.toStable (keeps_hostWrite h) _

theorem keeps_hcStart (h : StableStep R) (a : HostArgs) : Keeps R (hcStart a) := by
  unfold hcStart
  repeat' first
  | exact keeps_pure h.toStable _
  | exact keeps_hostTurn h
  | exact keeps_drawHostAnswer h.toStableTurn
  | exact keeps_upd fun s => h.siAny s _
  | refine keeps_bind h.toStable ?_ fun _ => ?_

theorem keeps_hcStop (h : StableStep R) : Keeps R hcStop :=
  keeps_bind h.toStable (keeps_hostTurn h) fun _ => keeps_upd fun s => h.siAny s _

theorem keeps_stopRole (h : StableStep R) (r : OtgRole) : Keeps R (stopRole r) := by
  unfold stopRole
  repeat' first
  | exact keeps_pure h.toStable _
  | exact keeps_deviceStop h
  | exact keeps_hcStop h
  | refine keeps_bind h.toStable ?_ fun _ => ?_
  | split

theorem keeps_writeDirection (h : StableStep R) (c : BitVec 2) (d : DrRole) : Keeps R (writeDirection c d) := by
  unfold writeDirection
  repeat' first
  | exact keeps_pure h.toStable _
  | exact keeps_regRMW h.toStable _ _ _ rfl rfl
  | exact keeps_upd fun s => h.roleAny s _
  | refine keeps_bind h.toStable ?_ fun _ => ?_

theorem keeps_setDirection (h : StableStep R) (t : OtgRole) : Keeps R (setDirection t) := by
  unfold setDirection
  repeat' first
  | exact keeps_pure h.toStable _
  | exact keeps_writeDirection h _ _
  | refine keeps_bind h.toStable ?_ fun _ => ?_
  | split

theorem keeps_startRole (h : StableStep R) (t : OtgRole) : Keeps R (startRole t) := by
  unfold startRole
  repeat' first
  | exact keeps_pure h.toStable _
  | exact keeps_notifyCode h.toStable _ _
  | exact keeps_deviceStart h
  | exact keeps_hcStart h _
  | exact keeps_getCfg h.toStable
  | refine keeps_bind h.toStable ?_ fun _ => ?_
  | split

theorem keeps_endTask (h : StableStep R) : Keeps R (endTask) := by
  unfold endTask
  repeat' first
  | exact keeps_pure h.toStable _
  | exact keeps_release h.toStableTurn
  | exact keeps_upd fun s => h.roleAny s _
  | exact keeps_upd fun s => h.runAny s _
  | exact keeps_upd fun s => h.trans _ _ _ (h.roleAny s _) (h.runAny _ _)
  | refine keeps_bind h.toStable ?_ fun _ => ?_

theorem keeps_phaseAB (h : StableStep R) : Keeps R (phaseAB) := by
  unfold phaseAB
  repeat' first
  | exact keeps_pure h.toStable _
  | exact keeps_get h.toStable
  | exact keeps_release h.toStableTurn
  | exact keeps_stopRole h _
  | exact keeps_endTask h
  | exact keeps_upd fun s => h.roleAny s _
  | exact keeps_upd fun s => h.runAny s _
  | exact keeps_upd fun s => h.trans _ _ _ (h.roleAny s _) (h.runAny _ _)
  | refine keeps_bind h.toStable ?_ fun _ => ?_
  | split
  | dsimp only

theorem keeps_phaseCD (h : StableStep R) : Keeps R (phaseCD) := by
  unfold phaseCD
  repeat' first
  | exact keeps_pure h.toStable _
  | exact keeps_get h.toStable
  | exact keeps_release h.toStableTurn
  | exact keeps_setDirection h _
  | exact keeps_startRole h _
  | exact keeps_endTask h
  | exact keeps_upd fun s => h.roleAny s _
  | exact keeps_upd fun s => h.runAny s _
  | exact keeps_upd fun s => h.trans _ _ _ (h.roleAny s _) (h.runAny _ _)
  | refine keeps_bind h.toStable ?_ fun _ => ?_
  | split

theorem keeps_rtTurn (h : StableStep R) : Keeps R (rtTurn) := by
  unfold rtTurn
  repeat' first
  | exact keeps_pure h.toStable _
  | exact keeps_get h.toStable
  | exact keeps_acquire h.toStableTurn _
  | exact keeps_phaseAB h
  | exact keeps_phaseCD h
  | exact keeps_upd fun s => h.roleAny s _
  | refine keeps_bind h.toStable ?_ fun _ => ?_
  | split

theorem keeps_removeController (h : StableStep R) : Keeps R (removeController) := by
  unfold removeController
  repeat' first
  | exact keeps_pure h.toStable _
  | exact keeps_get h.toStable
  | exact keeps_acquire h.toStableTurn _
  | exact keeps_release h.toStableTurn
  | exact keeps_stopRole h _
  | exact keeps_upd fun s => h.runAny s _
  | refine keeps_bind h.toStable ?_ fun _ => ?_

/-! ## The step -/

/-- What an outcome's next state is, kept. -/
def NextKeeps (R : State → State → Prop) (s : State) (o : Host.Outcome State Fault Refusal) : Prop :=
  ∀ t, o = .next t → R s t

theorem nextKeeps_toOutcome (h : StableTurn R) {m : M Unit} (hm : Keeps R m) {s u : State} (hu : R s u) :
    NextKeeps R s (toOutcome m u) := fun _ ht => h.trans _ _ _ hu (keeps_toOutcome hm ht)

theorem afterDispatch_keeps (h : StableTurn R) {s u : State} (hu : R s u) : NextKeeps R s (afterDispatch u) := by
  unfold afterDispatch
  split
  · intro t ht
    cases ht
    exact hu
  · exact nextKeeps_toOutcome h (keeps_ackWord h) hu

theorem drainWord_keeps (h : StableTurn R) (s : State) : NextKeeps R s (drainWord s) := by
  have h1 := keeps_fetchWord h s
  unfold drainWord
  rcases hf : fetchWord s with ⟨w, u⟩ | ⟨x, u⟩ <;> rw [hf] at h1
  · simp only
    rcases decodeEventWord w with e | i
    · rcases ho : toOutcome (unknownEvent w) u with v | f | r
      · exact afterDispatch_keeps h (h.trans _ _ _ h1 (keeps_toOutcome (keeps_unknownEvent h.toStable w) ho))
      · exact fun t ht => by cases ht
      · exact fun t ht => by cases ht
    · simp only
      rcases ho : exec i u with v | f | r
      · exact afterDispatch_keeps h (h.trans _ _ _ h1 (exec_keeps h.toStable h.link i ho))
      · exact fun t ht => by cases ht
      · exact fun t ht => by cases ht
  · exact nextKeeps_toOutcome h (m := fun u => .error x u) (fun v => ⟨h1.1, h.refl v⟩) h1.2

theorem callStep_keeps (h : StableTurn R) (k : Nat) (i : Instr) {s u : State} (hu : R s u) :
    NextKeeps R s (callStep k i u) := by
  intro t ht
  unfold callStep mapNext at ht
  rcases ho : exec i (beginCall k u) with v | f | r <;> rw [ho] at ht <;> simp only at ht
  · cases ht
    have h1 := h.trans _ _ _ (h.trans _ _ _ hu (h.lock u (some (.up k)))) (exec_keeps h.toStable h.link i ho)
    unfold endCall
    split
    · exact h1
    · exact h.trans _ _ _ h1 (h.lock v none)
  · cases ht
  · cases ht

/-- A turn that neither switches the role nor removes the controller keeps a stable relation. -/
theorem turn_keeps_of_ne (h : StableTurn R) {a : Act} (h1 : a ≠ .rt) (h2 : a ≠ .remove) (rest : List Act) (s : State) :
    NextKeeps R s (turn a rest s) := by
  have he : ∀ l, R s (s.setAgenda l) := fun l => h.envAny s _
  unfold turn
  split
  · exact fun t ht => by cases ht; exact he rest
  · split
    · exact fun t ht => by cases ht; exact he _
    · split
      · exact callStep_keeps h _ _ (he rest)
      · exact nextKeeps_toOutcome h (keeps_plainTurn h h1 h2) (he rest)

/-- A step in the middle of a drain keeps a stable relation. -/
theorem drainStep_keeps (h : StableTurn R) (s : State) : NextKeeps R s (drainStep s) := by
  unfold drainStep
  split
  · exact nextKeeps_toOutcome h (keeps_returnFromInterrupt h) (h.refl s)
  · exact drainWord_keeps h s

theorem keeps_plainAct (h : StableStep R) (a : Act) : Keeps R (plainAct a) := by
  by_cases h1 : a = .rt
  · exact h1 ▸ keeps_rtTurn h
  · by_cases h2 : a = .remove
    · exact h2 ▸ keeps_removeController h
    · exact keeps_plainTurn h.toStableTurn h1 h2

theorem turn_keeps (h : StableStep R) (a : Act) (rest : List Act) (s : State) : NextKeeps R s (turn a rest s) := by
  have he : ∀ l, R s (s.setAgenda l) := fun l => h.envAny s _
  unfold turn
  split
  · exact fun t ht => by cases ht; exact he rest
  · split
    · exact fun t ht => by cases ht; exact he _
    · split
      · exact callStep_keeps h.toStableTurn _ _ (he rest)
      · exact nextKeeps_toOutcome h.toStableTurn (keeps_plainAct h a) (he rest)

/-- Every step keeps a relation that its primitive updates keep. -/
theorem step_keeps (h : StableStep R) {s t : State} (ht : step s = .next t) : R s t := by
  unfold step at ht
  split at ht
  · cases ht
    exact h.refl s
  · split at ht
    · exact drainStep_keeps h.toStableTurn s t ht
    · split at ht
      · cases ht
        exact h.refl s
      · exact turn_keeps h _ _ s t ht

end Sys2Proof.Machine
end

