-- ==== Sys2Proof/Laws/PerInstr.lean ====
section
/-!
SUPPORT. Statements made per instruction, one lemma per constructor.
-/

namespace Sys2Proof.Laws.Encodes

/-- R100: the encoder gives each instruction the whole words of its kind: one for an event, the command
word and its operand word for a command, the four words and the ring's for a descriptor. -/
def Statement (i : Instr) : Prop :=
  (encode i).length =
      (match formatOf i with
      | .event => 1
      | .command => 2
      | .descriptor => 6)
    ∧ (encodeBytes i).length = 4 * (encode i).length

theorem evtEpXfercomplete (x : EpFields) : Statement (.evtEpXfercomplete x) := ⟨rfl, rfl⟩

theorem evtEpXferinprogress (x : EpFields) : Statement (.evtEpXferinprogress x) := ⟨rfl, rfl⟩

theorem evtEpXfernotready (x : EpFields) : Statement (.evtEpXfernotready x) := ⟨rfl, rfl⟩

theorem evtEpRxtxfifo (x : EpFields) : Statement (.evtEpRxtxfifo x) := ⟨rfl, rfl⟩

theorem evtEpStream (x : EpFields) : Statement (.evtEpStream x) := ⟨rfl, rfl⟩

theorem evtEpEpcmdcmplt (x : EpFields) : Statement (.evtEpEpcmdcmplt x) := ⟨rfl, rfl⟩

theorem evtEpXfercompleteEp0 (x : Ep0Fields) : Statement (.evtEpXfercompleteEp0 x) := ⟨rfl, rfl⟩

theorem evtEpXfernotreadyEp0 (x : Ep0Fields) : Statement (.evtEpXfernotreadyEp0 x) := ⟨rfl, rfl⟩

theorem evtEpXfercompleteEp1 (x : Ep0Fields) : Statement (.evtEpXfercompleteEp1 x) := ⟨rfl, rfl⟩

theorem evtEpXfernotreadyEp1 (x : Ep0Fields) : Statement (.evtEpXfernotreadyEp1 x) := ⟨rfl, rfl⟩

theorem evtDevDisconnect (x : DevFields) : Statement (.evtDevDisconnect x) := ⟨rfl, rfl⟩

theorem evtDevReset (x : DevFields) : Statement (.evtDevReset x) := ⟨rfl, rfl⟩

theorem evtDevConnectDone (x : DevFields) : Statement (.evtDevConnectDone x) := ⟨rfl, rfl⟩

theorem evtDevLinkChange (x : DevFields) : Statement (.evtDevLinkChange x) := ⟨rfl, rfl⟩

theorem evtDevWakeup (x : DevFields) : Statement (.evtDevWakeup x) := ⟨rfl, rfl⟩

theorem evtDevSof (x : DevFields) : Statement (.evtDevSof x) := ⟨rfl, rfl⟩

theorem evtDevErraticError (x : DevFields) : Statement (.evtDevErraticError x) := ⟨rfl, rfl⟩

theorem evtDevCmdCmpl (x : DevFields) : Statement (.evtDevCmdCmpl x) := ⟨rfl, rfl⟩

theorem evtDevOverflow (x : DevFields) : Statement (.evtDevOverflow x) := ⟨rfl, rfl⟩

theorem evtAuxa (x : AuxFields) : Statement (.evtAuxa x) := ⟨rfl, rfl⟩

theorem evtAuxb (x : AuxFields) : Statement (.evtAuxb x) := ⟨rfl, rfl⟩

theorem depcmdSetepconfig (x : BitVec 5) (y : CfgAction) : Statement (.depcmdSetepconfig x y) := ⟨rfl, rfl⟩

theorem depcmdSetxferrsc (x : BitVec 5) : Statement (.depcmdSetxferrsc x) := ⟨rfl, rfl⟩

theorem depcmdGetepstate (x : BitVec 5) : Statement (.depcmdGetepstate x) := ⟨rfl, rfl⟩

theorem depcmdSetstall (x : BitVec 5) : Statement (.depcmdSetstall x) := ⟨rfl, rfl⟩

theorem depcmdClearstall (x : BitVec 5) : Statement (.depcmdClearstall x) := ⟨rfl, rfl⟩

theorem depcmdStarttransfer (x : BitVec 5) (y : BitVec 8) (z : BitVec 16) : Statement (.depcmdStarttransfer x y z) := ⟨rfl, rfl⟩

theorem depcmdUpdatetransfer (x : BitVec 5) (y : BitVec 7) : Statement (.depcmdUpdatetransfer x y) := ⟨rfl, rfl⟩

theorem depcmdDepstartcfg (x : BitVec 16) : Statement (.depcmdDepstartcfg x) := ⟨rfl, rfl⟩

theorem depcmdEndtransferIocForcerm (x : BitVec 5) (y : BitVec 7) : Statement (.depcmdEndtransferIocForcerm x y) := ⟨rfl, rfl⟩

theorem depcmdEndtransferForcerm (x : BitVec 5) (y : BitVec 7) : Statement (.depcmdEndtransferForcerm x y) := ⟨rfl, rfl⟩

theorem trbNormal (x : TrbFields) : Statement (.trbNormal x) := ⟨rfl, rfl⟩

theorem trbControlSetup (x : TrbFields) : Statement (.trbControlSetup x) := ⟨rfl, rfl⟩

theorem trbControlStatus2 (x : TrbFields) : Statement (.trbControlStatus2 x) := ⟨rfl, rfl⟩

theorem trbControlStatus3 (x : TrbFields) : Statement (.trbControlStatus3 x) := ⟨rfl, rfl⟩

theorem trbControlData (x : TrbFields) : Statement (.trbControlData x) := ⟨rfl, rfl⟩

theorem trbIsocFirst (x : TrbFields) : Statement (.trbIsocFirst x) := ⟨rfl, rfl⟩

theorem trbIsoc (x : TrbFields) : Statement (.trbIsoc x) := ⟨rfl, rfl⟩

theorem trbLink (x : TrbFields) : Statement (.trbLink x) := ⟨rfl, rfl⟩

end Sys2Proof.Laws.Encodes
end

