-- ==== Sys2Proof/Laws/Ring.lean ====
section
/-!
SUPPORT. What the ring manager's operations on one descriptor do, and the release of a ring of EP0, said once, with
nothing scheduled.
-/

namespace Sys2Proof.Machine

/-- One of several writes in a row. -/
theorem memWrite32_setMem {a : Nat} {s : State} (m : List Host.Cell) (q : s.env.sched = [])
    (h : a + 4 ≤ 2 ^ s.cfg.dmaAddrBits) (w : Word) :
    memWrite32 a w (s.setMem m) = .ok () (s.setMem (Memory.writeWord m a w)) :=
  memWrite32_quiet (s := s.setMem m) q h w

/-- A legal descriptor in the address space is written whole, its `CTRL` without `HWO`. -/
theorem fillAt_quiet {a : Nat} {d : Desc} {s : State} (w : d.writable = true) (q : s.env.sched = [])
    (h : a + 16 ≤ 2 ^ s.cfg.dmaAddrBits) :
    fillAt a d s = .ok () (s.setMem (Memory.writeWord (Memory.writeWord (Memory.writeWord (Memory.writeWord s.mem a
      d.bpl) (a + 4) d.bph) (a + 8) d.size) (a + 12) (clearHwo d.ctrl))) := by
  simp only [fillAt, w, if_true, bind_run]
  rw [memWrite32_quiet q (by omega)]
  simp only
  rw [memWrite32_setMem _ q (by omega)]
  simp only
  rw [memWrite32_setMem _ q (by omega)]
  simp only
  rw [memWrite32_setMem _ q (by omega)]

/-- A reserved code or field is a model fault, and nothing is written (R162). -/
theorem fillAt_reserved {a : Nat} {d : Desc} {s : State} (w : d.writable = false) :
    fillAt a d s = .error .halted (s.addFault .reservedWrite).stopHolder := by
  simp [fillAt, w]

/-- The hand-over writes `CTRL`. -/
theorem handAt_quiet {a : Nat} {d : Desc} {s : State} (m : List Host.Cell) (q : s.env.sched = [])
    (h : a + 16 ≤ 2 ^ s.cfg.dmaAddrBits) :
    handAt a d (s.setMem m) = .ok () (s.setMem (Memory.writeWord m (a + 12) d.ctrl)) := by
  simp only [handAt, bind_run, publish_run]
  rw [memWrite32_setMem _ q (by omega)]

/-- A software-owned enqueue slot gets the descriptor, its `HWO` last, and the enqueue index advances (R289). -/
theorem writeDesc_quiet {n : EpNum} {d : Desc} {s : State} {e : Endpoint} (he : s.ep n = some e)
    (w : d.writable = true) (q : s.env.sched = []) (h : SlotInSpace s n e.enq.val)
    (o : slotHwo s n e.enq.val = false) :
    writeDesc n d s = .ok () ((s.setMem (descWritten s.mem (s.slotAddr n e.enq.val) d)).modEp n fun e =>
      { e with enq := adv e.enq }) := by
  unfold SlotInSpace at h
  unfold slotHwo at o
  simp only [writeDesc, fillDesc, advEnq, bind_run, needEp_some he, get_run]
  rw [memRead32_quiet q (by omega)]
  simp only [o, Bool.false_eq_true, if_false, bind_run, pure_run]
  rw [fillAt_quiet w q h]
  simp only
  rw [handAt_quiet _ q h]
  rfl

/-- A hardware-owned enqueue slot is a model fault, and nothing is written (R290). -/
theorem writeDesc_owned {n : EpNum} {d : Desc} {s : State} {e : Endpoint} (he : s.ep n = some e)
    (q : s.env.sched = []) (h : SlotInSpace s n e.enq.val) (o : slotHwo s n e.enq.val = true) :
    writeDesc n d s = .error .halted (s.addFault .ringOverwrite).stopHolder := by
  unfold SlotInSpace at h
  unfold slotHwo at o
  simp only [writeDesc, fillDesc, bind_run, needEp_some he, get_run]
  rw [memRead32_quiet q (by omega)]
  simp [o]

/-- A stage is put on its ring: its record made, its descriptor written, the request started (R331). -/
theorem ep0Put_quiet {n : EpNum} {e : Endpoint} {r : Request} {d : Desc} {s : State} (he : s.ep n = some e)
    (w : d.writable = true) (q : s.env.sched = []) (h : SlotInSpace s n e.enq.val)
    (o : slotHwo s n e.enq.val = false) :
    ep0Put n e r d s = .ok () (((s.addReq (r.posted n e.enq)).setMem
      (descWritten s.mem (s.slotAddr n e.enq.val) d)).setEp n
        (some { e with enq := adv e.enq, started := e.started ++ [r.id] })) := by
  have he' : (s.addReq (r.posted n e.enq)).ep n = some e := by simpa using he
  simp only [ep0Put, bind_run, upd_run]
  rw [writeDesc_quiet he' w q h o, State.modEp_some (e := e) (by simpa using he)]
  simp only [modEp_run]
  rw [State.modEp_some (State.setEp_ep_self _ _ _)]
  simp

/-- The link slot gets the link descriptor, its `HWO` last (R36, R422). -/
theorem writeLink_quiet {n : EpNum} {d : Desc} {s : State} (w : d.writable = true) (q : s.env.sched = [])
    (h : SlotInSpace s n Config.linkSlot) :
    writeLink n d s = .ok () (s.setMem (descWritten s.mem (s.slotAddr n Config.linkSlot) d)) := by
  unfold SlotInSpace at h
  simp only [writeLink, bind_run, get_run]
  rw [fillAt_quiet w q h]
  simp only
  rw [handAt_quiet _ q h]
  rfl

/-- Reclaiming a slot clears its `HWO` and leaves the rest of it (R296). -/
theorem reclaim_quiet {n : EpNum} {i : Slot} {s : State} (q : s.env.sched = []) (h : SlotInSpace s n i.val)
    (w : ctrlWritable (Memory.readWord s.mem (s.slotAddr n i.val + 12)) = true) :
    reclaim n i s = .ok () (s.setMem (Memory.writeWord s.mem (s.slotAddr n i.val + 12)
      (clearHwo (Memory.readWord s.mem (s.slotAddr n i.val + 12))))) := by
  unfold SlotInSpace at h
  simp only [reclaim, bind_run, get_run]
  rw [memRead32_quiet q (by omega)]
  simp only [w, if_true]
  rw [memWrite32_quiet q (by omega)]

/-- The index after another is another. -/
theorem adv_ne (i : Slot) : adv i ≠ i := by
  intro h
  have := congrArg Fin.val h
  unfold adv at this
  split at this
  · simp at this; omega
  · simp at this; omega

/-- An empty ring has nothing to release (R284, R305). -/
theorem releaseRing_empty {n : EpNum} {s : State} {e : Endpoint} (he : s.ep n = some e) (h : e.enq = e.deq) :
    releaseRing n s = .ok () s := by
  have hl : slotsUpTo e.enq 255 e.deq = [] := by simp [slotsUpTo, h]
  simp only [releaseRing, bind_run, needEp_some he, hl, forEach_nil, pure_run, modEp_run]
  rw [State.modEp_some he, State.setEp_same]
  cases e; cases h; exact he

/-- A ring with one descriptor outstanding: its slot's `HWO` is cleared and the ring is empty (R305). -/
theorem releaseRing_one {n : EpNum} {s : State} {e : Endpoint} (he : s.ep n = some e) (h : e.enq = adv e.deq)
    (q : s.env.sched = []) (hs : SlotInSpace s n e.deq.val)
    (w : ctrlWritable (Memory.readWord s.mem (s.slotAddr n e.deq.val + 12)) = true) :
    releaseRing n s = .ok () ((s.setMem (Memory.writeWord s.mem (s.slotAddr n e.deq.val + 12)
      (clearHwo (Memory.readWord s.mem (s.slotAddr n e.deq.val + 12))))).setEp n
        (some { e with enq := e.deq })) := by
  have hl : slotsUpTo e.enq 255 e.deq = [e.deq] := by
    rw [h]; simp [slotsUpTo, (adv_ne e.deq).symm]
  simp only [releaseRing, bind_run, needEp_some he, hl, forEach_cons, forEach_nil]
  rw [reclaim_quiet q hs w]
  simp only [pure_run, modEp_run]
  rw [State.modEp_some (e := e) (by simpa using he)]

/-- A request completes: out of every queue of its endpoint, reported, and gone (R299). -/
theorem complete_run {r : Request} {oc : Outcome} {s : State} {e : Endpoint} (he : s.ep r.ep = some e) :
    complete r oc s = .ok () ((s.setEp r.ep (some (e.without r.id))).reported r oc) := by
  simp only [complete, bind_run, modEp_run, State.modEp_some he, State.reported]
  split <;> simp

@[simp] theorem State.reported_ep (s : State) (r : Request) (oc : Outcome) (n : EpNum) :
    (s.reported r oc).ep n = s.ep n := by
  unfold State.reported
  split <;> simp

@[simp] theorem State.reported_mem (s : State) (r : Request) (oc : Outcome) : (s.reported r oc).mem = s.mem := by
  unfold State.reported
  split <;> rfl

@[simp] theorem State.reported_cfg (s : State) (r : Request) (oc : Outcome) : (s.reported r oc).cfg = s.cfg := by
  unfold State.reported
  split <;> rfl

@[simp] theorem State.reported_env (s : State) (r : Request) (oc : Outcome) : (s.reported r oc).env = s.env := by
  unfold State.reported
  split <;> rfl

@[simp] theorem State.reported_slotAddr (s : State) (r : Request) (oc : Outcome) (n : EpNum) (i : Nat) :
    (s.reported r oc).slotAddr n i = s.slotAddr n i := by
  unfold State.reported
  split <;> rfl

@[simp] theorem State.reported_setEp (s : State) (r : Request) (oc : Outcome) (n : EpNum) (e : Option Endpoint) :
    (s.setEp n e).reported r oc = (s.reported r oc).setEp n e := by
  unfold State.reported
  split <;> rfl

/-- What `ep0_stop` leaves of a ring that held no stage (R346). -/
theorem ep0Release_idle {oc : Outcome} {n : EpNum} {s : State} {e : Endpoint} (he : s.ep n = some e)
    (hs : e.started = []) (h : e.enq = e.deq) :
    ep0Release oc n s = .ok () (s.setEp n (some { e with xferStarted := false, rsc := none })) := by
  cases e
  cases hs
  cases h
  simp only [ep0Release, bind_run, needEp_some he, modEp_run, State.modEp_some he, forEach_nil, pure_run]
  rw [releaseRing_empty (State.setEp_ep_self _ _ _) rfl]
  simp only
  rw [State.modEp_some (State.setEp_ep_self _ _ _), State.setEp_setEp]

/-- What `ep0_stop` leaves of a ring that held one stage: the stage is reported, and its slot is taken back
(R346). -/
theorem ep0Release_stage {oc : Outcome} {n : EpNum} {s : State} {e : Endpoint} {r : Request}
    (he : s.ep n = some e) (hs : e.started = [r.id]) (hp : e.pending = []) (hc : e.cancelled = [])
    (h : e.enq = adv e.deq) (hr : s.req r.id = some r) (hn : r.ep = n) (q : s.env.sched = [])
    (ha : SlotInSpace s n e.deq.val)
    (w : ctrlWritable (Memory.readWord s.mem (s.slotAddr n e.deq.val + 12)) = true) :
    ep0Release oc n s = .ok () ((((s.reported r oc).setMem (Memory.writeWord s.mem (s.slotAddr n e.deq.val + 12)
      (clearHwo (Memory.readWord s.mem (s.slotAddr n e.deq.val + 12))))).setEp n
        (some { e with xferStarted := false, rsc := none, started := [], enq := e.deq }))) := by
  subst hn
  obtain ⟨e2, h2⟩ : ∃ e2, e2 = { e with xferStarted := false, rsc := none, started := [] } := ⟨_, rfl⟩
  have hw : Endpoint.without { e with xferStarted := false, rsc := none, started := [r.id] } r.id = e2 := by
    simp [Endpoint.without, h2, hp, hc]
  have hrel := releaseRing_one (n := r.ep) (s := (s.reported r oc).setEp r.ep (some e2)) (e := e2)
    (State.setEp_ep_self _ _ _) (by simpa [h2] using h) (by simpa using q)
    (by simpa [SlotInSpace, h2] using ha) (by simpa [h2] using w)
  simp only [ep0Release, bind_run, needEp_some he, modEp_run, State.modEp_some he, hs, forEach_cons, forEach_nil,
    getReq_run, State.setEp_req, hr, pure_run]
  rw [complete_run (State.setEp_ep_self _ _ _), hw, State.setEp_setEp, State.reported_setEp]
  simp only [hrel]
  rw [State.modEp_some (State.setEp_ep_self _ _ _)]
  simp only [h2, State.setEp_mem, State.setEp_slotAddr, State.reported_mem, State.reported_slotAddr]
  refine congrArg _ ?_
  rw [State.setEp_setEp]
  exact State.setEp_setEp ((s.reported r oc).setMem _) _ _ _

/-- A direct call's end of a ring of EP0 that held no stage (log entry 10). -/
theorem ep0Ended_idle {n : EpNum} {s : State} {e : Endpoint} (he : s.ep n = some e) (hs : e.started = [])
    (h : e.enq = e.deq) :
    ep0Ended n s = .ok () (s.setEp n (some { e with endPending := false, xferStarted := false, rsc := none })) := by
  have hrel := ep0Release_idle (oc := .cancelled) (s := s.setEp n (some { e with endPending := false }))
    (e := { e with endPending := false }) (State.setEp_ep_self _ _ _) hs h
  simp only [ep0Ended, bind_run, needEp_some he, modEp_run, State.modEp_some he, hrel]
  simp [hs, State.modEp0]
  rfl

/-- A direct call's end of a ring of EP0 that held one stage (log entry 10). -/
theorem ep0Ended_stage {n : EpNum} {s : State} {e : Endpoint} {r : Request}
    (he : s.ep n = some e) (hs : e.started = [r.id]) (hp : e.pending = []) (hc : e.cancelled = [])
    (h : e.enq = adv e.deq) (hr : s.req r.id = some r) (hn : r.ep = n) (q : s.env.sched = [])
    (ha : SlotInSpace s n e.deq.val)
    (w : ctrlWritable (Memory.readWord s.mem (s.slotAddr n e.deq.val + 12)) = true) :
    ep0Ended n s = .ok () (((((s.reported r .cancelled).setMem (Memory.writeWord s.mem
      (s.slotAddr n e.deq.val + 12) (clearHwo (Memory.readWord s.mem (s.slotAddr n e.deq.val + 12))))).setEp n
        (some { e with endPending := false, xferStarted := false, rsc := none, started := [], enq := e.deq }))).modEp0
          fun c => c.withdrawn r.id) := by
  have hrel := ep0Release_stage (oc := .cancelled) (r := r) (s := s.setEp n (some { e with endPending := false }))
    (e := { e with endPending := false }) (State.setEp_ep_self _ _ _) hs hp hc h (by simpa using hr) hn
    (by simpa using q) (by simpa [SlotInSpace] using ha) (by simpa using w)
  simp only [ep0Ended, bind_run, needEp_some he, modEp_run, State.modEp_some he, hrel]
  simp only [modEp0_run, hs, List.foldl, State.reported_setEp, State.setEp_mem, State.setEp_slotAddr]
  refine congrArg (fun t => EStateM.Result.ok () (State.modEp0 t fun c => c.withdrawn r.id)) ?_
  exact State.setEp_setEp ((s.reported r .cancelled).setMem _) _ _ _

end Sys2Proof.Machine
end

