-- ==== Sys2Proof/Tests/Slice0.lean ====
section
/-!
SUPPORT. The model's own tests: the well-formedness checks refuse an ill-formed term each; every
constructor's words, written out from the encodings of R102 to R134, decode to it; small states on which
an instruction takes one step; and, for each statement with hypotheses, states that meet them. Expected
values are the rules' and the worked programs' of 95_test_vectors.md, by hand.
-/

namespace Sys2Proof.Tests

open Sys2Proof.Machine

set_option Elab.async false

/-! ## Helpers -/

/-- The instruction a decoding gives. -/
def okOf (x : Except Reject Instr) : Option Instr :=
  match x with
  | .ok i => some i
  | .error _ => none

/-- The reason of a rejection. -/
def errOf (x : Except Reject Instr) : Option Reject :=
  match x with
  | .ok _ => none
  | .error r => some r

/-- The next state of an outcome. -/
def after (o : Host.Outcome State Fault Refusal) : Option State :=
  match o with
  | .next t => some t
  | .fault _ => none
  | .refused _ => none

/-- A field of the state after an instruction. -/
def seen {α : Type} (i : Instr) (s : State) (g : State → α) : Option α := (after (exec i s)).map g

/-! ## Well-formedness -/

/-- `CTRL` bits with `HWO`, `ISP` and `IOC`. -/
def ctl : CtrlBits :=
  { hwo := true, lst := false, chn := false, csp := false, isp := true, ioc := true, rsvLo := 0, sid := 0, rsvHi := 0 }

/-- Descriptor operands on ring 2 with a buffer of 512 bytes, for request 7. -/
def trb (c : CtrlBits) (size : Word) : TrbFields := { ep := 2, req := 7, ctrl := c, bpl := 0x90000000, bph := 0, size := size }

theorem test_wf_xfercomplete_ep0 : (Instr.evtEpXfercomplete { ep := 0, rsv := 0, status := 0, param := 0 }).wf = false := by decide
theorem test_wf_xfernotready_ep1 : (Instr.evtEpXfernotready { ep := 1, rsv := 0, status := 0, param := 0 }).wf = false := by decide
theorem test_wf_starttransfer_link_slot : (Instr.depcmdStarttransfer 2 255 0).wf = false := by decide
theorem test_wf_depstartcfg_base_1 : (Instr.depcmdDepstartcfg 1).wf = false := by decide
theorem test_wf_trb_csp : (Instr.trbNormal (trb { ctl with csp := true } 512)).wf = false := by decide
theorem test_wf_trb_rsvLo : (Instr.trbControlSetup (trb { ctl with rsvLo := 1 } 8)).wf = false := by decide
theorem test_wf_trb_sid : (Instr.trbIsoc (trb { ctl with sid := 0x8000 } 512)).wf = false := by decide
theorem test_wf_trb_rsvHi : (Instr.trbLink (trb { ctl with rsvHi := 2 } 0)).wf = false := by decide
theorem test_wf_trb_pcm1 : (Instr.trbIsocFirst (trb ctl 0x01000200)).wf = false := by decide
theorem test_wf_trb_trbsts : (Instr.trbControlData (trb ctl 0x80000200)).wf = false := by decide
theorem test_wf_trb_status2_size_rsv : (Instr.trbControlStatus2 (trb ctl 0x04000000)).wf = false := by decide
theorem test_wf_trb_status3_csp : (Instr.trbControlStatus3 (trb { ctl with csp := true } 0)).wf = false := by decide
theorem test_wf_accepts : (Instr.trbNormal (trb ctl 512)).wf = true ∧ (Instr.depcmdStarttransfer 2 254 0).wf = true
    ∧ (Instr.evtEpXfercomplete { ep := 2, rsv := 3, status := 0, param := 0 }).wf = true := by decide

/-! ## Decoding: one word of each row, written out from its table -/

/-- Bit 1 of `EPNUM` (bit 2), sub-type 1 (bit 6), `SHORT` (bit 13). -/
theorem test_decode_xfercomplete : okOf (decodeEventWord 0x00002044#32) = some (.evtEpXfercomplete { ep := 2, rsv := 0, status := 2, param := 0 }) := by decide
/-- Endpoint 2, sub-type 2 (bit 7), status 6 `[15:12]`, parameter `[31:16]`. -/
theorem test_decode_xferinprogress : okOf (decodeEventWord 0x12346084#32) = some (.evtEpXferinprogress { ep := 2, rsv := 0, status := 6, param := 0x1234 }) := by decide
/-- Endpoint 3, sub-type 3, the reserved bits `[11:10]` kept. -/
theorem test_decode_xfernotready : okOf (decodeEventWord 0xFFFF0CC6#32) = some (.evtEpXfernotready { ep := 3, rsv := 3, status := 0, param := 0xFFFF }) := by decide
/-- Endpoint 4, sub-type 4. -/
theorem test_decode_rxtxfifo : okOf (decodeEventWord 0x00000108#32) = some (.evtEpRxtxfifo { ep := 4, rsv := 0, status := 0, param := 0 }) := by decide
/-- Endpoint 31, sub-type 6. -/
theorem test_decode_stream : okOf (decodeEventWord 0x000001BE#32) = some (.evtEpStream { ep := 31, rsv := 0, status := 0, param := 0 }) := by decide
/-- Endpoint 5, sub-type 7, command code 8 in the parameter `[11:8]`. -/
theorem test_decode_epcmdcmplt : okOf (decodeEventWord 0x080001CA#32) = some (.evtEpEpcmdcmplt { ep := 5, rsv := 0, status := 0, param := 0x0800 }) := by decide
/-- Endpoint 0, sub-type 1. -/
theorem test_decode_xfercomplete_ep0 : okOf (decodeEventWord 0x0000C040#32) = some (.evtEpXfercompleteEp0 { rsv := 0, status := 12, param := 0 }) := by decide
/-- Endpoint 0, sub-type 3. -/
theorem test_decode_xfernotready_ep0 : okOf (decodeEventWord 0x000010C0#32) = some (.evtEpXfernotreadyEp0 { rsv := 0, status := 1, param := 0 }) := by decide
/-- Endpoint 1, sub-type 1. -/
theorem test_decode_xfercomplete_ep1 : okOf (decodeEventWord 0x00002042#32) = some (.evtEpXfercompleteEp1 { rsv := 0, status := 2, param := 0 }) := by decide
/-- Endpoint 1, sub-type 3. -/
theorem test_decode_xfernotready_ep1 : okOf (decodeEventWord 0x000020C2#32) = some (.evtEpXfernotreadyEp1 { rsv := 0, status := 2, param := 0 }) := by decide
/-- Class 0, sub-type 0. -/
theorem test_decode_disconnect : okOf (decodeEventWord 0x00000001#32) = some (.evtDevDisconnect { rsvLo := 0, info := 0, rsvHi := 0 }) := by decide
/-- Sub-type 1. -/
theorem test_decode_reset : okOf (decodeEventWord 0x00000101#32) = some (.evtDevReset { rsvLo := 0, info := 0, rsvHi := 0 }) := by decide
/-- Sub-type 2. -/
theorem test_decode_connect_done : okOf (decodeEventWord 0x00000201#32) = some (.evtDevConnectDone { rsvLo := 0, info := 0, rsvHi := 0 }) := by decide
/-- Sub-type 3, `EVTINFO` 3. -/
theorem test_decode_link_change : okOf (decodeEventWord 0x00030301#32) = some (.evtDevLinkChange { rsvLo := 0, info := 3, rsvHi := 0 }) := by decide
/-- Sub-type 4. -/
theorem test_decode_wakeup : okOf (decodeEventWord 0x00000401#32) = some (.evtDevWakeup { rsvLo := 0, info := 0, rsvHi := 0 }) := by decide
/-- Sub-type 7, the reserved bits kept. -/
theorem test_decode_sof : okOf (decodeEventWord 0xFE00F701#32) = some (.evtDevSof { rsvLo := 15, info := 0, rsvHi := 127 }) := by decide
/-- Sub-type 9, `EVTINFO` all ones. -/
theorem test_decode_erratic_error : okOf (decodeEventWord 0x01FF0901#32) = some (.evtDevErraticError { rsvLo := 0, info := 0x1FF, rsvHi := 0 }) := by decide
/-- Sub-type 0xA. -/
theorem test_decode_cmd_cmpl : okOf (decodeEventWord 0x00000A01#32) = some (.evtDevCmdCmpl { rsvLo := 0, info := 0, rsvHi := 0 }) := by decide
/-- Sub-type 0xB, `EVTINFO` 2. -/
theorem test_decode_overflow : okOf (decodeEventWord 0x00020B01#32) = some (.evtDevOverflow { rsvLo := 0, info := 2, rsvHi := 0 }) := by decide
/-- Class 3, port 3. -/
theorem test_decode_auxa : okOf (decodeEventWord 0x00000307#32) = some (.evtAuxa { port := 3, rsv := 0 }) := by decide
/-- Class 4, port 15, the reserved bits kept. -/
theorem test_decode_auxb : okOf (decodeEventWord 0xFFFFFF09#32) = some (.evtAuxb { port := 15, rsv := 0xFFFFF }) := by decide

/-- `CMDACT` (bit 10), code 1; the call asks for `MODIFY` on endpoint 3. -/
theorem test_decode_setepconfig : okOf (decodeCommand 0x00000401#32 0x00010003#32) = some (.depcmdSetepconfig 3 .modify) := by decide
/-- Code 2. -/
theorem test_decode_setxferrsc : okOf (decodeCommand 0x00000402#32 0x00000002#32) = some (.depcmdSetxferrsc 2) := by decide
/-- Code 3. -/
theorem test_decode_getepstate : okOf (decodeCommand 0x00000403#32 0x0000001F#32) = some (.depcmdGetepstate 31) := by decide
/-- Code 4. -/
theorem test_decode_setstall : okOf (decodeCommand 0x00000404#32 0x00000000#32) = some (.depcmdSetstall 0) := by decide
/-- Code 5. -/
theorem test_decode_clearstall : okOf (decodeCommand 0x00000405#32 0x00000004#32) = some (.depcmdClearstall 4) := by decide
/-- Code 6, the frame in `[31:16]`. -/
theorem test_decode_starttransfer : okOf (decodeCommand 0x12380406#32 0x00000502#32) = some (.depcmdStarttransfer 2 5 0x1238) := by decide
/-- Code 7, the resource index in `[22:16]`. -/
theorem test_decode_updatetransfer : okOf (decodeCommand 0x007F0407#32 0x00000002#32) = some (.depcmdUpdatetransfer 2 0x7F) := by decide
/-- Code 9, the resource base. -/
theorem test_decode_depstartcfg : okOf (decodeCommand 0x00020409#32 0x00000000#32) = some (.depcmdDepstartcfg 2) := by decide
/-- Code 8 with `CMDIOC` (bit 8) and `HIPRI_FORCERM` (bit 11). -/
theorem test_decode_endtransfer_ioc : okOf (decodeCommand 0x00030D08#32 0x00000002#32) = some (.depcmdEndtransferIocForcerm 2 3) := by decide
/-- Code 8 with `HIPRI_FORCERM`. -/
theorem test_decode_endtransfer : okOf (decodeCommand 0x00030C08#32 0x00000002#32) = some (.depcmdEndtransferForcerm 2 3) := by decide

/-- `TRBCTL` 1 in `[9:4]`, with `HWO`, `ISP` and `IOC`. -/
theorem test_decode_trb_normal : okOf (decodeDescriptor 0x00000C11#32 0x90000000 0 512 2 7) = some (.trbNormal (trb ctl 512)) := by decide
/-- `TRBCTL` 2 in `[9:4]`, with `HWO`, `ISP` and `IOC`. -/
theorem test_decode_trb_control_setup : okOf (decodeDescriptor 0x00000C21#32 0x90000000 0 512 2 7) = some (.trbControlSetup (trb ctl 512)) := by decide
/-- `TRBCTL` 3 in `[9:4]`, with `HWO`, `ISP` and `IOC`. -/
theorem test_decode_trb_control_status2 : okOf (decodeDescriptor 0x00000C31#32 0x90000000 0 512 2 7) = some (.trbControlStatus2 (trb ctl 512)) := by decide
/-- `TRBCTL` 4 in `[9:4]`, with `HWO`, `ISP` and `IOC`. -/
theorem test_decode_trb_control_status3 : okOf (decodeDescriptor 0x00000C41#32 0x90000000 0 512 2 7) = some (.trbControlStatus3 (trb ctl 512)) := by decide
/-- `TRBCTL` 5 in `[9:4]`, with `HWO`, `ISP` and `IOC`. -/
theorem test_decode_trb_control_data : okOf (decodeDescriptor 0x00000C51#32 0x90000000 0 512 2 7) = some (.trbControlData (trb ctl 512)) := by decide
/-- `TRBCTL` 6 in `[9:4]`, with `HWO`, `ISP` and `IOC`. -/
theorem test_decode_trb_isoc_first : okOf (decodeDescriptor 0x00000C61#32 0x90000000 0 512 2 7) = some (.trbIsocFirst (trb ctl 512)) := by decide
/-- `TRBCTL` 7 in `[9:4]`, with `HWO`, `ISP` and `IOC`. -/
theorem test_decode_trb_isoc : okOf (decodeDescriptor 0x00000C71#32 0x90000000 0 512 2 7) = some (.trbIsoc (trb ctl 512)) := by decide
/-- `TRBCTL` 8 in `[9:4]`, with `HWO`, `ISP` and `IOC`. -/
theorem test_decode_trb_link : okOf (decodeDescriptor 0x00000C81#32 0x90000000 0 512 2 7) = some (.trbLink (trb ctl 512)) := by decide

/-- The reserved class, sub-types, codes and fields are rejected by name (R161, R162). -/
theorem test_decode_reserved :
    errOf (decodeEventWord 0x00000005#32) = some .reservedClass
    ∧ errOf (decodeEventWord 0x00000501#32) = some .reservedDevSubtype
    ∧ errOf (decodeEventWord 0x00000140#32) = some .reservedEpSubtype
    ∧ errOf (decodeCommand 0x0000040A#32 0) = some .reservedCommand
    ∧ errOf (decodeCommand 0x00000402#32 0x20) = some .operandField
    ∧ errOf (decodeDescriptor 0x00000091#32 0 0 0 0 0) = some .reservedDescriptor
    ∧ errOf (decodeDescriptor 0x00000019#32 0 0 0 0 0) = some .reservedField := by decide

/-- A table word of a command row and one of a descriptor row. -/
theorem test_decode_table : decodeTableWord 32 0x402 = some (.depcmdSetxferrsc 0)
    ∧ (decodeTableWord 16 0x10).isSome = true := by decide

/-! ## States -/

/-- An enabled bulk OUT endpoint 2 with packets of 512 bytes and nothing queued. -/
def bulk : Endpoint := { newEp 2 .bulk 512 1 with enabled := true }

/-- EP0's records. -/
def ctrl0 : Endpoint := { newEp 0 .control 512 1 with enabled := true }

/-- EP0's IN record. -/
def ctrl1 : Endpoint := { newEp 1 .control 512 1 with enabled := true }

/-- The reset state with a record. -/
def having (e : Endpoint) : State := State.reset.setEp e.number (some e)

/-- A state with a schedule. -/
def sched (s : State) (l : List (List EnvStep)) : State := s.modEnv fun v => { v with sched := l }

/-- A state whose next turn is `a`. -/
def turnOf (s : State) (a : Act) : State := s.setAgenda [a]

/-- A request of one segment of 512 bytes on endpoint 2. -/
def req : Request := userRequest 2 1 [(0x90000000, 512)] false

/-- A ring whose one descriptor, in slot 254, the silicon has given back with 12 bytes left: the last slot
before the wrap. -/
def doneEp : Endpoint := { bulk with started := [.user 1], deq := 254, enq := 0, xferStarted := true, rsc := some 3 }

/-- Its request. -/
def doneReq : Request := { req with first := some 254, ndesc := 1 }

/-- Its state. -/
def doneState : State :=
  ((having doneEp).addReq doneReq).setMem (Memory.writeWord (Memory.writeWord [] 0x80002FE8 12) 0x80002FEC 0x00000C10)

/-- The setup stage of a `GET_DESCRIPTOR` of 18 bytes, given back by the silicon. -/
def setupStage : State :=
  let e := { ctrl0 with started := [.intSetup], deq := 0, enq := 1, xferStarted := true, rsc := some 0 }
  let m := Memory.writeBytes (Memory.writeWord [] 0x8000000C 0x00000C22) 0x80050000 [0x80, 0x06, 0, 1, 0, 0, 0x12, 0]
  (((having e).addReq { setupRequest Config.standard with first := some 0, ndesc := 1 }).setMem m).modEnv fun v =>
    { v with replies := [.accept] }

/-- The IN data stage of the same transfer, given back with 10 bytes left, the status delayed. -/
def dataStage : State :=
  let e := { ctrl1 with started := [.user 7], deq := 0, enq := 1, xferStarted := true, rsc := some 1 }
  let m := Memory.writeWord (Memory.writeWord [] 0x80001008 10) 0x8000100C 0x00000852
  (((having e).addReq { userRequest 1 7 [(0x90000000, 18)] false with first := some 0, ndesc := 1 }).setMem m).modEp0
    fun c => { c with state := .dataPhase, threeStage := true, dataIn := true, delayed := true, dataReq := some (.user 7) }

/-- A drain with the word `w` at the read offset. -/
def draining (w : Word) : State := State.reset.withFetchWord 32 w.toNat

/-- Endpoint 2 with a pending request, the silicon answering a `STARTTRANSFER` with resource index 5. -/
def readyState : State :=
  sched ((having { bulk with pending := [.user 1] }).addReq req) ([[], [], [], [], [], []] ++ answers 2 0x00050000#32)

/-! ## Witnesses: encodings and steps -/

theorem test_hyp_eventRoundTrip : (∀ r, Event.ep 31 15 15 0xFFFF ≠ .unknown r)
    ∧ ∀ r, decodeEvent 0xFFFFFFFE#32 ≠ .unknown r := by
  refine ⟨fun _ => Event.noConfusion, fun r h => ?_⟩
  have : decodeEvent 0xFFFFFFFE#32 = .ep 31 15 15 0xFFFF := by decide
  rw [this] at h
  exact Event.noConfusion h

theorem test_hyp_decodeEncode : (Instr.trbIsoc (trb ctl 0x00FFFFFF)).wf = true
    ∧ (Instr.depcmdStarttransfer 31 254 0xFFFF).wf = true ∧ (Instr.evtAuxb { port := 15, rsv := 0xFFFFF }).wf = true := by
  decide

theorem test_hyp_decoded :
    okOf (decodeEventWord 0xFFFFFFC1#32) = none ∧ (okOf (decodeEventWord 0xFFFFFDFE#32)).isSome = true := by decide

/-- A drain whose next word is a link change to `U3`, at the buffer's last offset. -/
def drainLink : State := (State.reset.modEvbuf fun b => { b with lpos := 4092 }).withFetchWord 32 0x00030301

theorem test_hyp_stepRunsDrainedEvent : drainLink.run.alive = true ∧ drainLink.run.drain = true
    ∧ Agent.bh ∉ drainLink.run.stopped ∧ drainLink.evbuf.count ≠ 0 ∧ evbufOk drainLink.evbuf = true
    ∧ drainLink.evbuf.lpos = 4092
    ∧ drainLink.cfg.evbufAddr.toNat + drainLink.evbuf.lpos.toNat + 4 ≤ 2 ^ drainLink.cfg.dmaAddrBits
    ∧ decodeEventWord (Memory.readWord (tickState drainLink).mem
        (drainLink.cfg.evbufAddr.toNat + drainLink.evbuf.lpos.toNat))
      = .ok (.evtDevLinkChange { rsvLo := 0, info := 3, rsvHi := 0 }) := by
  refine ⟨?_, ?_, ?_, ?_, ?_, ?_, ?_, rfl⟩ <;> decide +kernel

/-- The drained word runs and is acknowledged: the offset wraps to 0 and the link state is kept. -/
theorem test_step_drained : (after (step drainLink)).map (fun t => (t.link.state, t.evbuf.lpos, t.regs.gevntcount))
    = some (some .u3, 0, 0) := by decide +kernel

theorem test_hyp_consumedWordAcknowledged : Agent.bh ∉ drainLink.run.stopped ∧ drainLink.env.sched = [] := by
  decide +kernel

/-- A turn of `UP(0)` that calls `SETXFERRSC` on endpoint 2. -/
def callState : State := turnOf (having bulk) (.command 0 0x402 2)

/-- A turn of `UP(0)` that calls for a descriptor on ring 2. -/
def descState : State := turnOf (having bulk) (.descriptor 0 0x00000C11 0x90000000 0 512 2 7)

theorem test_hyp_stepRunsCalledInstruction :
    (callState.run.alive = true ∧ (callState.run.drain = true → Agent.bh ∈ callState.run.stopped)
      ∧ callState.env.agenda = [.command 0 0x402 2] ∧ callState.lock = none ∧ Agent.up 0 ∉ callState.run.stopped
      ∧ (∀ w, callState.run.waiter = some w → w.k ≠ 0)
      ∧ decodeWords .command [0x402, 2] = .ok (.depcmdSetxferrsc 2))
    ∧ descState.run.alive = true ∧ (descState.run.drain = true → Agent.bh ∈ descState.run.stopped)
      ∧ descState.env.agenda = [.descriptor 0 0x00000C11 0x90000000 0 512 2 7] ∧ descState.lock = none
      ∧ Agent.up 0 ∉ descState.run.stopped ∧ (∀ w, descState.run.waiter = some w → w.k ≠ 0)
      ∧ decodeWords .descriptor [0x00000C11, 0x90000000, 0, 512, 2, 7] = .ok (.trbNormal (trb ctl 512)) := by
  refine ⟨⟨?_, ?_, ?_, ?_, ?_, ?_, rfl⟩, ?_, ?_, ?_, ?_, ?_, ?_, rfl⟩
  case refine_6 => intro w h; cases h
  case refine_12 => intro w h; cases h
  all_goals decide +kernel

/-! ## Witnesses: the interrupt -/

/-- The buffer enabled with 8 unread bytes. -/
def asserted : State :=
  (State.reset.modEvbuf fun b => { b with enabled := true }).setReg .gevntcount 8

theorem test_hyp_interruptEntry : irq asserted = true ∧ asserted.evbuf.pending = false
    ∧ Agent.th ∉ asserted.run.stopped ∧ asserted.regs.gevntsiz.extractLsb' 16 15 = 0
    ∧ irq State.reset = false := by decide +kernel

/-- The bottom half's turn with the interrupt taken, the count at the buffer's length and a low bit set. -/
def drainTurn : State :=
  turnOf ((asserted.modEvbuf fun b => { b with pending := true }).setReg .gevntcount 4099) .bh

/-- The same turn with the buffer disabled. -/
def idleTurn : State := drainTurn.modEvbuf fun b => { b with enabled := false }

theorem test_hyp_drainStart :
    (drainTurn.run.alive = true ∧ drainTurn.run.drain = false ∧ Agent.bh ∉ drainTurn.run.stopped
      ∧ drainTurn.env.agenda = [.bh] ∧ drainTurn.lock = none ∧ drainTurn.evbuf.pending = true
      ∧ drainTurn.env.sched = [] ∧ drainTurn.evbuf.enabled = true
      ∧ (drainTurn.hwCount &&& 0xFFFC#16).toNat = 4096)
    ∧ idleTurn.run.alive = true ∧ idleTurn.run.drain = false ∧ Agent.bh ∉ idleTurn.run.stopped
      ∧ idleTurn.env.agenda = [.bh] ∧ idleTurn.lock = none ∧ idleTurn.evbuf.pending = true
      ∧ idleTurn.env.sched = [] ∧ idleTurn.evbuf.enabled = false := by decide +kernel

/-- The same turn with the least count above the buffer's length. -/
def overflowTurn : State := drainTurn.setReg .gevntcount 4100

theorem test_hyp_overflowResynchronises : overflowTurn.run.alive = true ∧ overflowTurn.run.drain = false
    ∧ Agent.bh ∉ overflowTurn.run.stopped ∧ overflowTurn.env.agenda = [.bh] ∧ overflowTurn.lock = none
    ∧ overflowTurn.evbuf.pending = true ∧ overflowTurn.env.sched = [] ∧ overflowTurn.evbuf.enabled = true
    ∧ (overflowTurn.hwCount &&& 0xFFFC#16).toNat = 4100 := by decide +kernel

/-- A drain whose words are consumed. -/
def drained : State :=
  ((asserted.modEvbuf fun b => { b with pending := true }).modRun fun u => { u with drain := true }).setLock (some .bh)

theorem test_hyp_interruptReturn : drained.run.alive = true ∧ drained.run.drain = true
    ∧ Agent.bh ∉ drained.run.stopped ∧ drained.evbuf.count = 0 ∧ drained.env.sched = []
    ∧ drained.regs.gevntsiz.extractLsb' 16 15 = 0 := by decide +kernel

theorem test_hyp_probeResult :
    (checkAlloc Config.standard = true ∧ paramsLegal Config.standard = true
      ∧ (({ Regs.reset with ghwparams := #v[0, 0, 0, 0x00002000, 0, 0, 0, 0] } : Regs).ghwparams[3].extractLsb' 12 6).toNat = 2
      ∧ (({ Regs.reset with ghwparams := #v[0, 0, 0, 0x00020000, 0, 0, 0, 0] } : Regs).ghwparams[3].extractLsb' 12 6).toNat
        = 32)
    ∧ checkAlloc { Config.standard with padBufAddr := 0x80040FFC } = false
    ∧ (({ Regs.reset with ghwparams := #v[0, 0, 0, 0x00001000, 0, 0, 0, 0] } : Regs).ghwparams[3].extractLsb' 12 6).toNat = 1
    ∧ (({ Regs.reset with ghwparams := #v[0, 0, 0, 0x00021000, 0, 0, 0, 0] } : Regs).ghwparams[3].extractLsb' 12 6).toNat
      = 33 := by decide +kernel

/-! ## Witnesses: invariants -/

theorem test_hyp_stepKeepsInvariants : (after (step drainLink)).isSome = true ∧ Memory.wf drainLink.mem
    ∧ evbufOk drainLink.evbuf = true ∧ ∀ n, drainLink.ep n = none := by decide +kernel

/-- The role switch's turn with the host role wanted and nothing running. -/
def hostSwitch : State :=
  turnOf (((State.reset.modRole fun r => { r with otgDes := .host, task := .running }).modRun fun u =>
    { u with rt := .afterStop }).modEnv fun v => { v with hostAnswers := [true] }) .rt

theorem test_hyp_stepKeepsRolesExclusive :
    (hostSwitch.dev.running = true → hostSwitch.role.otgCur = .device)
    ∧ (hostSwitch.si.hcRunning = true → hostSwitch.role.otgCur = .host)
    ∧ (hostSwitch.run.rt = .afterStop → hostSwitch.role.otgCur = .idle)
    ∧ (after (step hostSwitch)).map (fun t => (t.faults, t.role.otgCur, t.si.hcRunning)) = some ([], .host, true) := by
  decide +kernel

/-- An instruction of each statement over all of them, and its next state. -/
theorem test_hyp_everyInstruction : Instr.evtDevWakeup { rsvLo := 0, info := 0, rsvHi := 0 }
      ≠ .evtDevLinkChange { rsvLo := 0, info := 0, rsvHi := 0 }
    ∧ exec (.evtDevWakeup { rsvLo := 0, info := 0, rsvHi := 0 }) State.reset = .next (State.reset.note .resume) :=
  ⟨by decide, rfl⟩

/-! ## Witnesses: device and auxiliary events -/

theorem test_hyp_simpleDeviceEvents : 0xFE00F701#32 &&& 0x00000FFF#32 = 0x00000701#32
    ∧ 0x00000A01#32 &&& 0x00000FFF#32 = 0x00000A01#32 ∧ 0x00000401#32 &&& 0x00000FFF#32 = 0x00000401#32
    ∧ 0x01FF0901#32 &&& 0x00000FFF#32 = 0x00000901#32 ∧ 0x00020B01#32 &&& 0x00000FFF#32 = 0x00000B01#32
    ∧ 0xFFFFF307#32 &&& 0xFF#32 = 0x07#32 ∧ 0x00000F09#32 &&& 0xFF#32 = 0x09#32 := by decide

/-- Both EP0 records, super speed reported, both `SETEPCONFIG`s answered. -/
def connecting : State :=
  sched (((having ctrl0).setEp 1 (some ctrl1)).setReg .dsts 0x00000004) ([] :: (answers 0 0 ++ answers 1 0))

theorem test_hyp_connectDoneResult :
    (speedOf (connecting.regs.dsts.extractLsb' 0 3) = some .ss ∧ connecting.ep 0 = some ctrl0 ∧ ctrl0.cmdStuck = false
      ∧ connecting.ep 1 = some ctrl1 ∧ ctrl1.cmdStuck = false
      ∧ connecting.env.sched = [] :: (answers 0 0 ++ answers 1 0 ++ []) ∧ cmdStatus 0 = 0)
    ∧ speedOf ((State.reset.setReg .dsts 0x00000005).regs.dsts.extractLsb' 0 3) = none
      ∧ (State.reset.setReg .dsts 0x00000005).env.sched = [] := by decide +kernel

/-- The setup stage armed and an endpoint that is disabled. -/
def resetState : State := (having { bulk with enabled := false }).modEp0 fun c => { c with state := .setupPhase }

theorem test_hyp_resetEventResult :
    (∀ (n : EpNum) (e : Endpoint), 2 ≤ n.val → resetState.ep n = some e → e.enabled = false)
    ∧ resetState.ep 2 = some { bulk with enabled := false } ∧ resetState.ep0.state = .setupPhase
    ∧ resetState.env.sched = [] := by
  refine ⟨?_, by decide +kernel, by decide +kernel, by decide +kernel⟩
  intro n e _ h
  have key : ∀ n : EpNum, (resetState.ep n).all fun e => !e.enabled := by decide +kernel
  have := key n
  rw [h] at this
  simpa using this

/-! ## Witnesses: endpoint events -/

theorem test_hyp_eventWithoutRecord :
    decodeEventWord 0x0000F7FE#32 = .error .reservedEpSubtype
    ∧ decodeEventWord 0x00000CC6#32 = .ok (.evtEpXfernotready { ep := 3, rsv := 3, status := 0, param := 0 })
    ∧ (0x00000CC6#32).getLsbD 0 = false ∧ State.reset.ep (epNum ((0x00000CC6#32).extractLsb' 1 5)) = none
    ∧ decodeEventWord 0x00000CC2#32 = .ok (.evtEpXfernotreadyEp1 { rsv := 3, status := 0, param := 0 })
    ∧ State.reset.ep (epNum ((0x00000CC2#32).extractLsb' 1 5)) = none := by
  refine ⟨rfl, rfl, ?_, ?_, rfl, ?_⟩ <;> decide +kernel

theorem test_hyp_disabledEndpointDropsEvent :
    decodeEventWord 0x00000044#32 = .ok (.evtEpXfercomplete { ep := 2, rsv := 0, status := 0, param := 0 })
    ∧ (0x00000044#32).getLsbD 0 = false ∧ ((0x00000044#32).extractLsb' 1 5).toNat = 2
    ∧ resetState.ep (epNum ((0x00000044#32).extractLsb' 1 5)) = some { bulk with enabled := false }
    ∧ bulk.endPending = false := by
  refine ⟨rfl, ?_, ?_, ?_, ?_⟩ <;> decide +kernel

theorem test_hyp_endpointEventsWithoutAction : (having bulk).ep (epNum 2) = some bulk
    ∧ (having ctrl0).ep (epNum 0) = some ctrl0 ∧ (having ctrl1).ep 1 = some ctrl1 ∧ ctrl0.started = []
    ∧ ctrl1.started = [] := by decide +kernel

theorem test_hyp_transferEventsRetire : OneDone doneState (epNum 2) doneEp doneReq ∧ doneEp.endPending = false := by
  refine ⟨⟨?_, ?_, ?_, ?_, ?_, ?_, ?_, ?_, ?_, ?_, ?_, ?_, ?_, ?_⟩, ?_⟩
  case refine_12 => unfold SlotInSpace; decide +kernel
  all_goals decide +kernel

theorem test_hyp_xferNotReadyWithoutStart :
    ((having { bulk with endPending := true }).ep (epNum 2) = some { bulk with endPending := true })
    ∧ ((having { bulk with xferStarted := true }).ep (epNum 2) = some { bulk with xferStarted := true })
    ∧ (having { bulk with type := .isoc }).ep (epNum 2) = some { bulk with type := .isoc }
    ∧ bulk.enabled = true ∧ bulk.endPending = false ∧ bulk.xferStarted = false ∧ bulk.pending = []
    ∧ bulk.started = [] := by decide +kernel

theorem test_hyp_xferNotReadyStarts : readyState.ep (epNum 2) = some { bulk with pending := [.user 1] }
    ∧ bulk.enabled = true ∧ bulk.endPending = false ∧ bulk.stalled = false ∧ bulk.xferStarted = false
    ∧ bulk.cmdStuck = false ∧ bulk.type ≠ .isoc ∧ bulk.started = [] ∧ bulk.enq = bulk.deq
    ∧ readyState.req (.user 1) = some req ∧ req.id = .user 1 ∧ need req = 1
    ∧ (descAt readyState.cfg { bulk with pending := [.user 1] } req 0).writable = true
    ∧ SlotInSpace readyState (epNum 2) 0 ∧ slotHwo readyState (epNum 2) 0 = false
    ∧ readyState.env.sched = [] :: [] :: [] :: [] :: [] :: [] :: (answers (epNum 2) 0x00050000#32 ++ [])
    ∧ cmdStatus 0x00050000#32 = 0 := by
  unfold SlotInSpace
  decide +kernel

theorem test_hyp_commandCompletionResult :
    ((having bulk).ep (epNum 2) = some bulk ∧ bulk.endPending = false)
    ∧ (0x0700#16).extractLsb' 8 4 ≠ 0x8 ∧ (0x0800#16).extractLsb' 8 4 = 0x8
    ∧ (having { bulk with endPending := true }).ep (epNum 2) = some { bulk with endPending := true }
    ∧ (having { bulk with endPending := true, enabled := false }).ep (epNum 2)
      = some { bulk with endPending := true, enabled := false }
    ∧ bulk.pending = [] ∧ bulk.started = [] ∧ bulk.cancelled = [] ∧ bulk.enq = bulk.deq
    ∧ (having { bulk with endPending := true }).env.sched = [] := by decide +kernel

/-! ## Witnesses: control transfers -/

/-- The setup stage's record. -/
def setupEp : Endpoint := { ctrl0 with started := [.intSetup], deq := 0, enq := 1, xferStarted := true, rsc := some 0 }

/-- Its request. -/
def setupReq : Request := { setupRequest Config.standard with first := some 0, ndesc := 1 }

theorem test_hyp_setupStageCompletes : StageDone setupStage 0 setupEp setupReq ∧ setupReq.kind = .ep0Setup
    ∧ busErr 0 = false ∧ setupStage.cfg.setupBufAddr.toNat + 8 ≤ 2 ^ setupStage.cfg.dmaAddrBits
    ∧ setupStage.env.replies = [.accept] ∧ SetupReply.accept ≠ .stall
    ∧ wLength (setupAt setupStage.mem setupStage.cfg.setupBufAddr.toNat) = 18 := by
  refine ⟨⟨?_, ?_, ?_, ?_, ?_, ?_, ?_, ?_, ?_, ?_⟩, ?_, ?_, ?_, ?_, ?_, ?_⟩
  case refine_8 => unfold SlotInSpace; decide +kernel
  all_goals decide +kernel

/-- The data stage's record. -/
def dataEp : Endpoint := { ctrl1 with started := [.user 7], deq := 0, enq := 1, xferStarted := true, rsc := some 1 }

/-- Its request. -/
def dataReq : Request := { userRequest 1 7 [(0x90000000, 18)] false with first := some 0, ndesc := 1 }

theorem test_hyp_delayedDataStageCompletes : StageDone dataStage 1 dataEp dataReq ∧ dataReq.kind = .user
    ∧ busErr 2 = false ∧ dataStage.ep0.bounce = false ∧ dataStage.ep0.delayed = true := by
  refine ⟨⟨?_, ?_, ?_, ?_, ?_, ?_, ?_, ?_, ?_, ?_⟩, ?_, ?_, ?_, ?_⟩
  case refine_8 => unfold SlotInSpace; decide +kernel
  all_goals decide +kernel

/-! ## Witnesses: commands -/

/-- Endpoint 2, the silicon answering the next command with `w`. -/
def answering (w : Word) : State := sched (having bulk) (answers 2 w)

/-- A record whose started transfer has resource index 3. -/
def begun (e : Endpoint) : Endpoint := { e with xferStarted := true, rsc := some 3 }

/-- Endpoint 2 with a started transfer, the silicon answering the next command with success. -/
def ending : State := sched (having (begun bulk)) (answers 2 0)

/-- The same with the record disabled, and on endpoint 1. -/
def endingOff : State := sched (having (begun { bulk with enabled := false })) (answers 2 0)

/-- A started stage on EP0's IN record. -/
def ending1 : State := sched (having (begun ctrl1)) (answers 1 0)

/-- A posted data stage on EP0's IN record, its transfer started. -/
def endingStage : State := sched dataStage (answers 1 0)

theorem test_hyp_commandsComplete :
    ((answering 0x007F0000#32).ep (epNum 2) = some bulk ∧ bulk.cmdStuck = false
      ∧ (answering 0x007F0000#32).env.sched = answers (epNum 2) 0x007F0000#32 ++ [] ∧ cmdStatus 0x007F0000#32 = 0)
    ∧ ending.ep (epNum 2) = some (begun bulk) ∧ endingOff.ep (epNum 2) = some (begun { bulk with enabled := false })
    ∧ ending1.ep (epNum 1) = some (begun ctrl1) ∧ ending.env.sched = answers (epNum 2) 0 ++ []
    ∧ endingOff.env.sched = answers (epNum 2) 0 ++ [] ∧ ending1.env.sched = answers (epNum 1) 0 ++ []
    ∧ (begun bulk).rsc = some 3 ∧ (begun bulk).endPending = false ∧ (begun bulk).enq = (begun bulk).deq
    ∧ bulk.pending = [] ∧ bulk.started = [] ∧ bulk.cancelled = [] ∧ ctrl1.started = [] ∧ (254#8).toNat < 255
    ∧ (endingStage.ep (epNum 1) = some dataEp ∧ dataEp.cmdStuck = false ∧ dataEp.xferStarted = true
      ∧ dataEp.rsc = some 1 ∧ dataEp.pending = [] ∧ dataEp.started = [dataReq.id] ∧ dataEp.cancelled = []
      ∧ dataEp.enq = adv dataEp.deq ∧ endingStage.req dataReq.id = some dataReq ∧ dataReq.ep = epNum 1
      ∧ SlotInSpace endingStage (epNum 1) dataEp.deq.val ∧ endingStage.env.sched = answers (epNum 1) 0 ++ []
      ∧ ctrlWritable (Memory.readWord endingStage.mem (endingStage.slotAddr (epNum 1) dataEp.deq.val + 12)) = true) := by
  unfold SlotInSpace
  decide +kernel

theorem test_hyp_getEpStateCompletes :
    Commandable (sched (having bulk) [[], [], [], [], [.epState 2 9, .cmdDone 2 0], []]) (epNum 2) ∧ cmdStatus 0 = 0
    ∧ (sched (having bulk) [[], [], [], [], [.epState 2 9, .cmdDone 2 0], []]).env.sched
      = [] :: [] :: [] :: [] :: [.epState (epNum 2) 9, .cmdDone (epNum 2) 0] :: [] :: [] :=
  ⟨⟨bulk, by decide +kernel⟩, by decide +kernel, by decide +kernel⟩

/-- Endpoint 0, the silicon answering its next command. -/
def answering0 : State := sched (having ctrl0) (answers 0 0)

theorem test_hyp_depStartCfgCompletes : (∀ n e, answering0.ep n = some e → e.cmdStuck = false)
    ∧ (answering0.ep 0).isSome = true ∧ answering0.env.sched = answers 0 0 ++ [] ∧ cmdStatus 0 = 0 := by
  refine ⟨?_, by decide +kernel, by decide +kernel, by decide +kernel⟩
  intro n e h
  have key : ∀ n : EpNum, (answering0.ep n).all fun e => !e.cmdStuck := by decide +kernel
  have := key n
  rw [h] at this
  simpa using this

/-- A timed-out command on endpoint 2 that is still active. -/
def stuck : State := (having { bulk with cmdStuck := true }).setReg (.depcmd 2) 0x402

/-- The same with a started transfer. -/
def stuckBegun : State := (having (begun { bulk with cmdStuck := true })).setReg (.depcmd 2) 0x402

/-- A started transfer whose end is awaited. -/
def endAwaited : State := having { begun bulk with endPending := true }

theorem test_hyp_commandsTurnedAway :
    (stuck.env.sched = [] ∧ stuck.ep (epNum 2) = some { bulk with cmdStuck := true }
      ∧ cmdActive stuck.regs.depcmd[epNum 2] = true)
    ∧ (stuckBegun.env.sched = [] ∧ stuckBegun.ep (epNum 2) = some (begun { bulk with cmdStuck := true })
      ∧ cmdActive stuckBegun.regs.depcmd[epNum 2] = true ∧ (begun bulk).rsc = some 3)
    ∧ (having bulk).ep (epNum 2) = some bulk ∧ bulk.xferStarted = false
    ∧ ending.ep (epNum 2) = some (begun bulk) ∧ (begun bulk).rsc ≠ some 4
    ∧ endAwaited.ep (epNum 2) = some { begun bulk with endPending := true }
    ∧ State.reset.ep (epNum 31) = none := by decide +kernel

theorem test_hyp_unansweredCommandTimesOut : Commandable (having bulk) (epNum 2) ∧ (having bulk).env.sched = [] :=
  ⟨⟨bulk, by decide +kernel⟩, by decide +kernel⟩

/-- Endpoint 2, the silicon answering three commands with failures. -/
def failing : State :=
  sched (having bulk) (answers 2 0x1000#32 ++ answers 2 0x2000#32 ++ answers 2 0xF000#32)

theorem test_hyp_failingCommandTriedThreeTimes : Commandable failing (epNum 2)
    ∧ failing.env.sched = answers (epNum 2) 0x1000#32 ++ answers (epNum 2) 0x2000#32 ++ answers (epNum 2) 0xF000#32
    ∧ cmdStatus 0x1000#32 ≠ 0 ∧ cmdStatus 0x2000#32 ≠ 0 ∧ cmdStatus 0xF000#32 ≠ 0 :=
  ⟨⟨bulk, by decide +kernel⟩, by decide +kernel⟩

/-! ## Witnesses: descriptors and accounting -/

/-- Ring 2 at its last usable slot. -/
def lastEp : Endpoint := { bulk with enq := 254, deq := 254 }

/-- Its state. -/
def lastSlot : State := having lastEp

/-- The same ring, the slot hardware-owned. -/
def ownedSlot : State := lastSlot.setMem (Memory.writeWord [] 0x80002FEC 1)

/-- The ring with one descriptor of request 7 on it. -/
def oneEp : Endpoint := { bulk with enq := 1, started := [.user 7] }

/-- Its state. -/
def onePosted : State := (having oneEp).addReq { userRequest 2 7 [(0x90000000, 512)] false with first := some 0, ndesc := 1 }

/-- A full ring. -/
def fullEp : Endpoint := { bulk with enq := 254 }

/-- Ring 2 with a request of endpoint 4 that has the id 7. -/
def idElsewhere : State := lastSlot.addReq (userRequest 4 7 [(0x90000000, 512)] false)

/-- The operands of an EP0 stage's descriptor on ring `n`, for request 7: `HWO`, `LST`, `IOC`. -/
def stageTrb (n : BitVec 5) (isp : Bool) (bpl size : Word) : TrbFields :=
  { ep := n, req := 7, ctrl := { ctl with lst := true, isp := isp }, bpl := bpl, bph := 0, size := size }

/-- EP0 with no stage posted. -/
def ep0Free : State := (having ctrl0).setEp 1 (some ctrl1)

/-- A three-stage IN transfer that waits for its data. -/
def dataWaits : State :=
  ep0Free.modEp0 fun c => { c with state := .dataPhase, threeStage := true, dataIn := true, mps := 512 }

/-- A transfer that waits for its status stage. -/
def statusWaits (three : Bool) : State :=
  ep0Free.modEp0 fun c => { c with state := .statusPhase, threeStage := three, delayed := true }

/-- The setup buffer's descriptor on ring 0. -/
def setupTrb : TrbFields := stageTrb 0 true 0x80050000 8

/-- The status stage's descriptor on ring 1. -/
def statusTrb : TrbFields := stageTrb 1 false 0x80050000 0

/-- The data stage's descriptor on ring 1. -/
def dataTrb : TrbFields := stageTrb 1 false 0x90000000 18

theorem test_hyp_descriptorsWritten : (ringTyp .normal = true ∧ 2 ≤ (epNum (trb ctl 512).ep).val
      ∧ (trb ctl 512).reservedZero = true)
    ∧ (lastSlot.ep (epNum (trb ctl 512).ep) = some lastEp ∧ lastEp.endPending = false ∧ 0 < freeSlots lastEp
      ∧ SlotInSpace lastSlot (epNum (trb ctl 512).ep) 254 ∧ slotHwo lastSlot (epNum (trb ctl 512).ep) 254 = false
      ∧ lastSlot.env.sched = [] ∧ lastSlot.req (.user (trb ctl 512).req) = none)
    ∧ (onePosted.ep (epNum (trb ctl 512).ep) = some oneEp ∧ oneEp.endPending = false ∧ 0 < freeSlots oneEp
      ∧ SlotInSpace onePosted (epNum (trb ctl 512).ep) 1 ∧ slotHwo onePosted (epNum (trb ctl 512).ep) 1 = false
      ∧ onePosted.env.sched = []
      ∧ (onePosted.req (.user (trb ctl 512).req)).map (fun r => (r.id, r.kind, r.ep, r.extra))
        = some (.user 7, .user, 2, .none)
      ∧ oneEp.started.getLast? = some (.user 7))
    ∧ ((having fullEp).ep (epNum (trb ctl 512).ep) = some fullEp ∧ freeSlots fullEp = 0)
    ∧ endAwaited.ep (epNum (trb ctl 512).ep) = some { begun bulk with endPending := true }
    ∧ (idElsewhere.ep (epNum (trb ctl 512).ep) = some lastEp
      ∧ (idElsewhere.req (.user (trb ctl 512).req)).map (fun r => r.ep) = some 4)
    ∧ ringTyp .controlData = false := by
  unfold SlotInSpace
  decide +kernel

theorem test_hyp_descriptorsWrittenEp0 :
    (∀ n : EpNum, n.val < 2 → ep0Free.ep n = some (if n = 0 then ctrl0 else ctrl1) ∧ SlotInSpace ep0Free n 0
      ∧ slotHwo ep0Free n 0 = false)
    ∧ (ctrl0.endPending = false ∧ 0 < freeSlots ctrl0 ∧ ctrl0.enq = 0 ∧ ctrl1.enq = 0 ∧ stagesIdle ep0Free = true
      ∧ ep0Free.env.sched = [] ∧ ep0Free.req .intSetup = none ∧ ep0Free.req .intStatus = none
      ∧ ep0Free.req (.user 7) = none)
    ∧ (epNum setupTrb.ep = 0 ∧ descOf .controlSetup setupTrb = mkSetup ep0Free.cfg)
    ∧ (dataWaits.ep0.dataReq = none ∧ dataWaits.ep0.dataIn = true ∧ epNum dataTrb.ep = 1
      ∧ descOf .controlData dataTrb = mkData (trbSeg dataTrb).1 (trbSeg dataTrb).2 false)
    ∧ ((statusWaits false).ep0.statusIssued = false ∧ epNum statusTrb.ep = statusEp false false
      ∧ epNum statusTrb.ep = statusEp true false ∧ descOf .controlStatus2 statusTrb = mkStatus ep0Free.cfg false
      ∧ descOf .controlStatus3 statusTrb = mkStatus ep0Free.cfg true)
    ∧ stagesIdle setupStage = false
    ∧ stageLegal ep0Free.cfg ep0Free.ep0 0 .controlSetup statusTrb = false := by
  unfold SlotInSpace
  decide +kernel

/-- The operands of ring 2's link descriptor: `HWO`, back to slot 0. -/
def linkTrb : TrbFields :=
  { ep := 2, req := 0, bpl := 0x80002000, bph := 0, size := 0,
    ctrl := { ctl with isp := false, ioc := false } }

/-- Ring 2 of an endpoint without a record, its link slot hardware-owned. -/
def ownedLink : State := State.reset.setMem (Memory.writeWord [] 0x80002FFC 0x81)

theorem test_hyp_linkDescriptorWritten : descOf .link linkTrb = mkLink State.reset.cfg (epNum linkTrb.ep)
    ∧ SlotInSpace State.reset (epNum linkTrb.ep) 255 ∧ State.reset.env.sched = []
    ∧ slotHwo State.reset (epNum linkTrb.ep) 255 = false ∧ State.reset.ep (epNum linkTrb.ep) = none
    ∧ (having { bulk with enabled := false }).ep (epNum linkTrb.ep) = some { bulk with enabled := false }
    ∧ descOf .link (trb ctl 0) ≠ mkLink State.reset.cfg (epNum (trb ctl 0).ep) := by
  unfold SlotInSpace
  decide +kernel

/-- EP0 with no stage posted and the next slot of ring 0 hardware-owned. -/
def ownedStage : State := ep0Free.setMem (Memory.writeWord [] 0x8000000C 1)

theorem test_hyp_hardwareOwnedSlotNotOverwritten :
    (ownedSlot.ep (epNum (trb ctl 512).ep) = some lastEp ∧ lastEp.endPending = false ∧ 0 < freeSlots lastEp
      ∧ ownedSlot.req (.user (trb ctl 512).req) = none ∧ 2 ≤ (epNum (trb ctl 512).ep).val
      ∧ ringTyp .normal = true
      ∧ SlotInSpace ownedSlot (epNum (trb ctl 512).ep) 254 ∧ slotHwo ownedSlot (epNum (trb ctl 512).ep) 254 = true
      ∧ ownedSlot.env.sched = [])
    ∧ (ownedStage.ep (epNum setupTrb.ep) = some ctrl0 ∧ ctrl0.endPending = false ∧ 0 < freeSlots ctrl0
      ∧ stagesIdle ownedStage = true ∧ ownedStage.req .intSetup = none
      ∧ stageLegal ownedStage.cfg ownedStage.ep0 (epNum setupTrb.ep) .controlSetup setupTrb = true
      ∧ SlotInSpace ownedStage (epNum setupTrb.ep) 0 ∧ slotHwo ownedStage (epNum setupTrb.ep) 0 = true
      ∧ ownedStage.env.sched = [])
    ∧ (descOf .link linkTrb = mkLink ownedLink.cfg (epNum linkTrb.ep) ∧ SlotInSpace ownedLink (epNum linkTrb.ep) 255
      ∧ ownedLink.env.sched = [] ∧ slotHwo ownedLink (epNum linkTrb.ep) 255 = true)
    ∧ (having bulk).ep (epNum linkTrb.ep) = some bulk ∧ bulk.enabled = true := by
  unfold SlotInSpace
  decide +kernel

theorem test_hyp_outstandingCount : freeSlots bulk = 254 ∧ outstanding { bulk with enq := 254 } = 254
    ∧ outstanding { bulk with enq := 3, deq := 254 } = 4 := by decide

theorem test_hyp_actualAtMostLength : req.length = (req.segs.map fun s => s.2).sum := by decide

theorem test_hyp_isocStartFrame : isocStartFrame { bulk with interval := 1, isocFrame := 0x1234 } = 0x1238
    ∧ isocStartFrame { bulk with interval := 16, isocFrame := 0x8123 } = 0 := by decide +kernel

/-- Requests of 513 bytes on endpoint 2, and of 512 bytes with a zero packet asked for on endpoint 3. -/
def padded : Request := { userRequest 2 1 [(0x90000000, 513)] false with extra := .pad }

/-- The second of them. -/
def zeroEnded : Request := { userRequest 3 1 [(0x90000000, 512)] true with extra := .zlp }

theorem test_hyp_outBuffersAreWholePackets :
    (bulk.type = .bulk ∧ bulk.number.val % 2 = 0 ∧ 0 < bulk.maxpacket.toNat
      ∧ padded.extra = needsExtra bulk padded.length padded.zero ∧ req.extra = needsExtra bulk req.length req.zero
      ∧ bufSiz (descAt Config.standard bulk padded 1).size = 511)
    ∧ (newEp 3 .bulk 512 1).number.val % 2 = 1
    ∧ zeroEnded.extra = needsExtra (newEp 3 .bulk 512 1) zeroEnded.length zeroEnded.zero
    ∧ needsExtra bulk 0 false = .pad := by decide +kernel

/-! ## Witnesses: upstream operations and the arbiter -/

theorem test_hyp_cancelPendingAtOnce : readyState.ep 2 = some { bulk with pending := [.user 1] }
    ∧ readyState.req req.id = some req ∧ req.ep = 2 ∧ req.id ∈ [ReqId.user 1] ∧ req.kind = .user := by decide +kernel

theorem test_hyp_wedgeHoldsStall : physOf 0x01 = some 2 ∧ physOf 0x8F = some 31
    ∧ (having { bulk with stalled := true, wedged := true }).ep 2 = some { bulk with stalled := true, wedged := true }
    ∧ bulk.enabled = true := by decide +kernel

/-- A link wait for `SS_DISABLED` with one poll left. -/
def waiting : Waiter := { k := 0, target := .ssDisabled, seq0 := 0, left := 1 }

/-- The device role running, with a link state after `n` changes. -/
def linked (st : Option LinkState) (n : BitVec 32) : State :=
  (State.reset.modDev fun d => { d with running := true }).modLink fun l => { l with state := st, seq := n }

theorem test_hyp_linkWaitResult : waitResult State.reset waiting = some (.err (.linkMismatch none))
    ∧ waitResult (linked (some .ssDisabled) 1) waiting = some .ok
    ∧ waitResult (linked (some .u0) 1) waiting = some (.err (.linkMismatch (some .u0)))
    ∧ waitResult (linked (some .u0) 0) waiting = some (.err .linkTimeout)
    ∧ waitResult (linked (some .polling) 1) { waiting with left := 2 } = none := by decide

/-- The role switch's turn to a host start that fails. -/
def hostFails : State := hostSwitch.modEnv fun v => { v with hostAnswers := [false] }

theorem test_hyp_hostStartFailureLeavesIdle : hostFails.run.alive = true ∧ hostFails.run.drain = false
    ∧ Agent.rt ∉ hostFails.run.stopped ∧ hostFails.env.agenda = [.rt] ∧ hostFails.lock = none
    ∧ hostFails.env.sched = [] ∧ hostFails.run.rt = .afterStop ∧ hostFails.role.otgCur = .idle
    ∧ hostFails.role.otgDes = .host ∧ hostFails.env.hostAnswers = [false] ∧ hostFails.env.hostSteps = [] := by decide +kernel

/-! ## One step of each instruction -/

theorem test_exec_xfercomplete : seen (.evtEpXfercomplete { ep := 2, rsv := 0, status := 0, param := 0 }) doneState
    (fun t => (t.upQueue, t.reqs.length, (t.ep 2).map fun e => e.xferStarted))
    = some ([.complete (.user 1) .short 500], 0, some false) := by decide +kernel

theorem test_exec_xferinprogress : seen (.evtEpXferinprogress { ep := 2, rsv := 0, status := 1, param := 0 }) doneState
    (fun t => (t.upQueue, (t.ep 2).map fun e => (e.deq, e.xferStarted, e.rsc)))
    = some ([.complete (.user 1) .busError 500], some (0, true, some 3)) := by decide +kernel

theorem test_exec_xfernotready : seen (.evtEpXfernotready { ep := 2, rsv := 0, status := 0, param := 0 }) readyState
    (fun t => (Memory.readWord t.mem 0x80002000, Memory.readWord t.mem 0x80002008, Memory.readWord t.mem 0x8000200C,
      (t.ep 2).map fun e => e.rsc)) = some (0x90000000, 512, 0x00000C11, some (some 5)) := by decide +kernel

theorem test_exec_rxtxfifo : seen (.evtEpRxtxfifo { ep := 2, rsv := 0, status := 0, param := 0 }) (having bulk)
    (fun t => decide (t = having bulk)) = some true := by decide +kernel

theorem test_exec_stream : seen (.evtEpStream { ep := 2, rsv := 0, status := 1, param := 0 }) (having bulk)
    (fun t => decide (t = having bulk)) = some true := by decide +kernel

theorem test_exec_epcmdcmplt : seen (.evtEpEpcmdcmplt { ep := 2, rsv := 0, status := 1, param := 0x0800 })
    ((having { bulk with endPending := true, enabled := false }).setReg .dalepena 0x0000000F)
    (fun t => (t.ep 2, t.regs.dalepena, t.upQueue))
    = some (none, 0x0000000B, [.code .cmdFailed (.epStatus 2 1)]) := by decide +kernel

theorem test_exec_xfercomplete_ep0 : seen (.evtEpXfercompleteEp0 { rsv := 0, status := 0, param := 0 }) setupStage
    (fun t => (t.ep0.state, t.ep0.threeStage, t.ep0.dataIn, t.upQueue))
    = some (.dataPhase, true, true, [.setup #v[0x80, 0x06, 0, 1, 0, 0, 0x12, 0]]) := by decide +kernel

theorem test_exec_xfernotready_ep0 : seen (.evtEpXfernotreadyEp0 { rsv := 0, status := 1, param := 0 }) (having ctrl0)
    (fun t => t.upQueue) = some [] := by decide +kernel

theorem test_exec_xfercomplete_ep1 : seen (.evtEpXfercompleteEp1 { rsv := 0, status := 0, param := 0 }) dataStage
    (fun t => (t.ep0.state, t.upQueue)) = some (.statusPhase, [.complete (.user 7) .short 8]) := by decide +kernel

theorem test_exec_xfernotready_ep1 : seen (.evtEpXfernotreadyEp1 { rsv := 3, status := 2, param := 0 }) State.reset
    (fun t => t.upQueue) = some [.code .unknownEvent (.word 0x000020C2)] := by decide +kernel

theorem test_exec_disconnect : seen (.evtDevDisconnect { rsvLo := 0, info := 0, rsvHi := 0 })
    (State.reset.modDev fun d => { d with connected := true, speed := some .hs })
    (fun t => (t.dev.connected, t.dev.speed, t.upQueue)) = some (false, none, [.disconnect]) := by decide +kernel

theorem test_exec_reset : seen (.evtDevReset { rsvLo := 0, info := 0, rsvHi := 0 })
    (resetState.setReg .dcfg 0x000003FC) (fun t => (t.regs.dcfg, t.upQueue)) = some (0x00000004, [.reset]) := by
  decide +kernel

theorem test_exec_connect_done : seen (.evtDevConnectDone { rsvLo := 0, info := 0, rsvHi := 0 }) connecting
    (fun t => (t.dev.speed, t.ep0.mps, t.regs.depcmdpar0[0], t.upQueue))
    = some (some .ss, 512, 0x80001000, [.connect .ss]) := by decide +kernel

theorem test_exec_link_change : seen (.evtDevLinkChange { rsvLo := 0, info := 3, rsvHi := 0 }) (linked (some .u0) 7)
    (fun t => (t.link, t.upQueue)) = some ({ state := some .u3, prev := some .u0, seq := 8, req := none }, [.suspend]) := by
  decide +kernel

theorem test_exec_wakeup : seen (.evtDevWakeup { rsvLo := 0, info := 0, rsvHi := 0 }) State.reset
    (fun t => t.upQueue) = some [.resume] := by decide +kernel

theorem test_exec_sof : seen (.evtDevSof { rsvLo := 0, info := 0, rsvHi := 0 }) State.reset
    (fun t => t.upQueue) = some [] := by decide +kernel

theorem test_exec_erratic : seen (.evtDevErraticError { rsvLo := 0, info := 0x1FF, rsvHi := 0 }) State.reset
    (fun t => t.upQueue) = some [.code .erratic (.info9 0x1FF)] := by decide +kernel

theorem test_exec_cmd_cmpl : seen (.evtDevCmdCmpl { rsvLo := 0, info := 0, rsvHi := 0 }) State.reset
    (fun t => t.upQueue) = some [] := by decide +kernel

theorem test_exec_overflow : seen (.evtDevOverflow { rsvLo := 0, info := 2, rsvHi := 0 }) drainLink
    (fun t => (t.evbuf.lpos, t.upQueue)) = some (4092, [.code .devOverflow (.info9 2)]) := by decide +kernel

theorem test_exec_auxa : seen (.evtAuxa { port := 3, rsv := 0 }) State.reset
    (fun t => t.upQueue) = some [.code .auxEvent (.word 0x00000307)] := by decide +kernel

theorem test_exec_auxb : seen (.evtAuxb { port := 15, rsv := 0xFFFFF }) State.reset
    (fun t => t.upQueue) = some [.code .auxEvent (.word 0xFFFFFF09)] := by decide +kernel

/-- Bulk is 2 in `[2:1]`, 512 in `[13:3]`, `MODIFY` in `[31:30]`; `[8]`, `[9]` and the number in `[29:25]`. -/
theorem test_exec_setepconfig : seen (.depcmdSetepconfig 2 .modify) (answering 0)
    (fun t => (t.regs.depcmdpar0[2], t.regs.depcmdpar1[2], t.regs.depcmdpar2[2], t.run.ret))
    = some (0x80001004, 0x04000300, 0, some (.word 0)) := by decide +kernel

theorem test_exec_setxferrsc : seen (.depcmdSetxferrsc 2) (answering 0)
    (fun t => (t.regs.depcmdpar0[2], t.regs.depcmd[2])) = some (1, 0) := by decide +kernel

theorem test_exec_getepstate : seen (.depcmdGetepstate 2) (sched (having bulk)
    [[], [], [], [], [.epState 2 9, .cmdDone 2 0], []]) (fun t => t.run.ret) = some (some (.word 9)) := by decide +kernel

theorem test_exec_setstall : seen (.depcmdSetstall 2) (answering 0)
    (fun t => (t.ep 2).map fun e => e.stalled) = some (some true) := by decide +kernel

theorem test_exec_setstall_failed : seen (.depcmdSetstall 2) failing
    (fun t => ((t.ep 2).map fun e => e.stalled, t.run.ret))
    = some (some false, some (.err (.cmdFailed 2 15))) := by decide +kernel

theorem test_exec_clearstall : seen (.depcmdClearstall 2)
    (sched (having { bulk with stalled := true, wedged := true }) (answers 2 0))
    (fun t => (t.ep 2).map fun e => (e.stalled, e.wedged)) = some (some (false, false)) := by decide +kernel

theorem test_exec_starttransfer : seen (.depcmdStarttransfer 2 5 0x1238) (answering 0x00050000#32)
    (fun t => (t.regs.depcmdpar0[2], t.regs.depcmdpar1[2], (t.ep 2).map fun e => e.rsc, t.si.rings[2].slot))
    = some (0, 0x80002050, some (some 5), some 5) := by decide +kernel

theorem test_exec_updatetransfer : seen (.depcmdUpdatetransfer 2 3) (sched (having (begun bulk)) (List.replicate 4 []))
    (fun t => (t.regs.depcmd[2], t.run.ret)) = some (0x00030407, some (.err (.cmdTimeout 2))) := by decide +kernel

theorem test_exec_depstartcfg : seen (.depcmdDepstartcfg 2) answering0
    (fun t => (t.dev.startCfgDone, t.run.ret)) = some (true, some (.word 0)) := by decide +kernel

theorem test_exec_endtransfer_ioc : seen (.depcmdEndtransferIocForcerm 2 3) ending
    (fun t => (t.ep 2).map fun e => (e.endPending, e.xferStarted)) = some (some (true, true)) := by decide +kernel

theorem test_exec_endtransfer : seen (.depcmdEndtransferForcerm 2 3) ending
    (fun t => (t.run.ret, (t.ep 2).map fun e => (e.endPending, e.xferStarted, e.rsc)))
    = some (some (.word 0), some (false, false, none)) := by decide +kernel

/-- On EP0 the end of a ring without a stage leaves the stage of the other ring (R33, R42). -/
theorem test_exec_endtransfer_other_ring :
    seen (.depcmdEndtransferForcerm 0 3) (sched (dataStage.setEp 0 (some (begun ctrl0))) (answers 0 0))
      (fun t => (t.run.ret, t.ep0.dataReq, (t.ep 0).map fun e => e.xferStarted, (t.ep 1).map fun e => e.started))
    = some (some (.word 0), some (.user 7), some false, some [.user 7]) := by decide +kernel

theorem test_exec_trb_normal : seen (.trbNormal (trb ctl 512)) lastSlot
    (fun t => ([0x80002FE0, 0x80002FE8, 0x80002FEC].map (Memory.readWord t.mem), (t.ep 2).map fun e => (e.enq, e.started)))
    = some ([0x90000000, 512, 0x00000C11], some (0, [.user 7])) := by decide +kernel

/-- R332: as `arm_setup` posts it, `C.ep0` as it leaves it. -/
theorem test_exec_trb_control_setup : seen (.trbControlSetup setupTrb) (statusWaits true)
    (fun t => ([0x80000000, 0x80000008, 0x8000000C].map (Memory.readWord t.mem),
      (t.ep 0).map fun e => (e.enq, e.started), t.ep0.state, t.ep0.delayed))
    = some ([0x80050000, 8, 0x00000C23], some (1, [.intSetup]), .setupPhase, false) := by decide +kernel

/-- R344, R347: as `resume_status` posts it. -/
theorem test_exec_trb_control_status2 : seen (.trbControlStatus2 statusTrb) (statusWaits false)
    (fun t => ([0x80001000, 0x80001008, 0x8000100C].map (Memory.readWord t.mem),
      (t.ep 1).map fun e => (e.enq, e.started), t.ep0.statusIssued, t.ep0.delayed))
    = some ([0x80050000, 0, 0x00000833], some (1, [.intStatus]), true, false) := by decide +kernel

/-- R344, R347: of a three-stage OUT transfer. -/
theorem test_exec_trb_control_status3 : seen (.trbControlStatus3 statusTrb) (statusWaits true)
    (fun t => ([0x80001000, 0x80001008, 0x8000100C].map (Memory.readWord t.mem),
      (t.ep 1).map fun e => (e.enq, e.started), t.ep0.statusIssued, t.ep0.delayed))
    = some ([0x80050000, 0, 0x00000843], some (1, [.intStatus]), true, false) := by decide +kernel

/-- R337, R338: as `ep0_submit` posts it. -/
theorem test_exec_trb_control_data : seen (.trbControlData dataTrb) dataWaits
    (fun t => ([0x80001000, 0x80001008, 0x8000100C].map (Memory.readWord t.mem),
      (t.ep 1).map fun e => (e.enq, e.started), t.ep0.dataReq))
    = some ([0x90000000, 18, 0x00000853], some (1, [.user 7]), some (.user 7)) := by decide +kernel

theorem test_exec_trb_isoc_first : seen (.trbIsocFirst (trb ctl 512)) lastSlot
    (fun t => ([0x80002FE0, 0x80002FE8, 0x80002FEC].map (Memory.readWord t.mem), (t.ep 2).map fun e => (e.enq, e.started)))
    = some ([0x90000000, 512, 0x00000C61], some (0, [.user 7])) := by decide +kernel

theorem test_exec_trb_isoc : seen (.trbIsoc (trb ctl 512)) lastSlot
    (fun t => ([0x80002FE0, 0x80002FE8, 0x80002FEC].map (Memory.readWord t.mem), (t.ep 2).map fun e => (e.enq, e.started)))
    = some ([0x90000000, 512, 0x00000C71], some (0, [.user 7])) := by decide +kernel

theorem test_exec_trb_link : seen (.trbLink linkTrb) (having { bulk with enabled := false })
    (fun t => (Memory.readWord t.mem 0x80002FF0, Memory.readWord t.mem 0x80002FFC, (t.ep 2).map fun e => e.enq))
    = some (0x80002000, 0x00000081, some 0) := by decide +kernel

end Sys2Proof.Tests
end

section
/-!
PROOFS. The turns of the schedule (R468, R472): which turn a step gives, and what a direct call's turn runs.
-/

namespace Sys2Proof.Machine

section
variable {s : State} {a : Act} {k : Nat} {i : Instr} {rest : List Act}

/-! ## A turn that is a direct call -/

theorem callInstr_of_decodeWords {fmt : Format} {ws : List Word} (h : decodeWords fmt ws = .ok i) :
    callInstr fmt ws = some i := by
  simp only [callInstr, h]

theorem actCall_command {w op : Word} (h : decodeWords .command [w, op] = .ok i) :
    actCall (.command k w op) = some (k, i) := by
  simp only [actCall, callInstr_of_decodeWords h, Option.map_some]

theorem actCall_descriptor {ctrl bpl bph size op req : Word}
    (h : decodeWords .descriptor [ctrl, bpl, bph, size, op, req] = .ok i) :
    actCall (.descriptor k ctrl bpl bph size op req) = some (k, i) := by
  simp only [actCall, callInstr_of_decodeWords h, Option.map_some]

/-- Only the two call forms run an instruction, each for the caller it names. -/
theorem exists_call_of_actCall (h : actCall a = some (k, i)) :
    (∃ w op, a = .command k w op) ∨ ∃ ctrl bpl bph size op req, a = .descriptor k ctrl bpl bph size op req := by
  cases a with
  | command k' w op =>
    obtain ⟨j, -, hj⟩ := Option.map_eq_some_iff.mp h
    cases hj
    exact .inl ⟨w, op, rfl⟩
  | descriptor k' ctrl bpl bph size op req =>
    obtain ⟨j, -, hj⟩ := Option.map_eq_some_iff.mp h
    cases hj
    exact .inr ⟨ctrl, bpl, bph, size, op, req, rfl⟩
  | env | bh | rt | ext | up | poll | remove => cases h

theorem actAgent_of_actCall (h : actCall a = some (k, i)) : actAgent s a = .up k := by
  obtain ⟨w, op, rfl⟩ | ⟨ctrl, bpl, bph, size, op, req, rfl⟩ := exists_call_of_actCall h <;> rfl

theorem actEnabled_of_actCall (h : actCall a = some (k, i)) : actEnabled s a = true := by
  obtain ⟨w, op, rfl⟩ | ⟨ctrl, bpl, bph, size, op, req, rfl⟩ := exists_call_of_actCall h <;> rfl

theorem callerWaiting_of_actCall (h : actCall a = some (k, i)) :
    callerWaiting s a = s.run.waiter.any fun w => w.k == k := by
  obtain ⟨w, op, rfl⟩ | ⟨ctrl, bpl, bph, size, op, req, rfl⟩ := exists_call_of_actCall h <;> rfl

/-- A caller that is not the link request's waiter is not kept waiting (R8). -/
theorem callerWaiting_eq_false (h : actCall a = some (k, i)) (hw : ∀ w, s.run.waiter = some w → w.k ≠ k) :
    callerWaiting s a = false := by
  rw [callerWaiting_of_actCall h, Option.any_eq_false]
  exact fun w hs => by simpa using hw w hs

/-! ## From the step to the call -/

/-- Outside a drain, or with the bottom half stopped inside one, a step is the agenda's next turn (R468). -/
theorem step_eq_turn (halive : s.run.alive = true) (hdrain : s.run.drain = true → Agent.bh ∈ s.run.stopped)
    (hagenda : s.env.agenda = a :: rest) : step s = turn a rest s := by
  have hno : ¬(s.run.drain = true ∧ Agent.bh ∉ s.run.stopped) := fun ⟨hd, hb⟩ => hb (hdrain hd)
  simp [step, halive, hno, hagenda]

/-- With the lock free, the turn of a caller that may step is its call. -/
theorem turn_eq_callStep (hcall : actCall a = some (k, i)) (hlock : s.lock = none)
    (hstop : Agent.up k ∉ s.run.stopped) (hwait : ∀ w, s.run.waiter = some w → w.k ≠ k) :
    turn a rest s = callStep k i (s.setAgenda rest) := by
  simp [turn, actAgent_of_actCall hcall, actEnabled_of_actCall hcall, callerWaiting_eq_false hcall hwait, hcall,
    hlock, hstop]

/-! ## The call's end -/

theorem endCall_eq (k : Nat) (u : State) :
    endCall k u = if Agent.up k ∈ u.run.stopped then u else u.setLock none := by
  simp only [endCall, callerStopped, decide_eq_true_eq]

end

/-- Settles O11: the step is the turn, the turn is the call, and the call's end releases the lock or keeps it. -/
theorem stepRunsCalledInstruction : Obligations.StepRunsCalledInstruction := by
  intro s a k i rest halive hdrain hagenda hlock hstop hwait hform
  have hcall : actCall a = some (k, i) := by
    obtain ⟨w, op, rfl, hi⟩ | ⟨ctrl, bpl, bph, size, op, req, rfl, hi⟩ := hform
    · exact actCall_command hi
    · exact actCall_descriptor hi
  rw [step_eq_turn halive hdrain hagenda, turn_eq_callStep hcall hlock hstop hwait]
  unfold callStep beginCall
  cases exec i ((s.setAgenda rest).setLock (some (.up k))) with
  | next u => exact congrArg Host.Outcome.next (endCall_eq k u)
  | fault f => rfl
  | refused r => rfl

end Sys2Proof.Machine
end

section
/-!
PROOFS. What holds in the reset state (R62), and what every step and every instruction keeps: each is one check per
primitive update, carried to the step or the instruction by the induction of `step_keeps` and `exec_op`.
-/

namespace Sys2Proof.Machine

/-! ## Records -/

/-- An entry replaced by a legal record, or by none, leaves the records legal. -/
theorem EpsOk.setEp {s : State} {n : EpNum} {o : Option Endpoint} (h : EpsOk s)
    (ho : ∀ e, o = some e → e.number = n ∧ (e.wedged = true → e.stalled = true)) : EpsOk (s.setEp n o) := by
  intro m e he
  rw [State.setEp_ep] at he
  split at he
  · next hn => exact hn ▸ ho e he
  · exact h m e he

/-- A write that keeps the record's number and its wedge stalled leaves the records legal. -/
theorem EpsOk.modEp {s : State} {n : EpNum} {f : Endpoint → Endpoint} (h : EpsOk s)
    (hf : ∀ e, s.ep n = some e → (f e).number = e.number ∧ ((f e).wedged = true → (f e).stalled = true)) :
    EpsOk (s.modEp n f) := by
  cases he : s.ep n with
  | none => rwa [State.modEp_none he]
  | some e =>
    rw [State.modEp_some he]
    refine h.setEp fun e' he' => ?_
    cases he'
    obtain ⟨hnumber, hwedge⟩ := hf e he
    exact ⟨hnumber.trans (h n e he).1, hwedge⟩

/-! ## The step -/

/-- What every step keeps: the invariants of R23, R24, R25, R31 and R71, the configuration (R21), and the model faults
recorded (R59). -/
structure StepKept (s t : State) : Prop where
  mem : MemOk s → MemOk t
  evbuf : EvbufOk s → EvbufOk t
  eps : EpsOk s → EpsOk t
  cfg : t.cfg = s.cfg
  faults : ∀ f ∈ s.faults, f ∈ t.faults

namespace StepKept

variable {s t : State}

/-- An update that leaves the memory, the event buffer, the records and the configuration, and no fault out. -/
theorem of_same (hmem : t.mem = s.mem := by exact rfl) (hevbuf : t.evbuf = s.evbuf := by exact rfl)
    (heps : t.eps = s.eps := by exact rfl) (hcfg : t.cfg = s.cfg := by exact rfl)
    (hfaults : ∀ f ∈ s.faults, f ∈ t.faults := by exact fun _ h => h) :
    StepKept s t where
  mem h := by rwa [MemOk, hmem]
  evbuf h := by rwa [EvbufOk, hevbuf]
  eps h n e he := h n e (by rwa [State.ep, ← heps])
  cfg := hcfg
  faults := hfaults

/-- An update of the memory alone. -/
theorem of_mem (m : List Host.Cell) (h : MemOk s → Memory.wf m) : StepKept s (s.setMem m) :=
  { of_same (t := s) with mem := h }

/-- An update of one endpoint entry. -/
theorem of_setEp (n : EpNum) (o : Option Endpoint)
    (ho : ∀ e, o = some e → e.number = n ∧ (e.wedged = true → e.stalled = true)) : StepKept s (s.setEp n o) :=
  { of_same (t := s) with eps := fun h => h.setEp ho }

/-- A write to the fields of a record. -/
theorem of_modEp {n : EpNum} {f : Endpoint → Endpoint} (h : EpsOk s → EpsOk (s.modEp n f)) :
    StepKept s (s.modEp n f) where
  mem hs := by rwa [MemOk, State.modEp_mem]
  evbuf hs := by rwa [EvbufOk, State.modEp_evbuf]
  eps := h
  cfg := by simp
  faults g hg := by rwa [State.modEp_faults]

/-- What the environment may do: the drain's cursor is not its own (R12, R88). -/
theorem of_cursor (hcursor : SameCursor s t) (hmem : MemOk s → MemOk t) (heps : t.eps = s.eps) (hcfg : t.cfg = s.cfg)
    (hfaults : ∀ f ∈ s.faults, f ∈ t.faults) : StepKept s t where
  mem := hmem
  evbuf h := by
    obtain ⟨hlpos, hcount, -⟩ := hcursor
    rwa [EvbufOk, evbufOk, hlpos, hcount]
  eps h n e he := h n e (by rwa [State.ep, ← heps])
  cfg := hcfg
  faults := hfaults

/-- A model fault is added to those recorded (R462). -/
theorem of_fault (s : State) (f : ModelFault) : StepKept s (s.addFault f).stopHolder :=
  of_same (by simp) (by simp) (by simp) (by simp) fun g hg => by
    rw [State.stopHolder_faults, State.addFault_faults]
    split
    · exact hg
    · exact List.mem_append_left _ hg

/-- Every primitive update of a step keeps the invariants, the configuration and the recorded faults. -/
theorem stableStep : StableStep StepKept where
  refl _ := of_same
  trans _ _ _ h k := ⟨k.mem ∘ h.mem, k.evbuf ∘ h.evbuf, k.eps ∘ h.eps, k.cfg.trans h.cfg,
    fun f hf => k.faults f (h.faults f hf)⟩
  tick s := of_cursor (tickState_cursor s) tickState_memOk (by simp) (by simp) fun _ => tickState_faults
  reg _ _ _ := of_same
  word _ a w := of_mem _ fun h => Memory.wf_writeWord h a w
  byte _ a b := of_mem _ fun h => Memory.wf_write h a b
  ep _ n _ hf := of_modEp fun h => h.modEp fun e he =>
    ⟨(hf e).1, (hf e).2 (h n e he).2⟩
  epNone _ n := of_setEp n none (by simp)
  epNew _ n _ _ _ := of_setEp n _ (by simp [newEp])
  req _ _ _ := of_same
  addReq _ _ := of_same
  delReq _ _ := of_same
  note _ _ := of_same
  ep0 _ _ := of_same
  role _ := of_same
  dev _ _ _ := of_same
  env _ _ _ := of_same
  ret _ _ := of_same
  fault := of_fault
  link _ _ := of_same
  signals _ _ _ := of_same
  run _ _ _ := of_same
  lock _ _ := of_same
  envAny _ _ := of_same
  queue _ _ := of_same
  wedge _ _ hs := of_modEp fun h => h.modEp fun e he => ⟨rfl, fun _ => hs e he⟩
  envStep s e := of_cursor (envStep_cursor s e) (fun h => envStep_memOk h e) (by simp) (by simp)
    fun _ hf => envStep_faults hf e
  wpos _ _ := of_same
  evbuf s f hf := { of_same (t := s) with evbuf := hf s.evbuf }
  devAny _ _ := of_same
  roleAny _ _ := of_same
  siAny _ _ := of_same
  runAny _ _ := of_same

end StepKept

/-- Settles O19: the invariants are part of what every primitive update of a step keeps. -/
theorem stepKeepsInvariants : Obligations.StepKeepsInvariants := by
  intro s t ht
  have h := step_keeps StepKept.stableStep ht
  exact ⟨h.mem, h.evbuf, h.eps⟩

/-- Settles O20: no primitive update of a step writes the configuration, and a fault is only added. -/
theorem stepKeepsConfigAndFaults : Obligations.StepKeepsConfigAndFaults := by
  intro s t ht
  have h := step_keeps StepKept.stableStep ht
  exact ⟨h.cfg, h.faults⟩

/-! ## The instructions -/

/-- A model fault stops an agent and leaves the rest of the run control. -/
theorem State.exists_stopHolder_run (s : State) : ∃ l, s.stopHolder.run = { s.run with stopped := l } := by
  unfold State.stopHolder
  cases s.lock with
  | none => exact ⟨s.run.stopped, rfl⟩
  | some a => exact ⟨_, rfl⟩

namespace SameControl

theorem refl (s : State) : SameControl s s := by simp [SameControl]

theorem trans {s t u : State} (h : SameControl s t) (k : SameControl t u) : SameControl s u := by
  unfold SameControl at *
  simp only [h, k, and_self]

/-- An update that leaves the fields that hold the control. -/
theorem of_same {s t : State} (hcfg : t.cfg = s.cfg := by exact rfl) (hlock : t.lock = s.lock := by exact rfl)
    (hrole : t.role = s.role := by exact rfl) (hdev : t.dev = s.dev := by exact rfl)
    (hevbuf : t.evbuf = s.evbuf := by exact rfl) (henv : t.env = s.env := by exact rfl)
    (hsi : t.si = s.si := by exact rfl)
    (hrun : ∃ r l, t.run = { s.run with ret := r, stopped := l } := by exact ⟨_, _, rfl⟩) : SameControl s t := by
  obtain ⟨r, l, hrun⟩ := hrun
  simp [SameControl, hcfg, hlock, hrole, hdev, hevbuf, henv, hsi, hrun]

/-- The environment's turn is not the control's. -/
theorem of_tick (s : State) : SameControl s (tickState s) := by
  obtain ⟨hlpos, hcount, henabled, hrt, hdrain, hwaiter, -, hhc⟩ := tickState_cursor s
  simp [SameControl, hlpos, hcount, henabled, hrt, hdrain, hwaiter, hhc, tickState_env]

/-- Every primitive update of an instruction leaves the control. -/
theorem stable : Stable SameControl where
  refl := refl
  trans _ _ _ := trans
  tick := of_tick
  reg _ _ _ := of_same
  word _ _ _ := of_same
  byte _ _ _ := of_same
  ep s n f _ := of_same (by simp) (by simp) (by simp) (by simp) (by simp) (by simp) (by simp)
    ⟨s.run.ret, s.run.stopped, by simp⟩
  epNone _ _ := of_same
  epNew _ _ _ _ _ := of_same
  req _ _ _ := of_same
  addReq _ _ := of_same
  delReq _ _ := of_same
  note _ _ := of_same
  ep0 _ _ := of_same
  role _ := by simp [SameControl, triggered]
  dev s f hf := by simp [SameControl, hf s.dev]
  env s f hf := by simp [SameControl, (hf s.env).1]
  ret _ _ := of_same
  fault s f := by
    obtain ⟨l, hl⟩ := (s.addFault f).exists_stopHolder_run
    exact of_same (by simp) (by simp) (by simp) (by simp) (by simp) (by simp) (by simp) ⟨s.run.ret, l, hl⟩

end SameControl

/-- Settles O23: no primitive update of an instruction writes the control. -/
theorem instructionsKeepControl : Obligations.InstructionsKeepControl :=
  fun i _ _ ht => exec_keeps SameControl.stable (fun _ _ => SameControl.of_same) i ht

/-- Settles O25: every instruction is an operation made of accesses that the rules make. -/
theorem noInstructionRefused : Obligations.NoInstructionRefused := by
  intro i s r
  obtain ⟨m, hm, hexec⟩ := exec_op SameControl.stable (fun _ _ => SameControl.of_same) i
  rw [hexec]
  exact keeps_not_refused hm s r

/-! ## Reset -/

/-- No endpoint has a record right after reset. -/
@[simp] theorem State.init_ep (cfg : Cfg) (regs : Regs) (mem : List Host.Cell) (n : EpNum) :
    (State.init cfg regs mem).ep n = none := by
  simp [State.init, State.ep]

/-- Settles O16: `State.init` is R62's table; the two role fields follow the capability set. -/
theorem resetValues : Obligations.ResetValues := by
  intro cfg regs mem
  exact ⟨rfl, State.init_ep cfg regs mem, rfl, rfl, rfl, rfl, rfl, rfl, rfl, rfl, rfl, rfl, rfl, rfl, rfl, rfl⟩

/-- Settles O18: no record, no fault and no role, an empty memory and a cursor at 0. -/
theorem invariantsAtReset : Obligations.InvariantsAtReset := by
  have heps : EpsOk State.reset := fun n e he => by
    rw [State.reset, State.init_ep] at he
    cases he
  have hroles : RolesExclusive State.reset := ⟨nofun, nofun, nofun⟩
  exact ⟨Memory.wf_nil, rfl, heps, rfl, hroles⟩

end Sys2Proof.Machine
end

section
/-!
PROOFS. The acknowledgment of a word (R201, R204), the host's stall clear on a wedged endpoint (R429), and the device
events that issue commands: `CONNECT_DONE` (R223) and `RESET` (R222).
-/

namespace Sys2Proof.Machine

/-! ## The acknowledgment -/

/-- The acknowledgment with nothing scheduled (R201, R204): the cursor moves on, and the silicon's count falls by 4. -/
theorem ackWord_quiet {s : State} (q : s.env.sched = []) :
    ackWord s = .ok () ((s.modEvbuf fun b =>
        { b with lpos := BitVec.ofNat 16 ((b.lpos.toNat + 4) % 4096), count := b.count - 4 }).setReg .gevntcount
      (BitVec.ofNat 32 (s.regs.gevntcount.toNat - 4))) := by
  simp only [ackWord, bind_run, upd_run, publish_run]
  rw [regWrite_quiet rfl rfl (by exact q) rfl]
  rfl

/-- Settles O10: a bottom half that is not stopped acknowledges the word. -/
theorem consumedWordAcknowledged : Obligations.ConsumedWordAcknowledged := by
  intro s hrun q
  rw [afterDispatch, if_neg hrun]
  exact toOutcome_ok (ackWord_quiet q)

/-! ## The wedge -/

/-- An address with a physical number (R156, R420). -/
theorem phys_some {a : BitVec 8} {n : EpNum} (h : physOf a = some n) : phys a = pure n := by
  simp only [phys, h]

/-- Settles O58: the protocol's clear stops at the wedge, before the command. -/
theorem wedgeHoldsStall : Obligations.WedgeHoldsStall := by
  intro s a n e ha hn he henabled hwedged
  have hup : ¬ n.val < 2 := by omega
  simp only [clearStall, phys_some ha, bind_run, pure_run, if_neg hup, getEp_run, he]
  simp [henabled, hwedged]

/-! ## CONNECT_DONE -/

/-- `SETEPCONFIG` answered by success at the first poll (R250). -/
theorem cmdSetepconfig_answered {s : State} {n : EpNum} {e : Endpoint} (a : CfgAction) {w : Word}
    {rest : List (List EnvStep)} (he : s.ep n = some e) (hs : e.cmdStuck = false)
    (h : s.env.sched = answers n w ++ rest) (hw : cmdStatus w = 0) :
    cmdSetepconfig n a s = .ok (.ok (readBack w)) (s.commanded n (setepconfigCmd e a) w rest) := by
  simp only [cmdSetepconfig, bind_run, needEp_some he]
  exact issueRetry_answered _ (setepconfig_legal e a) he hs h hw

/-- One endpoint of `on_connect_done`, its command answered by success (R223). -/
theorem reconfigureEp0_answered {s : State} {n : EpNum} {e : Endpoint} (m : BitVec 16) {w : Word}
    {rest : List (List EnvStep)} (he : s.ep n = some e) (hs : e.cmdStuck = false)
    (h : s.env.sched = answers n w ++ rest) (hw : cmdStatus w = 0) :
    reconfigureEp0 m n s = .ok () ((s.modEp n fun e => { e with maxpacket := m }).commanded n
      (setepconfigCmd { e with maxpacket := m } .modify) w rest) := by
  have he' : (s.modEp n fun e => { e with maxpacket := m }).ep n = some { e with maxpacket := m } := by
    rw [State.modEp_ep, if_pos rfl, he]
    rfl
  simp only [reconfigureEp0, bind_run, needEp_some he, modEp_run]
  rw [cmdSetepconfig_answered .modify he' hs (by simpa using h) hw]
  rfl

/-! The schedule may be written before or after the records: a command takes its own. -/

theorem State.modDev_modEnv (s : State) (f : Dev → Dev) (g : Env → Env) :
    (s.modEnv g).modDev f = (s.modDev f).modEnv g := rfl

theorem State.modEp0_modEnv (s : State) (f : Ep0 → Ep0) (g : Env → Env) :
    (s.modEnv g).modEp0 f = (s.modEp0 f).modEnv g := rfl

theorem State.modEp_modEnv (s : State) (n : EpNum) (f : Endpoint → Endpoint) (g : Env → Env) :
    (s.modEnv g).modEp n f = (s.modEp n f).modEnv g := by
  simp only [State.modEp, State.modEnv_ep]
  cases s.ep n <;> rfl

/-- A command sets the schedule that it leaves. -/
theorem commanded_modEnv (s : State) (l : List (List EnvStep)) (n : EpNum) (c : Cmd) (w : Word)
    (rest : List (List EnvStep)) :
    (s.modEnv fun e => { e with sched := l }).commanded n c w rest = s.commanded n c w rest := rfl

/-- Settles O31: the speed is read before the first answer's schedule begins; each of the two endpoints then gets its
size and its command. -/
theorem connectDoneResult : Obligations.ConnectDoneResult := by
  refine ⟨?_, ?_⟩
  · intro f s spd e0 e1 w0 w1 rest hspd he0 hs0 he1 hs1 hsched hw0 hw1
    refine toOutcome_ok ?_
    have hdsts : (s.modEnv fun e => { e with sched := answers 0 w0 ++ answers 1 w1 ++ rest }).regs.get .dsts
      = s.regs.dsts := rfl
    simp only [onConnectDone, bind_run, regRead_run (r := .dsts) rfl, tickState_empty hsched, hdsts, hspd, upd_run,
      modEp0_run, forEach_cons, forEach_nil]
    rw [reconfigureEp0_answered (e := e0) (ep0Mps spd) (by exact he0) hs0 (by exact List.append_assoc _ _ _) hw0]
    simp only
    rw [reconfigureEp0_answered (e := e1) (ep0Mps spd)
      (by rw [commanded_ep, State.modEp_ep, if_neg (by decide)]; exact he1) hs1 (by exact commanded_sched ..) hw1,
      State.modDev_modEnv, State.modEp0_modEnv, State.modEp_modEnv, commanded_modEnv]
    rfl
  · intro f s hspd q
    refine toOutcome_ok ?_
    simp only [onConnectDone, bind_run, regRead_quiet (r := .dsts) rfl q, Regs.get, hspd, notifyCode_run]

/-! ## RESET -/

/-- A loop whose every round changes nothing. -/
theorem forEach_skip {α : Type} {f : α → M Unit} {s : State} {l : List α} (h : ∀ a ∈ l, f a s = .ok () s) :
    forEach l f s = .ok () s := by
  induction l with
  | nil => rfl
  | cons a l ih =>
    rw [forEach_cons, bind_run, h a (by simp)]
    exact ih fun b hb => h b (by simp [hb])

/-- An endpoint above EP0 (R25). -/
theorem two_le_of_mem_upperEps {n : EpNum} (h : n ∈ Config.upperEps) : 2 ≤ n.val := by
  revert n
  decide

/-- `on_reset` passes an endpoint that is not enabled by (R222). -/
theorem resetEp_disabled {s : State} {n : EpNum} (h : ∀ e, s.ep n = some e → e.enabled = false) :
    resetEp n s = .ok () s := by
  simp only [resetEp, bind_run, getEp_run]
  cases he : s.ep n with
  | none => rfl
  | some e => simp [h e he]

/-- `DEVADDR` cleared (R48). -/
theorem setField_devaddr (w : Word) : setField w 3 (0 : BitVec 7) = w &&& 0xFFFFFC07#32 := by
  simp [setField, place]

/-- Settles O32: every endpoint above EP0 is passed by, and the armed setup stage is not restarted. -/
theorem resetEventResult : Obligations.ResetEventResult := by
  intro f s hdisabled hsetup q
  refine toOutcome_ok ?_
  have hskip : forEach Config.upperEps resetEp (s.modDev fun d => { d with startCfgDone := false })
      = .ok () (s.modDev fun d => { d with startCfgDone := false }) :=
    forEach_skip fun n hn => resetEp_disabled fun e he => hdisabled n e (two_le_of_mem_upperEps hn) he
  simp only [onReset, bind_run, upd_run, hskip]
  rw [regRMW_quiet rfl rfl (by exact q) rfl]
  simp only [getEp0_run, State.setReg_ep0, State.modDev_ep0, hsetup, if_true, notify_run, Regs.get,
    setField_devaddr, written, State.modDev_regs]

end Sys2Proof.Machine
end

section
/-!
PROOFS. The commands called directly and answered by success at the first poll (R241, R250 to R257; log entry 10).
-/

namespace Sys2Proof.Machine

section
variable {s t : State} {n : EpNum} {e : Endpoint} {c : Cmd} {w : Word} {rest : List (List EnvStep)}

/-! ## A call of the command engine -/

/-- A call answered by success keeps the word read back as its value. -/
theorem toOutcome_commandCall_ok {m : M CmdResult} (h : m s = .ok (.ok w) t) :
    toOutcome (commandCall m) s = .next (t.returning (.word w)) :=
  toOutcome_ok (by rw [commandCall, bind_run, h]; rfl)

/-- What is written on success is written after a success. -/
theorem onOk_ok {m : M CmdResult} {f : M Unit} {u : State} (h : m s = .ok (.ok w) t) (hf : f t = .ok () u) :
    onOk m f s = .ok (.ok w) u := by
  simp only [onOk, bind_run, h, hf, pure_run]

/-- A legal call is made. -/
theorem whenLegal_true {ok : Endpoint → Bool} {m : M CmdResult} (he : s.ep n = some e) (h : ok e = true) :
    whenLegal n ok m s = m s := by
  simp only [whenLegal, bind_run, needEp_some he, h, if_true]

/-- The started transfer's index names it. -/
theorem namesTransfer_self {rsc : BitVec 7} (hx : e.xferStarted = true) (hr : e.rsc = some rsc) :
    namesTransfer e rsc = true := by
  simp [namesTransfer, hx, hr]

/-! ## The end of a transfer -/

/-- Nothing pending and nothing started: there is nothing to kick (R292). -/
theorem kick_idle (he : s.ep n = some e) (hp : e.pending = []) (hs : e.started = []) : kick n s = .ok () s := by
  simp only [kick, bind_run, getEp_run, he, hp, admitPending]
  split
  · simp [he, hs]
  · rfl

/-- A bit written 0. -/
theorem setField_bit_zero (x : Word) (i : Nat) : setField x i (0 : BitVec 1) = x &&& ~~~(1#32 <<< i) := by
  simp [setField, place]

/-- What a disable was waiting for (R305): the endpoint's bit is cleared and the record removed. -/
theorem removeEp_quiet (q : s.env.sched = []) :
    removeEp n s = .ok () ((s.setReg .dalepena (s.regs.dalepena &&& ~~~(1#32 <<< n.val))).setEp n none) := by
  simp only [removeEp, bind_run]
  rw [regRMW_quiet rfl rfl q rfl, setField_bit_zero]
  rfl

/-- The end of a transfer that has no request left (R305): an enabled endpoint is kicked, another removed. -/
theorem finishEndTransfer_idle {poc : Outcome} (he : s.ep n = some e) (hp : e.pending = []) (hs : e.started = [])
    (hc : e.cancelled = []) (h : e.enq = e.deq) :
    finishEndTransfer n poc s = (if e.enabled then kick n else removeEp n) (s.setEp n (some e.ended)) := by
  simp only [finishEndTransfer, bind_run, modEp_run, State.modEp_some he, needEp_some (State.setEp_ep_self ..), hs, hc,
    finishStarted, finishCancelled, pure_run, forEach_nil]
  rw [releaseRing_empty (State.setEp_ep_self ..) (by exact h)]
  simp only [State.modEp_some (State.setEp_ep_self ..), State.setEp_setEp, hp, List.append_nil, Endpoint.ended, hc]

/-- `ENDTRANSFER` answered by success at the first poll (R257). -/
theorem cmdEndtransfer_answered (rsc : BitVec 7) (ioc : Bool) (he : s.ep n = some e) (hs : e.cmdStuck = false)
    (h : s.env.sched = answers n w ++ rest) (hw : cmdStatus w = 0) :
    cmdEndtransfer n rsc ioc s = .ok (.ok (readBack w))
      (let t := s.commanded n { typ := .endTransfer, param := rsc.setWidth 16, ioc := ioc, forcerm := true } w rest
       if ioc then t.modEp n fun e => { e with endPending := true } else t) := by
  simp only [cmdEndtransfer, bind_run]
  rw [issueRetry_answered _ rfl he hs h hw]
  cases ioc <;> rfl

/-- The completion of a command writes no register but the command's own (R89). -/
theorem siCmdDone_dalepena : (siCmdDone s n w).regs.dalepena = s.regs.dalepena := by
  simp only [siCmdDone, siOnDone]
  split_ifs <;> rfl

/-- A command writes no register but the endpoint's four (R241). -/
theorem commanded_dalepena : (s.commanded n c w rest).regs.dalepena = s.regs.dalepena := by
  rw [State.commanded, siCmdDone_dalepena]
  simp only [State.issued, State.setReg_regs, Regs.set, State.modEnv_regs]

/-- A direct `ENDTRANSFER` without `CMDIOC`, answered by success: the transfer it names is finished in the state the
command leaves (R257; log entry 10). -/
theorem execEndtransferForcerm_answered {ep : BitVec 5} {rsc : BitVec 7} {u : State} (he : s.ep (epNum ep) = some e)
    (hs : e.cmdStuck = false) (h : s.env.sched = answers (epNum ep) w ++ rest) (hw : cmdStatus w = 0)
    (hx : e.xferStarted = true) (hr : e.rsc = some rsc)
    (hu : finishEnded (epNum ep) (s.commanded (epNum ep)
      { typ := .endTransfer, param := rsc.setWidth 16, forcerm := true } w rest) = .ok () u) :
    exec (.depcmdEndtransferForcerm ep rsc) s = .next (u.returning (.word (readBack w))) :=
  toOutcome_commandCall_ok (by
    rw [whenLegal_true he (namesTransfer_self hx hr)]
    exact onOk_ok (cmdEndtransfer_answered rsc false he hs h hw) hu)

/-- What the finish of a transfer without a request leaves (R305, on EP0 log entry 10). -/
theorem finishEnded_idle (he : s.ep n = some e) (hp : e.pending = []) (hs : e.started = []) (hc : e.cancelled = [])
    (h : e.enq = e.deq) (q : s.env.sched = []) :
    finishEnded n s = .ok () (if n.val < 2 then
        s.setEp n (some { e with endPending := false, xferStarted := false, rsc := none })
      else if e.enabled = true then s.setEp n (some e.ended)
      else (s.setReg .dalepena (s.regs.dalepena &&& ~~~(1#32 <<< n.val))).setEp n none) := by
  unfold finishEnded
  split
  · exact ep0Ended_idle he hs h
  · rw [finishEndTransfer_idle he hp hs hc h]
    split
    · exact kick_idle (State.setEp_ep_self ..) rfl rfl
    · rw [removeEp_quiet (by exact q)]
      exact congrArg _ (State.setEp_setEp (s.setReg .dalepena _) ..)

end

/-- Settles O42: each call is its command, answered at the first poll, and what its rule writes on success; an
`ENDTRANSFER` finishes the transfer without a request, or on EP0 takes the one stage back. -/
theorem commandsComplete : Obligations.CommandsComplete := by
  intro s ep e w rest he hs hsched hw
  have hissue : ∀ c : Cmd, c.paramsLegal = true →
      issueRetry (epNum ep) c s = .ok (.ok (readBack w)) (s.commanded (epNum ep) c w rest) :=
    fun c hc => issueRetry_answered c hc he hs hsched hw
  refine ⟨?setepconfig, ?setxferrsc, ?setstall, ?clearstall, ?update, ?endIdle, ?endStage, ?endIoc⟩
  case setepconfig => exact fun a => toOutcome_commandCall_ok (cmdSetepconfig_answered a he hs hsched hw)
  case setxferrsc => exact toOutcome_commandCall_ok (hissue _ rfl)
  case setstall =>
    refine toOutcome_commandCall_ok (onOk_ok (hissue _ rfl) ?_)
    unfold markStalled
    split <;> rfl
  case clearstall => exact toOutcome_commandCall_ok (onOk_ok (hissue _ rfl) rfl)
  case update =>
    intro rsc hx hr hend
    refine toOutcome_commandCall_ok ?_
    rw [whenLegal_true he (by simp [namesTransfer_self hx hr, hend])]
    exact hissue _ rfl
  case endIdle =>
    rintro rsc hx hr hp hst hc hq rfl
    have hfin := finishEnded_idle (n := epNum ep) (s := s.commanded (epNum ep)
      { typ := .endTransfer, param := rsc.setWidth 16, forcerm := true } w []) (by rwa [commanded_ep]) hp hst hc hq
      (commanded_sched ..)
    rw [commanded_dalepena] at hfin
    exact execEndtransferForcerm_answered he hs hsched hw hx hr hfin
  case endStage =>
    rintro rsc r hn hx hr hp hst hc hq hreq hrep hspace rfl a hctrl
    refine execEndtransferForcerm_answered he hs hsched hw hx hr ?_
    rw [finishEnded, if_pos hn, ep0Ended_stage (by rwa [commanded_ep]) hst hp hc hq (by rwa [commanded_req]) hrep
      (commanded_sched ..) (by simpa [SlotInSpace] using hspace) (by simpa using hctrl), commanded_mem,
      commanded_slotAddr]
    rfl
  case endIoc =>
    intro rsc hx hr
    refine toOutcome_commandCall_ok ?_
    rw [whenLegal_true he (namesTransfer_self hx hr)]
    exact cmdEndtransfer_answered rsc true he hs hsched hw

end Sys2Proof.Machine
end

section
/-!
PROOFS. The descriptors of direct calls: what a written descriptor reads back as (R130, R289), and each path of
`postDesc` and `postLink` (log entry 10).
-/

namespace Sys2Proof.Machine

section
variable {s t : State} {n : EpNum} {e : Endpoint} {d : Desc} {typ : TrbTyp} {f : TrbFields}

/-! ## What may be written -/

/-- A `CTRL` word whose reserved fields are 0 may be written, whatever its flags (R162). -/
theorem ctrlWritable_ctrlWord {c : CtrlBits} (h : c.reservedZero = true) : ctrlWritable (ctrlWord typ c) = true := by
  have key : ∀ hwo lst chn isp ioc : Bool, ctrlWritable (ctrlWord typ
      { hwo, lst, chn, csp := false, isp, ioc, rsvLo := 0, sid := 0, rsvHi := 0 }) = true := by
    cases typ <;> decide
  obtain ⟨hwo, lst, chn, csp, isp, ioc, rsvLo, sid, rsvHi⟩ := c
  simp only [CtrlBits.reservedZero, Bool.and_eq_true, Bool.not_eq_true', beq_iff_eq] at h
  obtain ⟨⟨⟨rfl, rfl⟩, rfl⟩, rfl⟩ := h
  exact key hwo lst chn isp ioc

/-- A call's descriptor whose reserved fields are 0 may be written (R162). -/
theorem descOf_writable (h : f.reservedZero = true) : (descOf typ f).writable = true := by
  simp only [TrbFields.reservedZero, Bool.and_eq_true] at h
  obtain ⟨hctrl, hsize⟩ := h
  simp only [Desc.writable, descOf, ctrlWritable_ctrlWord hctrl, hsize, Bool.and_self]

/-- A descriptor of R134's constructors may be written. -/
theorem mkDesc_writable (b : Quad) (len : Nat) (lst chn isp ioc : Bool) :
    (mkDesc b len typ (ctrlFlags lst chn isp ioc)).writable = true := by
  have hsize : (place (BitVec.ofNat 24 len) 0).extractLsb' 24 8 = 0 := by
    ext i hi
    simp [place]
  simp only [Desc.writable, mkDesc, ctrlWritable_ctrlWord (c := ctrlFlags lst chn isp ioc) rfl, hsize]
  rfl

/-- The descriptor of a stage that may be posted may be written. -/
theorem writable_of_stageLegal (h : stageLegal s.cfg s.ep0 n typ f = true) : (descOf typ f).writable = true := by
  cases typ with
  | normal | isocFirst | isoc | link => cases h
  | controlSetup | controlStatus2 | controlStatus3 | controlData =>
    simp only [stageLegal, Bool.and_eq_true, beq_iff_eq] at h
    rw [h.2]
    exact mkDesc_writable ..

/-! ## What a written descriptor reads back as -/

/-- The words of a written descriptor (R289). -/
theorem readWord_descWritten (m : List Host.Cell) (a : Nat) (d : Desc) :
    Memory.readWord (descWritten m a d) a = d.bpl ∧ Memory.readWord (descWritten m a d) (a + 4) = d.bph
      ∧ Memory.readWord (descWritten m a d) (a + 8) = d.size
      ∧ Memory.readWord (descWritten m a d) (a + 12) = d.ctrl := by
  unfold descWritten
  refine ⟨?_, ?_, ?_, Memory.readWord_writeWord ..⟩ <;>
  · repeat rw [Memory.readWord_writeWord_out _ _ _ _ (by omega)]
    exact Memory.readWord_writeWord ..

/-- The bytes outside the sixteen are as before. -/
theorem read_descWritten_out (m : List Host.Cell) {a : Nat} (d : Desc) {x : Nat} (h : x < a ∨ a + 16 ≤ x) :
    Memory.read (descWritten m a d) x = Memory.read m x := by
  unfold descWritten
  repeat rw [Memory.read_writeWord_out _ _ _ (by omega)]

/-- An address is its two words. -/
theorem quadOf_quadLow_quadHigh (b : Quad) : quadOf (quadLow b) (quadHigh b) = b := by
  unfold quadOf quadLow quadHigh
  ext i hi
  simp only [BitVec.getElem_append, BitVec.getElem_extractLsb']
  split
  · rw [Nat.zero_add, BitVec.getLsbD_eq_getElem]
  · rw [Nat.add_sub_of_le (by omega), BitVec.getLsbD_eq_getElem]

/-! ## A descriptor call -/

/-- A call that ends without a value of its own returns `OK`. -/
theorem descriptorCall_ok {p : M Unit} (h : p s = .ok () t) :
    toOutcome (descriptorCall p) s = .next (t.returning .ok) :=
  toOutcome_ok (by simp only [descriptorCall, bind_run, catching, h, pure_run]; rfl)

/-- A raised error is what the call returns (R453). -/
theorem descriptorCall_raised {p : M Unit} {x : Err} (h : p s = .error (.raised x) t) :
    toOutcome (descriptorCall p) s = .next (t.returning (.err x)) :=
  toOutcome_ok (by simp only [descriptorCall, bind_run, catching, h]; rfl)

/-- A model fault ends the call without a value (R462). -/
theorem descriptorCall_halted {p : M Unit} (h : p s = .error .halted t) : toOutcome (descriptorCall p) s = .next t :=
  toOutcome_halted (by simp only [descriptorCall, bind_run, catching, h])

/-- Every descriptor but the link posts on the endpoint's ring. -/
theorem exec_trbInstr (ht : typ ≠ .link) :
    exec (trbInstr typ f) s = toOutcome (descriptorCall (postDesc (epNum f.ep) typ f)) s := by
  cases typ with
  | link => exact absurd rfl ht
  | normal | controlSetup | controlStatus2 | controlStatus3 | controlData | isocFirst | isoc => rfl

/-! ## The link descriptor -/

/-- `mk_link(n)` is written unless the slot is the hardware's or the endpoint enabled (R36, R98, R290). -/
theorem postLink_mkLink (hspace : SlotInSpace s n 255) (q : s.env.sched = []) :
    postLink n (mkLink s.cfg n) s =
      if (slotHwo s n 255 || (s.ep n).any fun e => e.enabled) = true then
        .error .halted (s.addFault .ringOverwrite).stopHolder
      else .ok () (s.setMem (descWritten s.mem (s.slotAddr n 255) (mkLink s.cfg n))) := by
  have hread : memRead32 (s.slotAddr n Config.linkSlot + 12) s
      = .ok (Memory.readWord s.mem (s.slotAddr n 255 + 12)) s := by
    unfold SlotInSpace at hspace
    exact memRead32_quiet q (by simp only [Config.linkSlot]; omega)
  have hwrite : writeLink n (mkLink s.cfg n) s
      = .ok () (s.setMem (descWritten s.mem (s.slotAddr n 255) (mkLink s.cfg n))) :=
    writeLink_quiet (mkDesc_writable ..) q hspace
  have hown : hwoOf (Memory.readWord s.mem (s.slotAddr n 255 + 12)) = slotHwo s n 255 := rfl
  simp only [postLink, bind_run, getCfg_run, ne_eq, not_true_eq_false, if_false, get_run, hread, getEp_run, hown]
  split
  · rfl
  · exact hwrite

/-- Any other link descriptor is refused (log entry 10). -/
theorem postLink_other (hd : d ≠ mkLink s.cfg n) : postLink n d s = .error (.raised .inval) s := by
  simp only [postLink, bind_run, getCfg_run, if_pos hd, raise_run]

/-! ## The ring -/

/-- A ring that takes descriptors: a slot is free and no end is awaited. -/
theorem not_closed (hend : e.endPending = false) (hfree : 0 < freeSlots e) :
    ¬(freeSlots e = 0 ∨ e.endPending = true) := by
  simp [hend, hfree.ne']

/-- A ring with a free slot and no end awaited takes a descriptor of its types above EP0 (R288, R290). -/
theorem postDesc_ring (he : s.ep n = some e) (hend : e.endPending = false) (hfree : 0 < freeSlots e)
    (hup : 2 ≤ n.val) (htyp : ringTyp typ = true) : postDesc n typ f s = postRing n e typ f s := by
  simp only [postDesc, bind_run, needEp_some he, if_neg (not_closed hend hfree), if_neg (Nat.not_lt.2 hup), htyp,
    if_true]

/-- EP0's rings take its stages (R331). -/
theorem postDesc_stage (he : s.ep n = some e) (hend : e.endPending = false) (hfree : 0 < freeSlots e)
    (hlow : n.val < 2) : postDesc n typ f s = postStage n e typ f s := by
  simp only [postDesc, bind_run, needEp_some he, if_neg (not_closed hend hfree), if_pos hlow]

/-- A full ring, or one whose transfer is being ended, is `E_BUSY`. -/
theorem postDesc_closed (he : s.ep n = some e) (h : freeSlots e = 0 ∨ e.endPending = true) :
    postDesc n typ f s = .error (.raised (.busy (some n))) s := by
  simp only [postDesc, bind_run, needEp_some he, if_pos h, raise_run]

/-- A type that is not the ring's is `E_INVAL`. -/
theorem postDesc_foreign (he : s.ep n = some e) (hend : e.endPending = false) (hfree : 0 < freeSlots e)
    (hup : 2 ≤ n.val) (htyp : ringTyp typ = false) : postDesc n typ f s = .error (.raised .inval) s := by
  simp only [postDesc, bind_run, needEp_some he, if_neg (not_closed hend hfree), if_neg (Nat.not_lt.2 hup), htyp,
    Bool.false_eq_true, if_false, raise_run]

/-- What lets a descriptor extend a request (R38, R287). -/
theorem extendable_iff {r : Request} : extendable n e r = true ↔
    r.kind = .user ∧ r.ep = n ∧ e.started.getLast? = some r.id ∧ r.extra = .none := by
  simp [extendable, and_assoc]

/-- A call's descriptor on a software-owned slot is written, and the enqueue index advances (R289). -/
theorem writeDesc_descOf (he : s.ep n = some e) (hfields : f.reservedZero = true) (q : s.env.sched = [])
    (hspace : SlotInSpace s n e.enq.val) (hown : slotHwo s n e.enq.val = false) :
    writeDesc n (descOf typ f) s = .ok () ((s.setMem
      (descWritten s.mem (s.slotAddr n e.enq.val) (descOf typ f))).setEp n (some { e with enq := adv e.enq })) := by
  rw [writeDesc_quiet he (descOf_writable hfields) q hspace hown, State.modEp_some (by exact he)]

/-- A record may be written before or after a request is added. -/
theorem State.addReq_setEp (s : State) (r : Request) (n : EpNum) (o : Option Endpoint) :
    (s.addReq r).setEp n o = (s.setEp n o).addReq r := rfl

/-- A new id begins a request (R288). -/
theorem postRing_first (he : s.ep n = some e) (hfields : f.reservedZero = true) (q : s.env.sched = [])
    (hspace : SlotInSpace s n e.enq.val) (hown : slotHwo s n e.enq.val = false) (hreq : s.req (.user f.req) = none) :
    postRing n e typ f s = .ok () (((s.setMem (descWritten s.mem (s.slotAddr n e.enq.val) (descOf typ f))).setEp n
      (some { e with enq := adv e.enq, started := e.started ++ [.user f.req] })).addReq
        (directRequest n e.enq f)) := by
  simp only [postRing, postFirst, bind_run, getReq_run, hreq, writeDesc_descOf he hfields q hspace hown, upd_run,
    modEp_run]
  rw [State.modEp_some (by exact State.setEp_ep_self ..), State.addReq_setEp, State.setEp_setEp]

/-- The youngest started request is extended (R38). -/
theorem postRing_next {r : Request} (he : s.ep n = some e) (hfields : f.reservedZero = true) (q : s.env.sched = [])
    (hspace : SlotInSpace s n e.enq.val) (hown : slotHwo s n e.enq.val = false)
    (hreq : s.req (.user f.req) = some r) (hext : extendable n e r = true) :
    postRing n e typ f s = .ok () (((s.setMem (descWritten s.mem (s.slotAddr n e.enq.val) (descOf typ f))).setEp n
      (some { e with enq := adv e.enq })).modReq r.id fun q => q.extend f) := by
  simp only [postRing, postNext, bind_run, getReq_run, hreq, hext, if_true,
    writeDesc_descOf he hfields q hspace hown, modReq_run]

/-- An id in use elsewhere is `E_INVAL` (log entry 10). -/
theorem postRing_taken {r : Request} (hreq : s.req (.user f.req) = some r) (hext : extendable n e r = false) :
    postRing n e typ f s = .error (.raised .inval) s := by
  simp only [postRing, bind_run, getReq_run, hreq, hext, Bool.false_eq_true, if_false, raise_run]

/-- A hardware-owned slot is not overwritten (R290). -/
theorem postRing_owned (he : s.ep n = some e) (q : s.env.sched = []) (hspace : SlotInSpace s n e.enq.val)
    (hown : slotHwo s n e.enq.val = true) (hext : ∀ r, s.req (.user f.req) = some r → extendable n e r = true) :
    postRing n e typ f s = .error .halted (s.addFault .ringOverwrite).stopHolder := by
  have hwrite := writeDesc_owned (d := descOf typ f) he q hspace hown
  simp only [postRing, bind_run, getReq_run]
  cases hreq : s.req (.user f.req) with
  | none => simp only [postFirst, bind_run, hwrite]
  | some r => simp only [hext r hreq, if_true, postNext, bind_run, hwrite]

/-! ## The stages of EP0 -/

/-- A stage where EP0 holds one is `E_BUSY`. -/
theorem postStage_busy (h : stagesIdle s = false) : postStage n e typ f s = .error (.raised (.busy (some n))) s := by
  simp only [postStage, bind_run, get_run, h, if_true, raise_run]

/-- A stage that the EP0 machine would not post is `E_INVAL`. -/
theorem postStage_inval (hidle : stagesIdle s = true)
    (h : (s.req (stageRequest s.cfg n typ f).id).isSome = true ∨ stageLegal s.cfg s.ep0 n typ f = false) :
    postStage n e typ f s = .error (.raised .inval) s := by
  simp only [postStage, bind_run, get_run, hidle, Bool.true_eq_false, if_false, if_pos h, raise_run]

/-- A stage that the EP0 machine would post is put on its ring, and `C.ep0` follows (R331). -/
theorem postStage_legal (hidle : stagesIdle s = true) (hreq : s.req (stageRequest s.cfg n typ f).id = none)
    (hlegal : stageLegal s.cfg s.ep0 n typ f = true) :
    postStage n e typ f s =
      (do ep0Put n e (stageRequest s.cfg n typ f) (descOf typ f); modEp0 (stagePosted typ f) : M Unit) s := by
  simp [postStage, hidle, hreq, hlegal]

/-- The setup stage on ring 0, with R134's descriptor, may always be posted (R332). -/
theorem stageLegal_setup {cfg : Cfg} {c : Ep0} (hn : n = 0) (hd : descOf .controlSetup f = mkSetup cfg) :
    stageLegal cfg c n .controlSetup f = true := by
  simp [stageLegal, hn, hd]

/-- The data stage that the data phase waits for may be posted where it needs no bounce buffer (R337, R340). -/
theorem stageLegal_data {cfg : Cfg} {c : Ep0} (hphase : c.state = .dataPhase) (hnone : c.dataReq = none)
    (hn : n = if c.dataIn then 1 else 0) (hwhole : c.dataIn = true ∨ (trbSeg f).2 % c.mps.toNat = 0)
    (hd : descOf .controlData f = mkData (trbSeg f).1 (trbSeg f).2 (!c.dataIn)) :
    stageLegal cfg c n .controlData f = true := by
  have hmax : ¬Config.maxSegLen < (trbSeg f).2 := by
    have := (f.size.extractLsb' 0 24).isLt
    simp only [trbSeg, Config.maxSegLen]
    omega
  have hbounce : (!c.dataIn && (trbSeg f).2 % c.mps.toNat != 0) = false := by
    rcases hwhole with h | h <;> simp [h]
  simp [stageLegal, ep0SubmitSeg, bounces, hphase, hnone, hn, hmax, hbounce, hd]

/-- The status stage that the status phase waits for may be posted (R344, R347). -/
theorem stageLegal_status {cfg : Cfg} {c : Ep0} (htyp : typ = .controlStatus2 ∨ typ = .controlStatus3)
    (hphase : c.state = .statusPhase) (hissued : c.statusIssued = false) (hn : n = statusEp c.threeStage c.dataIn)
    (hd : descOf typ f = mkStatus cfg c.threeStage) : stageLegal cfg c n typ f = true := by
  rcases htyp with rfl | rfl <;> simp [stageLegal, hphase, hissued, hn, hd]

/-- With no stage posted, a ring of EP0 has nothing started. -/
theorem started_of_stagesIdle (hidle : stagesIdle s = true) (hlow : n.val < 2) (he : s.ep n = some e) :
    e.started = [] := by
  have hn : n ∈ ([0, 1] : List EpNum) := by
    simp only [List.mem_cons, List.not_mem_nil, or_false, Fin.ext_iff]
    omega
  have hall := List.all_eq_true.1 hidle n hn
  simpa [he] using hall

/-- The stage's descriptor is written, its request is the ring's one started request (R331). -/
theorem postStage_quiet (he : s.ep n = some e) (hlow : n.val < 2) (hidle : stagesIdle s = true)
    (hreq : s.req (stageRequest s.cfg n typ f).id = none) (hlegal : stageLegal s.cfg s.ep0 n typ f = true)
    (q : s.env.sched = []) (hspace : SlotInSpace s n e.enq.val) (hown : slotHwo s n e.enq.val = false) :
    postStage n e typ f s = .ok () ((((s.addReq ((stageRequest s.cfg n typ f).posted n e.enq)).setMem
      (descWritten s.mem (s.slotAddr n e.enq.val) (descOf typ f))).setEp n
        (some { e with enq := adv e.enq, started := [(stageRequest s.cfg n typ f).id] })).modEp0
          (stagePosted typ f)) := by
  rw [postStage_legal hidle hreq hlegal, bind_run, ep0Put_quiet he (writable_of_stageLegal hlegal) q hspace hown,
    started_of_stagesIdle hidle hlow he]
  rfl

/-- A hardware-owned slot is not overwritten by a stage, whose request's record has been made (R290, R331). -/
theorem postStage_owned (he : s.ep n = some e) (hidle : stagesIdle s = true)
    (hreq : s.req (stageRequest s.cfg n typ f).id = none) (hlegal : stageLegal s.cfg s.ep0 n typ f = true)
    (q : s.env.sched = []) (hspace : SlotInSpace s n e.enq.val) (hown : slotHwo s n e.enq.val = true) :
    postStage n e typ f s = .error .halted ((s.addReq ((stageRequest s.cfg n typ f).posted n e.enq)).addFault
      .ringOverwrite).stopHolder := by
  rw [postStage_legal hidle hreq hlegal]
  simp only [ep0Put, bind_run, upd_run]
  rw [writeDesc_owned (e := e) (by exact he) (by exact q) (by exact hspace) (by exact hown)]

/-! ## The calls -/

theorem ne_link_of_ringTyp (h : ringTyp typ = true) : typ ≠ .link := by
  rintro rfl
  cases h

theorem ne_link_of_stageLegal {cfg : Cfg} {c : Ep0} (h : stageLegal cfg c n typ f = true) : typ ≠ .link := by
  rintro rfl
  cases h

/-- The call of a descriptor above EP0, for a type of the ring. -/
theorem exec_ring (htyp : ringTyp typ = true) (hup : 2 ≤ (epNum f.ep).val) (he : s.ep (epNum f.ep) = some e)
    (hend : e.endPending = false) (hfree : 0 < freeSlots e) :
    exec (trbInstr typ f) s = toOutcome (descriptorCall (postRing (epNum f.ep) e typ f)) s := by
  rw [exec_trbInstr (ne_link_of_ringTyp htyp)]
  simp only [descriptorCall, catching, toOutcome, bind_run, postDesc_ring he hend hfree hup htyp]

/-- The call of a stage of EP0 that its machine would post. -/
theorem exec_stage (hlow : (epNum f.ep).val < 2) (he : s.ep (epNum f.ep) = some e) (hend : e.endPending = false)
    (hfree : 0 < freeSlots e) (hidle : stagesIdle s = true) (hspace : SlotInSpace s (epNum f.ep) e.enq.val)
    (hown : slotHwo s (epNum f.ep) e.enq.val = false) (q : s.env.sched = [])
    (hreq : s.req (stageRequest s.cfg (epNum f.ep) typ f).id = none)
    (hlegal : stageLegal s.cfg s.ep0 (epNum f.ep) typ f = true) :
    exec (trbInstr typ f) s = .next (((((s.addReq ((stageRequest s.cfg (epNum f.ep) typ f).posted (epNum f.ep)
      e.enq)).setMem (descWritten s.mem (s.slotAddr (epNum f.ep) e.enq.val) (descOf typ f))).setEp (epNum f.ep)
        (some { e with enq := adv e.enq, started := [(stageRequest s.cfg (epNum f.ep) typ f).id] })).modEp0
          (stagePosted typ f)).returning .ok) := by
  rw [exec_trbInstr (ne_link_of_stageLegal hlegal)]
  refine descriptorCall_ok ?_
  rw [postDesc_stage he hend hfree hlow, postStage_quiet he hlow hidle hreq hlegal q hspace hown]

end

/-- Settles O50: `mk_link(n)` is written, and reads back as its four words; any other is refused. -/
theorem linkDescriptorWritten : Obligations.LinkDescriptorWritten := by
  intro f s
  refine ⟨fun hd hspace q hown hen => ?_, fun hd => descriptorCall_raised (postLink_other hd)⟩
  obtain ⟨hbpl, hbph, hsize, hctrl⟩ :=
    readWord_descWritten s.mem (s.slotAddr (epNum f.ep) 255) (mkLink s.cfg (epNum f.ep))
  refine ⟨?_, ?_, hsize, hctrl, fun x hx => read_descWritten_out s.mem _ hx⟩
  · refine descriptorCall_ok ?_
    have hdis : (s.ep (epNum f.ep)).any (fun e => e.enabled) = false := by
      rw [Option.any_eq_false]
      simpa using hen
    rw [hd, postLink_mkLink hspace q, hown, hdis]
    rfl
  · rw [← quadOf_quadLow_quadHigh s.cfg.ringBase[epNum f.ep]]
    exact congrArg₂ quadOf hbpl hbph

/-- Settles O49: each path of `postDesc` that writes a descriptor, by what the ring or the EP0 machine would take, and
each that turns the call away. -/
theorem descriptorsWritten : Obligations.DescriptorsWritten := by
  refine ⟨?ring, ?stage, ?away⟩
  case ring =>
    intro typ f s e htyp hup hfields he hend hfree
    rw [exec_ring htyp hup he hend hfree]
    constructor
    · intro hspace hown q
      obtain ⟨hbpl, hbph, hsize, hctrl⟩ :=
        readWord_descWritten s.mem (s.slotAddr (epNum f.ep) e.enq.val) (descOf typ f)
      refine ⟨⟨hbpl, hbph, hsize, hctrl, fun x hx => read_descWritten_out s.mem _ hx⟩, fun hreq => ?_, ?_⟩
      · exact descriptorCall_ok (postRing_first he hfields q hspace hown hreq)
      · intro r hreq hkind hep hlast hextra
        have hext : extendable (epNum f.ep) e r = true := extendable_iff.2 ⟨hkind, hep, hlast, hextra⟩
        exact descriptorCall_ok (postRing_next he hfields q hspace hown hreq hext)
    · intro r hreq hother
      have hext : extendable (epNum f.ep) e r = false := by
        rw [← Bool.not_eq_true, extendable_iff]
        tauto
      exact descriptorCall_raised (postRing_taken hreq hext)
  case stage =>
    intro f s e hlow he hend hfree hidle hspace hown q put
    refine ⟨?setup, ?data, ?status⟩
    case setup =>
      intro hn hd hreq
      have h := exec_stage (typ := .controlSetup) hlow he hend hfree hidle hspace hown q hreq (stageLegal_setup hn hd)
      rw [hd] at h
      exact h
    case data =>
      intro hphase hnone hn hwhole hd hreq
      exact exec_stage (typ := .controlData) hlow he hend hfree hidle hspace hown q hreq
        (stageLegal_data hphase hnone hn hwhole hd)
    case status =>
      intro hphase hissued hreq hn typ htyp hd
      have hlegal := stageLegal_status htyp hphase hissued hn hd
      rcases htyp with rfl | rfl <;>
      · have h := exec_stage hlow he hend hfree hidle hspace hown q (by exact hreq) hlegal
        rw [hd] at h
        exact h
  case away =>
    intro typ f s e hlink he
    rw [exec_trbInstr hlink]
    refine ⟨fun h => ?_, fun hend hfree h => ?_⟩
    · refine descriptorCall_raised ?_
      by_cases hclosed : freeSlots e = 0 ∨ e.endPending = true
      · exact postDesc_closed he hclosed
      · obtain ⟨hlow, hidle⟩ : (epNum f.ep).val < 2 ∧ stagesIdle s = false := by tauto
        have hend : e.endPending = false := by simpa using fun h => hclosed (.inr h)
        have hfree : 0 < freeSlots e := Nat.pos_of_ne_zero fun h => hclosed (.inl h)
        rw [postDesc_stage he hend hfree hlow, postStage_busy hidle]
    · refine descriptorCall_raised ?_
      obtain ⟨hup, htyp⟩ | ⟨hlow, hidle, hother⟩ := h
      · exact postDesc_foreign he hend hfree hup htyp
      · rw [postDesc_stage he hend hfree hlow, postStage_inval hidle hother]

/-- Settles O51: the model fault of a hardware-owned slot, and of an enabled endpoint's link slot, ends the call before
a word is written. -/
theorem hardwareOwnedSlotNotOverwritten : Obligations.HardwareOwnedSlotNotOverwritten := by
  refine ⟨fun typ f s e hlink he hend hfree hspace hown q => ⟨?ring, ?stage⟩, ?link⟩
  case ring =>
    intro hup htyp hext
    rw [exec_ring htyp hup he hend hfree]
    exact descriptorCall_halted (postRing_owned he q hspace hown hext)
  case stage =>
    intro hlow hidle hreq hlegal
    rw [exec_trbInstr hlink]
    refine descriptorCall_halted ?_
    rw [postDesc_stage he hend hfree hlow, postStage_owned he hidle hreq hlegal q hspace hown]
  case link =>
    intro f s hd hspace q h
    have hkept : (slotHwo s (epNum f.ep) 255 || (s.ep (epNum f.ep)).any fun e => e.enabled) = true := by
      rw [Bool.or_eq_true, Option.any_eq_true]
      exact h
    refine descriptorCall_halted ?_
    rw [hd, postLink_mkLink hspace q, if_pos hkept]

end Sys2Proof.Machine
end

section
/-!
PROOFS. `GETEPSTATE` (R252): the silicon writes the result and completes the command in one turn (R89), and the call
returns the result (log entry 10).
-/

namespace Sys2Proof.Machine

/-! ## The command engine, whatever the environment does before the first poll -/

/-- A command word carries its type (R120). -/
theorem Cmd.word_typ (c : Cmd) : c.word.extractLsb' 0 4 = cmdTypCode c.typ := by
  rw [Cmd.word_eq, extractLsb'_place16 c.param c.low (by omega)]
  exact c.low_fields.2.2.2

section
variable {s t : State} {n : EpNum} {e : Endpoint} {c : Cmd} {v w : Word} {rest : List (List EnvStep)}

/-- The first poll ends the polling where it reads an inactive word (R242, R243). -/
theorem poll_of_inactive (h : cmdActive ((tickState s).regs.get (.depcmd n)) = false) :
    poll n s = .ok (resultOf n ((tickState s).regs.get (.depcmd n))) (tickState s) := by
  have hk : Config.cmdPollLimit = 999 + 1 := rfl
  rw [poll, hk, pollLoop, bind_run, regRead_run rfl]
  simp only [h, Bool.false_eq_true, if_false, pure_run]

/-- An attempt that succeeds is the only one (R246). -/
theorem issueRetry_of_ok (h : issue n c s = .ok (.ok w) t) : issueRetry n c s = .ok (.ok w) t := by
  have hk : Config.cmdAttempts - 1 = 1 + 1 := rfl
  rw [issueRetry, hk, attempts, bind_run, h]
  rfl

/-! ## What the silicon does with an active `GETEPSTATE` -/

/-- The result is written (R89). -/
theorem siEpState_getEpState (hactive : cmdActive s.regs.depcmd[n] = true)
    (htyp : s.regs.depcmd[n].extractLsb' 0 4 = cmdTypCode .getEpState) :
    siEpState s n v = s.setReg (.depcmdpar2 n) v :=
  if_pos ⟨hactive, htyp⟩

/-- Only the commands of a transfer move the silicon's place on the ring (R90). -/
theorem siOnDone_getEpState {old : Word} (htyp : old.extractLsb' 0 4 = cmdTypCode .getEpState) :
    siOnDone s n old w = s := by
  simp [siOnDone, htyp, cmdTypCode]

/-- The completion writes the command word alone (R89). -/
theorem siCmdDone_getEpState (hactive : cmdActive s.regs.depcmd[n] = true)
    (htyp : s.regs.depcmd[n].extractLsb' 0 4 = cmdTypCode .getEpState) :
    siCmdDone s n w = s.setReg (.depcmd n) (readBack w) := by
  rw [siCmdDone, if_pos hactive, siOnDone_getEpState htyp, readBack]

/-- The turn in which the silicon writes the result of an issued `GETEPSTATE` and completes it (R89). -/
theorem tickState_getEpState (hc : c.typ = .getEpState) :
    tickState (s.issued n c ([.epState n v, .cmdDone n w] :: rest)) =
      ((s.issued n c rest).setReg (.depcmdpar2 n) v).setReg (.depcmd n) (readBack w) := by
  have hactive : cmdActive (s.issued n c rest).regs.depcmd[n] = true := by
    rw [issued_depcmd]
    exact cmdActive_word c
  have htyp : (s.issued n c rest).regs.depcmd[n].extractLsb' 0 4 = cmdTypCode .getEpState := by
    rw [issued_depcmd, c.word_typ, hc]
  calc tickState (s.issued n c ([.epState n v, .cmdDone n w] :: rest))
      = siCmdDone (siEpState (s.issued n c rest) n v) n w := rfl
    _ = siCmdDone ((s.issued n c rest).setReg (.depcmdpar2 n) v) n w := by
      rw [siEpState_getEpState hactive htyp]
    _ = _ := siCmdDone_getEpState hactive htyp

/-! ## The call -/

/-- The schedule may be written before or after a register. -/
theorem State.setReg_modEnv (s : State) (r : Reg) (x : Word) (g : Env → Env) :
    (s.setReg r x).modEnv g = (s.modEnv g).setReg r x := rfl

/-- An issued command sets the schedule that it leaves. -/
theorem issued_modEnv (s : State) (n : EpNum) (c : Cmd) (l l' : List (List EnvStep)) :
    (s.issued n c l).modEnv (fun e => { e with sched := l' }) = s.issued n c l' := rfl

/-- `GETEPSTATE`, its result written and the command completed by success before the first poll (R246, R252). -/
theorem issueRetry_getEpState (he : s.ep n = some e) (hs : e.cmdStuck = false) (hw : cmdStatus w = 0)
    (h : s.env.sched = [] :: [] :: [] :: [] :: [.epState n v, .cmdDone n w] :: rest) :
    issueRetry n { typ := .getEpState } s = .ok (.ok (readBack w))
      (((s.issued n { typ := .getEpState } rest).setReg (.depcmdpar2 n) v).setReg (.depcmd n) (readBack w)) := by
  obtain ⟨hinactive, hstatus, -⟩ := readBack_fields w
  have hread : (tickState (s.issued n { typ := .getEpState } ([.epState n v, .cmdDone n w] :: rest))).regs.get
      (.depcmd n) = readBack w := by
    rw [tickState_getEpState rfl]
    simp [Regs.get, Regs.set]
  refine issueRetry_of_ok ?_
  rw [issue_unstuck _ he hs, writeAndPoll_run rfl h, poll_of_inactive (by rw [hread]; exact hinactive), hread,
    tickState_getEpState rfl, resultOf, if_pos (hstatus.trans hw)]

/-- The value returned is the word the silicon wrote to `DEPCMDPAR2`, which the completion leaves (R252). -/
theorem cmdGetepstate_answered (he : s.ep n = some e) (hs : e.cmdStuck = false) (hw : cmdStatus w = 0)
    (h : s.env.sched = [] :: [] :: [] :: [] :: [.epState n v, .cmdDone n w] :: [] :: rest) :
    cmdGetepstate n s = .ok (.ok v)
      (((s.issued n { typ := .getEpState } rest).setReg (.depcmdpar2 n) v).setReg (.depcmd n) (readBack w)) := by
  simp only [cmdGetepstate, bind_run, issueRetry_getEpState he hs hw h]
  rw [regRead_run rfl, tickState_empty (rest := rest) rfl, State.setReg_modEnv, State.setReg_modEnv, issued_modEnv]
  simp [Regs.get, Regs.set]

end

/-- Settles O44: one turn of the silicon writes the result and completes the command, and the call reads the result
back. -/
theorem getEpStateCompletes : Obligations.GetEpStateCompletes := by
  rintro s ep v w rest ⟨e, he, hs⟩ hw hsched
  exact toOutcome_commandCall_ok (cmdGetepstate_answered he hs hw hsched)

end Sys2Proof.Machine
end

section
/-!
PROOFS. The fields of a word (R100): what a placed field reads back as, and a word as its fields.
-/

namespace Sys2Proof

section
variable {n : Nat} {lo len p : Nat}

/-! ## Reading a placed field -/

/-- A field read where it was placed. -/
@[simp] theorem extractLsb'_place_self (v : BitVec n) (h : lo + n ≤ 32) : (place v lo).extractLsb' lo n = v := by
  ext i hi
  simp [place, show lo + i < 32 by omega, BitVec.getLsbD_eq_getElem hi]

/-- Below a placed field every bit is 0. -/
@[simp] theorem extractLsb'_place_below (v : BitVec n) (h : lo + len ≤ p) : (place v p).extractLsb' lo len = 0#len := by
  ext i hi
  simp [place, show lo + i < p by omega]

/-- Above a placed field every bit is 0. -/
@[simp] theorem extractLsb'_place_above (v : BitVec n) (h : p + n ≤ lo) : (place v p).extractLsb' lo len = 0#len := by
  ext i hi
  simp [place, BitVec.getLsbD_of_ge v (lo + i - p) (by omega)]

/-- A flag read where it was placed. -/
@[simp] theorem bitAt_bitWord_self (b : Bool) (h : lo < 32) : bitAt (bitWord b lo) lo = b := by
  simp [bitAt, bitWord, h]

/-- The other bits of a flag's word are 0. -/
@[simp] theorem bitAt_bitWord_ne (b : Bool) {i : Nat} (h : i ≠ lo) : bitAt (bitWord b lo) i = false := by
  rcases Nat.lt_or_gt_of_ne h with h | h
  · simp [bitAt, bitWord, h]
  · simp [bitAt, bitWord, BitVec.getLsbD_ofBool, show i - lo ≠ 0 by omega]

/-- A flag's word is the flag placed as a field of one bit. -/
theorem bitWord_eq_place (b : Bool) (i : Nat) : bitWord b i = place (BitVec.ofBool b) i := rfl

@[simp] theorem extractLsb'_bitWord_below (b : Bool) (h : lo + len ≤ p) : (bitWord b p).extractLsb' lo len = 0#len :=
  extractLsb'_place_below _ h

@[simp] theorem extractLsb'_bitWord_above (b : Bool) (h : p < lo) : (bitWord b p).extractLsb' lo len = 0#len :=
  extractLsb'_place_above _ h

/-- Outside a placed field every bit is 0. -/
@[simp] theorem bitAt_place_out (v : BitVec n) {i : Nat} (h : i < p ∨ p + n ≤ i) : bitAt (place v p) i = false := by
  rcases h with h | h
  · simp [bitAt, place, h]
  · simp [bitAt, place, BitVec.getLsbD_of_ge v (i - p) (by omega)]

@[simp] theorem bitAt_or (x y : Word) (i : Nat) : bitAt (x ||| y) i = (bitAt x i || bitAt y i) := BitVec.getLsbD_or

@[simp] theorem bitAt_and (x y : Word) (i : Nat) : bitAt (x &&& y) i = (bitAt x i && bitAt y i) := BitVec.getLsbD_and

/-! ## Masks -/

/-- A mask that keeps a field whole does not change what it reads as. -/
theorem extractLsb'_and_mask (w : Word) {m : Word} (h : m.extractLsb' lo len = BitVec.allOnes len) :
    (w &&& m).extractLsb' lo len = w.extractLsb' lo len := by
  rw [BitVec.extractLsb'_and, h, BitVec.and_allOnes]

/-- A field placed back where it was read is the word under the field's mask. -/
theorem place_extractLsb' (w : Word) : place (w.extractLsb' lo len) lo = w &&& place (BitVec.allOnes len) lo := by
  ext i hi
  by_cases h : lo ≤ i
  · simp [place, Nat.add_sub_of_le h, Nat.not_lt.mpr h, hi]
    cases w[i] <;> simp
  · simp [place, Nat.lt_of_not_le h]

/-- A placed field is within its mask. -/
theorem place_and_eq_zero (v : BitVec n) {m : Word} (h : place (BitVec.allOnes n) p &&& m = 0#32) :
    place v p &&& m = 0#32 := by
  have hv : place v p &&& place (BitVec.allOnes n) p = place v p := by
    ext i hi
    by_cases hn : i - p < n
    · simp [place, hn]
      intros
      omega
    · simp [place, BitVec.getLsbD_of_ge v (i - p) (by omega)]
  rw [← hv, BitVec.and_assoc, h, BitVec.and_zero]

end

end Sys2Proof
end

section
/-!
PROOFS. The event words (R101 to R112): both directions of the codes and of the two decoders, layout by layout.
-/

namespace Sys2Proof

section
variable {w : Word}

/-! ## Codes -/

theorem epEvtOf_epEvtCode (t : EpEvt) : epEvtOf (epEvtCode t) = some t := by
  cases t <;> rfl

theorem epEvtCode_of_epEvtOf {c : BitVec 4} {t : EpEvt} (h : epEvtOf c = some t) : epEvtCode t = c := by
  revert t c
  decide

theorem epEvtOf_eq_none_iff (c : BitVec 4) : epEvtOf c = none ↔ c = 0x0 ∨ c = 0x5 ∨ 0x8 ≤ c.toNat := by
  revert c
  decide

theorem devEvtOf_devEvtCode (t : DevEvt) : devEvtOf (devEvtCode t) = some t := by
  cases t <;> rfl

theorem devEvtCode_of_devEvtOf {c : BitVec 4} {t : DevEvt} (h : devEvtOf c = some t) : devEvtCode t = c := by
  revert t c
  decide

theorem devEvtOf_eq_none_iff (c : BitVec 4) :
    devEvtOf c = none ↔ c = 0x5 ∨ c = 0x6 ∨ c = 0x8 ∨ 0xC ≤ c.toNat := by
  revert c
  decide

/-! ## Layouts (R101): what a word decodes to, and which of its bits are not reserved -/

/-- An endpoint event word. -/
theorem epLayout (h : bitAt w 0 = false) :
    decodeEvent w = .ep (w.extractLsb' 1 5) (w.extractLsb' 6 4) (w.extractLsb' 12 4) (w.extractLsb' 16 16)
      ∧ resvClear w = 0xFFFFF3FF#32 :=
  ⟨if_pos h, if_pos h⟩

/-- A device event word. -/
theorem devLayout (h : bitAt w 0 = true) (hc : w.extractLsb' 1 7 = 0) :
    decodeEvent w = .dev (w.extractLsb' 8 4) (w.extractLsb' 16 9) ∧ resvClear w = 0x01FF0FFF#32 := by
  simp [decodeEvent, resvClear, h, hc]

/-- An auxiliary event word of the first class. -/
theorem auxALayout (h : bitAt w 0 = true) (hc : w.extractLsb' 1 7 = 3) :
    decodeEvent w = .auxA (w.extractLsb' 8 4) ∧ resvClear w = 0x00000FFF#32 := by
  simp [decodeEvent, resvClear, h, hc]

/-- An auxiliary event word of the second class. -/
theorem auxBLayout (h : bitAt w 0 = true) (hc : w.extractLsb' 1 7 = 4) :
    decodeEvent w = .auxB (w.extractLsb' 8 4) ∧ resvClear w = 0x00000FFF#32 := by
  simp [decodeEvent, resvClear, h, hc]

/-- A word of a reserved class. -/
theorem reservedLayout (h : bitAt w 0 = true) (h0 : w.extractLsb' 1 7 ≠ 0) (h3 : w.extractLsb' 1 7 ≠ 3)
    (h4 : w.extractLsb' 1 7 ≠ 4) :
    decodeEvent w = .unknown w ∧ resvClear w = 0xFFFFFFFF#32 := by
  simp_all [decodeEvent, resvClear]

/-- Every word has one of the five layouts. -/
theorem event_layout (w : Word) :
    bitAt w 0 = false ∨ bitAt w 0 = true ∧ (w.extractLsb' 1 7 = 0 ∨ w.extractLsb' 1 7 = 3 ∨ w.extractLsb' 1 7 = 4
      ∨ w.extractLsb' 1 7 ≠ 0 ∧ w.extractLsb' 1 7 ≠ 3 ∧ w.extractLsb' 1 7 ≠ 4) := by
  cases bitAt w 0 with
  | false => exact .inl rfl
  | true =>
    refine .inr ⟨rfl, ?_⟩
    tauto

/-! ## A word as its fields -/

/-- The low bit of an endpoint event word. -/
theorem and_one_of_bitAt (h : bitAt w 0 = false) : w &&& 1#32 = 0#32 := by
  have hw : w.extractLsb' 0 1 = 0#1 := by
    ext i hi
    simpa [show i = 0 by omega, bitAt] using h
  calc w &&& 1#32 = place (w.extractLsb' 0 1) 0 := (place_extractLsb' (lo := 0) (len := 1) w).symm
    _ = 0#32 := by rw [hw]; rfl

/-- The low byte of any other event word is its class above a 1. -/
theorem and_lowByte_of_class (h : bitAt w 0 = true) {c : BitVec 7} (hc : w.extractLsb' 1 7 = c) :
    w &&& 0xFF#32 = place c 1 ||| 0x01#32 := by
  have hw : w.extractLsb' 0 1 = 1#1 := by
    ext i hi
    simpa [show i = 0 by omega, bitAt] using h
  calc w &&& 0xFF#32 = w &&& (place (BitVec.allOnes 7) 1 ||| place (BitVec.allOnes 1) 0) := rfl
    _ = place (w.extractLsb' 1 7) 1 ||| place (w.extractLsb' 0 1) 0 := by
      rw [BitVec.and_or_distrib_left, place_extractLsb', place_extractLsb']
    _ = place c 1 ||| 0x01#32 := by rw [hc, hw]; rfl

/-- The low byte of a word that is not an endpoint's gives its class. -/
theorem class_of_lowByte {c : BitVec 7} (h : w &&& 0xFF#32 = place c 1 ||| 0x01#32) :
    bitAt w 0 = true ∧ w.extractLsb' 1 7 = c := by
  have hbit := congrArg (bitAt · 0) h
  have hcls := congrArg (BitVec.extractLsb' 1 7) h
  rw [extractLsb'_and_mask w (by decide)] at hcls
  constructor
  · simpa [show bitAt 0xFF#32 0 = true from rfl, show bitAt 0x01#32 0 = true from rfl] using hbit
  · simpa [BitVec.extractLsb'_or] using hcls

/-- What two masks keep of a word. -/
theorem and_or_and_of_or_eq {a b m : Word} (h : a ||| b = m) : w &&& a ||| w &&& b = w &&& m := by
  rw [← BitVec.and_or_distrib_left, h]

/-- An endpoint event word is its fields, the reserved one with them (R102). -/
theorem epEventWord_fields (h : bitAt w 0 = false) {t : EpEvt} (ht : epEvtOf (w.extractLsb' 6 4) = some t) :
    epEventWord t (w.extractLsb' 1 5) (w.extractLsb' 10 2) (w.extractLsb' 12 4) (w.extractLsb' 16 16) = w := by
  calc _ = w &&& 0xFFFFFFFE#32 ||| w &&& 1#32 := by
        simp only [epEventWord, epEvtCode_of_epEvtOf ht, place_extractLsb', ← BitVec.and_or_distrib_left,
          and_one_of_bitAt h, BitVec.or_zero]
        rfl
    _ = w &&& BitVec.allOnes 32 := and_or_and_of_or_eq rfl
    _ = w := BitVec.and_allOnes

/-- A device event word is its fields, the reserved ones with them (R106). -/
theorem devEventWord_fields (h : bitAt w 0 = true) (hc : w.extractLsb' 1 7 = 0) {t : DevEvt}
    (ht : devEvtOf (w.extractLsb' 8 4) = some t) : devEventWord t (devFieldsOf w) = w := by
  calc _ = w &&& 0xFFFFFF00#32 ||| w &&& 0xFF#32 := by
        simp only [devEventWord, devFieldsOf, devEvtCode_of_devEvtOf ht, place_extractLsb',
          ← BitVec.and_or_distrib_left, and_lowByte_of_class h hc]
        rfl
    _ = w &&& BitVec.allOnes 32 := and_or_and_of_or_eq rfl
    _ = w := BitVec.and_allOnes

/-- An auxiliary event word is its fields, the reserved one with them (R108). -/
theorem auxEventWord_fields (h : bitAt w 0 = true) {c : BitVec 7} (hc : w.extractLsb' 1 7 = c) :
    auxEventWord c (auxFieldsOf w) = w := by
  calc _ = w &&& 0xFFFFFF00#32 ||| w &&& 0xFF#32 := by
        simp only [auxEventWord, auxFieldsOf, place_extractLsb', ← BitVec.and_or_distrib_left,
          and_lowByte_of_class h hc, BitVec.or_assoc]
        rfl
    _ = w &&& BitVec.allOnes 32 := and_or_and_of_or_eq rfl
    _ = w := BitVec.and_allOnes

/-! ## The two decoders' round trips -/

/-- R112: the encoder of a decoded word, whatever its layout. -/
theorem encodeEvent_decodeEvent (w : Word) : encodeEvent (decodeEvent w) = w &&& resvClear w := by
  obtain h | ⟨h, hc | hc | hc | ⟨h0, h3, h4⟩⟩ := event_layout w
  · obtain ⟨hdec, hclr⟩ := epLayout h
    calc _ = w &&& 0xFFFFF3FE#32 ||| w &&& 1#32 := by
          simp only [hdec, encodeEvent, place_extractLsb', ← BitVec.and_or_distrib_left, and_one_of_bitAt h,
            BitVec.or_zero]
          rfl
      _ = w &&& resvClear w := by rw [hclr]; exact and_or_and_of_or_eq rfl
  · obtain ⟨hdec, hclr⟩ := devLayout h hc
    calc _ = w &&& 0x01FF0F00#32 ||| w &&& 0xFF#32 := by
          simp only [hdec, encodeEvent, place_extractLsb', ← BitVec.and_or_distrib_left, and_lowByte_of_class h hc]
          rfl
      _ = w &&& resvClear w := by rw [hclr]; exact and_or_and_of_or_eq rfl
  · obtain ⟨hdec, hclr⟩ := auxALayout h hc
    calc _ = w &&& 0x00000F00#32 ||| w &&& 0xFF#32 := by
          rw [and_lowByte_of_class h hc, hdec, encodeEvent, place_extractLsb']
          rfl
      _ = w &&& resvClear w := by rw [hclr]; exact and_or_and_of_or_eq rfl
  · obtain ⟨hdec, hclr⟩ := auxBLayout h hc
    calc _ = w &&& 0x00000F00#32 ||| w &&& 0xFF#32 := by
          rw [and_lowByte_of_class h hc, hdec, encodeEvent, place_extractLsb']
          rfl
      _ = w &&& resvClear w := by rw [hclr]; exact and_or_and_of_or_eq rfl
  · obtain ⟨hdec, hclr⟩ := reservedLayout h h0 h3 h4
    rw [hdec, hclr]
    exact BitVec.and_allOnes.symm

/-- An unknown event keeps its word (R110). -/
theorem decodeEvent_eq_unknown {r : Word} (h : decodeEvent w = .unknown r) : w = r := by
  unfold decodeEvent at h
  split_ifs at h
  exact Event.unknown.inj h

/-- R112: the decoder of an encoded event. -/
theorem decodeEvent_encodeEvent {ev : Event} (hev : ∀ r, ev ≠ .unknown r) : decodeEvent (encodeEvent ev) = ev := by
  cases ev with
  | ep e t s p =>
    have h : bitAt (encodeEvent (.ep e t s p)) 0 = false := by simp [encodeEvent]
    rw [(epLayout h).1]
    simp [encodeEvent, BitVec.extractLsb'_or]
  | dev t i =>
    obtain ⟨h, hc⟩ : bitAt (encodeEvent (.dev t i)) 0 = true ∧ (encodeEvent (.dev t i)).extractLsb' 1 7 = 0 := by
      simp [encodeEvent, BitVec.extractLsb'_or, show bitAt 0x01#32 0 = true from rfl]
    rw [(devLayout h hc).1]
    simp [encodeEvent, BitVec.extractLsb'_or]
  | auxA p =>
    obtain ⟨h, hc⟩ : bitAt (encodeEvent (.auxA p)) 0 = true ∧ (encodeEvent (.auxA p)).extractLsb' 1 7 = 3 := by
      simp [encodeEvent, BitVec.extractLsb'_or, show bitAt 0x07#32 0 = true from rfl]
    rw [(auxALayout h hc).1]
    simp [encodeEvent, BitVec.extractLsb'_or]
  | auxB p =>
    obtain ⟨h, hc⟩ : bitAt (encodeEvent (.auxB p)) 0 = true ∧ (encodeEvent (.auxB p)).extractLsb' 1 7 = 4 := by
      simp [encodeEvent, BitVec.extractLsb'_or, show bitAt 0x09#32 0 = true from rfl]
    rw [(auxBLayout h hc).1]
    simp [encodeEvent, BitVec.extractLsb'_or]
  | unknown r => exact absurd rfl (hev r)

end

/-- Settles O1: the four forms are the encoder's definition, the round trips the two lemmas above. -/
theorem eventRoundTrip : Obligations.EventRoundTrip :=
  ⟨fun _ _ _ _ => rfl, fun _ _ => rfl, fun _ => rfl, fun _ => rfl, fun _ hev => decodeEvent_encodeEvent hev,
    fun w _ => encodeEvent_decodeEvent w⟩

/-- Settles O2: to clear the reserved bits is to encode what the word decodes to, and that decodes to the same. -/
theorem eventReservedBitsIgnored : Obligations.EventReservedBitsIgnored := by
  intro w
  rw [← encodeEvent_decodeEvent]
  by_cases hev : ∀ r, decodeEvent w ≠ .unknown r
  · exact decodeEvent_encodeEvent hev
  · obtain ⟨r, hr⟩ := not_forall_not.mp hev
    obtain rfl := decodeEvent_eq_unknown hr
    rw [hr]
    exact hr

end Sys2Proof
end

section
/-!
PROOFS. The decoder of event instructions (R101 to R109, R161): which instruction each word is, and its words back.
-/

namespace Sys2Proof

/-! ## The rows of the event words -/

/-- The row of an endpoint event sub-type, `XFERCOMPLETE` and `XFERNOTREADY` of endpoints 0 and 1 apart (R334, R351). -/
def epInstr (t : EpEvt) (f : EpFields) : Instr :=
  match t with
  | .xferComplete =>
    if f.ep = 0 then .evtEpXfercompleteEp0 ⟨f.rsv, f.status, f.param⟩
    else if f.ep = 1 then .evtEpXfercompleteEp1 ⟨f.rsv, f.status, f.param⟩
    else .evtEpXfercomplete f
  | .xferInProgress => .evtEpXferinprogress f
  | .xferNotReady =>
    if f.ep = 0 then .evtEpXfernotreadyEp0 ⟨f.rsv, f.status, f.param⟩
    else if f.ep = 1 then .evtEpXfernotreadyEp1 ⟨f.rsv, f.status, f.param⟩
    else .evtEpXfernotready f
  | .rxTxFifo => .evtEpRxtxfifo f
  | .stream => .evtEpStream f
  | .epCmdCmplt => .evtEpEpcmdcmplt f

/-- The row of a device event sub-type. -/
def devInstr : DevEvt → DevFields → Instr
  | .disconnect => .evtDevDisconnect
  | .reset => .evtDevReset
  | .connectDone => .evtDevConnectDone
  | .linkChange => .evtDevLinkChange
  | .wakeup => .evtDevWakeup
  | .sof => .evtDevSof
  | .erraticError => .evtDevErraticError
  | .cmdCmpl => .evtDevCmdCmpl
  | .overflow => .evtDevOverflow

section
variable {w : Word}

theorem decodeEpEvent_some {t : EpEvt} (h : epEvtOf (w.extractLsb' 6 4) = some t) :
    decodeEpEvent w = .ok (epInstr t (epFieldsOf w)) := by
  cases t with
  | xferComplete | xferNotReady =>
    simp only [decodeEpEvent, h]
    split_ifs <;> simp_all [epInstr, epFieldsOf, ep0FieldsOf]
  | xferInProgress | rxTxFifo | stream | epCmdCmplt => simp only [decodeEpEvent, h, epInstr]

theorem decodeEpEvent_none (h : epEvtOf (w.extractLsb' 6 4) = none) : decodeEpEvent w = .error .reservedEpSubtype := by
  simp only [decodeEpEvent, h]

theorem decodeDevEvent_some {t : DevEvt} (h : devEvtOf (w.extractLsb' 8 4) = some t) :
    decodeDevEvent w = .ok (devInstr t (devFieldsOf w)) := by
  cases t <;> simp only [decodeDevEvent, h, devInstr]

theorem decodeDevEvent_none (h : devEvtOf (w.extractLsb' 8 4) = none) :
    decodeDevEvent w = .error .reservedDevSubtype := by
  simp only [decodeDevEvent, h]

/-- An endpoint number other than 0 and 1 is above EP0. -/
theorem aboveEp0_of_ne {f : EpFields} (h0 : f.ep ≠ 0) (h1 : f.ep ≠ 1) : f.aboveEp0 = true := by
  simp only [EpFields.aboveEp0, decide_eq_true_eq]
  bv_omega

/-- An endpoint above EP0 is neither of EP0's two. -/
theorem ne_of_aboveEp0 {f : EpFields} (h : f.aboveEp0 = true) : f.ep ≠ 0 ∧ f.ep ≠ 1 := by
  simp only [EpFields.aboveEp0, decide_eq_true_eq] at h
  constructor <;> bv_omega

/-- The row of an endpoint event is well-formed and has the word of its fields. -/
theorem epInstr_spec (t : EpEvt) (f : EpFields) : (epInstr t f).wf = true ∧ formatOf (epInstr t f) = .event
    ∧ encode (epInstr t f) = [epEventWord t f.ep f.rsv f.status f.param] := by
  cases t with
  | xferComplete | xferNotReady =>
    simp only [epInstr]
    split_ifs with h0 h1
    · exact ⟨rfl, rfl, by rw [h0]; rfl⟩
    · exact ⟨rfl, rfl, by rw [h1]; rfl⟩
    · exact ⟨aboveEp0_of_ne h0 h1, rfl, rfl⟩
  | xferInProgress | rxTxFifo | stream | epCmdCmplt => exact ⟨rfl, rfl, rfl⟩

/-- The row of a device event is well-formed and has the word of its fields. -/
theorem devInstr_spec (t : DevEvt) (f : DevFields) : (devInstr t f).wf = true ∧ formatOf (devInstr t f) = .event
    ∧ encode (devInstr t f) = [devEventWord t f] := by
  cases t <;> exact ⟨rfl, rfl, rfl⟩

/-! ## From a word to its instruction and back -/

theorem decodeEventWord_ep (h : bitAt w 0 = false) : decodeEventWord w = decodeEpEvent w := if_pos h

theorem decodeEventWord_dev (h : bitAt w 0 = true) (hc : w.extractLsb' 1 7 = 0) :
    decodeEventWord w = decodeDevEvent w := by
  simp [decodeEventWord, h, hc]

theorem decodeEventWord_auxA (h : bitAt w 0 = true) (hc : w.extractLsb' 1 7 = 3) :
    decodeEventWord w = .ok (.evtAuxa (auxFieldsOf w)) := by
  simp [decodeEventWord, h, hc]

theorem decodeEventWord_auxB (h : bitAt w 0 = true) (hc : w.extractLsb' 1 7 = 4) :
    decodeEventWord w = .ok (.evtAuxb (auxFieldsOf w)) := by
  simp [decodeEventWord, h, hc]

theorem decodeEventWord_reserved (h : bitAt w 0 = true) (h0 : w.extractLsb' 1 7 ≠ 0) (h3 : w.extractLsb' 1 7 ≠ 3)
    (h4 : w.extractLsb' 1 7 ≠ 4) : decodeEventWord w = .error .reservedClass := by
  simp_all [decodeEventWord]

/-- Where the event decoder answers an instruction. -/
theorem decodeEventWord_eq_ok {i : Instr} (h : decodeEventWord w = .ok i) :
    (∃ t, bitAt w 0 = false ∧ epEvtOf (w.extractLsb' 6 4) = some t ∧ i = epInstr t (epFieldsOf w))
    ∨ (∃ t, bitAt w 0 = true ∧ w.extractLsb' 1 7 = 0 ∧ devEvtOf (w.extractLsb' 8 4) = some t
      ∧ i = devInstr t (devFieldsOf w))
    ∨ (bitAt w 0 = true ∧ w.extractLsb' 1 7 = 3 ∧ i = .evtAuxa (auxFieldsOf w))
    ∨ (bitAt w 0 = true ∧ w.extractLsb' 1 7 = 4 ∧ i = .evtAuxb (auxFieldsOf w)) := by
  obtain hb | ⟨hb, hc | hc | hc | ⟨h0, h3, h4⟩⟩ := event_layout w
  · rw [decodeEventWord_ep hb] at h
    cases ht : epEvtOf (w.extractLsb' 6 4) with
    | none => rw [decodeEpEvent_none ht] at h; cases h
    | some t => rw [decodeEpEvent_some ht] at h; cases h; exact .inl ⟨t, hb, rfl, rfl⟩
  · rw [decodeEventWord_dev hb hc] at h
    cases ht : devEvtOf (w.extractLsb' 8 4) with
    | none => rw [decodeDevEvent_none ht] at h; cases h
    | some t => rw [decodeDevEvent_some ht] at h; cases h; exact .inr (.inl ⟨t, hb, hc, rfl, rfl⟩)
  · rw [decodeEventWord_auxA hb hc] at h
    cases h
    exact .inr (.inr (.inl ⟨hb, hc, rfl⟩))
  · rw [decodeEventWord_auxB hb hc] at h
    cases h
    exact .inr (.inr (.inr ⟨hb, hc, rfl⟩))
  · rw [decodeEventWord_reserved hb h0 h3 h4] at h
    cases h

/-- The word of an endpoint event's operands decodes to its row with them (R102). -/
theorem decodeEventWord_epEventWord (t : EpEvt) (f : EpFields) :
    decodeEventWord (epEventWord t f.ep f.rsv f.status f.param) = .ok (epInstr t f) := by
  have hb : bitAt (epEventWord t f.ep f.rsv f.status f.param) 0 = false := by simp [epEventWord]
  have hf : epFieldsOf (epEventWord t f.ep f.rsv f.status f.param) = f := by
    simp [epFieldsOf, epEventWord, BitVec.extractLsb'_or]
  rw [decodeEventWord_ep hb, decodeEpEvent_some (t := t), hf]
  simp [epEventWord, BitVec.extractLsb'_or, epEvtOf_epEvtCode]

/-- The word of a device event's operands decodes to its row with them (R106). -/
theorem decodeEventWord_devEventWord (t : DevEvt) (f : DevFields) :
    decodeEventWord (devEventWord t f) = .ok (devInstr t f) := by
  obtain ⟨hb, hc⟩ : bitAt (devEventWord t f) 0 = true ∧ (devEventWord t f).extractLsb' 1 7 = 0 := by
    simp [devEventWord, BitVec.extractLsb'_or, show bitAt 0x01#32 0 = true from rfl]
  have hf : devFieldsOf (devEventWord t f) = f := by simp [devFieldsOf, devEventWord, BitVec.extractLsb'_or]
  rw [decodeEventWord_dev hb hc, decodeDevEvent_some (t := t), hf]
  simp [devEventWord, BitVec.extractLsb'_or, devEvtOf_devEvtCode]

/-- An auxiliary event word reads back as its class and fields (R108). -/
theorem auxEventWord_reads (c : BitVec 7) (f : AuxFields) : bitAt (auxEventWord c f) 0 = true
    ∧ (auxEventWord c f).extractLsb' 1 7 = c ∧ auxFieldsOf (auxEventWord c f) = f := by
  simp [auxFieldsOf, auxEventWord, BitVec.extractLsb'_or, show bitAt 0x01#32 0 = true from rfl]

end

/-- Settles O4: each layout's fields are all of its word, and the row they name encodes to them. -/
theorem encodeDecodeEvent : Obligations.EncodeDecodeEvent := by
  intro w i h
  obtain ⟨t, hb, ht, rfl⟩ | ⟨t, hb, hc, ht, rfl⟩ | ⟨hb, hc, rfl⟩ | ⟨hb, hc, rfl⟩ := decodeEventWord_eq_ok h
  · obtain ⟨hwf, hfmt, henc⟩ := epInstr_spec t (epFieldsOf w)
    exact ⟨hwf, hfmt, henc.trans (congrArg (fun v => [v]) (epEventWord_fields hb ht))⟩
  · obtain ⟨hwf, hfmt, henc⟩ := devInstr_spec t (devFieldsOf w)
    exact ⟨hwf, hfmt, henc.trans (congrArg (fun v => [v]) (devEventWord_fields hb hc ht))⟩
  · exact ⟨rfl, rfl, congrArg (fun v => [v]) (auxEventWord_fields hb hc)⟩
  · exact ⟨rfl, rfl, congrArg (fun v => [v]) (auxEventWord_fields hb hc)⟩

/-- Settles O5: the reserved class is the last of the layouts, and the two sub-type tables name the rest. -/
theorem reservedEventsAreR161 : Obligations.ReservedEventsAreR161 := by
  intro w
  change _ ↔ (bitAt w 0 = true ∧ _) ∨ (bitAt w 0 = false ∧ _) ∨ (bitAt w 0 = true ∧ _)
  rw [← epEvtOf_eq_none_iff, ← devEvtOf_eq_none_iff]
  obtain h | ⟨h, hc | hc | hc | ⟨h0, h3, h4⟩⟩ := event_layout w
  · rw [decodeEventWord_ep h]
    cases ht : epEvtOf (w.extractLsb' 6 4) with
    | none => simp [decodeEpEvent_none ht, h]
    | some t => simp [decodeEpEvent_some ht, h]
  · rw [decodeEventWord_dev h hc]
    cases ht : devEvtOf (w.extractLsb' 8 4) with
    | none => simp [decodeDevEvent_none ht, h, hc]
    | some t => simp [decodeDevEvent_some ht, h, hc]
  · simp [decodeEventWord_auxA h hc, h, hc]
  · simp [decodeEventWord_auxB h hc, h, hc]
  · simp_all [decodeEventWord_reserved h h0 h3 h4]

/-- Settles O7: the words are numbers, and the decoders run on them. -/
theorem writtenWordsDecode : Obligations.WrittenWordsDecode :=
  ⟨rfl, rfl, rfl, rfl, rfl, rfl, rfl, rfl, rfl, rfl, rfl, rfl, rfl⟩

end Sys2Proof

namespace Sys2Proof.Machine

section
variable {w : Word} {s : State}

/-- An auxiliary event notifies its word (R229). -/
theorem exec_evtAuxa (f : AuxFields) :
    exec (.evtAuxa f) s = .next (s.note (.code .auxEvent (.word (auxEventWord 3 f)))) := rfl

theorem exec_evtAuxb (f : AuxFields) :
    exec (.evtAuxb f) s = .next (s.note (.code .auxEvent (.word (auxEventWord 4 f)))) := rfl

/-! ## A reserved word (R161, R230) -/

/-- Outside the endpoint layout the raw word is notified. -/
theorem unknownEvent_nonEp (h : bitAt w 0 = true) :
    unknownEvent w s = .ok () (s.note (.code .unknownEvent (.word w))) := by
  obtain hb | ⟨-, hc | hc | hc | ⟨h0, h3, h4⟩⟩ := event_layout w
  · rw [h] at hb
    cases hb
  · simp only [unknownEvent, (devLayout h hc).1, notifyCode_run]
  · simp only [unknownEvent, (auxALayout h hc).1, notifyCode_run]
  · simp only [unknownEvent, (auxBLayout h hc).1, notifyCode_run]
  · simp only [unknownEvent, (reservedLayout h h0 h3 h4).1, notifyCode_run]

/-- On EP0 the word is notified with its reserved bits 0 (R333). -/
theorem unknownEvent_ep0 (h : bitAt w 0 = false) (he : (w.extractLsb' 1 5).toNat < 2) :
    unknownEvent w s = .ok () (s.note (.code .unknownEvent (.word (w &&& resvClear w)))) := by
  simp only [unknownEvent, ← encodeEvent_decodeEvent, (epLayout h).1, if_pos he, notifyCode_run]

/-- Above EP0 the raw word is notified, but dropped where the endpoint is disabled (R210). -/
theorem unknownEvent_upper (h : bitAt w 0 = false) (he : ¬(w.extractLsb' 1 5).toNat < 2) :
    unknownEvent w s = .ok () (if (s.ep (epNum (w.extractLsb' 1 5))).any (fun e => !e.enabled) = true then s
      else s.note (.code .unknownEvent (.word w))) := by
  simp only [unknownEvent, (epLayout h).1, if_neg he, bind_run, getEp_run]
  cases s.ep (epNum (w.extractLsb' 1 5)) with
  | none => rfl
  | some e => cases hen : e.enabled <;> simp [hen]

end

/-- Settles O27: the low byte fixes the class, and the fields kept are the whole word. -/
theorem auxiliaryEventsNotifyRawWord : Obligations.AuxiliaryEventsNotifyRawWord := by
  constructor
  · intro w h
    obtain ⟨hb, hc⟩ := class_of_lowByte (c := 3) h
    exact ⟨_, decodeEventWord_auxA hb hc, fun s => by rw [exec_evtAuxa, auxEventWord_fields hb hc]⟩
  · intro w h
    obtain ⟨hb, hc⟩ := class_of_lowByte (c := 4) h
    exact ⟨_, decodeEventWord_auxB hb hc, fun s => by rw [exec_evtAuxb, auxEventWord_fields hb hc]⟩

/-- Settles O6: by its layout the word is notified, or its endpoint's record decides. -/
theorem reservedEventNotified : Obligations.ReservedEventNotified := by
  intro w x s _
  refine toOutcome_ok ?_
  split_ifs with hb he
  · exact unknownEvent_nonEp hb
  · exact unknownEvent_ep0 (eq_false_of_ne_true hb) he
  · rw [unknownEvent_upper (eq_false_of_ne_true hb) he]
    cases s.ep (epNum (w.extractLsb' 1 5)) with
    | none => rfl
    | some e => cases hen : e.enabled <;> simp [hen]

end Sys2Proof.Machine
end

section
/-!
PROOFS. The round trip of every instruction (R100 to R132): the words of a command and of a descriptor read back, and
the bytes of all of them.
-/

namespace Sys2Proof

section
variable {w : Word} {ep : BitVec 5}

/-! ## Bytes -/

/-- Words are read back from their bytes (R73, R74). -/
theorem wordsOfBytes_flatMap (ws : List Word) : wordsOfBytes (ws.flatMap bytesOfWord) = ws := by
  induction ws with
  | nil => rfl
  | cons v ws ih =>
    simp only [List.flatMap_cons, bytesOfWord, List.cons_append, List.nil_append, wordsOfBytes]
    rw [Machine.wordOfBytes_bytes, ih]

theorem decode_encodeBytes (fmt : Format) (i : Instr) : decode fmt (encodeBytes i) = decodeWords fmt (encode i) := by
  rw [decode, encodeBytes, wordsOfBytes_flatMap]

/-! ## Commands -/

/-- The parameter of a command word (R121). -/
theorem commandWord_high (typ : BitVec 4) (param : BitVec 16) (ioc forcerm : Bool) :
    (commandWord typ param ioc forcerm).extractLsb' 16 16 = param := by
  simp [commandWord, BitVec.extractLsb'_or]

/-- The low half of a command word does not depend on its parameter. -/
theorem commandWord_low (typ : BitVec 4) (param : BitVec 16) (ioc forcerm : Bool) :
    (commandWord typ param ioc forcerm).extractLsb' 0 16 = (commandWord typ 0 ioc forcerm).extractLsb' 0 16 := by
  simp [commandWord, BitVec.extractLsb'_or]

/-- A resource index in a command's parameter (R123): its bits, and 0 above them. -/
theorem commandWord_rsc (typ : BitVec 4) (rsc : BitVec 7) (ioc forcerm : Bool) :
    (commandWord typ (rsc.setWidth 16) ioc forcerm).extractLsb' 16 7 = rsc
    ∧ (commandWord typ (rsc.setWidth 16) ioc forcerm).extractLsb' 23 9 = 0 := by
  have hplace : place (rsc.setWidth 16) 16 = place rsc 16 := by
    simp [place]
  simp [commandWord, BitVec.extractLsb'_or, hplace]

/-- The operand word that names an endpoint alone (log entry 10). -/
@[simp] theorem place_ep_and (ep : BitVec 5) : place ep 0 &&& 0xFFFFFFE0#32 = 0#32 := place_and_eq_zero ep (by decide)

@[simp] theorem opEp_place (ep : BitVec 5) : opEp (place ep 0) = ep := extractLsb'_place_self ep (by decide)

theorem decodeCommand_setxferrsc : decodeCommand 0x00000402#32 (place ep 0) = .ok (.depcmdSetxferrsc ep) := by
  simp [decodeCommand]

theorem decodeCommand_getepstate : decodeCommand 0x00000403#32 (place ep 0) = .ok (.depcmdGetepstate ep) := by
  simp [decodeCommand]

theorem decodeCommand_setstall : decodeCommand 0x00000404#32 (place ep 0) = .ok (.depcmdSetstall ep) := by
  simp [decodeCommand]

theorem decodeCommand_clearstall : decodeCommand 0x00000405#32 (place ep 0) = .ok (.depcmdClearstall ep) := by
  simp [decodeCommand]

theorem decodeCommand_setepconfig (a : CfgAction) :
    decodeCommand 0x00000401#32 (bitWord (a == .modify) 16 ||| place ep 0) = .ok (.depcmdSetepconfig ep a) := by
  have hop : (bitWord (a == .modify) 16 ||| place ep 0) &&& 0xFFFEFFE0#32 = 0#32 := by
    rw [BitVec.and_or_distrib_right, bitWord_eq_place, place_and_eq_zero _ (by decide),
      place_and_eq_zero _ (by decide), BitVec.or_zero]
  have hep : opEp (bitWord (a == .modify) 16 ||| place ep 0) = ep := by
    simp [opEp, BitVec.extractLsb'_or]
  have hbit : bitAt (bitWord (a == .modify) 16 ||| place ep 0) 16 = (a == .modify) := by
    simp
  simp only [decodeCommand, if_true, BitVec.ofNat_eq_ofNat, hop, hep, hbit]
  cases a <;> rfl

/-- A word with another low half is none of the commands without a parameter. -/
theorem ne_fixedCommand (h : w.extractLsb' 0 16 ∉ [0x0401#16, 0x0402#16, 0x0403#16, 0x0404#16, 0x0405#16]) :
    w ≠ 0x00000401#32 ∧ w ≠ 0x00000402#32 ∧ w ≠ 0x00000403#32 ∧ w ≠ 0x00000404#32 ∧ w ≠ 0x00000405#32 := by
  refine ⟨?_, ?_, ?_, ?_, ?_⟩ <;>
  · rintro rfl
    exact h (by decide)

theorem decodeCommand_starttransfer {slot : BitVec 8} (frame : BitVec 16) (h : slotUsable slot = true) :
    decodeCommand (commandWord (cmdTypCode .startTransfer) frame false false) (place slot 8 ||| place ep 0)
      = .ok (.depcmdStarttransfer ep slot frame) := by
  have hlow := (commandWord_low (cmdTypCode .startTransfer) frame false false).trans (c := 0x0406#16) (by decide)
  have hop : (place slot 8 ||| place ep 0) &&& 0xFFFF00E0#32 = 0#32 := by
    rw [BitVec.and_or_distrib_right, place_and_eq_zero _ (by decide), place_and_eq_zero _ (by decide), BitVec.or_zero]
  obtain ⟨h1, h2, h3, h4, h5⟩ := ne_fixedCommand (by rw [hlow]; decide)
  simp [decodeCommand, h1, h2, h3, h4, h5, hlow, hop, commandWord_high, opEp, BitVec.extractLsb'_or, h]

theorem decodeCommand_updatetransfer (rsc : BitVec 7) :
    decodeCommand (commandWord (cmdTypCode .updateTransfer) (rsc.setWidth 16) false false) (place ep 0)
      = .ok (.depcmdUpdatetransfer ep rsc) := by
  have hlow := (commandWord_low (cmdTypCode .updateTransfer) (rsc.setWidth 16) false false).trans
    (c := 0x0407#16) (by decide)
  obtain ⟨hrsc, hhigh⟩ := commandWord_rsc (cmdTypCode .updateTransfer) rsc false false
  obtain ⟨h1, h2, h3, h4, h5⟩ := ne_fixedCommand (by rw [hlow]; decide)
  simp [decodeCommand, h1, h2, h3, h4, h5, hlow, hrsc, hhigh]

theorem decodeCommand_endtransfer (rsc : BitVec 7) (ioc : Bool) :
    decodeCommand (commandWord (cmdTypCode .endTransfer) (rsc.setWidth 16) ioc true) (place ep 0)
      = .ok (if ioc then .depcmdEndtransferIocForcerm ep rsc else .depcmdEndtransferForcerm ep rsc) := by
  have hlow := (commandWord_low (cmdTypCode .endTransfer) (rsc.setWidth 16) ioc true).trans
    (c := if ioc then 0x0D08#16 else 0x0C08#16) (by cases ioc <;> decide)
  obtain ⟨hrsc, hhigh⟩ := commandWord_rsc (cmdTypCode .endTransfer) rsc ioc true
  obtain ⟨h1, h2, h3, h4, h5⟩ := ne_fixedCommand (by rw [hlow]; cases ioc <;> decide)
  cases ioc <;> simp_all [decodeCommand]

theorem decodeCommand_depstartcfg {base : BitVec 16} (h : baseLegal base = true) :
    decodeCommand (commandWord (cmdTypCode .depStartCfg) base false false) 0 = .ok (.depcmdDepstartcfg base) := by
  have hlow := (commandWord_low (cmdTypCode .depStartCfg) base false false).trans (c := 0x0409#16) (by decide)
  obtain ⟨h1, h2, h3, h4, h5⟩ := ne_fixedCommand (by rw [hlow]; decide)
  simp [decodeCommand, h1, h2, h3, h4, h5, hlow, commandWord_high, h]

/-! ## Descriptors -/

theorem trbTypOf_trbTypCode (t : TrbTyp) : trbTypOf (trbTypCode t) = some t := by
  cases t <;> rfl

/-- A `CTRL` word reads back as its type and its bits (R130). -/
theorem ctrlWord_reads (t : TrbTyp) (c : CtrlBits) :
    (ctrlWord t c).extractLsb' 4 6 = trbTypCode t ∧ ctrlBitsOf (ctrlWord t c) = c := by
  constructor
  · simp [ctrlWord, BitVec.extractLsb'_or]
  · simp [ctrlBitsOf, ctrlWord, BitVec.extractLsb'_or]

/-- A descriptor's words read back as its row and operands, its reserved fields 0 (R130, R132). -/
theorem decodeWords_descriptorWords (t : TrbTyp) {f : TrbFields} (h : f.reservedZero = true) :
    decodeWords .descriptor (descriptorWords t f) = .ok (trbInstr t f) := by
  obtain ⟨htyp, hbits⟩ := ctrlWord_reads t f.ctrl
  simp [descriptorWords, decodeWords, decodeDescriptor, htyp, trbTypOf_trbTypCode, hbits, h]

end

/-! ## Every instruction -/

/-- The word decoder undoes the encoder, row by row. -/
theorem decodeWords_encode {i : Instr} (h : i.wf = true) : decodeWords (formatOf i) (encode i) = .ok i := by
  cases i with
  | evtEpXfercomplete f =>
    obtain ⟨h0, h1⟩ := ne_of_aboveEp0 h
    exact (decodeEventWord_epEventWord .xferComplete f).trans (by rw [epInstr, if_neg h0, if_neg h1])
  | evtEpXfernotready f =>
    obtain ⟨h0, h1⟩ := ne_of_aboveEp0 h
    exact (decodeEventWord_epEventWord .xferNotReady f).trans (by rw [epInstr, if_neg h0, if_neg h1])
  | evtEpXferinprogress f | evtEpRxtxfifo f | evtEpStream f | evtEpEpcmdcmplt f =>
    exact decodeEventWord_epEventWord _ f
  | evtEpXfercompleteEp0 f | evtEpXfernotreadyEp0 f => exact decodeEventWord_epEventWord _ ⟨0, f.rsv, f.status, f.param⟩
  | evtEpXfercompleteEp1 f | evtEpXfernotreadyEp1 f => exact decodeEventWord_epEventWord _ ⟨1, f.rsv, f.status, f.param⟩
  | evtDevDisconnect f | evtDevReset f | evtDevConnectDone f | evtDevLinkChange f | evtDevWakeup f | evtDevSof f
  | evtDevErraticError f | evtDevCmdCmpl f | evtDevOverflow f => exact decodeEventWord_devEventWord _ f
  | evtAuxa f =>
    obtain ⟨hb, hc, hf⟩ := auxEventWord_reads 3 f
    exact (decodeEventWord_auxA hb hc).trans (by rw [hf])
  | evtAuxb f =>
    obtain ⟨hb, hc, hf⟩ := auxEventWord_reads 4 f
    exact (decodeEventWord_auxB hb hc).trans (by rw [hf])
  | depcmdSetepconfig ep a => exact decodeCommand_setepconfig a
  | depcmdSetxferrsc ep => exact decodeCommand_setxferrsc
  | depcmdGetepstate ep => exact decodeCommand_getepstate
  | depcmdSetstall ep => exact decodeCommand_setstall
  | depcmdClearstall ep => exact decodeCommand_clearstall
  | depcmdStarttransfer ep slot frame => exact decodeCommand_starttransfer frame h
  | depcmdUpdatetransfer ep rsc => exact decodeCommand_updatetransfer rsc
  | depcmdDepstartcfg base => exact decodeCommand_depstartcfg h
  | depcmdEndtransferIocForcerm ep rsc => exact decodeCommand_endtransfer rsc true
  | depcmdEndtransferForcerm ep rsc => exact decodeCommand_endtransfer rsc false
  | trbNormal f | trbControlSetup f | trbControlStatus2 f | trbControlStatus3 f | trbControlData f | trbIsocFirst f
  | trbIsoc f | trbLink f => exact decodeWords_descriptorWords _ h

/-- Settles O3: the bytes are the words, and the word decoder undoes the encoder. -/
theorem decodeEncode : Obligations.DecodeEncode := by
  intro i h
  rw [decode_encodeBytes, decodeWords_encode h]

end Sys2Proof

namespace Sys2Proof.Machine

/-! ## The parameter words of `SETEPCONFIG` -/

/-- The number of an endpoint in its field of five bits (R25). -/
theorem toNat_epBits (n : EpNum) : (epBits n).toNat = n.val := by
  simp [epBits]

/-- The FIFO number of an IN endpoint (R126). -/
theorem toNat_epBits_half (n : EpNum) : (epBits n >>> 1).toNat = n.val / 2 := by
  rw [BitVec.toNat_ushiftRight, toNat_epBits, Nat.shiftRight_eq_div_pow, pow_one]

/-- The fields of `cfg_p0` (R126). -/
theorem cfgP0_fields (e : Endpoint) (a : CfgAction) :
    (cfgP0 e a).extractLsb' 0 1 = 0 ∧ (cfgP0 e a).extractLsb' 1 2 = epTypeCode e.type
      ∧ (cfgP0 e a).extractLsb' 3 11 = e.maxpacket.setWidth 11 ∧ (cfgP0 e a).extractLsb' 14 3 = 0
      ∧ (cfgP0 e a).extractLsb' 17 5 = (if isIn e.number then epBits e.number >>> 1 else 0)
      ∧ (cfgP0 e a).extractLsb' 22 4 = 0 ∧ (cfgP0 e a).extractLsb' 26 4 = 0
      ∧ (cfgP0 e a).extractLsb' 30 2 = actionCode a := by
  simp [cfgP0, BitVec.extractLsb'_or]

/-- The fields of `cfg_p1` (R127). -/
theorem cfgP1_fields (e : Endpoint) :
    (cfgP1 e).extractLsb' 0 8 = 0 ∧ bitAt (cfgP1 e) 8 = true ∧ bitAt (cfgP1 e) 9 = (e.type != .control)
      ∧ bitAt (cfgP1 e) 10 = (e.type == .control || e.type == .isoc) ∧ (cfgP1 e).extractLsb' 11 5 = 0
      ∧ (cfgP1 e).extractLsb' 16 8 = (if hasInterval e.type then e.interval - 1 else 0) ∧ bitAt (cfgP1 e) 24 = false
      ∧ (cfgP1 e).extractLsb' 25 5 = epBits e.number ∧ (cfgP1 e).extractLsb' 30 2 = 0 := by
  simp [cfgP1, BitVec.extractLsb'_or]

/-- The types with a service interval (R28). -/
theorem hasInterval_iff (t : EpType) : hasInterval t = true ↔ t = .isoc ∨ t = .interrupt := by
  cases t <;> decide

/-- Settles O8: each field is read where it was placed. -/
theorem setepconfigWords : Obligations.SetepconfigWords := by
  refine ⟨⟨rfl, rfl, rfl, rfl, rfl, rfl⟩, fun e action => ?_⟩
  obtain ⟨h0, htype, hmps, h14, hfifo, h22, h26, haction⟩ := cfgP0_fields e action
  refine ⟨h0, htype, hmps, h14, ?_, h22, h26, haction, fun e => ?_⟩
  · simp only [hfifo, isIn, beq_iff_eq]
    split
    · exact toNat_epBits_half e.number
    · rfl
  · obtain ⟨h0, hcmplt, hprogress, hnotready, h11, hinterval, h24, hnum, h30⟩ := cfgP1_fields e
    refine ⟨h0, hcmplt, hprogress.trans ?_, hnotready.trans ?_, h11, hinterval.trans ?_, h24, ?_, h30⟩
    · cases e.type <;> rfl
    · cases e.type <;> rfl
    · simp only [hasInterval_iff]
    · rw [hnum, toNat_epBits]

end Sys2Proof.Machine
end

section
/-!
PROOFS. `LINK_CHANGE` (R371, R372), the end of the setup stage (R334 to R336), and `STARTTRANSFER` (R255).
-/

namespace Sys2Proof.Machine

section
variable {s : State} {n : EpNum} {e : Endpoint} {r : Request}

/-! ## LINK_CHANGE -/

/-- `power_notify` of a link that is in a state: `U3` entered or left, and not both (R372). -/
theorem powerNotify_run (old : Option LinkState) (new : LinkState) : powerNotify old (some new) s = .ok ()
    (if new = .u3 ∧ old ≠ some .u3 then s.note .suspend
      else if old = some .u3 ∧ new ≠ .u3 then s.note .resume
      else s) := by
  by_cases hold : old = some .u3 <;> by_cases hnew : new = .u3 <;> simp [powerNotify, hold, hnew]

/-- A reserved code (R150, R371). -/
theorem linkChange_reserved {info : BitVec 9} (h : linkStateOf (info.extractLsb' 0 4) = none) :
    linkChange info s
      = .ok () (s.note (.code .unknownEvent (.word (encodeEvent (.dev (devEvtCode .linkChange) info))))) := by
  simp only [linkChange, h, notifyCode_run]

/-- The link moves, and the move is counted and notified (R371). -/
theorem linkChange_state {info : BitVec 9} {new : LinkState} (h : linkStateOf (info.extractLsb' 0 4) = some new) :
    linkChange info s = powerNotify s.link.state (some new)
      (s.modLink fun l => { l with prev := s.link.state, state := some new, seq := l.seq + 1 }) := by
  simp only [linkChange, h, bind_run, get_run, upd_run]

/-- The word of a link change, its reserved bits 0 (R106, R112). -/
theorem encodeEvent_linkChange (info : BitVec 9) :
    encodeEvent (.dev (devEvtCode .linkChange) info) = info.setWidth 32 <<< 16 ||| 0x301#32 := by
  rw [encodeEvent, BitVec.or_assoc]
  rfl

/-! ## The setup stage -/

/-- An event of EP0 with a record reaches its handler (R333). -/
theorem ep0Event_some {t : EpEvt} {b : BitVec 5} {st : BitVec 4} {p : BitVec 16} {h : M Unit}
    (he : s.ep (epNum b) = some e) : ep0Event t b st p h s = h s := by
  simp only [ep0Event, bind_run, getEp_run, he]

/-- A finished stage is taken off its ring, and its end goes on by its kind (R334). -/
theorem ep0XferComplete_done (h : StageDone s n e r) (st : BitVec 4) :
    ep0XferComplete n st s = stageDone r (bufSiz (slotSize s n e.deq.val)) st (s.setEp n (some e.stageRetired)) := by
  have hspace := h.inSpace
  have hgiven := h.given
  unfold SlotInSpace at hspace
  unfold slotHwo at hgiven
  simp only [ep0XferComplete, bind_run, needEp_some h.record, h.started, getReq_run, h.request, get_run, h.first,
    Option.getD_some]
  rw [memRead32_quiet h.quiet (by omega)]
  simp only [hgiven, Bool.false_eq_true, if_false, bind_run]
  rw [memRead32_quiet h.quiet (by omega)]
  simp only [modEp_run, State.modEp_some h.record, h.started, List.tail_cons]
  rfl

/-- What the end of a setup stage does (R334). -/
theorem stageDone_ep0Setup (hk : r.kind = .ep0Setup) (rem : Nat) (st : BitVec 4) :
    stageDone r rem st = (do
      complete { r with actual := 8 - min rem 8 } .ok
      if busErr st then ep0StallRestart else onSetup) := by
  cases r
  cases hk
  rfl

/-- The record of a retired stage names no request. -/
theorem StageDone.without_stageRetired (h : StageDone s n e r) (id : ReqId) :
    e.stageRetired.without id = e.stageRetired := by
  simp [Endpoint.without, Endpoint.stageRetired, h.pending, h.cancelled]

/-- The end of a stage that is the controller's own is not notified (R299, R331). -/
theorem complete_stage (h : StageDone s n e r) (hk : r.kind ≠ .user) (actual : Nat) (oc : Outcome) :
    complete { r with actual := actual } oc (s.setEp n (some e.stageRetired))
      = .ok () ((s.setEp n (some e.stageRetired)).delReq r.id) := by
  have hn := h.ofEp
  subst hn
  rw [complete_run (e := e.stageRetired) (State.setEp_ep_self ..), h.without_stageRetired, State.setEp_setEp,
    State.reported, if_neg hk]

/-- The setup packet, read with nothing scheduled (R335). -/
theorem readSetup_quiet (q : s.env.sched = []) (h : s.cfg.setupBufAddr.toNat + 8 ≤ 2 ^ s.cfg.dmaAddrBits) :
    readSetup s = .ok (setupAt s.mem s.cfg.setupBufAddr.toNat) s := by
  have hread : ∀ k, k < 8 → memRead8 (s.cfg.setupBufAddr.toNat + k) s
      = .ok (Memory.read s.mem (s.cfg.setupBufAddr.toNat + k)) s :=
    fun k hk => memRead8_quiet q (by omega)
  have hread0 := hread 0 (by decide)
  rw [Nat.add_zero] at hread0
  simp only [readSetup, bind_run, getCfg_run, hread0, hread 1 (by decide), hread 2 (by decide), hread 3 (by decide),
    hread 4 (by decide), hread 5 (by decide), hread 6 (by decide), hread 7 (by decide), pure_run]
  rfl

/-- A three-stage transfer that is not stalled waits in its data phase (R336). -/
theorem setupReply_threeStage {reply : SetupReply} (hr : reply ≠ .stall) (h : s.ep0.threeStage = true) :
    setupReply reply s = .ok () (s.modEp0 fun c => { c with delayed := reply = .delay, state := .dataPhase }) := by
  cases reply with
  | stall => exact absurd rfl hr
  | accept | delay => simp only [setupReply, bind_run, getEp0_run, modEp0_run, h, if_true]; rfl

/-- `on_setup` of a three-stage transfer, its reply scheduled and not `STALL` (R335, R336). -/
theorem onSetup_threeStage {reply : SetupReply} {more : List SetupReply} (q : s.env.sched = [])
    (h : s.cfg.setupBufAddr.toNat + 8 ≤ 2 ^ s.cfg.dmaAddrBits) (hreplies : s.env.replies = reply :: more)
    (hr : reply ≠ .stall) (hw : wLength (setupAt s.mem s.cfg.setupBufAddr.toNat) ≠ 0) :
    onSetup s = .ok () (
      let p := setupAt s.mem s.cfg.setupBufAddr.toNat
      ((s.note (.setup p)).modEnv fun v => { v with replies := more }).modEp0 fun c =>
        { c with setup := p, threeStage := true, dataIn := setupIsIn p, delayed := reply = .delay,
                 state := .dataPhase }) := by
  simp only [onSetup, bind_run, readSetup_quiet q h, modEp0_run, notify_run]
  rw [drawReply_cons (by exact hreplies)]
  simp only [hw, ne_eq, not_false_eq_true, decide_true]
  exact setupReply_threeStage hr rfl

/-! ## STARTTRANSFER -/

/-- A usable slot is its operand (R255, R280). -/
theorem slotOf_val {slot : BitVec 8} (h : slot.toNat < 255) : (slotOf slot).val = slot.toNat := by
  rw [slotOf, dif_pos h]

/-- `STARTTRANSFER` answered by success at the first poll (R255). -/
theorem cmdStarttransfer_answered (i : Slot) (frame : BitVec 16) {w : Word} {rest : List (List EnvStep)}
    (he : s.ep n = some e) (hs : e.cmdStuck = false) (h : s.env.sched = answers n w ++ rest) (hw : cmdStatus w = 0) :
    cmdStarttransfer n i frame s = .ok (.ok (readBack w))
      ((s.commanded n
        { typ := .startTransfer, p0 := quadHigh (tdAddr s n i), p1 := quadLow (tdAddr s n i), param := frame } w
        rest).modEp n fun e => { e with rsc := some (cmdRsc w), xferStarted := true, isocArmed := false }) := by
  simp only [cmdStarttransfer, bind_run, get_run]
  rw [issueRetry_answered _ rfl he hs h hw]
  simp only [bind_run, modEp_run, (readBack_fields w).2.2, pure_run]

end

/-- Settles O30: a reserved code's word has its reserved bits 0; any other code moves the link. -/
theorem linkChangeResult : Obligations.LinkChangeResult := by
  intro f s
  refine toOutcome_ok ?_
  cases hnew : linkStateOf (f.info.extractLsb' 0 4) with
  | none => rw [linkChange_reserved hnew, encodeEvent_linkChange]
  | some new => rw [linkChange_state hnew, powerNotify_run]; rfl

/-- Settles O40: the stage is retired, its request goes without a notification, and the packet is handled in the
state that leaves. -/
theorem setupStageCompletes : Obligations.SetupStageCompletes := by
  intro f s e r reply more h hk hbus hspace hreplies hr hw
  refine toOutcome_ok ?_
  rw [ep0Event_some (by exact h.record), ep0XferComplete_done h, stageDone_ep0Setup hk, bind_run,
    complete_stage h (by simp [hk])]
  simp only [hbus, Bool.false_eq_true, if_false]
  exact onSetup_threeStage (by exact h.quiet) hspace hreplies hr hw

/-- Settles O43: the slot's address is the descriptor's, and the index kept is the one the silicon wrote. -/
theorem startTransferCompletes : Obligations.StartTransferCompletes := by
  rintro s ep slot frame w rest hslot ⟨e, he, hs⟩ hsched hw
  have htd : tdAddr s (epNum ep) (slotOf slot)
      = BitVec.ofNat 64 (s.cfg.ringBase[epNum ep].toNat + 16 * slot.toNat) := by
    rw [tdAddr, slotOf_val hslot, State.slotAddr]
  have hcmd := cmdStarttransfer_answered (slotOf slot) frame he hs hsched hw
  rw [htd] at hcmd
  exact toOutcome_commandCall_ok hcmd

end Sys2Proof.Machine
end

section
/-!
PROOFS. The bottom half's turns (R201 to R205, R467, R471): the start of a drain, its resynchronisation after an
overflow, one word of it, and its end.
-/

namespace Sys2Proof.Machine

section
variable {s : State} {rest : List Act}

/-! ## The turn that starts a drain -/

/-- With the interrupt taken and the lock free, the bottom half's turn starts its drain (R467, R472). -/
theorem step_eq_drainStart (halive : s.run.alive = true) (hdrain : s.run.drain = false)
    (hstop : Agent.bh ∉ s.run.stopped) (hagenda : s.env.agenda = .bh :: rest) (hlock : s.lock = none)
    (hpending : s.evbuf.pending = true) : step s = toOutcome drainStart (s.setAgenda rest) := by
  rw [step_eq_turn halive (by simp [hdrain]) hagenda]
  simp [turn, actAgent, actEnabled, callerWaiting, actCall, plainAct, hstop, hlock, hpending]

/-- With the buffer disabled the drain only clears `pending`: the lock is taken and given back (R201). -/
theorem drainStart_disabled (h : s.evbuf.enabled = false) (hlock : s.lock = none) :
    drainStart s = .ok () (s.modEvbuf fun b => { b with pending := false }) := by
  have hfree : ∀ t : State, t.lock = none → (t.setLock (some .bh)).setLock none = t := by
    rintro ⟨⟩ rfl
    rfl
  simp only [drainStart, bind_run, acquire_run, get_run, State.setLock_evbuf, h, Bool.false_eq_true, if_false, upd_run,
    release_run]
  exact congrArg _ (hfree (s.modEvbuf fun b => { b with pending := false }) hlock)

/-- With the buffer enabled the count is read once, and the drain goes on by its size (R202, R205). -/
theorem drainStart_enabled (h : s.evbuf.enabled = true) (q : s.env.sched = []) :
    drainStart s = (do
      if 4096 < (s.hwCount &&& 0xFFFC#16).toNat then overflowResync (s.hwCount &&& 0xFFFC#16)
      else upd fun s' => s'.modEvbuf fun b => { b with count := s.hwCount &&& 0xFFFC#16 }
      upd fun s' => s'.modRun fun u => { u with drain := true }) (s.setLock (some .bh)) := by
  simp only [drainStart, bind_run, acquire_run, get_run, State.setLock_evbuf, h, if_true]
  rw [regRead_quiet rfl (by exact q)]
  rfl

/-! ## The overflow -/

/-- A drawn offset is a word's in the buffer (R205). -/
theorem drawOffset_run (s : State) : ∃ l : BitVec 16, l.toNat < 4096 ∧ l.toNat % 4 = 0
    ∧ drawOffset s = .ok l (s.modEnv fun e => { e with draws := e.draws + 1 }) := by
  have hword := (Config.freeOverflowWord s.env.draws).isLt
  have hval : ((Config.freeOverflowWord s.env.draws).setWidth 16 <<< 2).toNat
      = 4 * (Config.freeOverflowWord s.env.draws).toNat := by bv_omega
  exact ⟨(Config.freeOverflowWord s.env.draws).setWidth 16 <<< 2, by omega, by omega, rfl⟩

/-- A count may be written to `GEVNTCOUNT`, which takes it off (R47). -/
theorem gevntcount_count (x : BitVec 16) (old : Word) :
    writable .gevntcount (x.setWidth 32) = true
      ∧ written .gevntcount old (x.setWidth 32) = BitVec.ofNat 32 (old.toNat - x.toNat) := by
  have hx : x.setWidth 32 = place x 0 := by simp [place]
  simp [writable, written, hx]

/-- `overflow_resync` with nothing scheduled: both offsets are the drawn one, and the count is acknowledged whole. -/
theorem overflowResync_quiet (hw : BitVec 16) (q : s.env.sched = []) :
    ∃ l : BitVec 16, l.toNat < 4096 ∧ l.toNat % 4 = 0 ∧ overflowResync hw s = .ok () (
      ((((s.note (.code .evtOverflow (.count hw))).modEnv fun e => { e with draws := e.draws + 1 }).modEvbuf fun b =>
        { b with lpos := l, count := 0 }).modSi fun u => { u with wpos := l }).setReg .gevntcount
          (BitVec.ofNat 32 (s.regs.gevntcount.toNat - hw.toNat))) := by
  obtain ⟨l, hlt, halign, hdraw⟩ := drawOffset_run (s.note (.code .evtOverflow (.count hw)))
  obtain ⟨hwritable, hwritten⟩ := gevntcount_count hw s.regs.gevntcount
  refine ⟨l, hlt, halign, ?_⟩
  simp only [overflowResync, bind_run, notifyCode_run, hdraw, upd_run]
  rw [regWrite_quiet rfl rfl (by exact q) hwritable, ← hwritten]
  rfl

/-! ## One word, and the end -/

/-- In a drain a step is the bottom half's (R467). -/
theorem step_eq_drainStep (halive : s.run.alive = true) (hdrain : s.run.drain = true)
    (hstop : Agent.bh ∉ s.run.stopped) : step s = drainStep s := by
  simp [step, halive, hdrain, hstop]

/-- A valid offset with its word in the address space: the word there is fetched (R201 (a)). -/
theorem fetchWord_run (h : EvbufOk s)
    (hspace : s.cfg.evbufAddr.toNat + s.evbuf.lpos.toNat + 4 ≤ 2 ^ s.cfg.dmaAddrBits) :
    fetchWord s = .ok (Memory.readWord (tickState s).mem (s.cfg.evbufAddr.toNat + s.evbuf.lpos.toNat))
      (tickState s) := by
  obtain ⟨hlpos, -⟩ := Bool.and_eq_true_iff.mp h
  simp only [fetchWord, bind_run, get_run, hlpos, if_true]
  exact memRead32_run (by rwa [tickState_cfg])

/-- `INTMASK` cleared (R46). -/
theorem setField_intmask (w : Word) : setField w 31 (0 : BitVec 1) = w &&& 0x7FFFFFFF#32 := setField_bit_zero w 31

/-- With the reserved field 0, the core may write back `GEVNTSIZ` with `INTMASK` cleared (R46). -/
theorem writable_unmasked {w : Word} (h : w.extractLsb' 16 15 = 0) :
    writable .gevntsiz (w &&& 0x7FFFFFFF#32) = true := by
  simp only [writable]
  rw [extractLsb'_and_mask w (by decide), h]
  rfl

/-- Return from the interrupt with nothing scheduled (R201, R471). -/
theorem returnFromInterrupt_quiet (q : s.env.sched = []) (h : s.regs.gevntsiz.extractLsb' 16 15 = 0) :
    returnFromInterrupt s = .ok () ((((s.modEvbuf fun b => { b with pending := false }).setReg .gevntsiz
      (s.regs.gevntsiz &&& 0x7FFFFFFF#32)).modRun fun u => { u with drain := false }).setLock none) := by
  simp only [returnFromInterrupt, bind_run, upd_run]
  rw [regRMW_quiet rfl rfl (by exact q) (by rw [setField_intmask]; exact writable_unmasked h), setField_intmask]
  rfl

/-- With `INTMASK` clear, the interrupt is asserted while the enabled buffer has unread bytes (R465). -/
theorem irq_unmasked {w : Word} (h : s.regs.gevntsiz = w &&& 0x7FFFFFFF#32) :
    irq s = (s.evbuf.enabled && s.hwCount != 0) := by
  rw [irq, h, bitAt_and, show bitAt 0x7FFFFFFF#32 31 = false from rfl, Bool.and_false, Bool.not_false, Bool.and_true]

end

/-- Settles O14: the drain's start resynchronises, and the drain it leaves has no word. -/
theorem overflowResynchronises : Obligations.OverflowResynchronises := by
  intro s rest halive hdrain hstop hagenda hlock hpending q henabled hcount
  rw [step_eq_drainStart halive hdrain hstop hagenda hlock hpending]
  obtain ⟨l, hlt, halign, hresync⟩ := overflowResync_quiet (s := (s.setAgenda rest).setLock (some .bh))
    (s.hwCount &&& 0xFFFC#16) (by exact q)
  refine ⟨l, hlt, halign, toOutcome_ok ?_⟩
  have hover : 4096 < ((s.setAgenda rest).hwCount &&& 0xFFFC#16).toNat := hcount
  rw [drainStart_enabled (by exact henabled) (by exact q), if_pos hover, bind_run]
  exact hresync ▸ rfl

/-- Settles O15: without a word left the drain returns, and the return unmasks. -/
theorem interruptReturn : Obligations.InterruptReturn := by
  intro s halive hdrain hstop hcount q hreserved
  refine ⟨_, ?_, rfl, ?_⟩
  · rw [step_eq_drainStep halive hdrain hstop, drainStep, if_pos hcount]
    exact toOutcome_ok (returnFromInterrupt_quiet q hreserved)
  · exact irq_unmasked rfl

/-- Settles O9: the word is fetched, decoded and run, and its acknowledgment follows. -/
theorem stepRunsDrainedEvent : Obligations.StepRunsDrainedEvent := by
  intro s w i halive hdrain hstop hcount hok hspace hw hi
  rw [step_eq_drainStep halive hdrain hstop, drainStep, if_neg hcount, drainWord, fetchWord_run hok hspace, hw]
  cases hexec : exec i (tickState s) <;> simp only [hi, hexec]

end Sys2Proof.Machine

namespace Sys2Proof

section
open Machine

/-- Settles O13: the turn is the drain's start, and a count within the buffer is kept. -/
theorem drainStart : Obligations.DrainStart := by
  intro s rest halive hdrain hstop hagenda hlock hpending q
  rw [step_eq_drainStart halive hdrain hstop hagenda hlock hpending]
  refine ⟨fun hdisabled => toOutcome_ok (drainStart_disabled (by exact hdisabled) (by exact hlock)),
    fun henabled hcount => toOutcome_ok ?_⟩
  have hfits : ¬ 4096 < ((s.setAgenda rest).hwCount &&& 0xFFFC#16).toNat := Nat.not_lt.mpr hcount
  rw [drainStart_enabled (by exact henabled) (by exact q), if_neg hfits]
  rfl

end

end Sys2Proof
end

section
/-!
PROOFS. The dispatch of endpoint events (R210, R333): without a record, on a disabled endpoint, and the events without
an action; and the device events that issue no command (R221, R224 to R228).
-/

namespace Sys2Proof

/-- The low twelve bits of a word with a device event's fixed ones give its sub-type (R106). -/
theorem decodeEventWord_of_low12 {w : Word} {t : DevEvt} (h : w &&& 0xFFF#32 = place (devEvtCode t) 8 ||| 0x01#32) :
    decodeEventWord w = .ok (devInstr t (devFieldsOf w)) := by
  have hlow : w &&& 0xFF#32 = place (0 : BitVec 7) 1 ||| 0x01#32 := by
    rw [show (0xFF#32) = 0xFFF#32 &&& 0xFF#32 from rfl, ← BitVec.and_assoc, h]
    cases t <;> rfl
  obtain ⟨hb, hc⟩ := class_of_lowByte hlow
  have hcode : w.extractLsb' 8 4 = devEvtCode t := by
    have hfield := congrArg (BitVec.extractLsb' 8 4) h
    rw [extractLsb'_and_mask w (by decide)] at hfield
    simpa [BitVec.extractLsb'_or] using hfield
  exact (decodeEventWord_dev hb hc).trans (decodeDevEvent_some (hcode ▸ devEvtOf_devEvtCode t))

end Sys2Proof

namespace Sys2Proof.Machine

section
variable {s : State} {e : Endpoint} {t : EpEvt} {f : EpFields} {awaited : Endpoint → Bool} {h0 h : M Unit}

/-! ## `dispatch_ep` (R210) -/

/-- Without a record the event is notified as unknown, on EP0 with its reserved bits 0 (R333). -/
theorem epEvent_unknown (he : s.ep (epNum f.ep) = none) : epEvent t f awaited h0 h s = .ok () (s.note
    (.code .unknownEvent (.word (
      if f.ep.toNat < 2 then encodeEvent (.ep f.ep (epEvtCode t) f.status f.param)
      else epEventWord t f.ep f.rsv f.status f.param)))) := by
  unfold epEvent
  split_ifs <;> simp only [ep0Event, ringEvent, bind_run, getEp_run, he, notifyCode_run]

/-- An event of EP0 with a record reaches EP0's handler. -/
theorem epEvent_ep0 (hlow : f.ep.toNat < 2) (he : s.ep (epNum f.ep) = some e) :
    epEvent t f awaited h0 h s = h0 s := by
  rw [epEvent, if_pos hlow, ep0Event_some he]

/-- Above EP0 an event reaches the ring's handler, but is dropped on a disabled endpoint that does not await it. -/
theorem epEvent_ring (hup : 2 ≤ f.ep.toNat) (he : s.ep (epNum f.ep) = some e) :
    epEvent t f awaited h0 h s = if e.enabled || awaited e then h s else .ok () s := by
  rw [epEvent, if_neg (by omega)]
  simp only [ringEvent, bind_run, getEp_run, he]
  split_ifs <;> rfl

/-- An event of an enabled endpoint above EP0 reaches the ring's handler. -/
theorem epEvent_enabled (hup : 2 ≤ f.ep.toNat) (he : s.ep (epNum f.ep) = some e) (hen : e.enabled = true) :
    epEvent t f awaited h0 h s = h s := by
  rw [epEvent_ring hup he, hen, Bool.true_or, if_pos rfl]

/-- Where the ring's handler does nothing, it does not matter whether the event is dropped. -/
theorem epEvent_ring_noop (hup : 2 ≤ f.ep.toNat) (he : s.ep (epNum f.ep) = some e) (hh : h s = .ok () s) :
    epEvent t f awaited h0 h s = .ok () s := by
  rw [epEvent_ring hup he, hh, ite_self]

/-- An event without an action changes nothing where there is a record (R214, R215). -/
theorem epEvent_noop (he : s.ep (epNum f.ep) = some e) : epEvent t f awaited (pure ()) (pure ()) s = .ok () s := by
  by_cases hlow : f.ep.toNat < 2
  · exact epEvent_ep0 hlow he
  · exact epEvent_ring_noop (by omega) he rfl

/-- Every endpoint event is dispatched with a handler for EP0 and one for the ring, and a disabled endpoint above EP0
takes it only while it awaits an end (R210). -/
theorem exec_epInstr (t : EpEvt) (f : EpFields) : ∃ (awaited : Endpoint → Bool) (h0 h : M Unit),
    (∀ e, e.endPending = false → awaited e = false)
      ∧ ∀ s, exec (epInstr t f) s = toOutcome (epEvent t f awaited h0 h) s := by
  obtain ⟨b, rsv, status, param⟩ := f
  cases t with
  | xferComplete =>
    refine ⟨neverAwaited, ep0XferComplete (epNum b) status, onXferComplete (epNum b) status, fun _ _ => rfl,
      fun s => ?_⟩
    simp only [epInstr]
    split_ifs with hb0 hb1
    · cases hb0; rfl
    · cases hb1; rfl
    · rfl
  | xferNotReady =>
    refine ⟨neverAwaited, pure (), onXferNotready (epNum b) param, fun _ _ => rfl, fun s => ?_⟩
    simp only [epInstr]
    split_ifs with hb0 hb1
    · cases hb0; rfl
    · cases hb1; rfl
    · rfl
  | xferInProgress => exact ⟨neverAwaited, _, _, fun _ _ => rfl, fun _ => rfl⟩
  | rxTxFifo => exact ⟨neverAwaited, _, _, fun _ _ => rfl, fun _ => rfl⟩
  | stream => exact ⟨neverAwaited, _, _, fun _ _ => rfl, fun _ => rfl⟩
  | epCmdCmplt => exact ⟨endAwaited, _, _, fun _ hp => hp, fun _ => rfl⟩

/-! ## The instruction of an endpoint event's word -/

/-- A word of the endpoint layout that decodes is the row of its sub-type. -/
theorem eq_epInstr_of_decode {w : Word} {i : Instr} (hi : decodeEventWord w = .ok i) (hw : bitAt w 0 = false) :
    ∃ t, epEvtOf (w.extractLsb' 6 4) = some t ∧ i = epInstr t (epFieldsOf w) := by
  obtain ⟨t, -, ht, rfl⟩ | ⟨t, hb, -⟩ | ⟨hb, -⟩ | ⟨hb, -⟩ := decodeEventWord_eq_ok hi
  · exact ⟨t, ht, rfl⟩
  all_goals rw [hw] at hb; cases hb

/-- The encoder on an endpoint event's fields clears the reserved ones (R112). -/
theorem encodeEvent_epFields {w : Word} (hw : bitAt w 0 = false) (ht : epEvtOf (w.extractLsb' 6 4) = some t) :
    encodeEvent (.ep (w.extractLsb' 1 5) (epEvtCode t) (w.extractLsb' 12 4) (w.extractLsb' 16 16))
      = w &&& resvClear w := by
  rw [epEvtCode_of_epEvtOf ht, ← (epLayout hw).1, encodeEvent_decodeEvent]

/-! ## EP0 without a stage -/

/-- The end of a transfer on a ring of EP0 that holds no stage does nothing (R334). -/
theorem ep0XferComplete_idle {n : EpNum} (he : s.ep n = some e) (hs : e.started = []) (status : BitVec 4) :
    ep0XferComplete n status s = .ok () s := by
  simp only [ep0XferComplete, bind_run, needEp_some he, hs, pure_run]

end

/-- Settles O33: the word notified is the event's own, on EP0 as the encoder makes it. -/
theorem eventWithoutRecord : Obligations.EventWithoutRecord := by
  intro w i s hi hw he
  obtain ⟨t, ht, rfl⟩ := eq_epInstr_of_decode hi hw
  obtain ⟨awaited, h0, h, -, hexec⟩ := exec_epInstr t (epFieldsOf w)
  rw [hexec, toOutcome_ok (epEvent_unknown (by exact he))]
  simp only [epFieldsOf, encodeEvent_epFields hw ht, epEventWord_fields hw ht]

/-- Settles O34: the dispatch drops the event, whichever it is. -/
theorem disabledEndpointDropsEvent : Obligations.DisabledEndpointDropsEvent := by
  intro w i s e hi hw hup he hdisabled hend
  obtain ⟨t, -, rfl⟩ := eq_epInstr_of_decode hi hw
  obtain ⟨awaited, h0, h, hawaited, hexec⟩ := exec_epInstr t (epFieldsOf w)
  rw [hexec]
  refine toOutcome_ok ?_
  rw [epEvent_ring (by exact hup) (by exact he), hdisabled, hawaited e hend]
  rfl

/-- Settles O35: the handlers of these events are empty, and EP0's handler of `XFERCOMPLETE` finds no stage. -/
theorem endpointEventsWithoutAction : Obligations.EndpointEventsWithoutAction := by
  refine fun s e => ⟨fun f he => ?_, fun f => ⟨fun he => ?_, fun he => ?_⟩⟩
  · exact ⟨toOutcome_ok (epEvent_noop he), toOutcome_ok (epEvent_noop he),
      fun hlow => ⟨toOutcome_ok (epEvent_ep0 hlow he), toOutcome_ok (epEvent_ep0 hlow he)⟩⟩
  · exact ⟨toOutcome_ok (ep0Event_some he), fun hs =>
      toOutcome_ok ((ep0Event_some he).trans (ep0XferComplete_idle he hs _))⟩
  · exact ⟨toOutcome_ok (ep0Event_some he), fun hs =>
      toOutcome_ok ((ep0Event_some he).trans (ep0XferComplete_idle he hs _))⟩

/-- Settles O26: the low twelve bits fix the sub-type, and `EVTINFO` is the word's field. -/
theorem simpleDeviceEvents : Obligations.SimpleDeviceEvents := by
  refine ⟨fun w hw => ⟨_, decodeEventWord_of_low12 (t := .sof) hw, fun s => ?_⟩,
    fun w hw => ⟨_, decodeEventWord_of_low12 (t := .cmdCmpl) hw, fun s => ?_⟩,
    fun w hw => ⟨_, decodeEventWord_of_low12 (t := .wakeup) hw, fun s => ?_⟩,
    fun w hw => ⟨_, decodeEventWord_of_low12 (t := .erraticError) hw, fun s => ?_⟩,
    fun w hw => ⟨_, decodeEventWord_of_low12 (t := .overflow) hw, fun s => ?_⟩⟩
  · exact toOutcome_ok (pure_run () s)
  · exact toOutcome_ok (pure_run () s)
  · exact toOutcome_ok (notify_run .resume s)
  · exact toOutcome_ok (notifyCode_run .erratic (.info9 (w.extractLsb' 16 9)) s)
  · exact toOutcome_ok (notifyCode_run .devOverflow (.info9 (w.extractLsb' 16 9)) s)

/-- Settles O28: the update, the notification and the trigger, in this order. -/
theorem disconnectResult : Obligations.DisconnectResult := by
  intro f s
  change toOutcome onDisconnect s = _
  refine toOutcome_ok ?_
  simp only [onDisconnect, draTrigger, bind_run, upd_run, notify_run]

end Sys2Proof.Machine
end

section
/-!
PROOFS. The transfer events above EP0 (R211 to R213, R216): a finished request retired, an idle endpoint started, and
the awaited end of a transfer.
-/

namespace Sys2Proof.Machine

section
variable {s : State} {n : EpNum} {e : Endpoint} {r : Request}

/-! ## Retirement (R295 to R299) -/

/-- The one slot of the request reads `HWO = 0`, and its `SIZE` word is the account (R296). -/
theorem account_oneDone (h : OneDone s n e r) :
    account n r s = .ok (accountOf r [slotSize s n e.deq.val] []) s := by
  have hspace := h.inSpace
  have hgiven := h.given
  unfold SlotInSpace at hspace
  unfold slotHwo at hgiven
  have hslots : slotsOf r = [e.deq] := by simp [slotsOf, h.first, h.ndesc, advN]
  simp only [account, hslots, bind_run, readSlots, get_run]
  rw [memRead32_quiet h.quiet (by omega)]
  simp only [hgiven, Bool.not_false, Bool.and_self, if_true, bind_run]
  rw [memRead32_quiet h.quiet (by omega)]
  rfl

/-- A request whose every descriptor was given back is full, and retires (R295, R296). -/
theorem accountOf_cls_full {sizes : List Word} {tail : List Slot} (h : sizes.length = r.ndesc) :
    (accountOf r sizes tail).cls = .full := if_pos h

/-- The first loop of `dequeue_complete` takes the finished request off its ring (R295). -/
theorem retireLoop_oneDone (h : OneDone s n e r) (sp : Bool) :
    retireLoop n [r.id] sp s = (
      let acc := accountOf r [slotSize s n e.deq.val] []
      .ok [({ r with actual := acc.actual }, acc.missed)]
        ((s.setEp n (some e.retired)).modReq r.id fun q => { q with actual := acc.actual })) := by
  have hcls := accountOf_cls_full (r := r) (sizes := [slotSize s n e.deq.val]) (tail := []) (by simp [h.ndesc])
  simp only [retireLoop, bind_run, getReq_run, h.request, account_oneDone h, hcls, retires]
  simp only [accountOf, forEach_nil, pure_run, modEp_run, modReq_run, State.modEp_some h.record, h.ndesc,
    h.started, List.tail_cons, advN]
  rfl

/-- A request's record changed and then deleted is deleted. -/
theorem State.modReq_delReq (s : State) (id : ReqId) {f : Request → Request} (hf : ∀ q, (f q).id = q.id) :
    (s.modReq id f).delReq id = s.delReq id := by
  have hreqs : (s.reqs.map fun q => if q.id = id then f q else q).filter (fun q => q.id ≠ id)
      = s.reqs.filter fun q => q.id ≠ id := by
    induction s.reqs with
    | nil => rfl
    | cons q l ih =>
      by_cases hq : q.id = id
      · simpa [hq, hf] using ih
      · simpa [hq] using ih
  simp only [State.delReq, State.modReq, hreqs]

/-- A `USER` request's end is notified (R299). -/
theorem State.reported_user (s : State) (hk : r.kind = .user) (oc : Outcome) :
    s.reported r oc = (s.note (.complete r.id oc r.actual)).delReq r.id := by
  rw [State.reported, if_pos hk]

/-- The record of a retired request names no request. -/
theorem OneDone.without_retired (h : OneDone s n e r) (id : ReqId) : e.retired.without id = e.retired := by
  simp [Endpoint.without, Endpoint.retired, h.pending, h.cancelled]

/-- The retired request is reported with its bytes, and is gone (R299). -/
theorem complete_retired (h : OneDone s n e r) (oc : Outcome) (actual : Nat) :
    complete { r with actual := actual } oc
        ((s.setEp n (some e.retired)).modReq r.id fun q => { q with actual := actual })
      = .ok () (((s.setEp n (some e.retired)).note (.complete r.id oc actual)).delReq r.id) := by
  have hn := h.ofEp
  subst hn
  have hep : ((s.setEp r.ep (some e.retired)).modReq r.id fun q => { q with actual := actual }).ep r.ep
      = some e.retired := State.setEp_ep_self ..
  rw [complete_run (r := { r with actual := actual }) hep, h.without_retired, State.setEp_same hep,
    State.reported_user (r := { r with actual := actual }) _ h.user]
  exact congrArg _ (State.modReq_delReq ((s.setEp r.ep (some e.retired)).note (.complete r.id oc actual)) r.id
    fun _ => rfl)

/-- `dequeue_complete` retires the finished request and reports it with the event's status (R295, R297). -/
theorem dequeueComplete_oneDone (h : OneDone s n e r) (st : BitVec 4) :
    dequeueComplete n st s = (
      let acc := accountOf r [slotSize s n e.deq.val] []
      .ok () (((s.setEp n (some e.retired)).note
        (.complete r.id (outcomeOf e.type st r.length acc.actual acc.missed) acc.actual)).delReq r.id)) := by
  simp only [dequeueComplete, bind_run, needEp_some h.record, h.started, retireLoop_oneDone h, completeRetired, if_true,
    complete_retired h, pure_run]

/-- The account of a request with one segment and one descriptor (R296, R298). -/
theorem accountOf_one (r : Request) (size : Word) (tail : List Slot) :
    (accountOf r [size] tail).missed = (trbSts size == 1)
      ∧ (accountOf r [size] tail).actual = match r.segs with
        | [] => 0
        | seg :: _ => seg.2 - min (bufSiz size) seg.2 := by
  constructor
  · simp [accountOf]
  · cases hsegs : r.segs with
    | nil => simp [accountOf, movedBytes, hsegs]
    | cons seg segs => cases segs <;> simp [accountOf, movedBytes, hsegs]

/-! ## The handlers of the transfer events -/

/-- Where the event leaves no request, `XFERINPROGRESS` only retires (R212). -/
theorem onXferInprogress_idle {st : BitVec 4} {t : State} (hdone : dequeueComplete n st s = .ok () t)
    (he : t.ep n = some e) (hend : e.endPending = false) (hp : e.pending = []) (hs : e.started = []) :
    onXferInprogress n st s = .ok () t := by
  simp only [onXferInprogress, bind_run, hdone, needEp_some he, hend, Bool.false_eq_true, if_false, kick_idle he hp hs]

/-- Where the event leaves no request on an enabled endpoint, `XFERCOMPLETE` retires and ends the transfer (R211,
R309). -/
theorem onXferComplete_idle {st : BitVec 4} {t : State} (hdone : dequeueComplete n st s = .ok () t)
    (he : t.ep n = some e) (hen : e.enabled = true) (hend : e.endPending = false) (hp : e.pending = [])
    (hs : e.started = []) (hc : e.cancelled = []) (h : e.enq = e.deq) :
    onXferComplete n st s = .ok () (t.setEp n (some e.ended)) := by
  simp only [onXferComplete, bind_run, hdone, needEp_some he, hend, Bool.false_eq_true, if_false,
    finishEndTransfer_idle he hp hs hc h, hen, if_true]
  exact kick_idle (State.setEp_ep_self ..) rfl rfl

/-! ## The start of an idle endpoint (R213, R292) -/

/-- While an end is awaited or a transfer is started, `XFERNOTREADY` changes nothing. -/
theorem onXferNotready_busy (p : BitVec 16) (he : s.ep n = some e) (h : e.endPending = true ∨ e.xferStarted = true) :
    onXferNotready n p s = .ok () s := by
  have hbusy : (e.endPending || e.xferStarted) = true := Bool.or_eq_true_iff.mpr h
  simp only [onXferNotready, bind_run, needEp_some he, hbusy, if_true, pure_run]

/-- On an idle isochronous endpoint `XFERNOTREADY` keeps the frame, and kicks (R213, R294). -/
theorem onXferNotready_isoc (p : BitVec 16) (he : s.ep n = some e) (hend : e.endPending = false)
    (hx : e.xferStarted = false) (ht : e.type = .isoc) :
    onXferNotready n p s = kick n (s.setEp n (some { e with isocArmed := true, isocFrame := p })) := by
  simp [onXferNotready, needEp_some he, hend, hx, ht, State.modEp_some he]

/-- On any other idle endpoint it kicks. -/
theorem onXferNotready_idle (p : BitVec 16) (he : s.ep n = some e) (hend : e.endPending = false)
    (hx : e.xferStarted = false) (ht : e.type ≠ .isoc) : onXferNotready n p s = kick n s := by
  simp [onXferNotready, needEp_some he, hend, hx, ht]

/-! ## The completion of a command (R216) -/

/-- The completion of another command, or one not awaited, changes nothing. -/
theorem onEpCmdComplete_ignored {p : BitVec 16} (st : BitVec 4) (he : s.ep n = some e)
    (h : p.extractLsb' 8 4 ≠ 0x8 ∨ e.endPending = false) : onEpCmdComplete n st p s = .ok () s := by
  have hno : ¬(p.extractLsb' 8 4 = cmdTypCode .endTransfer ∧ e.endPending = true) := by
    rintro ⟨hcmd, hend⟩
    obtain h | h := h
    · exact h hcmd
    · simp [hend] at h
  simp only [onEpCmdComplete, bind_run, needEp_some he, if_neg hno, pure_run]

/-- The awaited completion finishes the transfer, a failed status notified first. -/
theorem onEpCmdComplete_awaited {p : BitVec 16} (st : BitVec 4) (he : s.ep n = some e)
    (hcmd : p.extractLsb' 8 4 = 0x8) (hend : e.endPending = true) :
    onEpCmdComplete n st p s = finishEndTransfer n .cancelled
      (if st = 0 then s else s.note (.code .cmdFailed (.epStatus n st))) := by
  have hyes : p.extractLsb' 8 4 = cmdTypCode .endTransfer ∧ e.endPending = true := ⟨hcmd, hend⟩
  by_cases hst : st = 0#4
  · simp [onEpCmdComplete, needEp_some he, hyes, hst]
  · simp [onEpCmdComplete, needEp_some he, hyes, hst]

/-- Above EP0 the end of a transfer without a request (R305): an enabled endpoint stays, another is removed. -/
theorem finishEndTransfer_upper (hup : 2 ≤ n.val) (he : s.ep n = some e) (hp : e.pending = []) (hs : e.started = [])
    (hc : e.cancelled = []) (h : e.enq = e.deq) (q : s.env.sched = []) :
    finishEndTransfer n .cancelled s = .ok () (
      if e.enabled = true then s.setEp n (some e.ended)
      else (s.setReg .dalepena (s.regs.dalepena &&& ~~~(1#32 <<< n.val))).setEp n none) := by
  have hlow : ¬ n.val < 2 := by omega
  have hfin := finishEnded_idle he hp hs hc h q
  rwa [finishEnded, if_neg hlow, if_neg hlow] at hfin

/-! ## One descriptor handed over, the silicon idle (R288, R289) -/

/-- The state with another schedule. -/
def State.withSched (s : State) (l : List (List EnvStep)) : State := s.modEnv fun v => { v with sched := l }

theorem State.withSched_self {l : List (List EnvStep)} (h : s.env.sched = l) : s.withSched l = s := by
  subst h
  rfl

theorem State.withSched_modReq (l : List (List EnvStep)) (id : ReqId) (f : Request → Request) :
    (s.withSched l).modReq id f = (s.modReq id f).withSched l := rfl

@[simp] theorem State.withSched_slotAddr (l : List (List EnvStep)) (i : Nat) :
    (s.withSched l).slotAddr n i = s.slotAddr n i := rfl

/-- A word read in an idle turn. -/
theorem memRead32_idle {a : Nat} (l : List (List EnvStep)) (h : a + 4 ≤ 2 ^ s.cfg.dmaAddrBits) :
    memRead32 a (s.withSched ([] :: l)) = .ok (Memory.readWord s.mem a) (s.withSched l) := by
  have ht : tickState (s.withSched ([] :: l)) = s.withSched l := tickState_empty rfl
  rw [memRead32_run (by rw [ht]; exact h), ht]
  rfl

/-- A word written in an idle turn. -/
theorem memWrite32_idle {a : Nat} (m : List Host.Cell) (l : List (List EnvStep)) (h : a + 4 ≤ 2 ^ s.cfg.dmaAddrBits)
    (w : Word) : memWrite32 a w ((s.setMem m).withSched ([] :: l))
      = .ok () ((s.setMem (Memory.writeWord m a w)).withSched l) := by
  have ht : tickState ((s.setMem m).withSched ([] :: l)) = (s.setMem m).withSched l := tickState_empty rfl
  rw [memWrite32_run (by rw [ht]; exact h), ht]
  rfl

/-- The memory after the writes of a descriptor before its hand-over: the fields, and `CTRL` without `HWO` (R289). -/
def descFilled (m : List Host.Cell) (a : Nat) (d : Desc) : List Host.Cell :=
  Memory.writeWord (Memory.writeWord (Memory.writeWord (Memory.writeWord m a d.bpl) (a + 4) d.bph) (a + 8) d.size)
    (a + 12) (clearHwo d.ctrl)

/-- The hand-over completes the descriptor (R289). -/
theorem writeWord_descFilled (m : List Host.Cell) (a : Nat) (d : Desc) :
    Memory.writeWord (descFilled m a d) (a + 12) d.ctrl = descWritten m a d := rfl

/-- A legal descriptor is filled in four idle turns. -/
theorem fillAt_idle {a : Nat} {d : Desc} (l : List (List EnvStep)) (w : d.writable = true)
    (h : a + 16 ≤ 2 ^ s.cfg.dmaAddrBits) :
    fillAt a d (s.withSched ([] :: [] :: [] :: [] :: l)) = .ok () ((s.setMem (descFilled s.mem a d)).withSched l) := by
  simp only [fillAt, w, if_true, bind_run]
  rw [show s.withSched ([] :: [] :: [] :: [] :: l) = (s.setMem s.mem).withSched ([] :: [] :: [] :: [] :: l) from rfl,
    memWrite32_idle _ _ (by omega)]
  simp only
  rw [memWrite32_idle _ _ (by omega)]
  simp only
  rw [memWrite32_idle _ _ (by omega)]
  simp only
  rw [memWrite32_idle _ _ (by omega), descFilled]

/-- A software-owned enqueue slot is filled in five idle turns (R289). -/
theorem fillDesc_idle {d : Desc} (l : List (List EnvStep)) (he : s.ep n = some e) (w : d.writable = true)
    (h : SlotInSpace s n e.enq.val) (o : slotHwo s n e.enq.val = false) :
    fillDesc n d (s.withSched ([] :: [] :: [] :: [] :: [] :: l)) = .ok (s.slotAddr n e.enq.val)
      ((s.setMem (descFilled s.mem (s.slotAddr n e.enq.val) d)).withSched l) := by
  have hep : (s.withSched ([] :: [] :: [] :: [] :: [] :: l)).ep n = some e := he
  unfold SlotInSpace at h
  unfold slotHwo at o
  simp only [fillDesc, bind_run, needEp_some hep, get_run, State.withSched_slotAddr]
  rw [memRead32_idle _ (by omega)]
  simp only [o, Bool.false_eq_true, if_false, bind_run]
  rw [fillAt_idle l w h]
  rfl

/-- The hand-over in an idle turn. -/
theorem handAt_idle {a : Nat} {d : Desc} (m : List Host.Cell) (l : List (List EnvStep))
    (h : a + 16 ≤ 2 ^ s.cfg.dmaAddrBits) :
    handAt a d ((s.setMem m).withSched ([] :: l))
      = .ok () ((s.setMem (Memory.writeWord m (a + 12) d.ctrl)).withSched l) := by
  simp only [handAt, bind_run, publish_run]
  exact memWrite32_idle m l (by omega) d.ctrl

/-- A request's one descriptor is written in six idle turns, and the enqueue index advances (R288, R289). -/
theorem writeChain_one_idle (l : List (List EnvStep)) (he : s.ep n = some e) (w : (descAt s.cfg e r 0).writable = true)
    (h : SlotInSpace s n e.enq.val) (o : slotHwo s n e.enq.val = false) :
    writeChain n e r 1 (s.withSched ([] :: [] :: [] :: [] :: [] :: [] :: l)) = .ok ()
      (((s.setEp n (some { e with enq := adv e.enq })).setMem
        (descWritten s.mem (s.slotAddr n e.enq.val) (descAt s.cfg e r 0))).withSched l) := by
  have hcfg : (s.withSched ([] :: [] :: [] :: [] :: [] :: [] :: l)).cfg = s.cfg := rfl
  simp only [writeChain, writeDescs, bind_run, getCfg_run, hcfg, fillDesc_idle ([] :: l) he w h o, advEnq, modEp_run,
    pure_run]
  rw [State.modEp_some (e := e) (by exact he), ← writeWord_descFilled]
  exact handAt_idle (s := s.setEp n (some { e with enq := adv e.enq })) _ l h

/-- The record whose one pending request has been handed over. -/
def Endpoint.handedOver (e : Endpoint) (id : ReqId) : Endpoint :=
  { e with enq := adv e.enq, pending := [], started := [id] }

/-- The state in which the one pending request of `e`, endpoint `n`'s record, has been handed over at the enqueue
slot. -/
def State.handedOver (s : State) (n : EpNum) (e : Endpoint) (r : Request) : State :=
  ((s.modReq r.id fun q => { q with first := some e.enq, ndesc := 1 }).setMem
    (descWritten s.mem (s.slotAddr n e.enq.val) (descAt s.cfg e r 0))).setEp n (some (e.handedOver r.id))

/-- The one pending request, of one descriptor, is handed over in six idle turns (R288). -/
theorem enqueue_idle (l : List (List EnvStep)) (he : s.ep n = some e) (hp : e.pending = [r.id]) (hs : e.started = [])
    (hneed : need r = 1) (w : (descAt s.cfg e r 0).writable = true) (h : SlotInSpace s n e.enq.val)
    (o : slotHwo s n e.enq.val = false) :
    enqueue n e r (s.withSched ([] :: [] :: [] :: [] :: [] :: [] :: l))
      = .ok () ((s.handedOver n e r).withSched l) := by
  have hchain := writeChain_one_idle (r := r) (s := s.modReq r.id fun q => { q with first := some e.enq, ndesc := 1 })
    l he w h o
  simp only [enqueue, bind_run, modReq_run, hneed, State.withSched_modReq, hchain, modEp_run]
  rw [State.modEp_some (by exact State.setEp_ep_self s n (some { e with enq := adv e.enq }))]
  simp only [hp, hs, List.tail_cons, List.nil_append]
  exact congrArg (fun t => EStateM.Result.ok () (State.withSched t l))
    (State.setEp_setEp ((s.modReq r.id _).setMem _) ..)

/-- One pending request of one descriptor fits an empty ring: `kick` posts it (R292). -/
theorem admitPending_one {t : State} (he : s.ep n = some e) (hr : s.req r.id = some r) (hneed : need r = 1)
    (hempty : e.enq = e.deq) (ht : enqueue n e r s = .ok () t) : admitPending n [r.id] false s = .ok true t := by
  have hfits : need r ≤ freeSlots e := by simp [hneed, freeSlots, outstanding, hempty, Config.ringCap]
  simp only [admitPending, bind_run, getEp_run, getReq_run, he, hr, if_pos hfits, ht, pure_run]

/-- `kick` on an endpoint whose pending requests are posted and whose transfer is not started (R292). -/
theorem kick_posted {posted : Bool} {t : State} {e' : Endpoint} (he : s.ep n = some e) (hk : kickable e = true)
    (hadmit : admitPending n e.pending false s = .ok posted t) (he' : t.ep n = some e') (hs : e'.started ≠ []) :
    kick n s = startOrUpdate n posted t := by
  simp only [kick, bind_run, getEp_run, he, hk, if_true, hadmit, he', if_neg hs]

/-- A transfer not yet started is started at the oldest descriptor (R293, R255). -/
theorem startOrUpdate_start (posted : Bool) {w : Word} {rest : List (List EnvStep)} (he : s.ep n = some e)
    (hx : e.xferStarted = false) (ht : e.type ≠ .isoc) (hstuck : e.cmdStuck = false)
    (h : s.env.sched = answers n w ++ rest) (hw : cmdStatus w = 0) :
    startOrUpdate n posted s = .ok () ((s.commanded n
      { typ := .startTransfer, p0 := quadHigh (tdAddr s n e.deq), p1 := quadLow (tdAddr s n e.deq) } w rest).modEp n
        fun q => { q with rsc := some (cmdRsc w), xferStarted := true, isocArmed := false }) := by
  simp only [startOrUpdate, bind_run, publish_run, needEp_some he, hx, Bool.false_eq_true, if_false, if_neg ht,
    cmdStarttransfer_answered e.deq 0 he hstuck h hw, pure_run]

end

/-- Settles O36: both events retire the request; then there is nothing to kick, and the end of the transfer finds
nothing to finish. -/
theorem transferEventsRetire : Obligations.TransferEventsRetire := by
  intro f s e r hup h hend
  obtain ⟨hmissed, hactual⟩ := accountOf_one r (slotSize s (epNum f.ep) e.deq.val) []
  have hdone := dequeueComplete_oneDone h f.status
  simp only [outcomeOf, hmissed, hactual, beq_iff_eq] at hdone
  refine ⟨toOutcome_ok ?_, toOutcome_ok ?_⟩
  · rw [epEvent_enabled hup h.record h.enabled]
    exact onXferInprogress_idle hdone (State.setEp_ep_self ..) hend h.pending rfl
  · rw [epEvent_enabled hup h.record h.enabled,
      onXferComplete_idle hdone (State.setEp_ep_self ..) h.enabled hend h.pending rfl h.cancelled h.empty]
    exact congrArg (EStateM.Result.ok ()) (State.setEp_setEp ((s.note _).delReq r.id) ..)

/-- Settles O37: a busy endpoint is passed by, and an isochronous one with nothing queued is not started. -/
theorem xferNotReadyWithoutStart : Obligations.XferNotReadyWithoutStart := by
  refine ⟨fun f s e hup he hbusy => ?_, fun f s e hup he hen hend hx ht hp hs => ?_⟩
  · exact toOutcome_ok (epEvent_ring_noop hup he (onXferNotready_busy f.param he hbusy))
  · refine toOutcome_ok ?_
    rw [epEvent_enabled hup he hen, onXferNotready_isoc f.param he hend hx ht]
    exact kick_idle (State.setEp_ep_self ..) hp hs

/-- Settles O38: `kick` hands the one pending request over, and the transfer is started at its descriptor. -/
theorem xferNotReadyStarts : Obligations.XferNotReadyStarts := by
  intro f s e r w rest hup he hen hend hstalled hx hstuck ht hp hs hempty hr hneed hw hspace hgiven hsched hok
  have hkick : kickable e = true := by simp [kickable, hen, hend, hstalled, ht]
  have hpost := enqueue_idle (answers (epNum f.ep) w ++ rest) he hp hs hneed hw hspace hgiven
  rw [State.withSched_self hsched] at hpost
  have hadmit := admitPending_one he hr hneed hempty hpost
  have hep : ((s.handedOver (epNum f.ep) e r).withSched (answers (epNum f.ep) w ++ rest)).ep (epNum f.ep)
      = some (e.handedOver r.id) := State.setEp_ep_self ..
  refine toOutcome_ok ?_
  rw [epEvent_enabled hup he hen, onXferNotready_idle f.param he hend hx ht,
    kick_posted he hkick (hp ▸ hadmit) hep (List.cons_ne_nil _ _), startOrUpdate_start true hep hx ht hstuck rfl hok,
    ← (readBack_fields w).2.2]
  rfl

/-- Settles O39: a completion that is not the awaited one is passed by; the awaited one finds nothing to finish. -/
theorem commandCompletionResult : Obligations.CommandCompletionResult := by
  refine ⟨fun f s e hup he h => ?_, fun f s e hup he hcmd hend hp hs hc hempty q => toOutcome_ok ?_⟩
  · exact toOutcome_ok (epEvent_ring_noop hup he (onEpCmdComplete_ignored f.status he h))
  · have htaken : (e.enabled || endAwaited e) = true := Bool.or_eq_true_iff.mpr (.inr hend)
    rw [epEvent_ring hup he, if_pos htaken, onEpCmdComplete_awaited f.status he hcmd hend]
    by_cases hst : f.status = 0
    · simp only [if_pos hst]
      exact finishEndTransfer_upper hup he hp hs hc hempty q
    · simp only [if_neg hst]
      exact finishEndTransfer_upper hup (by exact he) hp hs hc hempty (by exact q)

end Sys2Proof.Machine
end

section
/-!
PROOFS. The commands called directly that do not complete: refused before anything is written (R240, R244, R245,
R256, R257), never answered (R242, R247), or failed three times (R246); and `DEPSTARTCFG`, which asks of every
endpoint first (R245, R258).
-/

namespace Sys2Proof.Machine

section
variable {s t : State} {n : EpNum} {ep : BitVec 5} {e : Endpoint} {c : Cmd} {w : Word} {rest : List (List EnvStep)}
  {x : Err} {r : EStateM.Result Exit State CmdResult} {m : M CmdResult} {i : Instr} {rsc : BitVec 7}

/-! ## A call that writes nothing on success -/

/-- The result of a command's operation that is no success: an error, or an early end. -/
inductive Unsuccessful : EStateM.Result Exit State CmdResult → Prop
  | err (x : Err) (t : State) : Unsuccessful (.ok (.err x) t)
  | early (y : Exit) (t : State) : Unsuccessful (.error y t)

/-- A call that is answered by an error keeps the error as its value. -/
theorem toOutcome_commandCall_err (h : m s = .ok (.err x) t) :
    toOutcome (commandCall m) s = .next (t.returning (.err x)) :=
  toOutcome_ok (by rw [commandCall, bind_run, h]; rfl)

/-- A call that a model fault ends leaves no value. -/
theorem toOutcome_commandCall_halted (h : m s = .error .halted t) : toOutcome (commandCall m) s = .next t :=
  toOutcome_halted (by rw [commandCall, bind_run, h])

/-- What is written on success is not written without one. -/
theorem onOk_unsuccessful {f : M Unit} (h : m s = r) (hr : Unsuccessful r) : onOk m f s = r := by
  rw [onOk, bind_run, h]
  cases hr with
  | err x t => rfl
  | early y t => rfl

/-- A call that its command's requirement forbids (R256, R257; log entry 10). -/
theorem whenLegal_false {ok : Endpoint → Bool} (he : s.ep n = some e) (h : ok e = false) :
    whenLegal n ok m s = .ok (.err .inval) s := by
  simp only [whenLegal, bind_run, needEp_some he, h, Bool.false_eq_true, if_false, pure_run]

/-- Without a record there is no requirement to ask of (R240). -/
theorem whenLegal_none {ok : Endpoint → Bool} (he : s.ep n = none) :
    whenLegal n ok m s = .error .halted (s.addFault .reservedWrite).stopHolder := by
  rw [whenLegal, bind_run, needEp_none he]

/-- An index names no transfer that is not started, and no transfer of another index. -/
theorem namesTransfer_false (h : e.xferStarted = false ∨ e.rsc ≠ some rsc) : namesTransfer e rsc = false := by
  obtain hx | hr := h
  · simp [namesTransfer, hx]
  · simp [namesTransfer, hr]

/-! ## What `issue_retry` answers -/

/-- Only `E_CMD_FAILED` is tried again (R246). -/
theorem issueRetry_of_settled {q : CmdResult} (h : issue n c s = .ok q t) (hq : CmdResult.settled q = true) :
    issueRetry n c s = .ok q t := by
  have hk : Config.cmdAttempts - 1 = 1 + 1 := rfl
  simp only [issueRetry, hk, attempts, bind_run, h, hq, if_true, pure_run]

/-- While a timed-out command is active, a new one is refused, and nothing changes (R244). -/
theorem issueRetry_busy (q : s.env.sched = []) (he : s.ep n = some e) (hs : e.cmdStuck = true)
    (ha : cmdActive s.regs.depcmd[n] = true) (c : Cmd) : issueRetry n c s = .ok (.err (.busy (some n))) s := by
  have h := issue_busy c he hs (by rwa [tickState_nil q])
  rw [tickState_nil q] at h
  exact issueRetry_of_settled h rfl

/-- A command on an endpoint without a record is a model fault (R240). -/
theorem issueRetry_none (he : s.ep n = none) (c : Cmd) :
    issueRetry n c s = .error .halted (s.addFault .reservedWrite).stopHolder := by
  have hk : Config.cmdAttempts - 1 = 1 + 1 := rfl
  simp only [issueRetry, hk, attempts, issue, precheckBusy, bind_run, needEp_none he]

/-- The four writes of a command with nothing scheduled (R241). -/
theorem writeAndPoll_quiet (hc : c.paramsLegal = true) (q : s.env.sched = []) :
    writeAndPoll n c s = poll n (s.issued n c []) := by
  have hs : s.modEnv (fun v => { v with sched := [] }) = s := by rw [← q]; rfl
  simp only [writeAndPoll, hc, if_true, bind_run, publish_run, State.issued, hs]
  rw [regWrite_quiet rfl rfl q rfl]
  simp only
  rw [regWrite_quiet rfl rfl (by exact q) rfl]
  simp only
  rw [regWrite_quiet rfl rfl (by exact q) rfl]
  simp only
  rw [regWrite_quiet rfl rfl (by exact q) (writable_word n c)]
  rfl

/-- A command that is never answered is issued once, times out, and marks its endpoint (R242, R247). -/
theorem issueRetry_unanswered (hc : c.paramsLegal = true) (he : s.ep n = some e) (hs : e.cmdStuck = false)
    (q : s.env.sched = []) : issueRetry n c s = .ok (.err (.cmdTimeout n))
      ((s.issued n c []).modEp n fun e => { e with cmdStuck := true }) := by
  refine issueRetry_of_settled ?_ rfl
  rw [issue_unstuck c he hs, writeAndPoll_quiet hc q]
  exact pollLoop_active rfl (by rw [issued_depcmd]; exact cmdActive_word c) _

/-- One attempt, answered by a failure at its first poll (R243). -/
theorem issue_failed (hc : c.paramsLegal = true) (he : s.ep n = some e) (hs : e.cmdStuck = false)
    (h : s.env.sched = answers n w ++ rest) (hw : cmdStatus w ≠ 0) :
    issue n c s = .ok (.err (.cmdFailed n (cmdStatus w))) (s.commanded n c w rest) := by
  have hstatus : cmdStatus (readBack w) = cmdStatus w := (readBack_fields w).2.1
  rw [issue_answered c hc he hs h, resultOf, hstatus, if_neg hw]

/-- After a failure the attempts that are left are made, in the state the failed one leaves (R246). -/
theorem attempts_failed (k : Nat) (hc : c.paramsLegal = true) (he : s.ep n = some e) (hs : e.cmdStuck = false)
    (h : s.env.sched = answers n w ++ rest) (hw : cmdStatus w ≠ 0) :
    attempts n c (k + 1) s = attempts n c k (s.commanded n c w rest) := by
  have hu : CmdResult.settled (.err (.cmdFailed n (cmdStatus w))) = false := rfl
  simp only [attempts, bind_run, issue_failed hc he hs h hw, hu, Bool.false_eq_true, if_false]

/-- A command that fails three times is not tried again: the last failure is the result (R246). -/
theorem issueRetry_failed {w1 w2 w3 : Word} (hc : c.paramsLegal = true) (he : s.ep n = some e)
    (hs : e.cmdStuck = false) (h : s.env.sched = answers n w1 ++ (answers n w2 ++ (answers n w3 ++ rest)))
    (h1 : cmdStatus w1 ≠ 0) (h2 : cmdStatus w2 ≠ 0) (h3 : cmdStatus w3 ≠ 0) :
    issueRetry n c s = .ok (.err (.cmdFailed n (cmdStatus w3)))
      (((s.commanded n c w1 (answers n w2 ++ (answers n w3 ++ rest))).commanded n c w2
        (answers n w3 ++ rest)).commanded n c w3 rest) := by
  have hk : Config.cmdAttempts - 1 = 0 + 1 + 1 := rfl
  rw [issueRetry, hk, attempts_failed _ hc he hs h h1,
    attempts_failed _ hc (by rwa [commanded_ep]) hs (commanded_sched ..) h2]
  exact issue_failed hc (by rwa [commanded_ep, commanded_ep]) hs (commanded_sched ..) h3

/-! ## The operations whose `issue_retry` has no success -/

/-- `cmd_setepconfig` on an endpoint with a record is its command (R250). -/
theorem cmdSetepconfig_some (he : s.ep n = some e) (a : CfgAction) :
    cmdSetepconfig n a s = issueRetry n (setepconfigCmd e a) s := by
  simp only [cmdSetepconfig, bind_run, needEp_some he, setepconfigCmd]

/-- `cmd_getepstate` reads no result back without a success (R252). -/
theorem cmdGetepstate_unsuccessful (h : ∀ c, issueRetry n c s = r) (hr : Unsuccessful r) : cmdGetepstate n s = r := by
  rw [cmdGetepstate, bind_run, h]
  cases hr with
  | err x t => rfl
  | early y t => rfl

/-- `cmd_starttransfer` keeps no index without a success (R255). -/
theorem cmdStarttransfer_unsuccessful (j : Slot) (frame : BitVec 16) (h : ∀ c, issueRetry n c s = r)
    (hr : Unsuccessful r) : cmdStarttransfer n j frame s = r := by
  simp only [cmdStarttransfer, bind_run, get_run, h]
  cases hr with
  | err x t => rfl
  | early y t => rfl

/-- `cmd_endtransfer` awaits no end without a success (R257). -/
theorem cmdEndtransfer_unsuccessful (ioc : Bool) (h : ∀ c, issueRetry n c s = r) (hr : Unsuccessful r) :
    cmdEndtransfer n rsc ioc s = r := by
  rw [cmdEndtransfer, bind_run, h]
  cases hr with
  | err x t => rfl
  | early y t => rfl

/-- The commands of one endpoint that name no started transfer. -/
def unnamedCommands (ep : BitVec 5) (a : CfgAction) (slot : BitVec 8) (frame : BitVec 16) : List Instr :=
  [.depcmdSetepconfig ep a, .depcmdSetxferrsc ep, .depcmdGetepstate ep, .depcmdSetstall ep, .depcmdClearstall ep,
    .depcmdStarttransfer ep slot frame]

/-- The commands that name a started transfer by its index (R29). -/
def namedCommands (ep : BitVec 5) (rsc : BitVec 7) : List Instr :=
  [.depcmdUpdatetransfer ep rsc, .depcmdEndtransferIocForcerm ep rsc, .depcmdEndtransferForcerm ep rsc]

/-- The commands that name no started transfer end as their `issue_retry` does, when that has no success. -/
theorem exec_unnamed_unsuccessful {a : CfgAction} {slot : BitVec 8} {frame : BitVec 16}
    (hcfg : cmdSetepconfig (epNum ep) a s = r) (h : ∀ c, issueRetry (epNum ep) c s = r) (hr : Unsuccessful r)
    (hi : i ∈ unnamedCommands ep a slot frame) :
    ∃ m : M CmdResult, exec i s = toOutcome (commandCall m) s ∧ m s = r := by
  simp only [unnamedCommands, List.mem_cons, List.not_mem_nil, or_false] at hi
  obtain rfl | rfl | rfl | rfl | rfl | rfl := hi
  · exact ⟨_, rfl, hcfg⟩
  · exact ⟨_, rfl, h _⟩
  · exact ⟨_, rfl, cmdGetepstate_unsuccessful h hr⟩
  · exact ⟨_, rfl, onOk_unsuccessful (h _) hr⟩
  · exact ⟨_, rfl, onOk_unsuccessful (h _) hr⟩
  · exact ⟨_, rfl, cmdStarttransfer_unsuccessful _ _ h hr⟩

/-- A command that names a started transfer is made where its requirement holds; the requirement needs the name
to be right, and of an endpoint where no end is awaited it needs no more (R256, R257). -/
theorem exec_named (s : State) (hi : i ∈ namedCommands ep rsc) :
    ∃ (ok : Endpoint → Bool) (m : M CmdResult), exec i s = toOutcome (commandCall (whenLegal (epNum ep) ok m)) s
      ∧ (∀ e, namesTransfer e rsc = false → ok e = false)
      ∧ (∀ e, namesTransfer e rsc = true → e.endPending = false → ok e = true)
      ∧ ∀ r, (∀ c, issueRetry (epNum ep) c s = r) → Unsuccessful r → m s = r := by
  simp only [namedCommands, List.mem_cons, List.not_mem_nil, or_false] at hi
  obtain rfl | rfl | rfl := hi
  · exact ⟨_, _, rfl, fun e hn => by simp [hn], fun e hn hend => by simp [hn, hend], fun r h _ => h _⟩
  · exact ⟨_, _, rfl, fun e hn => hn, fun e hn _ => hn, fun r h hr => cmdEndtransfer_unsuccessful true h hr⟩
  · exact ⟨_, _, rfl, fun e hn => hn, fun e hn _ => hn,
      fun r h hr => onOk_unsuccessful (cmdEndtransfer_unsuccessful false h hr) hr⟩

/-! ## Commands on every endpoint at once -/

/-- No command has timed out: none can be active (R245). -/
theorem exclusiveBusy_unstuck (h : ∀ n e, s.ep n = some e → e.cmdStuck = false) (l : List EpNum) :
    exclusiveBusy l s = .ok false s := by
  induction l with
  | nil => rfl
  | cons n l ih =>
    cases he : s.ep n with
    | none => simp only [exclusiveBusy, bind_run, getEp_run, he, ih]
    | some e => simp only [exclusiveBusy, bind_run, getEp_run, he, h n e he, Bool.false_eq_true, if_false, ih]

/-- A timed-out command that is still active is found, wherever it is (R245). -/
theorem exclusiveBusy_active (q : s.env.sched = []) (he : s.ep n = some e) (hs : e.cmdStuck = true)
    (ha : cmdActive s.regs.depcmd[n] = true) {l : List EpNum} (hn : n ∈ l) : exclusiveBusy l s = .ok true s := by
  have hread : ∀ k : EpNum, regRead (.depcmd k) s = .ok s.regs.depcmd[k] s := fun k => regRead_quiet rfl q
  induction l with
  | nil => cases hn
  | cons k l ih =>
    obtain rfl | hl := List.mem_cons.mp hn
    · simp only [exclusiveBusy, bind_run, getEp_run, he, hs, hread, ha, if_true, pure_run]
    · cases hk : s.ep k with
      | none => simp only [exclusiveBusy, bind_run, getEp_run, hk, ih hl]
      | some e' =>
        simp only [exclusiveBusy, bind_run, getEp_run, hk]
        split
        · simp only [bind_run, hread]
          split
          · rfl
          · exact ih hl
        · exact ih hl

/-- Every endpoint number is asked. -/
theorem mem_allEps (n : EpNum) : n ∈ Config.allEps := by
  decide +revert

end

/-- Settles O45: no endpoint is busy, so the command is issued on endpoint 0, and base 2 is marked. -/
theorem depStartCfgCompletes : Obligations.DepStartCfgCompletes := by
  intro s base w rest hfree hrec hsched hw
  obtain ⟨e, he⟩ := Option.isSome_iff_exists.mp hrec
  have hcmd : cmdDepstartcfg base s
      = .ok (.ok (readBack w)) (s.commanded 0 { typ := .depStartCfg, param := base } w rest) := by
    simp only [cmdDepstartcfg, bind_run, exclusiveBusy_unstuck hfree, Bool.false_eq_true, if_false]
    exact issueRetry_answered _ rfl he (hfree 0 e he) hsched hw
  refine toOutcome_commandCall_ok (onOk_ok hcmd ?_)
  unfold markStartCfg
  split <;> rfl

/-- Settles O46: the engine refuses a busy endpoint and one without a record, and the call refuses a name that is
wrong, before the first register write. -/
theorem commandsTurnedAway : Obligations.CommandsTurnedAway := by
  refine ⟨?busy, ?misnamed, ?exclusive, ?noRecord⟩
  case busy =>
    intro s ep e q he hs ha a slot frame rsc i hi
    have hissue := issueRetry_busy q he hs ha
    obtain hi | ⟨hx, hr, hend, hi⟩ := hi
    · obtain ⟨m, hexec, hm⟩ :=
        exec_unnamed_unsuccessful ((cmdSetepconfig_some he a).trans (hissue _)) hissue (.err ..) hi
      exact hexec.trans (toOutcome_commandCall_err hm)
    · obtain ⟨ok, m, hexec, -, hok, hm⟩ := exec_named s hi
      refine hexec.trans (toOutcome_commandCall_err ?_)
      rw [whenLegal_true he (hok e (namesTransfer_self hx hr) hend), hm _ hissue (.err ..)]
  case misnamed =>
    intro s ep e rsc he
    refine ⟨fun h => ?_, fun hend => ?_⟩
    · have hexec : ∀ i ∈ namedCommands ep rsc, exec i s = .next (s.returning (.err .inval)) := by
        intro i hi
        obtain ⟨ok, m, hexec, hok, -⟩ := exec_named s hi
        exact hexec.trans (toOutcome_commandCall_err (whenLegal_false he (hok e (namesTransfer_false h))))
      simpa [namedCommands] using hexec
    · exact toOutcome_commandCall_err (whenLegal_false he (by simp [hend]))
  case exclusive =>
    intro s base n e q he hs ha
    have hcmd : cmdDepstartcfg base s = .ok (.err (.busy none)) s := by
      simp only [cmdDepstartcfg, bind_run, exclusiveBusy_active q he hs ha (mem_allEps n), if_true, pure_run]
    exact toOutcome_commandCall_err (onOk_unsuccessful hcmd (.err ..))
  case noRecord =>
    intro s ep he a slot frame rsc i hi
    obtain hi | hi := List.mem_append.mp (show i ∈ unnamedCommands ep a slot frame ++ namedCommands ep rsc from hi)
    · have hcfg : cmdSetepconfig (epNum ep) a s = .error .halted (s.addFault .reservedWrite).stopHolder := by
        rw [cmdSetepconfig, bind_run, needEp_none he]
      obtain ⟨m, hexec, hm⟩ := exec_unnamed_unsuccessful hcfg (issueRetry_none he) (.early ..) hi
      exact hexec.trans (toOutcome_commandCall_halted hm)
    · obtain ⟨ok, m, hexec, -⟩ := exec_named s hi
      exact hexec.trans (toOutcome_commandCall_halted (whenLegal_none he))

/-- Settles O47: the writes are made once, every poll finds the command active, and a timeout is not tried again. -/
theorem unansweredCommandTimesOut : Obligations.UnansweredCommandTimesOut := by
  rintro s ep ⟨e, he, hs⟩ q
  exact toOutcome_commandCall_err (issueRetry_unanswered rfl he hs q)

/-- Settles O48: each failure leaves the record, and so the next attempt, as it was; without a success no flag is
written. -/
theorem failingCommandTriedThreeTimes : Obligations.FailingCommandTriedThreeTimes := by
  rintro s ep w1 w2 w3 ⟨e, he, hs⟩ hsched h1 h2 h3
  have hcmd := issueRetry_failed (c := { typ := .setStall }) (rest := []) rfl he hs
    (by rw [hsched, List.append_nil, List.append_assoc]) h1 h2 h3
  rw [List.append_nil] at hcmd
  exact toOutcome_commandCall_err (onOk_unsuccessful hcmd (.err ..))

end Sys2Proof.Machine
end

section
/-!
PROOFS. The transfer ring (R280 to R303): its index arithmetic and its counts, the bytes of an account, the isochronous
start frame, the extra descriptor of a request, and the cancel of a request that is still pending.
-/

namespace Sys2Proof.Machine

section
variable {cfg : Cfg} {e : Endpoint} {r : Request} {n : EpNum} {s : State}

/-! ## Ring indices (R280 to R282) -/

/-- The index after another, counted modulo the usable slots. -/
theorem adv_val (i : Slot) : (adv i).val = (i.val + 1) % 255 := by
  unfold adv
  split
  · next h => simp [h]
  · rfl

theorem advN_val (k : Nat) (i : Slot) : (advN k i).val = (i.val + k) % 255 := by
  induction k generalizing i with
  | zero => exact (Nat.mod_eq_of_lt i.isLt).symm
  | succ k ih =>
    rw [advN, ih, adv_val, Nat.mod_add_mod, Nat.add_assoc, Nat.add_comm 1 k]

/-- Settles O52: both advances are sums modulo 255, and slot 254 is the one whose sum wraps. -/
theorem advanceModulo255 : Obligations.AdvanceModulo255 := by
  refine ⟨fun i => ?_, advN_val, by decide⟩
  have hi := i.isLt
  have hval := adv_val i
  unfold Config.linkSlot
  split <;> omega

theorem outstanding_le (e : Endpoint) : outstanding e ≤ Config.ringCap :=
  Nat.le_of_lt_succ (Nat.mod_lt _ (by decide))

/-- Descriptors handed over raise the count, up to the ring's capacity (R281, R282). -/
theorem outstanding_enq_advN {k : Nat} (h : k ≤ freeSlots e) :
    outstanding { e with enq := advN k e.enq } = outstanding e + k := by
  have henq := e.enq.isLt
  have hdeq := e.deq.isLt
  simp only [freeSlots, outstanding, Config.ringCap, advN_val] at h ⊢
  omega

/-- Descriptors retired lower it, down to the empty ring (R281). -/
theorem outstanding_deq_advN {k : Nat} (h : k ≤ outstanding e) :
    outstanding { e with deq := advN k e.deq } = outstanding e - k := by
  have henq := e.enq.isLt
  have hdeq := e.deq.isLt
  simp only [outstanding, advN_val] at h ⊢
  omega

/-- Settles O53: the count is below 255, so free slots are what it leaves of the capacity. -/
theorem outstandingCount : Obligations.OutstandingCount := fun e _ =>
  ⟨outstanding_enq_advN, outstanding_deq_advN, Nat.add_sub_of_le (outstanding_le e)⟩

/-! ## The account (R296, R298) -/

/-- Each descriptor's bytes are clamped to its segment, so the sum is to the segments' sum. -/
theorem movedBytes_le (segs : List (Quad × Nat)) (sizes : List Word) :
    movedBytes segs sizes ≤ (segs.map fun s => s.2).sum := by
  induction segs generalizing sizes with
  | nil => exact Nat.zero_le _
  | cons seg segs ih =>
    cases sizes with
    | nil => exact Nat.zero_le _
    | cons size sizes =>
      rw [List.map_cons, List.sum_cons]
      exact Nat.add_le_add (Nat.sub_le ..) (ih sizes)

/-- Settles O54: what the segments bound, the length does. -/
theorem actualAtMostLength : Obligations.ActualAtMostLength := fun r sizes _ hlen =>
  (movedBytes_le r.segs sizes).trans_eq hlen.symm

/-! ## The isochronous start frame (R294) -/

/-- Rounding down to a power of two clears the bits below it. -/
theorem ofNat_div_mul_two_pow {w : Nat} (x : BitVec w) (k : Nat) :
    BitVec.ofNat w (x.toNat / 2 ^ k * 2 ^ k) = x &&& ~~~BitVec.ofNat w (2 ^ k - 1) := by
  ext i hi
  simp only [← BitVec.getLsbD_eq_getElem, BitVec.getLsbD_and, BitVec.getLsbD_not, BitVec.getLsbD_ofNat, hi,
    decide_true, Bool.true_and, Nat.testBit_mul_two_pow, Nat.testBit_div_two_pow, Nat.testBit_two_pow_sub_one]
  by_cases h : k ≤ i
  · simp [h, Nat.not_lt.mpr h, BitVec.testBit_toNat]
  · simp [h, Nat.lt_of_not_le h]

/-- Settles O55: the division by the period is the rule's mask. -/
theorem isocStartFrame_eq : Obligations.IsocStartFrame := by
  intro e _ _
  rw [← ofNat_div_mul_two_pow, ← BitVec.ofNat_add]
  rfl

/-! ## The extra descriptor (R287, R288) -/

/-- The types that the rule gives an extra descriptor are not isochronous. -/
theorem ne_isoc_of_bulk_or_interrupt (ht : e.type = .bulk ∨ e.type = .interrupt) : e.type ≠ .isoc := by
  rcases ht with h | h <;> simp [h]

/-- An IN endpoint has a zero-length packet only where one is asked for after whole packets. -/
theorem needsExtra_in (ht : e.type = .bulk ∨ e.type = .interrupt) (hin : isIn e.number = true) (length : Nat)
    (zero : Bool) :
    needsExtra e length zero = if zero = true ∧ 0 < length ∧ length % e.maxpacket.toNat = 0 then .zlp else .none := by
  simp [needsExtra, ht, hin]

/-- An OUT endpoint pads everything but a positive number of whole packets. -/
theorem needsExtra_out (ht : e.type = .bulk ∨ e.type = .interrupt) (hout : isIn e.number = false) (length : Nat)
    (zero : Bool) :
    needsExtra e length zero = if length = 0 ∨ length % e.maxpacket.toNat ≠ 0 then .pad else .none := by
  simp [needsExtra, ht, hout]

/-- The descriptor past a request's segments is the chain's last, in the pad buffer. -/
theorem descAt_extra (ht : e.type = .bulk ∨ e.type = .interrupt) (h : r.extra ≠ .none) :
    descAt cfg e r r.segs.length = mkNormal cfg.padBufAddr
      (if r.extra = .zlp then 0 else e.maxpacket.toNat - r.length % e.maxpacket.toNat) false true
      (!isIn e.number) := by
  simp [descAt, need, h, ne_isoc_of_bulk_or_interrupt ht]

/-- The bytes a descriptor's `SIZE` names. -/
theorem bufSiz_mkNormal {len : Nat} (a : Quad) (chn ioc isp : Bool) (h : len < 2 ^ 24) :
    bufSiz (mkNormal a len chn ioc isp).size = len := by
  simp only [bufSiz, mkNormal, mkDesc, extractLsb'_place_self _ (show 0 + 24 ≤ 32 by decide), BitVec.toNat_ofNat]
  exact Nat.mod_eq_of_lt h

/-- The flags of a normal descriptor: chained and interrupting as asked, and always handed over (R134). -/
theorem mkNormal_ctrl (a : Quad) (len : Nat) (chn ioc isp : Bool) :
    bitAt (mkNormal a len chn ioc isp).ctrl 2 = chn ∧ bitAt (mkNormal a len chn ioc isp).ctrl 11 = ioc
      ∧ hwoOf (mkNormal a len chn ioc isp).ctrl = true := by
  have hread := (ctrlWord_reads .normal (ctrlFlags false chn isp ioc)).2
  exact ⟨congrArg CtrlBits.chn hread, congrArg CtrlBits.ioc hread, congrArg CtrlBits.hwo hread⟩

/-- The pad fills the last packet. -/
theorem add_pad_eq_mul {m : Nat} (length : Nat) (hm : 0 < m) :
    length + (m - length % m) = (length / m + 1) * m := by
  have hsplit := Nat.div_add_mod' length m
  have hlt := Nat.mod_lt length hm
  rw [Nat.succ_mul]
  omega

/-- On an OUT endpoint the segments and the pad are whole packets, at least one. -/
theorem outBytes_eq_packets (ht : e.type = .bulk ∨ e.type = .interrupt) (hm : 0 < e.maxpacket.toNat)
    (hx : r.extra = needsExtra e r.length r.zero) (hout : isIn e.number = false) :
    ∃ k, 0 < k ∧ k * e.maxpacket.toNat =
      r.length + (if r.extra = .none then 0 else bufSiz (descAt cfg e r r.segs.length).size) := by
  rw [needsExtra_out ht hout] at hx
  by_cases hpad : r.length = 0 ∨ r.length % e.maxpacket.toNat ≠ 0
  · have hextra : r.extra = .pad := by rw [hx, if_pos hpad]
    have hsize : e.maxpacket.toNat - r.length % e.maxpacket.toNat < 2 ^ 24 := by
      have := e.maxpacket.isLt
      omega
    refine ⟨r.length / e.maxpacket.toNat + 1, Nat.succ_pos _, ?_⟩
    rw [descAt_extra ht (by simp [hextra])]
    simp only [hextra, reduceCtorEq, if_false]
    rw [bufSiz_mkNormal _ _ _ _ hsize, add_pad_eq_mul _ hm]
  · obtain ⟨hpos, hwhole⟩ : 0 < r.length ∧ r.length % e.maxpacket.toNat = 0 := by omega
    have hdvd := Nat.dvd_of_mod_eq_zero hwhole
    refine ⟨r.length / e.maxpacket.toNat, Nat.div_pos (Nat.le_of_dvd hpos hdvd) hm, ?_⟩
    rw [if_pos (by rw [hx, if_neg hpad]), Nat.div_mul_cancel hdvd, Nat.add_zero]

/-- Settles O56: on OUT by the division of the length by the packet size; what the extra descriptor is, by R288. -/
theorem outBuffersAreWholePackets : Obligations.OutBuffersAreWholePackets := by
  intro cfg e r ht hm hx
  refine ⟨fun heven => ?out, fun hodd => ?inward, fun h => ?last⟩
  case out => exact outBytes_eq_packets ht hm hx (by simp [isIn, heven])
  case inward =>
    rw [needsExtra_in ht (by simp [isIn, hodd])] at hx
    refine ⟨by rw [hx]; simp, fun hzlp => ?_⟩
    rw [descAt_extra ht (by simp [hzlp]), if_pos hzlp]
    exact bufSiz_mkNormal _ _ _ _ (by decide)
  case last =>
    rw [descAt_extra ht h]
    exact ⟨quadOf_quadLow_quadHigh _, mkNormal_ctrl ..⟩

/-! ## Cancelling (R302, R303) -/

/-- A request of the pending queue is completed, whatever the endpoint's transfer does (R303). -/
theorem cancelRing_pending (he : s.ep n = some e) (hr : s.req r.id = some r) (hn : r.ep = n)
    (hp : r.id ∈ e.pending) : cancelRing n r.id s = complete r .cancelled s := by
  simp [cancelRing, he, hr, hn, hp]

end

/-- Settles O57: the cancel is the completion of R299, which reports a `USER` request. -/
theorem cancelPendingAtOnce : Obligations.CancelPendingAtOnce := by
  intro s n e r he hr hn hp huser
  rw [cancelRing_pending he hr hn hp, complete_run (hn ▸ he), hn, State.reported_user _ huser, State.modEp_some he]

end Sys2Proof.Machine
end

section
/-!
PROOFS. The end of the IN data stage while the status is delayed (R334, R339, R342): the account of an unbounced
stage, its report, and the wait for the upstream's `resume_status`.
-/

namespace Sys2Proof.Machine

section
variable {s t : State} {n : EpNum} {e : Endpoint} {r : Request} {st : BitVec 4}

/-- A data stage whose descriptor covers the request exactly moved what the silicon did not leave (R339). -/
theorem dataActual_self (length rem : Nat) : dataActual length length rem = length - min rem length :=
  Nat.min_eq_right (Nat.sub_le ..)

/-- Without a bus error a data stage is short or whole (R339). -/
theorem dataOutcome_of_not_busErr (h : busErr st = false) (length actual : Nat) :
    dataOutcome st length actual = if actual < length then .short else .ok := by
  rw [dataOutcome, h]
  rfl

/-- What the end of a data stage does (R334). -/
theorem stageDone_user (hk : r.kind = .user) (rem : Nat) (st : BitVec 4) :
    stageDone r rem st = ep0DataDone r rem st := by
  rw [stageDone, hk]

/-- The end of a data stage, its record already retired, is reported with its bytes, and its request is gone
(R299, R339). -/
theorem complete_dataStage (h : StageDone s n e r) (hk : r.kind = .user) (ht : t.ep n = some e.stageRetired)
    (oc : Outcome) (actual : Nat) :
    complete { r with actual := actual } oc t = .ok () ((t.note (.complete r.id oc actual)).delReq r.id) := by
  have hn := h.ofEp
  subst hn
  rw [complete_run (r := { r with actual := actual }) ht, h.without_stageRetired, State.setEp_same ht,
    State.reported_user (r := { r with actual := actual }) _ hk]

/-- `ep0_data_done` of a stage that was not bounced and met no bus error, while the status is delayed: no byte is
copied and no status stage is posted (R339, R342). -/
theorem ep0DataDone_delayed (h : StageDone s n e r) (hk : r.kind = .user) (ht : t.ep n = some e.stageRetired)
    (hbus : busErr st = false) (hbounce : t.ep0.bounce = false) (hdelayed : t.ep0.delayed = true) (rem : Nat) :
    ep0DataDone r rem st t = .ok () (
      let actual := r.length - min rem r.length
      ((t.delReq r.id).note (.complete r.id (if actual < r.length then .short else .ok) actual)).modEp0 fun c =>
        { c with dataReq := none, bounce := false, state := .statusPhase }) := by
  have hreport := fun actual oc => complete_dataStage (oc := oc) (actual := actual)
    (t := (t.modReq r.id fun q => { q with actual := actual }).modEp0 fun c =>
      { c with dataReq := none, bounce := false })
    h hk ht
  simp only [ep0DataDone, bind_run, getEp0_run, modReq_run, modEp0_run, pure_run, hbounce, hdelayed, hbus, hreport,
    Bool.false_eq_true, if_false, if_true, dataActual_self, dataOutcome_of_not_busErr hbus]
  rw [← State.modReq_delReq t r.id (f := fun q => { q with actual := r.length - min rem r.length }) fun _ => rfl]
  rfl

end

/-- Settles O41: the stage is retired, and its end is that of a data stage whose status is delayed. -/
theorem delayedDataStageCompletes : Obligations.DelayedDataStageCompletes := by
  intro f s e r h hk hbus hbounce hdelayed
  refine toOutcome_ok ?_
  rw [ep0Event_some (by exact h.record), ep0XferComplete_done h, stageDone_user hk]
  exact ep0DataDone_delayed h hk (State.setEp_ep_self ..) hbus hbounce hdelayed _

end Sys2Proof.Machine
end

section
/-!
PROOFS. The cached link state: which instructions may write it (R370), and what one poll of a link request's wait
finds in it (R375 to R377).
-/

namespace Sys2Proof.Machine

/-! ## The link record under an instruction -/

/-- Only `linkChange` among an instruction's primitive updates writes the link record, and it is not one of the
`Stable` ones. -/
theorem stable_link : Stable fun s t => t.link = s.link where
  refl _ := rfl
  trans _ _ _ h k := k.trans h
  tick := tickState_link
  reg _ _ _ := rfl
  word _ _ _ := rfl
  byte _ _ _ := rfl
  ep s n f _ := State.modEp_link s n f
  epNone _ _ := rfl
  epNew _ _ _ _ _ := rfl
  req _ _ _ := rfl
  addReq _ _ := rfl
  delReq _ _ := rfl
  note _ _ := rfl
  ep0 _ _ := rfl
  role _ := rfl
  dev _ _ _ := rfl
  env _ _ _ := rfl
  ret _ _ := rfl
  fault s f := State.stopHolder_link (s.addFault f)

/-- Settles O22: every primitive update of the other instructions leaves the link record. -/
theorem linkOnlyByLinkChange : Obligations.LinkOnlyByLinkChange :=
  fun _ _ _ hi ht => exec_keeps_of_ne_linkChange stable_link hi ht

/-! ## One poll of the wait -/

section
variable {s : State} {w : Waiter}

/-- The device role is gone (R376). -/
theorem waitResult_of_not_running (hrun : s.dev.running = false) :
    waitResult s w = some (.err (.linkMismatch none)) :=
  if_pos hrun

/-- The wanted state is reached (R376). -/
theorem waitResult_of_wanted (hrun : s.dev.running = true) (hst : s.link.state = some (wanted w.target)) :
    waitResult s w = some .ok := by
  rw [waitResult, if_neg (by simp [hrun]), if_pos hst]

/-- The link has changed since the request, to a terminal state that is not the wanted one (R377). -/
theorem waitResult_of_terminal {st : LinkState} (hrun : s.dev.running = true) (hst : s.link.state = some st)
    (hne : st ≠ wanted w.target) (hseq : s.link.seq ≠ w.seq0) (hterm : terminal st = true) :
    waitResult s w = some (.err (.linkMismatch (some st))) := by
  rw [waitResult, if_neg (by simp [hrun]), hst, if_neg (by simpa using hne)]
  exact if_pos ⟨hseq, hterm⟩

/-- No outcome yet: the wait goes on, unless this was its last poll (R376). -/
theorem waitResult_of_undecided (hrun : s.dev.running = true) (hne : s.link.state ≠ some (wanted w.target))
    (hno : ∀ st, s.link.state = some st → s.link.seq = w.seq0 ∨ terminal st = false) :
    waitResult s w = if w.left ≤ 1 then some (.err .linkTimeout) else none := by
  rw [waitResult, if_neg (by simp [hrun]), if_neg hne]
  cases hst : s.link.state with
  | none => rfl
  | some st =>
    refine if_neg fun ⟨hseq, hterm⟩ => ?_
    obtain hsame | hnot := hno st hst
    · exact hseq hsame
    · simp [hterm] at hnot

end

/-- Settles O59: the four findings of a poll, in the order of R376. -/
theorem linkWaitResult : Obligations.LinkWaitResult := by
  intro s w
  refine ⟨waitResult_of_not_running, fun hrun => ⟨?_, ?_, waitResult_of_undecided hrun⟩⟩
  · rintro st hst rfl
    exact waitResult_of_wanted hrun hst
  · exact fun _ => waitResult_of_terminal hrun

end Sys2Proof.Machine
end

section
/-!
PROOFS. Which operations raise no error (R453): between the moment the device core runs and the moment the role is
the device role, an early end is a model fault or stops the machine.
-/

namespace Sys2Proof.Machine

/-! ## How an operation ends -/

/-- An early end whose state is the machine's next one: a raised error (R453) or a model fault (R462). -/
def Exit.IsNext (x : Exit) : Prop := (∃ e, x = .raised e) ∨ x = .halted

/-- From a state of `P` the operation ends in `Q`, and where it ends early with a next state, that one is of `E`. -/
def Ends {α : Type} (P : State → Prop) (m : M α) (Q : α → State → Prop) (E : State → Prop) : Prop :=
  ∀ s, P s → match m s with
    | .ok a t => Q a t
    | .error x t => x.IsNext → E t

namespace Ends

variable {α β : Type} {P P' E : State → Prop} {Q : α → State → Prop} {m : M α}

theorem pure {a : α} (h : ∀ s, P s → Q a s) : Ends P (pure a) Q E := h

theorem upd {f : State → State} {Q : Unit → State → Prop} (h : ∀ s, P s → Q () (f s)) : Ends P (upd f) Q E := h

theorem get : Ends P (get : M State) (fun a s => a = s ∧ P s) E := fun _ hs => ⟨rfl, hs⟩

theorem bind {f : α → M β} {S : β → State → Prop} (hm : Ends P m Q E) (hf : ∀ a, Ends (Q a) (f a) S E) :
    Ends P (m >>= f) S E := by
  intro s hs
  have h := hm s hs
  rw [bind_run]
  rcases hr : m s with ⟨a, t⟩ | ⟨x, t⟩ <;> rw [hr] at h
  · exact hf a t h
  · exact h

theorem ite {c : Prop} [Decidable c] {m' : M α} (h : c → Ends P m Q E) (h' : ¬c → Ends P m' Q E) :
    Ends P (if c then m else m') Q E := by
  split
  · exact h ‹c›
  · exact h' ‹¬c›

theorem of_imp (h : Ends P m Q E) (hP : ∀ s, P' s → P s) : Ends P' m Q E := fun s hs => h s (hP s hs)

/-- An operation that keeps a relation stays in what the relation carries on, however it ends. -/
theorem of_keeps {R : State → State → Prop} (hm : Keeps R m) (hP : ∀ s t, R s t → P s → P t) (hE : ∀ s, P s → E s) :
    Ends P m (fun _ => P) E := by
  intro s hs
  have h := hm s
  rcases hr : m s with ⟨a, t⟩ | ⟨x, t⟩ <;> rw [hr] at h
  · exact hP s t h hs
  · exact fun _ => hE t (hP s t h.2 hs)

theorem toOutcome {m : M Unit} {Q : Unit → State → Prop} {s t : State} (h : Ends P m Q E) (hQ : ∀ u, Q () u → E u)
    (hs : P s) (ht : toOutcome m s = .next t) : E t := by
  have h := h s hs
  rcases toOutcome_next_iff.1 ht with ht | ⟨e, ht⟩ | ht <;> rw [ht] at h
  · exact hQ t h
  · exact h (.inl ⟨e, rfl⟩)
  · exact h (.inr rfl)

end Ends

/-! ## The operations that raise no error -/

/-- The operation raises no error: where it ends early with a next state, a model fault is recorded. -/
def FaultOnly {α : Type} (m : M α) : Prop := Ends (fun _ => True) m (fun _ _ => True) fun t => ¬NoFault t

namespace FaultOnly

variable {α β : Type}

/-- An operation that raises no error and keeps a relation stays in what the relation carries on. -/
theorem ends {R : State → State → Prop} {P E : State → Prop} {m : M α} (h : FaultOnly m) (hm : Keeps R m)
    (hP : ∀ s t, R s t → P s → P t) (hE : ∀ s, ¬NoFault s → E s) : Ends P m (fun _ => P) E := by
  intro s hs
  have hk := hm s
  have hf := h s trivial
  rcases hr : m s with ⟨a, t⟩ | ⟨x, t⟩ <;> rw [hr] at hk hf
  · exact hP s t hk hs
  · exact fun hx => hE t (hf hx)

/-! The combinators and the primitives -/

theorem pure (a : α) : FaultOnly (pure a : M α) := Ends.pure fun _ h => h

theorem upd (f : State → State) : FaultOnly (upd f) := Ends.upd fun _ h => h

theorem get : FaultOnly (get : M State) := fun _ _ => trivial

theorem bind {m : M α} {f : α → M β} (hm : FaultOnly m) (hf : ∀ a, FaultOnly (f a)) : FaultOnly (m >>= f) :=
  Ends.bind hm hf

theorem ite {c : Prop} [Decidable c] {m m' : M α} (h : FaultOnly m) (h' : FaultOnly m') :
    FaultOnly (if c then m else m') := Ends.ite (fun _ => h) fun _ => h'

theorem throw_fault (f : Fault) : FaultOnly (throw (.fault f) : M α) := fun _ _ hx => by
  simp [Exit.IsNext] at hx

theorem throw_refused (r : Refusal) : FaultOnly (throw (.refused r) : M α) := fun _ _ hx => by
  simp [Exit.IsNext] at hx

theorem modelFault (f : ModelFault) : FaultOnly (modelFault f : M α) := by
  intro s _ _
  rw [NoFault, State.stopHolder_faults, State.addFault_faults]
  split
  · exact List.ne_nil_of_mem ‹_›
  · simp

theorem forEach {f : α → M Unit} (hf : ∀ a, FaultOnly (f a)) (l : List α) : FaultOnly (forEach l f) := by
  induction l with
  | nil => exact pure ()
  | cons a l ih => exact bind (hf a) fun _ => ih

theorem regRead (r : Reg) : FaultOnly (regRead r) :=
  bind (upd _) fun _ => ite (throw_refused _) (bind get fun _ => pure _)

theorem regWrite (r : Reg) (v : Word) : FaultOnly (regWrite r v) :=
  bind (upd _) fun _ => ite (throw_refused _) (ite (throw_refused _) (ite (upd _) (modelFault _)))

theorem access (a len : Nat) : FaultOnly (access a len) :=
  bind (upd _) fun _ => bind get fun _ => ite (pure _) (throw_fault _)

theorem memRead32 (a : Nat) : FaultOnly (memRead32 a) := bind (access a 4) fun _ => bind get fun _ => pure _

theorem memWrite32 (a : Nat) (w : Word) : FaultOnly (memWrite32 a w) := bind (access a 4) fun _ => upd _

theorem needEp (n : EpNum) : FaultOnly (needEp n) := by
  refine bind get fun s => ?_
  cases s.ep n with
  | none => exact modelFault _
  | some e => exact pure e

/-! The command engine -/

theorem precheckBusy (n : EpNum) : FaultOnly (precheckBusy n) :=
  bind (needEp n) fun _ => ite (bind (regRead _) fun _ => ite (pure _) (bind (upd _) fun _ => pure _)) (pure _)

theorem pollLoop (n : EpNum) (k : Nat) : FaultOnly (pollLoop n k) := by
  induction k with
  | zero => exact bind (upd _) fun _ => pure _
  | succ k ih => exact bind (regRead _) fun _ => ite ih (pure _)

theorem writeAndPoll (n : EpNum) (c : Cmd) : FaultOnly (writeAndPoll n c) :=
  ite (bind (regWrite _ _) fun _ => bind (regWrite _ _) fun _ => bind (regWrite _ _) fun _ => bind (pure ()) fun _ =>
    bind (regWrite _ _) fun _ => pollLoop n _) (modelFault _)

theorem issue (n : EpNum) (c : Cmd) : FaultOnly (issue n c) :=
  bind (precheckBusy n) fun _ => ite (pure _) (writeAndPoll n c)

theorem attempts (n : EpNum) (c : Cmd) (k : Nat) : FaultOnly (attempts n c k) := by
  induction k with
  | zero => exact issue n c
  | succ k ih => exact bind (issue n c) fun _ => ite (pure _) ih

theorem cmdStarttransfer (n : EpNum) (i : Slot) (frame : BitVec 16) : FaultOnly (cmdStarttransfer n i frame) := by
  refine bind get fun _ => bind (attempts n _ _) fun r => ?_
  cases r with
  | ok rb => exact bind (upd _) fun _ => pure _
  | err e => exact pure _

/-! The ring manager -/

theorem fillAt (a : Nat) (d : Desc) : FaultOnly (fillAt a d) :=
  ite (bind (memWrite32 _ _) fun _ => bind (memWrite32 _ _) fun _ => bind (memWrite32 _ _) fun _ => memWrite32 _ _)
    (modelFault _)

theorem fillDesc (n : EpNum) (d : Desc) : FaultOnly (fillDesc n d) :=
  bind (needEp n) fun _ => bind get fun _ => bind (memRead32 _) fun _ =>
    ite (modelFault _) (bind (fillAt _ d) fun _ => pure _)

theorem writeDesc (n : EpNum) (d : Desc) : FaultOnly (writeDesc n d) :=
  bind (fillDesc n d) fun _ => bind (bind (pure ()) fun _ => memWrite32 _ _) fun _ => upd _

theorem reclaim (n : EpNum) (i : Slot) : FaultOnly (reclaim n i) :=
  bind get fun _ => bind (memRead32 _) fun _ => ite (memWrite32 _ _) (modelFault _)

theorem releaseRing (n : EpNum) : FaultOnly (releaseRing n) :=
  bind (needEp n) fun _ => bind (forEach (reclaim n) _) fun _ => upd _

/-! EP0, the link and the pullup -/

theorem ep0Put (n : EpNum) (e : Endpoint) (r : Request) (d : Desc) : FaultOnly (ep0Put n e r d) :=
  bind (upd _) fun _ => bind (writeDesc n d) fun _ => upd _

theorem ep0Post (n : EpNum) (r : Request) (d : Desc) : FaultOnly (ep0Post n r d) := by
  refine bind (needEp n) fun e => bind (ep0Put n e r d) fun _ => bind (pure ()) fun _ =>
    bind (cmdStarttransfer n _ _) fun q => ?_
  cases q with
  | ok rb => exact pure _
  | err x => exact bind (releaseRing n) fun _ => bind (upd _) fun _ => bind (upd _) fun _ => pure _

theorem armSetup : FaultOnly armSetup := by
  refine bind (upd _) fun _ => bind get fun _ => bind (ep0Post _ _ _) fun q => ?_
  cases q with
  | ok rb => exact upd _
  | err x => exact bind (upd _) fun _ => upd _

theorem linkInit : FaultOnly linkInit := bind (regRead _) fun _ => upd _

theorem setRunstop (v : Bool) : FaultOnly (setRunstop v) :=
  bind (regRead _) fun _ => bind (regWrite _ _) fun _ => upd _

end FaultOnly

end Sys2Proof.Machine
end

section
/-!
PROOFS. The two roles exclude each other (R395, R396, R404): only the role switch and the removal touch who runs and
who is the current role, and each of their stages is a claim about how it ends.
-/

namespace Sys2Proof.Machine

/-! ## What the other turns leave -/

/-- The current role, whether the device core and the host child run, and where the role switch stands, all kept. -/
structure SameRoles (s t : State) : Prop where
  otgCur : t.role.otgCur = s.role.otgCur
  running : t.dev.running = s.dev.running
  hcRunning : t.si.hcRunning = s.si.hcRunning
  rt : t.run.rt = s.run.rt

theorem SameControl.sameRoles {s t : State} (h : SameControl s t) : SameRoles s t := by
  obtain ⟨-, -, hotg, -, hrun, hrt, -, -, -, -, -, -, hhc⟩ := h
  exact ⟨hotg, hrun, hhc, hrt⟩

namespace SameRoles

/-- An update that leaves the four fields. -/
theorem of_same {s t : State} (hcur : t.role.otgCur = s.role.otgCur := by exact rfl)
    (hdev : t.dev.running = s.dev.running := by exact rfl) (hhc : t.si.hcRunning = s.si.hcRunning := by exact rfl)
    (hrt : t.run.rt = s.run.rt := by exact rfl) : SameRoles s t := ⟨hcur, hdev, hhc, hrt⟩

/-- Every primitive update of a turn but the role switch's and the removal's keeps the roles. -/
theorem stableTurn : StableTurn SameRoles where
  refl _ := of_same
  trans _ _ _ h k :=
    ⟨k.otgCur.trans h.otgCur, k.running.trans h.running, k.hcRunning.trans h.hcRunning, k.rt.trans h.rt⟩
  tick s := (SameControl.of_tick s).sameRoles
  reg _ _ _ := of_same
  word _ _ _ := of_same
  byte _ _ _ := of_same
  ep s n f hf := (SameControl.stable.ep s n f hf).sameRoles
  epNone _ _ := of_same
  epNew _ _ _ _ _ := of_same
  req _ _ _ := of_same
  addReq _ _ := of_same
  delReq _ _ := of_same
  note _ _ := of_same
  ep0 _ _ := of_same
  role _ := of_same
  dev s _ hf := of_same (hdev := hf s.dev)
  env _ _ _ := of_same
  ret _ _ := of_same
  fault s f := (SameControl.stable.fault s f).sameRoles
  link _ _ := of_same
  signals _ _ _ := of_same
  run s _ hf := of_same (hrt := hf s.run)
  lock _ _ := of_same
  envAny _ _ := of_same
  queue _ _ := of_same
  wedge _ _ _ := of_same (by simp) (by simp) (by simp) (by simp)
  envStep s e := by
    obtain ⟨-, -, -, hrt, -, -, -, hhc⟩ := envStep_cursor s e
    exact of_same (by simp) (by simp) hhc hrt
  wpos _ _ := of_same
  evbuf _ _ _ := of_same

theorem stable : Stable SameRoles := stableTurn.toStable

end SameRoles

/-! ## The stages that leave the roles -/

/-- The operation leaves the roles as they are, however it ends. -/
abbrev KeepsRoles {α : Type} (m : M α) : Prop := Keeps SameRoles m

namespace KeepsRoles

open SameRoles (stable stableTurn)

variable {α β : Type}

theorem bind {m : M α} {f : α → M β} (hm : KeepsRoles m) (hf : ∀ a, KeepsRoles (f a)) : KeepsRoles (m >>= f) :=
  keeps_bind stable hm hf

theorem pure (a : α) : KeepsRoles (pure a : M α) := keeps_pure stable a

theorem regWrite {r : Reg} (v : Word) (ho : Reg.isOpaque r = false := by rfl) (hr : Reg.isReadOnly r = false := by rfl) :
    KeepsRoles (regWrite r v) := keeps_regWrite stable r v ho hr

theorem regRMW {n : Nat} {r : Reg} (lo : Nat) (v : BitVec n) (ho : Reg.isOpaque r = false := by rfl)
    (hr : Reg.isReadOnly r = false := by rfl) : KeepsRoles (regRMW r lo v) := keeps_regRMW stable r lo v ho hr

theorem modEp (n : EpNum) {f : Endpoint → Endpoint} (hf : EpWrite f) : KeepsRoles (modEp n f) := keeps_modEp stable hf

theorem evbufSetup : KeepsRoles evbufSetup := by
  refine bind (keeps_getCfg stable) fun _ => bind (regWrite _) fun _ => bind (regWrite _) fun _ =>
    bind (regWrite _) fun _ => bind (keeps_regRead stable _ rfl) fun _ => ?_
  refine keeps_ite (bind (regWrite _) fun _ => ?_) ?_
  all_goals exact bind (keeps_upd fun _ => .of_same) fun _ => regWrite _

theorem devConfig : KeepsRoles devConfig :=
  bind (regRMW _ _) fun _ => bind (keeps_getCfg stable) fun _ => bind (regRMW _ _) fun _ => bind (regWrite _) fun _ =>
    bind (regWrite _) fun _ => keeps_upd fun _ => .of_same

theorem evbufDisable : KeepsRoles evbufDisable :=
  bind (regRMW _ _) fun _ => keeps_upd fun _ => .of_same

theorem undoEp (n : EpNum) : KeepsRoles (undoEp n) := by
  refine bind (keeps_getEp stable n) fun o => ?_
  cases o with
  | none => exact pure _
  | some _ => exact bind (keeps_releaseRing stable n) fun _ => keeps_upd fun _ => .of_same

theorem teardownEp (n : EpNum) : KeepsRoles (teardownEp n) := by
  refine bind (keeps_getEp stable n) fun o => ?_
  cases o with
  | none => exact pure _
  | some e =>
    have hflush (l : List ReqId) : KeepsRoles (do
        Machine.modEp n fun e => { e with endPending := false }
        moveToCancelled n l .shutdown
        finishEndTransfer n .shutdown) :=
      bind (modEp n fun _ => ⟨rfl, fun w => w⟩) fun _ => bind (keeps_moveToCancelled stable n _ _) fun _ =>
        keeps_finishEndTransfer stable n _
    refine bind (modEp n fun _ => ⟨rfl, fun w => w⟩) fun _ => keeps_ite ?_ (hflush _)
    refine bind (keeps_endTransferOf stable n false) fun q => ?_
    cases q with
    | ok rb => exact hflush _
    | err x => exact bind (keeps_notifyErr stable n x) fun _ => hflush _

theorem hostWrite (w : HostStep) : KeepsRoles (hostWrite w) := by
  refine bind (keeps_tick stable) fun _ => keeps_upd fun s => ?_
  cases w with
  | reg off v =>
    dsimp only
    split
    · exact stable.refl s
    · split
      · exact stable.refl s
      · exact stable.reg s _ _
  | mem a b =>
    dsimp only
    split
    · exact stable.byte s a b
    · exact stable.refl s

theorem hostTurn : KeepsRoles hostTurn := by
  refine bind (keeps_get stable) fun s => ?_
  cases s.env.hostSteps with
  | nil => exact pure _
  | cons ws rest => exact bind (keeps_upd fun _ => .of_same) fun _ => keeps_forEach stable hostWrite ws

theorem setDirection (target : OtgRole) : KeepsRoles (setDirection target) := by
  have hwrite (code : BitVec 2) (dir : DrRole) : KeepsRoles (writeDirection code dir) :=
    bind (keeps_upd fun _ => .of_same) fun _ => bind (regRMW _ _) fun _ =>
      keeps_upd fun _ => .of_same
  cases target with
  | idle => exact pure _
  | host => exact hwrite 1 .host
  | device => exact hwrite 2 .device

end KeepsRoles

/-! ## Where the role switch can stand -/

/-- R404: a state that a step may leave, the roles exclusive or a model fault recorded. -/
def Excused (s : State) : Prop := NoFault s → RolesExclusive s

/-- No role is current, and what runs is what the role `r` starts; nothing, for `IDLE`. -/
def Entering (r : OtgRole) (s : State) : Prop :=
  s.role.otgCur = .idle ∧ (s.dev.running = true → r = .device) ∧ (s.si.hcRunning = true → r = .host)

/-- The roles are exclusive, and the current one is `r`. -/
def Holding (r : OtgRole) (s : State) : Prop := RolesExclusive s ∧ s.role.otgCur = r

/-- The roles are exclusive, and neither runs. -/
def Stopped (s : State) : Prop := RolesExclusive s ∧ s.dev.running = false ∧ s.si.hcRunning = false

theorem RolesExclusive.of_sameRoles {s t : State} (h : SameRoles s t) (hs : RolesExclusive s) : RolesExclusive t := by
  simpa only [RolesExclusive, h.otgCur, h.running, h.hcRunning, h.rt] using hs

theorem Entering.of_sameRoles {r : OtgRole} {s t : State} (h : SameRoles s t) (hs : Entering r s) : Entering r t := by
  simpa only [Entering, h.otgCur, h.running, h.hcRunning] using hs

/-- Where nothing runs and no role is current, the roles are exclusive wherever the role switch stands. -/
theorem Entering.exclusive {s : State} (h : Entering .idle s) : RolesExclusive s := by
  obtain ⟨hidle, hdev, hhc⟩ := h
  exact ⟨fun hr => (nomatch hdev hr), fun hr => (nomatch hhc hr), fun _ => hidle⟩

/-- Between a stop and the next start there is no role, so nothing runs. -/
theorem RolesExclusive.entering {s : State} (h : RolesExclusive s) (hrt : s.run.rt = .afterStop) : Entering .idle s := by
  obtain ⟨hdev, hhc, hidle⟩ := h
  have hcur := hidle hrt
  exact ⟨hcur, fun hr => hcur.symm.trans (hdev hr) ▸ rfl, fun hr => hcur.symm.trans (hhc hr) ▸ rfl⟩

/-- Without the device role the device core does not run (R404). -/
theorem RolesExclusive.running_eq_false {s : State} (h : RolesExclusive s) (hne : s.role.otgCur ≠ .device) :
    s.dev.running = false := by
  obtain ⟨hdev, -, -⟩ := h
  exact Bool.eq_false_iff.2 fun hr => hne (hdev hr)

/-- Without the host role the host child does not run (R404). -/
theorem RolesExclusive.hcRunning_eq_false {s : State} (h : RolesExclusive s) (hne : s.role.otgCur ≠ .host) :
    s.si.hcRunning = false := by
  obtain ⟨-, hhc, -⟩ := h
  exact Bool.eq_false_iff.2 fun hr => hne (hhc hr)

/-- What a stage that leaves the roles carries on: a condition on them that makes them exclusive. -/
structure Steady (P : State → Prop) : Prop where
  same : ∀ s t, SameRoles s t → P s → P t
  exclusive : ∀ s, P s → RolesExclusive s

namespace Steady

theorem entering : Steady (Entering .idle) where
  same _ _ := Entering.of_sameRoles
  exclusive _ := Entering.exclusive

theorem holding (r : OtgRole) : Steady (Holding r) where
  same _ _ h := fun ⟨hs, hr⟩ => ⟨hs.of_sameRoles h, h.otgCur.trans hr⟩
  exclusive _ := fun ⟨hs, _⟩ => hs

theorem stopped : Steady Stopped where
  same _ _ h := fun ⟨hs, hdev, hhc⟩ => ⟨hs.of_sameRoles h, h.running.trans hdev, h.hcRunning.trans hhc⟩
  exclusive _ := fun ⟨hs, _⟩ => hs

variable {α : Type} {P : State → Prop}

theorem ends (h : Steady P) {m : M α} (hm : KeepsRoles m) : Ends P m (fun _ => P) Excused :=
  Ends.of_keeps hm h.same fun s hs _ => h.exclusive s hs

end Steady

/-- While a role's core already runs, a stage must raise no error to stay exclusive. -/
theorem Entering.ends {α : Type} {m : M α} (r : OtgRole) (hm : KeepsRoles m) (hf : FaultOnly m) :
    Ends (Entering r) m (fun _ => Entering r) Excused :=
  hf.ends hm (fun _ _ => Entering.of_sameRoles) fun _ hs hn => absurd hn hs

/-! ## Stopping a role (R396) -/

theorem deviceStop_ends : Ends (Holding .device) deviceStop (fun _ => Stopped) Excused := by
  have hhc {s : State} (h : Holding .device s) : s.si.hcRunning = false :=
    h.1.hcRunning_eq_false (by simp [h.2])
  have keep {α : Type} {m : M α} (hm : KeepsRoles m) := (Steady.holding .device).ends hm
  have hstable := SameRoles.stable
  refine Ends.bind Ends.get fun s => Ends.ite (fun hrun => ?_) fun hrun => Ends.pure ?_
  · refine Ends.of_imp (P := Holding .device) ?_ fun _ ⟨_, ht⟩ => ht
    refine Ends.bind (keep (keeps_setRunstop SameRoles.stableTurn false)) fun _ => ?_
    refine Ends.bind (keep (keeps_forEach hstable KeepsRoles.teardownEp _)) fun _ => ?_
    refine Ends.bind (keep (keeps_ep0Stop hstable .shutdown)) fun _ => ?_
    refine Ends.bind (keep (keeps_modEp0 hstable _)) fun _ => ?_
    refine Ends.bind (keep (KeepsRoles.regWrite 0)) fun _ => ?_
    refine Ends.bind (keep (keeps_upd fun s => hstable.epNone s 0)) fun _ => ?_
    refine Ends.bind (keep (keeps_upd fun s => hstable.epNone s 1)) fun _ => ?_
    refine Ends.bind (Ends.upd fun t ht => ?_) fun _ => Steady.stopped.ends KeepsRoles.evbufDisable
    have hstopped := hhc ht
    obtain ⟨⟨-, hhost, hidle⟩, -⟩ := ht
    exact ⟨⟨nofun, hhost, hidle⟩, rfl, hstopped⟩
  · rintro t ⟨rfl, ht⟩
    exact ⟨ht.1, Bool.eq_false_iff.2 hrun, hhc ht⟩

theorem hcStop_ends : Ends (Holding .host) hcStop (fun _ => Stopped) Excused := by
  refine Ends.bind ((Steady.holding .host).ends KeepsRoles.hostTurn) fun _ => Ends.upd fun s hs => ?_
  have hdev := hs.1.running_eq_false (by simp [hs.2])
  obtain ⟨⟨hrun, -, hidle⟩, -⟩ := hs
  exact ⟨⟨hrun, nofun, hidle⟩, hdev, rfl⟩

theorem stopRole_ends (r : OtgRole) : Ends (Holding r) (stopRole r) (fun _ => Stopped) Excused := by
  cases r with
  | device => exact deviceStop_ends
  | host => exact hcStop_ends
  | idle =>
    exact Ends.pure fun s ⟨hs, hcur⟩ =>
      ⟨hs, hs.running_eq_false (by simp [hcur]), hs.hcRunning_eq_false (by simp [hcur])⟩

/-! ## Starting a role (R398) -/

/-- The role that a start leads to: `IDLE` after a failure. -/
def OtgRole.onlyIf (r : OtgRole) (ok : Bool) : OtgRole := if ok then r else .idle

theorem ep0Bringup_ends :
    Ends (Entering .idle) ep0Bringup (fun o => Entering (OtgRole.device.onlyIf o.isNone)) Excused := by
  have keep {α : Type} {m : M α} (hm : KeepsRoles m) := Steady.entering.ends hm
  have hturn := SameRoles.stableTurn
  have hstable := SameRoles.stable
  have hcmds : KeepsRoles (allOk [cmdDepstartcfg 0, cmdSetepconfig 0 .init, cmdSetepconfig 1 .init, cmdSetxferrsc 0,
      cmdSetxferrsc 1]) := by
    refine keeps_allOk hturn ?_
    simp only [List.forall_mem_cons, List.not_mem_nil, false_implies, implies_true, and_true]
    exact ⟨keeps_cmdDepstartcfg hstable 0, keeps_cmdSetepconfig hstable 0 _, keeps_cmdSetepconfig hstable 1 _,
      keeps_cmdSetxferrsc hstable 0, keeps_cmdSetxferrsc hstable 1⟩
  refine Ends.bind (keep (keeps_upd fun s => hstable.epNew s 0 _ _ _)) fun _ => ?_
  refine Ends.bind (keep (keeps_upd fun s => hstable.epNew s 1 _ _ _)) fun _ => ?_
  refine Ends.bind (keep (keeps_modEp0 hstable _)) fun _ => ?_
  refine Ends.bind (keep (keeps_ringInit hturn 0)) fun _ => ?_
  refine Ends.bind (keep (keeps_ringInit hturn 1)) fun _ => ?_
  refine Ends.bind (keep hcmds) fun o => ?_
  cases o with
  | some e => exact Ends.pure fun _ hs => hs
  | none =>
    refine Ends.bind (keep (KeepsRoles.regRMW 0 _)) fun _ => ?_
    refine Ends.bind (keep (KeepsRoles.regRMW 1 _)) fun _ => ?_
    refine Ends.bind (keep (KeepsRoles.modEp 0 fun _ => ⟨rfl, fun w => w⟩)) fun _ => ?_
    refine Ends.bind (keep (KeepsRoles.modEp 1 fun _ => ⟨rfl, fun w => w⟩)) fun _ => ?_
    refine Ends.bind (Ends.upd (Q := fun _ => Entering .device) fun s hs => ?_) fun _ => ?_
    · obtain ⟨hidle, -, hhc⟩ := hs
      exact ⟨hidle, fun _ => rfl, fun hr => nomatch hhc hr⟩
    · refine Ends.bind (Entering.ends .device (keeps_linkInit hturn) FaultOnly.linkInit) fun _ => ?_
      refine Ends.bind (Entering.ends .device (keeps_armSetup hstable) FaultOnly.armSetup) fun _ => ?_
      refine Ends.bind (Entering.ends .device (keeps_get hstable) FaultOnly.get) fun _ => ?_
      refine Ends.bind (Entering.ends .device (keeps_setRunstop hturn _) (FaultOnly.setRunstop _)) fun _ => ?_
      exact Ends.pure fun _ hs => hs

theorem deviceUndo_ends : Ends (Entering .idle) deviceUndo (fun _ => Entering .idle) Excused := by
  have keep {α : Type} {m : M α} (hm : KeepsRoles m) := Steady.entering.ends hm
  have hstable := SameRoles.stable
  refine Ends.bind (keep (KeepsRoles.regWrite 0)) fun _ => ?_
  refine Ends.bind (keep (keeps_forEach hstable KeepsRoles.undoEp _)) fun _ => ?_
  refine Ends.bind (keep (keeps_modEp0 hstable _)) fun _ => ?_
  refine Ends.bind (Ends.upd ?_) fun _ => keep KeepsRoles.evbufDisable
  rintro s ⟨hidle, -, hhc⟩
  exact ⟨hidle, nofun, hhc⟩

theorem deviceStart_ends :
    Ends (Entering .idle) deviceStart (fun o => Entering (OtgRole.device.onlyIf o.isNone)) Excused := by
  refine Ends.bind (Steady.entering.ends KeepsRoles.evbufSetup) fun _ => ?_
  refine Ends.bind (Steady.entering.ends KeepsRoles.devConfig) fun _ => ?_
  refine Ends.bind ep0Bringup_ends fun o => ?_
  cases o with
  | none => exact Ends.pure fun _ hs => hs
  | some e => exact Ends.bind deviceUndo_ends fun _ => Ends.pure fun _ hs => hs

theorem hcStart_ends (a : HostArgs) :
    Ends (Entering .idle) (hcStart a) (fun ok => Entering (OtgRole.host.onlyIf ok)) Excused := by
  have keep {α : Type} {m : M α} (hm : KeepsRoles m) := Steady.entering.ends hm
  refine Ends.bind (keep (keeps_upd fun _ => .of_same)) fun _ => ?_
  refine Ends.bind (keep KeepsRoles.hostTurn) fun _ => ?_
  refine Ends.bind (keep (keeps_drawHostAnswer SameRoles.stableTurn)) fun ok => ?_
  refine Ends.bind (Ends.upd (Q := fun _ => Entering (OtgRole.host.onlyIf ok)) ?_) fun _ => Ends.pure fun _ hs => hs
  rintro s ⟨hidle, hdev, -⟩
  exact ⟨hidle, fun hr => (nomatch hdev hr), fun hr => if_pos hr⟩

theorem startRole_ends (r : OtgRole) :
    Ends (Entering .idle) (startRole r) (fun ok => Entering (r.onlyIf ok)) Excused := by
  have hnote (c : Code) (i : Info) := Steady.entering.ends (keeps_notifyCode SameRoles.stable c i)
  cases r with
  | idle => exact Ends.pure fun _ hs => hs
  | device =>
    refine Ends.bind deviceStart_ends fun o => ?_
    cases o with
    | none => exact Ends.pure fun _ hs => hs
    | some e => exact Ends.bind (hnote _ _) fun _ => Ends.pure fun _ hs => hs
  | host =>
    refine Ends.bind (Steady.entering.ends (keeps_getCfg SameRoles.stable)) fun _ => ?_
    refine Ends.bind (hcStart_ends _) fun ok => ?_
    cases ok with
    | true => exact Ends.pure fun _ hs => hs
    | false => exact Ends.bind (hnote _ _) fun _ => Ends.pure fun _ hs => hs

/-! ## The role switch and the removal (R395, R504) -/

theorem endTask_ends : Ends RolesExclusive endTask (fun _ => RolesExclusive) Excused := by
  refine Ends.bind (Ends.upd ?_) fun _ => Ends.upd fun _ hs => hs
  rintro s ⟨hdev, hhc, -⟩
  exact ⟨hdev, hhc, nofun⟩

theorem phaseAB_ends : Ends RolesExclusive phaseAB (fun _ => RolesExclusive) Excused := by
  refine Ends.bind Ends.get fun s => Ends.ite (fun _ => endTask_ends.of_imp fun _ ⟨_, hs⟩ => hs) fun _ => ?_
  refine Ends.bind ((stopRole_ends s.role.otgCur).of_imp fun t ⟨ht, hs⟩ => ⟨hs, ht ▸ rfl⟩) fun _ => ?_
  refine Ends.bind (Ends.upd ?_) fun _ => Ends.upd fun _ ht => ht
  rintro t ⟨-, hdev, hhc⟩
  exact ⟨fun hr => absurd hr (by simp [hdev]), fun hr => absurd hr (by simp [hhc]), fun _ => rfl⟩

theorem phaseCD_ends : Ends (Entering .idle) phaseCD (fun _ => RolesExclusive) Excused := by
  refine Ends.bind (Steady.entering.ends (keeps_get SameRoles.stable)) fun s => ?_
  refine Ends.bind (Steady.entering.ends (KeepsRoles.setDirection _)) fun _ => ?_
  refine Ends.bind (startRole_ends s.role.otgDes) fun ok => ?_
  cases ok with
  | false => exact endTask_ends.of_imp fun _ => Entering.exclusive
  | true =>
    refine Ends.bind (Ends.upd ?_) fun _ => Ends.upd fun _ ht => ht
    rintro t ⟨-, hdev, hhc⟩
    exact ⟨hdev, hhc, nofun⟩

theorem rtTurn_ends : Ends RolesExclusive rtTurn (fun _ => RolesExclusive) Excused := by
  refine Ends.bind (Ends.upd (Q := fun _ => RolesExclusive) fun _ hs => hs) fun _ => Ends.bind Ends.get fun s => ?_
  cases hrt : s.run.rt with
  | idle => exact Ends.bind (Ends.upd fun _ ⟨_, hs⟩ => hs) fun _ => phaseAB_ends
  | afterStop => exact phaseCD_ends.of_imp fun t ⟨ht, hs⟩ => hs.entering (ht ▸ hrt)
  | afterStart => exact phaseAB_ends.of_imp fun _ ⟨_, hs⟩ => hs

theorem removeController_ends : Ends RolesExclusive removeController (fun _ => RolesExclusive) Excused := by
  refine Ends.bind (Ends.upd (Q := fun _ => RolesExclusive) fun _ hs => hs) fun _ => Ends.bind Ends.get fun s => ?_
  refine Ends.bind ((stopRole_ends s.role.otgCur).of_imp fun t ⟨ht, hs⟩ => ⟨hs, ht ▸ rfl⟩) fun _ => ?_
  exact Ends.bind (Ends.upd fun _ ⟨hs, _⟩ => hs) fun _ => Ends.upd fun _ hs => hs

/-! ## The step -/

/-- A turn of the role switch or of the platform: waiting, dropped, or run. -/
theorem turn_excused {a : Act} {rest : List Act} {s t : State} (hcall : actCall a = none)
    (ha : Ends RolesExclusive (plainAct a) (fun _ => RolesExclusive) Excused) (hs : RolesExclusive s)
    (ht : turn a rest s = .next t) : Excused t := by
  unfold turn at ht
  split at ht
  · cases ht
    exact fun _ => hs
  · split at ht
    · cases ht
      exact fun _ => hs
    · rw [hcall] at ht
      exact ha.toOutcome (fun _ hu _ => hu) (s := s.setAgenda rest) hs ht

theorem turn_rolesExclusive {a : Act} {rest : List Act} {s t : State} (hs : RolesExclusive s)
    (ht : turn a rest s = .next t) : Excused t := by
  by_cases hrt : a = .rt
  · subst hrt
    exact turn_excused (a := .rt) rfl rtTurn_ends hs ht
  · by_cases hrem : a = .remove
    · subst hrem
      exact turn_excused (a := .remove) rfl removeController_ends hs ht
    · exact fun _ => hs.of_sameRoles (turn_keeps_of_ne SameRoles.stableTurn hrt hrem rest s t ht)

/-- Settles O21: outside the role switch and the removal a step leaves the roles, and each of their stages ends with
the roles exclusive or a model fault recorded. -/
theorem stepKeepsRolesExclusive : Obligations.StepKeepsRolesExclusive := by
  intro s t hs ht
  unfold step at ht
  split at ht
  · cases ht
    exact fun _ => hs
  · split at ht
    · exact fun _ => hs.of_sameRoles (drainStep_keeps SameRoles.stableTurn s t ht)
    · split at ht
      · cases ht
        exact fun _ => hs
      · exact turn_rolesExclusive hs ht

end Sys2Proof.Machine
end

section
/-!
PROOFS. The arbiter's trigger (R391, R392), probe (R491 to R494), and the turn of the role switch that starts the host
role (R395, R397, R398).
-/

namespace Sys2Proof.Machine

/-! ## The trigger -/

/-- Settles O29: `triggered` is the update, the desired role of R391 written out. -/
theorem triggerResult : Obligations.TriggerResult := fun s =>
  ⟨desired s.cfg.drCaps s.role.sigId s.role.sigVbus, by cases h : s.cfg.drCaps <;> simp [desired], rfl⟩

/-! ## Probe -/

section
variable {cfg : Cfg} {regs : Regs} (mem : List Host.Cell)

/-- The configuration that probe leaves: the revision and the snapshot as the registers give them (R491). -/
def probedCfg (cfg : Cfg) (regs : Regs) : Cfg := { cfg with revision := regs.gsnpsid, hw := snapshot regs.ghwparams }

theorem probe_inval (h : checkAlloc cfg = false ∨ (snapshot regs.ghwparams).numEps < 2
    ∨ 32 < (snapshot regs.ghwparams).numEps) : probe cfg regs mem = .error .inval := by
  unfold probe
  obtain halloc | hnum := h
  · exact if_pos (.inl halloc)
  · dsimp only
    rw [if_pos hnum, ite_self]

theorem probe_ok (halloc : checkAlloc cfg = true) (hparams : paramsLegal cfg = true)
    (hmin : 2 ≤ (snapshot regs.ghwparams).numEps) (hmax : (snapshot regs.ghwparams).numEps ≤ 32) :
    probe cfg regs mem = .ok (triggered (State.init (probedCfg cfg regs) regs mem)) := by
  have hlegal : ¬(checkAlloc cfg = false ∨ paramsLegal cfg = false) := by simp [halloc, hparams]
  have hnum : ¬((snapshot regs.ghwparams).numEps < 2 ∨ 32 < (snapshot regs.ghwparams).numEps) := by omega
  exact (if_neg hlegal).trans (if_neg hnum)

/-- R494: from the reset values the trigger asks for a role, and queues a task for it, exactly in a single-role
configuration. -/
theorem triggered_init_role (cfg : Cfg) (regs : Regs) (mem : List Host.Cell) :
    (triggered (State.init cfg regs mem)).role.otgDes
        = (match cfg.drCaps with | .dualRole => .idle | .hostOnly => .host | .deviceOnly => .device)
      ∧ (triggered (State.init cfg regs mem)).role.task = if cfg.drCaps = .dualRole then .none else .queued := by
  cases h : cfg.drCaps <;> simp [triggered, State.init, desired, h]

end

/-- Settles O17: the refusals and the success of probe, and its run on the default configuration. -/
theorem probeResult : Obligations.ProbeResult := by
  refine ⟨fun cfg regs mem => ⟨probe_inval mem, fun halloc hparams hmin hmax => ?_⟩, ?_⟩
  · obtain ⟨hdes, htask⟩ := triggered_init_role (probedCfg cfg regs) regs mem
    exact ⟨_, probe_ok mem halloc hparams hmin hmax, rfl, rfl, rfl, rfl, rfl, hdes, htask⟩
  · rw [probe_ok [] (by decide +kernel) (by decide) (by decide) (by decide)]
    rfl

/-! ## The role switch's turn -/

section
variable {s : State} {rest : List Act}

/-- With the lock free, a role switch in the middle of its task steps (R395). -/
theorem step_eq_rtTurn (halive : s.run.alive = true) (hdrain : s.run.drain = false)
    (hstop : Agent.rt ∉ s.run.stopped) (hagenda : s.env.agenda = .rt :: rest) (hlock : s.lock = none)
    (hrt : s.run.rt ≠ .idle) : step s = toOutcome rtTurn (s.setAgenda rest) := by
  have henabled : actEnabled s .rt = true := by
    cases h : s.run.rt with
    | idle => exact absurd h hrt
    | afterStop | afterStart => simp [actEnabled, h]
  rw [step_eq_turn halive (by simp [hdrain]) hagenda]
  simp [turn, actAgent, hstop, henabled, hlock, callerWaiting, actCall, plainAct]

/-- After the stop, the turn is phases C and D (R395). -/
theorem rtTurn_afterStop (hrt : s.run.rt = .afterStop) : rtTurn s = phaseCD (s.setLock (some .rt)) := by
  simp [rtTurn, hrt]

/-- `GCTL.PRTCAPDIR` written 1, the host direction (R45, R397). -/
theorem setField_prtcapdir_host (w : Word) : setField w 12 (1 : BitVec 2) = (w &&& 0xFFFFCFFF#32) ||| 0x1000#32 := by
  simp [setField, place]

/-- The state in the host direction: believed and written (R397). -/
def State.hostDirected (s : State) : State :=
  (s.modRole fun r => { r with drDes := .host, drCur := .host }).setReg .gctl
    ((s.regs.gctl &&& 0xFFFFCFFF#32) ||| 0x1000#32)

theorem setDirection_host (q : s.env.sched = []) : setDirection .host s = .ok () s.hostDirected := by
  simp only [setDirection, writeDirection, bind_run, upd_run]
  rw [regRMW_quiet rfl rfl (by exact q) rfl, setField_prtcapdir_host]
  rfl

/-- The host child given its configuration, and its answer (R398, R403). -/
def State.hostAnswered (s : State) (ok : Bool) (more : List Bool) : State :=
  (s.modSi fun u => { u with hcArgs := some (hostArgs s.cfg), hcRunning := ok }).modEnv fun e =>
    { e with hostAnswers := more }

/-- A child that writes nothing answers, and the answer says whether it runs (R403). -/
theorem hcStart_quiet {ok : Bool} {more : List Bool} (hsteps : s.env.hostSteps = [])
    (hans : s.env.hostAnswers = ok :: more) : hcStart (hostArgs s.cfg) s = .ok ok (s.hostAnswered ok more) := by
  have hturn (t : State) (h : t.env.hostSteps = []) : hostTurn t = .ok () t := by simp [hostTurn, h]
  simp only [hcStart, bind_run, upd_run]
  rw [hturn _ (by exact hsteps)]
  simp only
  rw [drawHostAnswer_cons (by exact hans)]
  rfl

/-- R398, R399: a host start that fails is notified. -/
theorem startRole_host_failed {more : List Bool} (hsteps : s.env.hostSteps = [])
    (hans : s.env.hostAnswers = false :: more) :
    startRole .host s = .ok false ((s.hostAnswered false more).note (.code .hostStart .none)) := by
  simp only [startRole, bind_run, getCfg_run, hcStart_quiet hsteps hans]
  rfl

/-- The state after the task's end (R395). -/
def State.taskEnded (s : State) : State :=
  ((s.modRole fun r => { r with task := .none }).modRun fun u => { u with rt := .idle }).setLock none

theorem endTask_run (s : State) : endTask s = .ok () s.taskEnded := rfl

/-- R395, R399: phases C and D where the host role is wanted and its start fails. -/
theorem phaseCD_host_failed {more : List Bool} (q : s.env.sched = []) (hdes : s.role.otgDes = .host)
    (hsteps : s.env.hostSteps = []) (hans : s.env.hostAnswers = false :: more) :
    phaseCD s = .ok ()
      ((s.hostDirected.hostAnswered false more).note (.code .hostStart .none)).taskEnded := by
  simp only [phaseCD, bind_run, get_run, hdes, setDirection_host q]
  rw [startRole_host_failed (by exact hsteps) (by exact hans)]
  exact endTask_run _

end

/-- Settles O60: the step is the switch's second turn, whose start fails; the state it leaves is read off. -/
theorem hostStartFailureLeavesIdle : Obligations.HostStartFailureLeavesIdle := by
  intro s rest more halive hdrain hstop hagenda hlock q hrt hcur hdes hans hsteps
  have hturn := (rtTurn_afterStop (s := s.setAgenda rest) hrt).trans
    (phaseCD_host_failed (more := more) q hdes hsteps hans)
  refine ⟨_, (step_eq_rtTurn halive hdrain hstop hagenda hlock (by simp [hrt])).trans (toOutcome_ok hturn), ?_⟩
  exact ⟨hcur, rfl, rfl, rfl, rfl, rfl, rfl, rfl, rfl⟩

end Sys2Proof.Machine
end

section
/-!
PROOFS. The interrupt's entry (R465, R466, R469) and the upstream's queue under an instruction (R457).
-/

namespace Sys2Proof.Machine

/-! ## The interrupt's entry -/

section
variable {s : State}

/-- A single bit set (R11). -/
theorem setField_bit_one (x : Word) (i : Nat) : setField x i (1 : BitVec 1) = x ||| 1#32 <<< i := by
  have hmask : setField x i (1 : BitVec 1) = (x &&& ~~~(1#32 <<< i)) ||| 1#32 <<< i := by simp [setField, place]
  rw [hmask]
  ext j hj
  cases h : (1#32 <<< i)[j] <;> simp [h]

/-- With the reserved field 0, the core may write back `GEVNTSIZ` with `INTMASK` set (R46, R162). -/
theorem writable_masked {w : Word} (h : w.extractLsb' 16 15 = 0) : writable .gevntsiz (w ||| 0x80000000#32) = true := by
  simp only [writable]
  rw [BitVec.extractLsb'_or, h]
  rfl

/-- With `INTMASK` set, the interrupt is not asserted (R465). -/
theorem irq_masked {w : Word} (h : s.regs.gevntsiz = w ||| 0x80000000#32) : irq s = false := by
  rw [irq, h, bitAt_or, show bitAt 0x80000000#32 31 = true from rfl, Bool.or_true, Bool.not_true, Bool.and_false]

/-- The top half does not step while the interrupt is not asserted, or is already taken (R466). -/
theorem topHalf_of_no_entry (h : irq s = false ∨ s.evbuf.pending = true) : topHalf s = s :=
  if_pos (h.imp_right .inl)

/-- The top half's entry, where R162 allows the mask's write (R466). -/
theorem topHalf_entry (hirq : irq s = true) (hpending : s.evbuf.pending = false) (hstop : Agent.th ∉ s.run.stopped)
    (hreserved : s.regs.gevntsiz.extractLsb' 16 15 = 0) :
    topHalf s = (s.setReg .gevntsiz (s.regs.gevntsiz ||| 0x80000000#32)).modEvbuf
      fun b => { b with pending := true } := by
  have hsteps : ¬(irq s = false ∨ s.evbuf.pending = true ∨ Agent.th ∈ s.run.stopped) := by
    simp [hirq, hpending, hstop]
  have hmask : setField s.regs.gevntsiz 31 (1 : BitVec 1) = s.regs.gevntsiz ||| 0x80000000#32 :=
    setField_bit_one _ 31
  rw [topHalf, if_neg hsteps, hmask, if_pos (writable_masked hreserved)]

end

/-- Settles O12: the entry masks, so the interrupt is no longer asserted; in the other cases there is no entry. -/
theorem interruptEntry : Obligations.InterruptEntry := by
  intro s
  refine ⟨fun hirq hpending hstop hreserved => ?_, topHalf_of_no_entry⟩
  have hentry := topHalf_entry hirq hpending hstop hreserved
  exact ⟨hentry, (congrArg irq hentry).trans (irq_masked rfl)⟩

/-! ## The upstream's queue under an instruction -/

/-- Only `note` among an instruction's primitive updates writes the queue, and at its tail (R457). That the relation
is transitive carries this over an instruction that notifies several times. -/
theorem stable_upQueue_prefix : Stable fun s t => s.upQueue <+: t.upQueue where
  refl _ := List.prefix_rfl
  trans _ _ _ := List.IsPrefix.trans
  tick s := by rw [tickState_upQueue]
  reg _ _ _ := List.prefix_rfl
  word _ _ _ := List.prefix_rfl
  byte _ _ _ := List.prefix_rfl
  ep s n f _ := by rw [State.modEp_upQueue]
  epNone _ _ := List.prefix_rfl
  epNew _ _ _ _ _ := List.prefix_rfl
  req _ _ _ := List.prefix_rfl
  addReq _ _ := List.prefix_rfl
  delReq _ _ := List.prefix_rfl
  note s n := List.prefix_append s.upQueue [n]
  ep0 _ _ := List.prefix_rfl
  role _ := List.prefix_rfl
  dev _ _ _ := List.prefix_rfl
  env _ _ _ := List.prefix_rfl
  ret _ _ := List.prefix_rfl
  fault s f := by rw [State.stopHolder_upQueue, State.addFault_upQueue]

/-- Settles O24: no primitive update takes from the queue, and `LINK_CHANGE`'s write of the link leaves it. -/
theorem notificationsOnlyAppended : Obligations.NotificationsOnlyAppended := by
  intro i s t ht
  obtain ⟨l, hl⟩ := exec_keeps stable_upQueue_prefix (fun _ _ => List.prefix_rfl) i ht
  exact ⟨l, hl.symm⟩

end Sys2Proof.Machine
end
